-- ==== Sys2Proof/Word.lean ====
section
/-! DEFINITION. The words of the block and the RGB triple. -/

namespace Sys2Proof

/-- One command word, one response, one packed pin word (a packed word of `WordBits` bits keeps its
upper bits zero): 30_encoding.md R121, 42_row_encoder.md R196. -/
abbrev Word := BitVec 32

/-- A `u8`. -/
abbrev Byte := BitVec 8

/-- A `u16` (an `i16` where a rule says the value is signed). -/
abbrev Half := BitVec 16

/-- An RGB triple (10_state.md R46). A `uN` channel of an instance with `N < 16` keeps its upper bits
zero; DRAWCOLOR (R48) uses all sixteen. -/
structure Rgb where
  r : Half
  g : Half
  b : Half
  deriving DecidableEq, Repr

/-- Black, the value under the bottom layer (43_compositor.md R243). -/
def Rgb.black : Rgb := ⟨0, 0, 0⟩

/-- One entry of the timing table (10_state.md R50). -/
structure TimingPair where
  period : Half
  onTime : Half
  deriving DecidableEq, Repr

end Sys2Proof
end

