-- ==== Sys2Proof/Config.lean ====
section
/-! DEFINITION. What an instance of the block fixes (00_scope.md R7 to R17), the free values the spec
leaves open, and the reference instance RC-A. -/

namespace Sys2Proof

/-- Pin positions in a packed word (00_scope.md R13): `PinMap(j, c)` for sub-row `j` and channel `c`,
and `ClockPin`. -/
structure PinMap where
  r0 : Nat
  g0 : Nat
  b0 : Nat
  r1 : Nat
  g1 : Nat
  b1 : Nat
  clock : Nat
  deriving DecidableEq, Repr

/-- The parameters of an instance (00_scope.md R7 to R17), but for those of the single layers, which
stand in the pool entry of each layer (`LayerEntry`). -/
structure Config where
  /-- `N`, bits per channel and bit-planes per row (R7). -/
  depth : Nat
  /-- `Wd` (R8). -/
  width : Nat
  /-- `Hd` (R8). -/
  height : Nat
  /-- `Hp` (R9). -/
  panelHeight : Nat
  /-- `RPO` (R9). -/
  rowPairOffset : Nat
  /-- `R`, the scan modulus (R9). -/
  scanRows : Nat
  /-- `S` (R9). -/
  stack : Nat
  /-- `CShape` (R9). -/
  cShape : Bool
  /-- `BottomToTop` (R9). -/
  bottomToTop : Bool
  /-- `CShapeRowFlip` (R9, R193). -/
  cShapeRowFlip : Bool
  /-- `ClockDoubling` (R11). -/
  clockDoubling : Bool
  /-- `C` (R12). -/
  capacity : Nat
  /-- `WordBits` (R13). -/
  wordBits : Nat
  /-- `PinMap` and `ClockPin` (R13). -/
  pins : PinMap
  /-- `F`, timer ticks per second (R14). -/
  tickRate : Nat
  /-- `PW` (R14). -/
  pulseWidth : Nat
  /-- `MinBlockPeriod` (R14). -/
  minBlockPeriod : Nat
  /-- `MsbDecrement` (R14). -/
  msbDecrement : Nat
  /-- `AdaptiveRate` (R16). -/
  adaptiveRate : Bool
  /-- `SafetyValve` (R16). -/
  safetyValve : Bool
  /-- `RateStep` (R16). -/
  rateStep : Nat
  /-- `MaxLoopsWithoutExit` (R16). -/
  maxLoops : Nat
  /-- `MaxLayers` (R17). -/
  maxLayers : Nat
  /-- `RefreshRateReset` (R17). -/
  refreshRateReset : Half
  /-- Which external collaborator stands behind `Rasterise` (R252): a name, not a number the block
  computes with (log 9). -/
  collaborator : Nat
  deriving DecidableEq, Repr

/-- States of the scrolling state machine (10_state.md R47). -/
inductive ScrollMode where
  | wrapForward
  | bounceForward
  | bounceReverse
  | stopped
  | off
  deriving DecidableEq, Repr

/-- The scrolling fields a launch gives (10_state.md R47: set by the excluded text API). -/
structure ScrollLaunch where
  mode : ScrollMode
  position : Half
  scrollMin : Half
  scrollMax : Half
  leftOffset : Half
  scrollCounter : Half
  pixelsPerSecond : Half
  deriving DecidableEq, Repr

/-- The kind of a layer with what its construction and launch fix for that kind (10_state.md R44, R46). -/
inductive LayerVariant where
  | background
  | indexed (indexBits : Nat) (palette : List Rgb)
  | scrollingText (colour : Rgb) (launch : ScrollLaunch)
  | monoGfx (colour : Rgb)
  deriving DecidableEq, Repr

/-- One entry of the layer pool as it is constructed (00_scope.md R17, 10_state.md R54). -/
structure LayerEntry where
  variant : LayerVariant
  /-- `BufferCount`, 2 or 3. -/
  bufferCount : Nat
  /-- `requestedShifts`, a `u4`. -/
  requestedShifts : BitVec 4
  deriving DecidableEq, Repr

/-- `Rasterise(l, position, rot)` of 43_compositor.md R252, one bit of its array: "pure, total, and
otherwise unconstrained". The first argument is the instance's collaborator (log 9). -/
opaque Config.rasterise (collaborator layer : Nat) (position : Half) (rotation : BitVec 2)
    (y x : Nat) : Bool

/-- The value of a 16-bit field that the spec does not state (log 8): a fresh, unconstrained value for
each index. -/
opaque Config.freeHalf : Nat → Half

/-- The agent that takes a turn where no turn has been chosen yet (log 2): 0 host, 1 producer,
2 engine. The spec admits every order (60_exceptions.md R361). -/
opaque Config.freeAgent : Nat → Fin 3

/-- RC-A of 95_test_vectors.md section 1, with the default pin map of 00_scope.md R13. -/
def Config.rcA : Config where
  depth := 8
  width := 4
  height := 4
  panelHeight := 4
  rowPairOffset := 2
  scanRows := 2
  stack := 1
  cShape := false
  bottomToTop := false
  cShapeRowFlip := true
  clockDoubling := true
  capacity := 2
  wordBits := 8
  pins := ⟨0, 1, 2, 3, 4, 5, 6⟩
  tickRate := 125000
  pulseWidth := 4
  minBlockPeriod := 16
  msbDecrement := 10
  adaptiveRate := true
  safetyValve := false
  rateStep := 1
  maxLoops := 100
  maxLayers := 3
  refreshRateReset := 100
  collaborator := 0

/-- The layer pool of RC-A. The vectors leave palette entry 0 out ("-"); no rule reads it (R223), and
black stands there (log 7). -/
def Config.rcALayers : List LayerEntry :=
  [ ⟨.background, 2, 0⟩,
    ⟨.monoGfx ⟨0, 255, 0⟩, 2, 0⟩,
    ⟨.indexed 2 [Rgb.black, ⟨0, 0, 255⟩, ⟨255, 255, 255⟩, ⟨1, 2, 3⟩], 2, 0⟩ ]

end Sys2Proof
end

