-- ==== Sys2Proof/Machine/State.lean ====
section
/-! DEFINITION. The state of the block (10_state.md) as plain data, its reasons to stop (60_exceptions.md
section 1), and the state after reset (10_state.md R56). -/

namespace Sys2Proof.Machine

/-- A sparse memory: index and content, indices strictly rising. An index that is not listed has not
been written since reset and holds no value (10_state.md R56; log 6). -/
abbrev Store (α : Type) := List (Nat × α)

/-- The bytes of the linear image of the slot pool (20_memory.md R92), a list of `Host.Cell`. -/
abbrev Memory := Store Byte

/-- The four memory spaces (20_memory.md R90). -/
inductive Space where
  | slot
  | layerBuf
  | work
  | timing
  deriving DecidableEq, Repr

/-- The host contracts a command can break (60_exceptions.md R352). -/
inductive Contract where
  | beginTwice
  | addAfterBegin
  | addTwice
  | rateTooHigh
  | badLayer
  deriving DecidableEq, Repr

/-- The faults of R351, and the fault of R56 for a read before a write. A fault changes no state
(R350). All are safe: the run ends where the spec ends it. -/
inductive Fault where
  /-- Raised by RB.COMMITR on an empty ring (R158). Safe. -/
  | ringReadEmpty
  /-- Raised by TT.CALC when the budget of the row cannot be met at any MSB width (R171). Safe. -/
  | timingInfeasible (rate : Half)
  /-- Raised by construction from parameters that break a constraint (R18). Safe. -/
  | configInvalid
  /-- Raised by a host command whose contract is broken (R320, R352). Safe. -/
  | contractViolation (c : Contract)
  /-- Raised by an operation that reads an element not written since reset (10_state.md R56: "a read
  before a write is a fault of the model, never a value"). Safe. -/
  | unspecifiedRead (space : Space)
  deriving DecidableEq, Repr

/-- Why the model gives a step no meaning. All are safe: nothing can be proved of what follows. -/
inductive Refusal where
  /-- Raised by exec for an operation without a meaning. Safe. -/
  | notModelled (mnemonic : String)
  /-- Raised by step for a word that spells no operation of the instance (30_encoding.md R127). Safe. -/
  | illegalWord (w : Word)
  /-- Raised by a micro-operation given an operand outside the range its rule states (R197: "a model
  refuses them"; log 11). Safe. -/
  | badOperand
  /-- Raised by an encoder variant of another depth: "exactly one ... exists in an instance"
  (30_encoding.md R126). Safe. -/
  | absentVariant
  /-- Raised by an engine or producer operation performed on its own while it is not enabled (R273,
  R274, R307, R308): the agent has no step. Safe. -/
  | notEnabled
  /-- Raised by an operation performed on its own while what its rule requires does not hold (R279,
  R280, R301; log 11). Safe. -/
  | requirementUnmet
  /-- Raised by a host command performed on its own while another is in progress (R320). Safe. -/
  | hostBusy
  /-- Raised by a walk of a layer chain that never ends or leaves the pool, which no run reaches
  (R221; log 16). Safe. -/
  | brokenChain
  /-- Raised by MemRead or MemWrite, misaligned or outside the pool (20_memory.md R95). Safe. -/
  | badAccess
  deriving DecidableEq, Repr

/-- The three agents (60_exceptions.md R362). -/
inductive Agent where
  | host
  | producer
  | engine
  deriving DecidableEq, Repr

/-- CR0 to CR3 (10_state.md R33 to R36). -/
structure Controls where
  brightness : Byte
  refreshRate : Half
  rotation : BitVec 2
  ccMode : Byte
  deriving DecidableEq, Repr

/-- The one-bit flags (10_state.md R37 to R39). -/
structure Flags where
  underrun : Bool
  rateLowered : Bool
  brightnessChanged : Bool
  refreshRateChanged : Bool
  rotationChanged : Bool
  calcWake : Bool
  begun : Bool
  deriving DecidableEq, Repr

/-- RB_START and RB_COUNT (10_state.md R41). -/
structure Ring where
  start : Nat
  count : Nat
  deriving DecidableEq, Repr

/-- `calcState` (10_state.md R42). -/
inductive CalcState where
  | idle
  | running
  deriving DecidableEq, Repr

/-- The producer's position (10_state.md R42). -/
structure Producer where
  rowIndex : Nat
  loops : Half
  calcState : CalcState
  deriving DecidableEq, Repr

/-- `schedState` (10_state.md R40). -/
inductive SchedState where
  | stopped
  | shifting
  | underrun
  deriving DecidableEq, Repr

/-- `timingSource` (10_state.md R40). -/
inductive TimingSource where
  | slot
  | idle
  deriving DecidableEq, Repr

/-- The engine's state and position (10_state.md R40, R43). -/
structure Engine where
  schedState : SchedState
  timingSource : TimingSource
  curSlot : Nat
  beatIndex : Nat
  deriving DecidableEq, Repr

/-- The fields of a ScrollingText layer (10_state.md R46, R47). -/
structure Scroll where
  colour : Rgb
  canvas : Store Bool
  mode : ScrollMode
  position : Half
  scrollMin : Half
  scrollMax : Half
  leftOffset : Half
  scrollCounter : Half
  pixelsPerSecond : Half
  framesPerScroll : Half
  currentFrame : Half
  deriving DecidableEq, Repr

/-- The kind of a layer with its kind-specific state (10_state.md R44, R46). Element `[y][x]` of buffer
`b` has the index `(b * Hd + y) * Wd + x`, and of a canvas `y * Wd + x`. -/
inductive Content where
  | background (buffers : Store Rgb)
  | indexed (indexBits : Nat) (palette : List Rgb) (buffers : Store Byte)
  | scrollingText (text : Scroll)
  | monoGfx (colour : Rgb) (buffers : Store Bool)
  deriving DecidableEq, Repr

/-- One layer of the pool (10_state.md R44). -/
structure Layer where
  content : Content
  bufferCount : Nat
  requestedShifts : BitVec 4
  attached : Bool
  next : Option Nat
  rotation : BitVec 2
  localWidth : Nat
  localHeight : Nat
  refreshRate : Half
  drawBuffer : Nat
  refreshBuffer : Nat
  previousBuffer : Nat
  swapPending : Bool
  deriving DecidableEq, Repr

/-- The compositing chain's ends, `layerCount` and BRIGHTNESSSHIFTS (10_state.md R45, R49). -/
structure Chain where
  head : Option Nat
  tail : Option Nat
  count : Nat
  brightnessShifts : BitVec 4
  deriving DecidableEq, Repr

/-- `hostState`: the phase of a SWAPBUFFERS in progress (10_state.md R48). -/
inductive HostState where
  | ready
  | swapWait1 (layer : Nat) (copy : Bool)
  | swapWait2 (layer : Nat)
  deriving DecidableEq, Repr

/-- The host-side fields (10_state.md R48). -/
structure HostRegs where
  drawColor : Rgb
  drawIndex : Byte
  hostState : HostState
  deriving DecidableEq, Repr

/-- The kind of a beat (44_refresh_scheduler.md R272). -/
inductive BeatKind where
  | data
  | idle
  deriving DecidableEq, Repr

/-- One record of the panel port trace (R272). An idle beat has no row address and no plane. -/
structure Beat where
  kind : BeatKind
  rowAddress : Option Half
  plane : Option Nat
  period : Half
  onTime : Half
  oe : Bool
  words : List Word
  deriving DecidableEq, Repr

/-- What an observer sees (10_state.md R53), the oldest first: the panel port trace and the values of
the response port (log 13). -/
structure Outputs where
  trace : List Beat
  responses : List Word
  deriving DecidableEq, Repr

/-- The model's own inputs, not the spec's state: the turns of the agents already chosen and the index
of the next free choice (log 2), the command words waiting at the command port (log 3), and an operation
record to be performed on its own (log 4). -/
structure Env where
  turns : List Agent
  turnCount : Nat
  commands : List Word
  bench : List Word
  deriving DecidableEq, Repr

/-- What a value-returning micro-operation performed on its own returned (log 12). -/
inductive Returned where
  | nothing
  | flag (b : Bool)
  | index (n : Nat)
  deriving DecidableEq, Repr

/-- The whole state. `cfg` is the instance's configuration and never changes (log 1); `env`, `returned`
and `freeCount` are the model's own. -/
structure State where
  cfg : Config
  ctl : Controls
  flags : Flags
  ring : Ring
  prod : Producer
  eng : Engine
  layers : List Layer
  chain : Chain
  host : HostRegs
  /-- The timing table, indexed `0..N-1` (R50). -/
  tt : Store TimingPair
  /-- The slot pool, the bytes of its linear image (R51, R92). -/
  slots : Memory
  /-- The working rows; `WORK[g][j][x]` has the index `(2 * g + j) * Wd + x` (R52). -/
  work : Store Rgb
  out : Outputs
  env : Env
  returned : Returned
  freeCount : Nat
  deriving DecidableEq, Repr

/-- A layer of the pool at construction: not attached, no swap pending, buffers and canvas without
values, launch fields from its entry (R45, R56). The geometry, rate, buffer indices and
`framesPerScroll`, which R56 leaves unspecified, are log 5. -/
def Layer.reset (e : LayerEntry) : Layer where
  content :=
    match e.variant with
    | .background => .background []
    | .indexed n palette => .indexed n palette []
    | .monoGfx colour => .monoGfx colour []
    | .scrollingText colour t =>
      .scrollingText
        { colour := colour, canvas := [], mode := t.mode, position := t.position,
          scrollMin := t.scrollMin, scrollMax := t.scrollMax, leftOffset := t.leftOffset,
          scrollCounter := t.scrollCounter, pixelsPerSecond := t.pixelsPerSecond,
          framesPerScroll := 1, currentFrame := 0 }
  bufferCount := e.bufferCount
  requestedShifts := e.requestedShifts
  attached := false
  next := none
  rotation := 0
  localWidth := 0
  localHeight := 0
  refreshRate := 0
  drawBuffer := 1
  refreshBuffer := 0
  previousBuffer := 2
  swapPending := false

/-- The state after reset of the instance with parameters `c` and layer pool `pool` (R56). -/
def State.resetOf (c : Config) (pool : List LayerEntry) : State where
  cfg := c
  ctl := { brightness := 255, refreshRate := c.refreshRateReset, rotation := 0, ccMode := 0 }
  flags :=
    { underrun := false, rateLowered := false, brightnessChanged := false,
      refreshRateChanged := false, rotationChanged := false, calcWake := false, begun := false }
  ring := { start := 0, count := 0 }
  prod := { rowIndex := 0, loops := 0, calcState := .idle }
  eng := { schedState := .stopped, timingSource := .idle, curSlot := 0, beatIndex := 0 }
  layers := pool.map Layer.reset
  chain := { head := none, tail := none, count := 0, brightnessShifts := 0 }
  host := { drawColor := Rgb.black, drawIndex := 0, hostState := .ready }
  tt := []
  slots := []
  work := []
  out := { trace := [], responses := [] }
  env := { turns := [], turnCount := 0, commands := [], bench := [] }
  returned := .nothing
  freeCount := 0

/-- The machine right after reset: the reference instance RC-A, "start state of every program" of
95_test_vectors.md section 4 (log 1). -/
def State.reset : State := State.resetOf Config.rcA Config.rcALayers

/-- The state with other controls; the functions below do the same for each other part of State. -/
def State.setCtl (s : State) (v : Controls) : State := { s with ctl := v }
def State.setFlags (s : State) (v : Flags) : State := { s with flags := v }
def State.setRing (s : State) (v : Ring) : State := { s with ring := v }
def State.setProd (s : State) (v : Producer) : State := { s with prod := v }
def State.setEng (s : State) (v : Engine) : State := { s with eng := v }
def State.setLayers (s : State) (v : List Layer) : State := { s with layers := v }
def State.setChain (s : State) (v : Chain) : State := { s with chain := v }
def State.setHost (s : State) (v : HostRegs) : State := { s with host := v }
def State.setTT (s : State) (v : Store TimingPair) : State := { s with tt := v }
def State.setSlots (s : State) (v : Memory) : State := { s with slots := v }
def State.setWork (s : State) (v : Store Rgb) : State := { s with work := v }
def State.setOut (s : State) (v : Outputs) : State := { s with out := v }
def State.setEnv (s : State) (v : Env) : State := { s with env := v }
def State.setReturned (s : State) (v : Returned) : State := { s with returned := v }
def State.setFreeCount (s : State) (v : Nat) : State := { s with freeCount := v }

end Sys2Proof.Machine
end

