-- ==== Sys2Proof/Machine/Flags.lean ====
section
/-! DEFINITION. Every change of a one-bit flag (10_state.md R37 to R39). -/

namespace Sys2Proof.Machine

/-- SETBRIGHTNESS's change flag (R323). -/
def State.raiseBrightnessChanged (s : State) : State :=
  s.setFlags { s.flags with brightnessChanged := true }

/-- SETREFRESHRATE's change flag (R324). -/
def State.raiseRateChanged (s : State) : State :=
  s.setFlags { s.flags with refreshRateChanged := true }

/-- SETROTATION's change flag (R325). -/
def State.raiseRotationChanged (s : State) : State :=
  s.setFlags { s.flags with rotationChanged := true }

/-- BEGIN sets all three change flags (R38, R321). -/
def State.raiseAllChanged (s : State) : State :=
  s.setFlags
    { s.flags with brightnessChanged := true, refreshRateChanged := true, rotationChanged := true }

/-- The flags SCH.LOWERRATE sets when it lowers the rate (R281). -/
def State.raiseRateLowered (s : State) : State :=
  s.setFlags { s.flags with refreshRateChanged := true, rateLowered := true }

/-- A frame start clears `rotationChanged` after propagating the rotation (R301). -/
def State.clearRotationChanged (s : State) : State :=
  s.setFlags { s.flags with rotationChanged := false }

/-- A frame start clears the other two change flags after TT.CALC (R301). -/
def State.clearTimingChanged (s : State) : State :=
  s.setFlags { s.flags with brightnessChanged := false, refreshRateChanged := false }

/-- `underrunFlag` is raised on the transition into the underrun state (R37, R276). -/
def State.raiseUnderrun (s : State) : State := s.setFlags { s.flags with underrun := true }

/-- GETUNDERRUN consumes `underrunFlag` (R327). -/
def State.clearUnderrun (s : State) : State := s.setFlags { s.flags with underrun := false }

/-- GETLOWERED consumes `rateLoweredFlag` (R328). -/
def State.clearRateLowered (s : State) : State := s.setFlags { s.flags with rateLowered := false }

/-- Every completion event raises the task wake (R278). -/
def State.raiseWake (s : State) : State := s.setFlags { s.flags with calcWake := true }

/-- P.WAKE takes the task wake (R307). -/
def State.clearWake (s : State) : State := s.setFlags { s.flags with calcWake := false }

/-- BEGIN sets `begun` once (R39, R321), with no wake pending. -/
def State.markBegun (s : State) : State :=
  s.setFlags { s.flags with calcWake := false, begun := true }

/-- `zext_32` of a flag, as the response port returns it (R327, R328). -/
def flagWord (b : Bool) : Word := if b then 1 else 0

end Sys2Proof.Machine
end

