-- ==== Sys2Proof/Machine/Params.lean ====
section
/-! DEFINITION. What follows from an instance's parameters: sizes, offsets, the supported rates, the row
map, and which parameters make an instance (00_scope.md R10 to R18, R24; 20_memory.md R92;
42_row_encoder.md R193). -/

namespace Sys2Proof

/-- `ChainLen = Wd * S` (R11). -/
def Config.chainLen (c : Config) : Nat := c.width * c.stack

/-- `WordsPerPlane = ChainLen * (1 + ClockDoubling)` (R11). -/
def Config.wordsPerPlane (c : Config) : Nat := c.chainLen * (if c.clockDoubling then 2 else 1)

/-- `WordBytes` (20_memory.md R92). -/
def Config.wordBytes (c : Config) : Nat := c.wordBits / 8

/-- `PlaneBytes` (R92). -/
def Config.planeBytes (c : Config) : Nat := 4 * ((4 + c.wordsPerPlane * c.wordBytes + 3) / 4)

/-- `SlotBytes` (R92). -/
def Config.slotBytes (c : Config) : Nat := 4 + c.depth * c.planeBytes

/-- Where slot `w` begins in the linear image (R92). -/
def Config.slotOffset (c : Config) (w : Nat) : Nat := w * c.slotBytes

/-- Where the plane record `i` of slot `w` begins: its pair, then its words (R92). -/
def Config.planeOffset (c : Config) (w i : Nat) : Nat := c.slotOffset w + 4 + i * c.planeBytes

/-- The bytes of the whole linear image, `C * SlotBytes` (R95). -/
def Config.poolBytes (c : Config) : Nat := c.capacity * c.slotBytes

/-- `ticksPerRow(rate) = F div (rate * R)` (R24). -/
def Config.ticksPerRow (c : Config) (rate : Nat) : Nat := c.tickRate / (rate * c.scanRows)

/-- `MinRefreshRate`, "the least integer `r >= 1` with `((F div (r * R)) div 2) + PW <= 65535`" (R15) in
closed form (log 18). -/
def Config.minRefreshRate (c : Config) : Nat :=
  c.tickRate / ((2 * (65535 - c.pulseWidth) + 2) * c.scanRows) + 1

/-- `max(MinBlockPeriod, PW)`, the shortest period a bit-plane can have (41_timing_table.md R176). -/
def Config.floorPeriod (c : Config) : Nat := max c.minBlockPeriod c.pulseWidth

/-- `MaxRefreshRate`, "the greatest integer `r` with `F div (r * R) >= N * max(MinBlockPeriod, PW)`"
(R15) in closed form (log 18). -/
def Config.maxRefreshRate (c : Config) : Nat :=
  c.tickRate / (c.depth * c.floorPeriod * c.scanRows)

/-- Segment `g` is turned round (42_row_encoder.md R195). -/
def Config.reversed (c : Config) (g : Nat) : Bool := c.cShape && decide (g % 2 = 1)

/-- `Y(r, g, j)`, the display row whose pixels go to `WORK[g][j]` for hardware row `r` (R193). -/
def Config.displayRow (c : Config) (r g j : Nat) : Nat :=
  let k := if c.bottomToTop then c.stack - 1 - g else g
  let prow := r + j * c.rowPairOffset
  let prow := if c.reversed g && c.cShapeRowFlip then c.panelHeight - 1 - prow else prow
  k * c.panelHeight + prow

/-- `LocalSize(rot)` (43_compositor.md R237). -/
def Config.localSize (c : Config) (rot : BitVec 2) : Nat × Nat :=
  if rot = 0 ∨ rot = 2 then (c.width, c.height) else (c.height, c.width)

/-- `Hw(rot, x, y)`, the hardware position `(hx, hy)` of local `(x, y)` (R239). -/
def Config.hardwarePos (c : Config) (rot : BitVec 2) (x y : Nat) : Nat × Nat :=
  if rot = 0 then (x, y)
  else if rot = 1 then (c.width - 1 - y, x)
  else if rot = 2 then (c.width - 1 - x, c.height - 1 - y)
  else (y, c.height - 1 - x)

/-- The pin positions with the clock's (R13). -/
def PinMap.positions (p : PinMap) : List Nat := [p.r0, p.g0, p.b0, p.r1, p.g1, p.b1, p.clock]

/-- The constraints of R7 to R17 on the parameters; `RefreshRateReset` is a `u16` by its type
(10_state.md R34; log 20). -/
def Config.valid (c : Config) : Bool :=
  decide (c.depth = 8 ∨ c.depth = 12 ∨ c.depth = 16)
  && decide (1 ≤ c.width ∧ c.width ≤ 1024 ∧ 1 ≤ c.height ∧ c.height ≤ 1024)
  && decide (c.panelHeight = 2 * c.rowPairOffset ∧ c.scanRows = c.rowPairOffset)
  && decide (c.height = c.stack * c.panelHeight ∧ 1 ≤ c.stack)
  && decide (1 ≤ c.capacity ∧ c.capacity ≤ 255)
  && decide (c.wordBits = 8 ∨ c.wordBits = 16 ∨ c.wordBits = 32)
  && decide c.pins.positions.Nodup && c.pins.positions.all (fun p => decide (p < c.wordBits))
  && decide (1 ≤ c.minBlockPeriod ∧ c.minBlockPeriod ≤ 65535 ∧ c.pulseWidth ≤ 65535)
  && decide (1 ≤ c.msbDecrement)
  && decide (c.minRefreshRate ≤ c.maxRefreshRate)
  && decide (1 ≤ c.rateStep ∧ 1 ≤ c.maxLoops)
  && decide (1 ≤ c.maxLayers ∧ c.maxLayers ≤ 16)
  && decide (c.minRefreshRate ≤ c.refreshRateReset.toNat ∧ c.refreshRateReset.toNat ≤ c.maxRefreshRate)

/-- A channel is a `uN` (10_state.md R46). -/
def Config.fitsDepth (c : Config) (p : Rgb) : Bool :=
  decide (p.r.toNat < 2 ^ c.depth ∧ p.g.toNat < 2 ^ c.depth ∧ p.b.toNat < 2 ^ c.depth)

/-- The constraints of R17 and of 10_state.md R46 and R47 on one entry of the layer pool. -/
def Config.validLayer (c : Config) (e : LayerEntry) : Bool :=
  decide (e.bufferCount = 2 ∨ e.bufferCount = 3) &&
  match e.variant with
  | .background => true
  | .indexed n palette =>
    decide (1 ≤ n ∧ n ≤ 8) && decide (palette.length = 2 ^ n) && palette.all c.fitsDepth
  | .scrollingText colour t =>
    c.fitsDepth colour && t.scrollMin.slt t.scrollMax && decide (1 ≤ t.pixelsPerSecond.toNat)
  | .monoGfx colour => c.fitsDepth colour

/-- The parameters and the pool make an instance (R18). -/
def Config.validInstance (c : Config) (pool : List LayerEntry) : Bool :=
  c.valid && decide (pool.length = c.maxLayers) && pool.all c.validLayer

/-- Construction (R18, 70_reset_and_hazards.md R390): the state after reset, or `ConfigInvalid`. -/
def Machine.construct (c : Config) (pool : List LayerEntry) :
    Host.Outcome Machine.State Machine.Fault Machine.Refusal :=
  if c.validInstance pool then .next (Machine.State.resetOf c pool) else .fault .configInvalid

end Sys2Proof
end

