-- ==== Sys2Proof/Machine/Ops.lean ====
section
/-! DEFINITION. The operations the meanings share: outcomes in sequence, sparse memories, byte order, the
free values, the ring (40_ring_buffer.md), the rate reduction, the start and recovery of the engine, and
the completion event, this block's "trap entry" (60_exceptions.md R360). -/

namespace Sys2Proof.Machine

/-- The outcome of an operation. -/
abbrev Res := Host.Outcome State Fault Refusal

/-- One operation after another; a stop of the first is the stop of both. -/
def andThen (r : Res) (f : State → Res) : Res :=
  match r with
  | .next s => f s
  | .fault e => .fault e
  | .refused e => .refused e

/-- An operation for each element of a list, in the list's order. -/
def forEach {α : Type} (xs : List α) (f : α → State → Res) (s : State) : Res :=
  match xs with
  | [] => .next s
  | x :: rest => andThen (f x s) (forEach rest f)

/-! ### Sparse memories -/

/-- The element at an index, where one has been written. -/
def Store.read {α : Type} (m : Store α) (k : Nat) : Option α :=
  match m with
  | [] => none
  | (a, v) :: rest => if a = k then some v else Store.read rest k

/-- The entries that put `vs` at the indices from `a` on. -/
def Store.segment {α : Type} (a : Nat) (vs : List α) : Store α :=
  match vs with
  | [] => []
  | v :: rest => (a, v) :: Store.segment (a + 1) rest

/-- Writes `vs` at the indices from `a` on and nothing else. -/
def Store.writeRange {α : Type} (m : Store α) (a : Nat) (vs : List α) : Store α :=
  m.filter (fun e => decide (e.1 < a)) ++ Store.segment a vs
    ++ m.filter (fun e => decide (a + vs.length ≤ e.1))

/-- Writes one element. -/
def Store.write {α : Type} (m : Store α) (k : Nat) (v : α) : Store α := Store.writeRange m k [v]

/-- The `n` elements from index `a` on, where all have been written. -/
def Store.readRange {α : Type} (m : Store α) (a n : Nat) : Option (List α) :=
  match n with
  | 0 => some []
  | n + 1 =>
    match Store.read m a, Store.readRange m (a + 1) n with
    | some v, some vs => some (v :: vs)
    | _, _ => none

/-- The canonical form: indices strictly rising. (An unlisted index reads as no value, so no entry can
repeat what it would read as.) -/
def Store.wf {α : Type} (m : Store α) : Bool :=
  match m with
  | [] => true
  | (a, _) :: rest => rest.all (fun e => decide (a < e.1)) && Store.wf rest

/-- The canonical form of the slot memory. -/
def Memory.wf (m : Memory) : Bool := Store.wf m

/-! ### Byte order (20_memory.md R91: little-endian, and it cannot be switched) -/

/-- The `n` low bytes of `v`, the lowest first. -/
def leBytes (n v : Nat) : List Byte :=
  match n with
  | 0 => []
  | n + 1 => BitVec.ofNat 8 v :: leBytes n (v / 256)

/-- The number whose bytes these are, the lowest first. -/
def ofLeBytes (bs : List Byte) : Nat :=
  match bs with
  | [] => 0
  | b :: rest => b.toNat + 256 * ofLeBytes rest

/-- The `n` bytes at offsets `a .. a+n-1` as a little-endian number (R94), where all are written. -/
def Memory.readLE (m : Memory) (a n : Nat) : Option Nat :=
  match Store.readRange m a n with
  | some bs => some (ofLeBytes bs)
  | none => none

/-! ### Values the spec does not state (log 8) -/

/-- A number in a 16-bit field: itself where it fits, the free value of index `k` where it does not. -/
def narrow16 (k v : Nat) : Half := if v < 65536 then BitVec.ofNat 16 v else Config.freeHalf k

/-! ### The ring buffer (40_ring_buffer.md) -/

/-- RB.INIT (R151). -/
def ringInit (s : State) : State := s.setRing { start := 0, count := 0 }

/-- RB.ISFULL (R152). -/
def ringIsFull (s : State) : Bool := decide (s.ring.count = s.cfg.capacity)

/-- RB.ISEMPTY (R153). -/
def ringIsEmpty (s : State) : Bool := decide (s.ring.count = 0)

/-- RB.NEXTW (R154). -/
def ringNextW (s : State) : Nat := (s.ring.start + s.ring.count) % s.cfg.capacity

/-- RB.COMMITW (R155), its overwrite-oldest fallback included. -/
def ringCommitW (s : State) : State :=
  if s.ring.count < s.cfg.capacity then s.setRing { s.ring with count := s.ring.count + 1 }
  else s.setRing { s.ring with start := (s.ring.start + 1) % s.cfg.capacity }

/-- RB.NEXTR (R157). -/
def ringNextR (s : State) : Nat := s.ring.start

/-- RB.COMMITR (R158). -/
def ringCommitR (s : State) : Res :=
  if s.ring.count = 0 then .fault .ringReadEmpty
  else .next (s.setRing
    { start := (s.ring.start + 1) % s.cfg.capacity, count := s.ring.count - 1 })

/-! ### The refresh scheduler's routines (44_refresh_scheduler.md) -/

/-- SCH.LOWERRATE (R281). -/
def lowerRate (s : State) : State :=
  if s.cfg.minRefreshRate < s.ctl.refreshRate.toNat then
    (s.setCtl { s.ctl with
      refreshRate := BitVec.ofNat 16
        (max s.cfg.minRefreshRate (s.ctl.refreshRate.toNat - s.cfg.rateStep)) }).raiseRateLowered
  else s

/-- What SCH.RECOVER (R279) and SCH.START (R280) both write: the engine points at plane 0 of the ring's
head slot and shifts. -/
def pointAtHead (s : State) : State :=
  s.setEng { schedState := .shifting, timingSource := .slot, curSlot := ringNextR s, beatIndex := 0 }

/-- The part of EV.COMPLETE that depends on the ring (R274), in state SHIFTING: commit the read, then
fall to the idle source or point at the new head slot. -/
def advanceSlot (s : State) : Res :=
  andThen (ringCommitR s) fun s =>
    if ringIsEmpty s then
      let s := (s.setEng { s.eng with timingSource := .idle, schedState := .underrun }).raiseUnderrun
      .next (if s.cfg.adaptiveRate then lowerRate s else s)
    else .next (s.setEng { s.eng with curSlot := ringNextR s })

/-- Taking the completion event (R274; "trap entry" of 60_exceptions.md R360, written in its order: ring,
then scheduler and flags or CURSLOT, then BEATINDEX, then calcWake). There is no return from it. -/
def takeCompletion (s : State) : Res :=
  andThen (if s.eng.schedState = .shifting then advanceSlot s else .next s) fun s =>
    .next (s.setEng { s.eng with beatIndex := 0 }).raiseWake

/-- `Limit` of R273: how many beats the current timing source has. -/
def beatLimit (s : State) : Option Nat :=
  match s.eng.schedState with
  | .stopped => none
  | .shifting => some s.cfg.depth
  | .underrun => some 1

/-- ENG.BEAT is enabled (R273). -/
def beatEnabled (s : State) : Bool :=
  s.flags.begun &&
  match beatLimit s with
  | some n => decide (s.eng.beatIndex < n)
  | none => false

/-- EV.COMPLETE is enabled (R274). -/
def completeEnabled (s : State) : Bool :=
  s.flags.begun &&
  match beatLimit s with
  | some n => decide (s.eng.beatIndex = n)
  | none => false

/-! ### Ports -/

/-- `emit` a beat on the panel port (44_refresh_scheduler.md R272). -/
def emitBeat (b : Beat) (s : State) : State := s.setOut { s.out with trace := s.out.trace ++ [b] }

/-- `respond(v)` on the response port (46_host_controls.md R335). -/
def respond (v : Word) (s : State) : State :=
  s.setOut { s.out with responses := s.out.responses ++ [v] }

end Sys2Proof.Machine
end

