-- ==== Sys2Proof/Syntax.lean ====
section
/-! DEFINITION. The 42 operations of spec/opcode_table.json (30_encoding.md R125, R126), their
mnemonics, their textual form (R128) and the pseudo-operations that expand to them (R129). -/

namespace Sys2Proof

/-- The channel of SETCOLOR: `ch` 0, 1 or 2; 3 spells no command (30_encoding.md R124). -/
inductive Channel where
  | red
  | green
  | blue
  deriving DecidableEq, Repr

/-- The operations of the block. A host command carries the fields of its format (R122). A
micro-operation carries the arguments its invoking rule passes (R120); an index is as wide as its
largest legal value needs. -/
inductive Instr where
  | beginBlock
  | addLayer (layer : BitVec 4)
  | setBrightness (imm8 : BitVec 8)
  | setRefreshRate (imm16 : BitVec 16)
  | setRotation (rot : BitVec 2)
  | setCcMode (imm8 : BitVec 8)
  | swapBuffers (copy : BitVec 1) (layer : BitVec 4)
  | getRefreshRate
  | getUnderrun
  | getLowered
  | setColor (ch : Channel) (val : BitVec 16)
  | setIndex (imm8 : BitVec 8)
  | drawPixel (layer : BitVec 4) (x y : BitVec 10)
  /-- `RB.INIT(capacity)`: the argument "must equal the parameter `C`" (R151), so it is no operand. -/
  | rbInit
  | rbIsFull
  | rbIsEmpty
  | rbNextW
  | rbCommitW
  | rbNextR
  | rbCommitR
  | ttCalc
  | encPlane24 (w : BitVec 8) (i : BitVec 4)
  | encPlane36 (w : BitVec 8) (i : BitVec 4)
  | encPlane48 (w : BitVec 8) (i : BitVec 4)
  | lBegin (l : BitVec 4)
  | lFrame (l : BitVec 4)
  /-- `L.FILLROW(l, y, row, sh)` with `row` the working row `WORK[g][j]` (R233, R243; log 22). -/
  | lFillRow (l : BitVec 4) (y g : BitVec 10) (j : BitVec 1) (sh : BitVec 4)
  | lSetRot (l : BitVec 4) (rot : BitVec 2)
  | lSetRate (l : BitVec 4) (rate : BitVec 16)
  | lScrollStep (l : BitVec 4)
  | compSetRot (rot : BitVec 2)
  | compSetRate (rate : BitVec 16)
  | compFrame
  | compFillRow (y g : BitVec 10) (j : BitVec 1)
  | engBeat
  | evComplete
  | schRecover
  | schStart
  | schLowerRate
  | pWake
  | pStep
  | calcStep
  deriving DecidableEq, Repr

/-- Whether the operation is a host command (30_encoding.md R120, R125) and so may be written on the
command port. -/
def Instr.isCommand : Instr → Bool
  | .beginBlock => true
  | .addLayer _ => true
  | .setBrightness _ => true
  | .setRefreshRate _ => true
  | .setRotation _ => true
  | .setCcMode _ => true
  | .swapBuffers _ _ => true
  | .getRefreshRate => true
  | .getUnderrun => true
  | .getLowered => true
  | .setColor _ _ => true
  | .setIndex _ => true
  | .drawPixel _ _ _ => true
  | .rbInit => false
  | .rbIsFull => false
  | .rbIsEmpty => false
  | .rbNextW => false
  | .rbCommitW => false
  | .rbNextR => false
  | .rbCommitR => false
  | .ttCalc => false
  | .encPlane24 _ _ => false
  | .encPlane36 _ _ => false
  | .encPlane48 _ _ => false
  | .lBegin _ => false
  | .lFrame _ => false
  | .lFillRow _ _ _ _ _ => false
  | .lSetRot _ _ => false
  | .lSetRate _ _ => false
  | .lScrollStep _ => false
  | .compSetRot _ => false
  | .compSetRate _ => false
  | .compFrame => false
  | .compFillRow _ _ _ => false
  | .engBeat => false
  | .evComplete => false
  | .schRecover => false
  | .schStart => false
  | .schLowerRate => false
  | .pWake => false
  | .pStep => false
  | .calcStep => false

/-- The mnemonic of spec/opcode_table.json. -/
def Instr.mnemonic : Instr → String
  | .beginBlock => "BEGIN"
  | .addLayer _ => "ADDLAYER"
  | .setBrightness _ => "SETBRIGHTNESS"
  | .setRefreshRate _ => "SETREFRESHRATE"
  | .setRotation _ => "SETROTATION"
  | .setCcMode _ => "SETCCMODE"
  | .swapBuffers _ _ => "SWAPBUFFERS"
  | .getRefreshRate => "GETREFRESHRATE"
  | .getUnderrun => "GETUNDERRUN"
  | .getLowered => "GETLOWERED"
  | .setColor _ _ => "SETCOLOR"
  | .setIndex _ => "SETINDEX"
  | .drawPixel _ _ _ => "DRAWPIXEL"
  | .rbInit => "RB.INIT"
  | .rbIsFull => "RB.ISFULL"
  | .rbIsEmpty => "RB.ISEMPTY"
  | .rbNextW => "RB.NEXTW"
  | .rbCommitW => "RB.COMMITW"
  | .rbNextR => "RB.NEXTR"
  | .rbCommitR => "RB.COMMITR"
  | .ttCalc => "TT.CALC"
  | .encPlane24 _ _ => "ENC.PLANE24"
  | .encPlane36 _ _ => "ENC.PLANE36"
  | .encPlane48 _ _ => "ENC.PLANE48"
  | .lBegin _ => "L.BEGIN"
  | .lFrame _ => "L.FRAME"
  | .lFillRow _ _ _ _ _ => "L.FILLROW"
  | .lSetRot _ _ => "L.SETROT"
  | .lSetRate _ _ => "L.SETRATE"
  | .lScrollStep _ => "L.SCROLLSTEP"
  | .compSetRot _ => "COMP.SETROT"
  | .compSetRate _ => "COMP.SETRATE"
  | .compFrame => "COMP.FRAME"
  | .compFillRow _ _ _ => "COMP.FILLROW"
  | .engBeat => "ENG.BEAT"
  | .evComplete => "EV.COMPLETE"
  | .schRecover => "SCH.RECOVER"
  | .schStart => "SCH.START"
  | .schLowerRate => "SCH.LOWERRATE"
  | .pWake => "P.WAKE"
  | .pStep => "P.STEP"
  | .calcStep => "CALC.STEP"

/-- The number `ch` of a channel (30_encoding.md R124). -/
def Channel.code : Channel → BitVec 2
  | .red => 0
  | .green => 1
  | .blue => 2

/-- The operands of the textual form, in the order 30_encoding.md R128 writes them: a command's fields
from high bits to low, a micro-operation's pseudocode arguments. -/
def Instr.operands : Instr → List Nat
  | .beginBlock => []
  | .addLayer l => [l.toNat]
  | .setBrightness v => [v.toNat]
  | .setRefreshRate v => [v.toNat]
  | .setRotation v => [v.toNat]
  | .setCcMode v => [v.toNat]
  | .swapBuffers c l => [c.toNat, l.toNat]
  | .getRefreshRate => []
  | .getUnderrun => []
  | .getLowered => []
  | .setColor ch v => [ch.code.toNat, v.toNat]
  | .setIndex v => [v.toNat]
  | .drawPixel l x y => [l.toNat, x.toNat, y.toNat]
  | .rbInit => []
  | .rbIsFull => []
  | .rbIsEmpty => []
  | .rbNextW => []
  | .rbCommitW => []
  | .rbNextR => []
  | .rbCommitR => []
  | .ttCalc => []
  | .encPlane24 w i => [w.toNat, i.toNat]
  | .encPlane36 w i => [w.toNat, i.toNat]
  | .encPlane48 w i => [w.toNat, i.toNat]
  | .lBegin l => [l.toNat]
  | .lFrame l => [l.toNat]
  | .lFillRow l y g j sh => [l.toNat, y.toNat, g.toNat, j.toNat, sh.toNat]
  | .lSetRot l rot => [l.toNat, rot.toNat]
  | .lSetRate l rate => [l.toNat, rate.toNat]
  | .lScrollStep l => [l.toNat]
  | .compSetRot rot => [rot.toNat]
  | .compSetRate rate => [rate.toNat]
  | .compFrame => []
  | .compFillRow y g j => [y.toNat, g.toNat, j.toNat]
  | .engBeat => []
  | .evComplete => []
  | .schRecover => []
  | .schStart => []
  | .schLowerRate => []
  | .pWake => []
  | .pStep => []
  | .calcStep => []

/-- The textual form (30_encoding.md R128): `SWAPBUFFERS 1, 0`; `ENC.PLANE24(0, 3)`; `BEGIN`. -/
def Instr.text (i : Instr) : String :=
  match i.operands.map (fun n => toString n) with
  | [] => i.mnemonic
  | ops =>
    if i.isCommand then i.mnemonic ++ " " ++ String.intercalate ", " ops
    else i.mnemonic ++ "(" ++ String.intercalate ", " ops ++ ")"

/-- The pseudo-operation `SETRGB r, g, b` (30_encoding.md R129). -/
def pseudoSetRgb (r g b : BitVec 16) : List Instr :=
  [.setColor .red r, .setColor .green g, .setColor .blue b]

/-- The pseudo-operation `SWAP l` (30_encoding.md R129). -/
def pseudoSwap (l : BitVec 4) : List Instr := [.swapBuffers 1 l]

end Sys2Proof
end

