-- ==== Sys2Proof/WellFormed.lean ====
section
/-! DEFINITION. Which operations an instance has: the operand ranges the spec states that the operand's
width does not already force. -/

namespace Sys2Proof

/-- `layer < MaxLayers` (30_encoding.md R124). -/
def Config.hasLayer (c : Config) (l : BitVec 4) : Bool := decide (l.toNat < c.maxLayers)

/-- The operands of the encoder variant for `depth` bits: it "exists when `N`" is that depth, `w` in
`0..C-1`, `i` in `0..N-1` (42_row_encoder.md R197 to R199). -/
def Config.hasPlane (c : Config) (depth : Nat) (w : BitVec 8) (i : BitVec 4) : Bool :=
  decide (c.depth = depth) && decide (w.toNat < c.capacity) && decide (i.toNat < depth)

/-- A display row `y` in `0..Hd-1` and a segment `g` in `0..S-1` (43_compositor.md R223, R243;
10_state.md R52). -/
def Config.hasRow (c : Config) (y g : BitVec 10) : Bool :=
  decide (y.toNat < c.height) && decide (g.toNat < c.stack)

/-- The instance `c` has the operation with these operands. -/
def Instr.wellFormed (c : Config) : Instr → Bool
  | .beginBlock => true
  | .addLayer l => c.hasLayer l
  | .setBrightness _ => true
  | .setRefreshRate _ => true
  | .setRotation _ => true
  | .setCcMode _ => true
  | .swapBuffers _ l => c.hasLayer l
  | .getRefreshRate => true
  | .getUnderrun => true
  | .getLowered => true
  | .setColor _ _ => true
  | .setIndex _ => true
  | .drawPixel l _ _ => c.hasLayer l
  | .rbInit => true
  | .rbIsFull => true
  | .rbIsEmpty => true
  | .rbNextW => true
  | .rbCommitW => true
  | .rbNextR => true
  | .rbCommitR => true
  | .ttCalc => true
  | .encPlane24 w i => c.hasPlane 8 w i
  | .encPlane36 w i => c.hasPlane 12 w i
  | .encPlane48 w i => c.hasPlane 16 w i
  | .lBegin l => c.hasLayer l
  | .lFrame l => c.hasLayer l
  | .lFillRow l y g _ _ => c.hasLayer l && c.hasRow y g
  | .lSetRot l _ => c.hasLayer l
  | .lSetRate l rate => c.hasLayer l && decide (1 ≤ rate.toNat)
  | .lScrollStep l => c.hasLayer l
  | .compSetRot _ => true
  | .compSetRate _ => true
  | .compFrame => true
  | .compFillRow y g _ => c.hasRow y g
  | .engBeat => true
  | .evComplete => true
  | .schRecover => true
  | .schStart => true
  | .schLowerRate => true
  | .pWake => true
  | .pStep => true
  | .calcStep => true

end Sys2Proof
end

