-- ==== Sys2Proof/Machine/Operands.lean ====
section
/-! DEFINITION. The operand forms: a layer of the pool, an element of a buffer, of a working row or of a
canvas, a slot field, the local coordinates of a pixel (10_state.md R46, R51, R52; 20_memory.md R92). -/

namespace Sys2Proof.Machine

/-- An operation on layer `l` of the pool. -/
def withLayer (l : Nat) (s : State) (k : Layer → Res) : Res :=
  match s.layers[l]? with
  | some lay => k lay
  | none => .refused .badOperand

/-- The state with another record for layer `l`. -/
def State.putLayer (s : State) (l : Nat) (lay : Layer) : State := s.setLayers (s.layers.set l lay)

/-- An operation that the instance must have with these operands (log 11). -/
def withOperands (i : Instr) (s : State) (r : Res) : Res :=
  if i.wellFormed s.cfg then r else .refused .badOperand

/-- The index of `buffers[b][y][x]` in a layer's store. -/
def bufferIndex (c : Config) (b y x : Nat) : Nat := (b * c.height + y) * c.width + x

/-- How many elements one buffer has, `Hd * Wd` (10_state.md R44). -/
def bufferSize (c : Config) : Nat := c.height * c.width

/-- The index of `canvas[y][x]`. -/
def canvasIndex (c : Config) (y x : Nat) : Nat := y * c.width + x

/-- The index of `WORK[g][j][0]`. -/
def workIndex (c : Config) (g j : Nat) : Nat := (2 * g + j) * c.width

/-- `(v >> sh)` of every channel (43_compositor.md R233). -/
def shiftColour (v : Rgb) (sh : BitVec 4) : Rgb :=
  ⟨v.r >>> sh.toNat, v.g >>> sh.toNat, v.b >>> sh.toNat⟩

/-- A `u16` keeps its low `N` bits (46_host_controls.md R332). -/
def keepDepth (c : Config) (v : Half) : Half := BitVec.ofNat 16 (v.toNat % 2 ^ c.depth)

/-- A `u16` field of the linear image. -/
def readHalf (m : Memory) (a : Nat) : Option Half :=
  match Memory.readLE m a 2 with
  | some v => some (BitVec.ofNat 16 v)
  | none => none

/-- A `u16` field's two bytes. -/
def halfBytes (v : Half) : List Byte := leBytes 2 v.toNat

/-- `SLOT[w].rowAddress` (20_memory.md R92). -/
def slotRowAddress (c : Config) (m : Memory) (w : Nat) : Option Half := readHalf m (c.slotOffset w)

/-- `SLOT[w].timing[i]` (R92). -/
def slotTiming (c : Config) (m : Memory) (w i : Nat) : Option TimingPair :=
  match readHalf m (c.planeOffset w i), readHalf m (c.planeOffset w i + 2) with
  | some p, some o => some ⟨p, o⟩
  | _, _ => none

/-- `SLOT[w].plane[i][q]` (R92). -/
def slotWord (c : Config) (m : Memory) (w i q : Nat) : Option Word :=
  match Memory.readLE m (c.planeOffset w i + 4 + q * c.wordBytes) c.wordBytes with
  | some v => some (BitVec.ofNat 32 v)
  | none => none

/-- Every element of a list of values, where all are there. -/
def collect {α : Type} (vs : List (Option α)) : Option (List α) :=
  match vs with
  | [] => some []
  | v :: rest =>
    match v, collect rest with
    | some a, some as => some (a :: as)
    | _, _ => none

/-- `SLOT[w].plane[i][0 .. WordsPerPlane-1]`, in shift order (20_memory.md R93). -/
def slotPlane (c : Config) (m : Memory) (w i : Nat) : Option (List Word) :=
  collect ((List.range c.wordsPerPlane).map (slotWord c m w i))

/-- Writes `SLOT[w].rowAddress` and the two zero bytes after it (R92). -/
def writeRowAddress (w : Nat) (r : Half) (s : State) : State :=
  s.setSlots (Store.writeRange s.slots (s.cfg.slotOffset w) (halfBytes r ++ [0, 0]))

/-- Writes `SLOT[w].timing[i]` (R92). -/
def writeTiming (w i : Nat) (p : TimingPair) (s : State) : State :=
  s.setSlots (Store.writeRange s.slots (s.cfg.planeOffset w i) (halfBytes p.period ++ halfBytes p.onTime))

/-- The bytes of a plane block: its words, then zeros up to `PlaneBytes` (R92). -/
def planeBytesOf (c : Config) (ws : List Word) : List Byte :=
  ws.flatMap (fun v => leBytes c.wordBytes v.toNat)
    ++ List.replicate (c.planeBytes - 4 - ws.length * c.wordBytes) 0

/-- Writes `SLOT[w].plane[i]`, every word of it (42_row_encoder.md R192). -/
def writePlane (w i : Nat) (ws : List Word) (s : State) : State :=
  s.setSlots (Store.writeRange s.slots (s.cfg.planeOffset w i + 4) (planeBytesOf s.cfg ws))

end Sys2Proof.Machine
end

