-- ==== Sys2Proof/Machine/Scrolling.lean ====
section
/-! DEFINITION. The scrolling state machine (43_compositor.md section 5). -/

namespace Sys2Proof.Machine

/-- The canvas `Rasterise(l, position, rot)` returns, every bit of it (R252). -/
def rasteriseCanvas (c : Config) (l : Nat) (position : Half) (rot : BitVec 2) : Store Bool :=
  Store.segment 0 ((List.range (bufferSize c)).map fun k =>
    Config.rasterise c.collaborator l position rot (k / c.width) (k % c.width))

/-- `framesPerScroll = max(1, rate div pixelsPerSecond)` (R238). `pixelsPerSecond` is at least 1
(10_state.md R47); for 0 the quotient is the free value of index `k` (log 8). -/
def framesFor (rate pps : Half) (k : Nat) : Half :=
  if pps = 0 then Config.freeHalf k else BitVec.ofNat 16 (max 1 (rate.toNat / pps.toNat))

/-- The free values `framesFor` uses. -/
def framesForUses (pps : Half) : Nat := if pps = 0 then 1 else 0

/-- `currentFrame + 1`; beyond 65535 the free value of index `k` (log 8). -/
def nextFrame (v : Half) (k : Nat) : Half := if v = 65535 then Config.freeHalf k else v + 1

/-- The free values `nextFrame` uses. -/
def nextFrameUses (v : Half) : Nat := if v = 65535 then 1 else 0

/-- `position - 1`, signed; below -32768 the free value of index `k` (log 8). -/
def stepBack (v : Half) (k : Nat) : Half := if v = 32768 then Config.freeHalf k else v - 1

/-- `position + 1`, signed; above 32767 the free value of index `k` (log 8). -/
def stepOn (v : Half) (k : Nat) : Half := if v = 32767 then Config.freeHalf k else v + 1

/-- One move of R250 in each mode, `k` the index of the free value a position beyond its 16 bits
takes. Comparisons are signed. -/
def scrollMove (t : Scroll) (k : Nat) : Scroll :=
  match t.mode with
  | .wrapForward =>
    let p := stepBack t.position k
    if p.sle t.scrollMin then
      { t with position := t.scrollMax, scrollCounter := t.scrollCounter - 1 }
    else { t with position := p }
  | .bounceForward =>
    let p := stepBack t.position k
    if p.sle t.scrollMin then
      { t with position := p, mode := .bounceReverse, scrollCounter := t.scrollCounter - 1 }
    else { t with position := p }
  | .bounceReverse =>
    let p := stepOn t.position k
    if t.scrollMax.sle p then
      { t with position := p, mode := .bounceForward, scrollCounter := t.scrollCounter - 1 }
    else { t with position := p }
  | .stopped => t
  | .off => t

/-- The free values `scrollMove` uses. -/
def scrollMoveUses (t : Scroll) : Nat :=
  match t.mode with
  | .wrapForward => if t.position = 32768 then 1 else 0
  | .bounceForward => if t.position = 32768 then 1 else 0
  | .bounceReverse => if t.position = 32767 then 1 else 0
  | .stopped => 0
  | .off => 0

/-- A layer whose counter is 0 is parked; `stopped` and `off` are halted (R250). -/
def scrollHalted (t : Scroll) : Bool :=
  decide (t.scrollCounter = 0 ∨ t.mode = .stopped ∨ t.mode = .off)

/-- Parking (R250): a counter that has reached 0 puts the position at the left offset. -/
def parkIfDone (t : Scroll) : Scroll :=
  if t.scrollCounter = 0 then { t with position := t.leftOffset } else t

/-- L.SCROLLSTEP on the fields of layer `l` with rotation `rot` (R250), `k` the index of the next free
value. -/
def scrollAdvance (c : Config) (l : Nat) (rot : BitVec 2) (k : Nat) (t : Scroll) : Scroll :=
  if scrollHalted t then t
  else
    let f := nextFrame t.currentFrame k
    if f.toNat < t.framesPerScroll.toNat then { t with currentFrame := f }
    else
      let t := parkIfDone
        (scrollMove { t with currentFrame := 0 } (k + nextFrameUses t.currentFrame))
      { t with canvas := rasteriseCanvas c l t.position rot }

/-- The free values `scrollAdvance` uses. -/
def scrollAdvanceUses (k : Nat) (t : Scroll) : Nat :=
  if scrollHalted t then 0
  else if (nextFrame t.currentFrame k).toNat < t.framesPerScroll.toNat then nextFrameUses t.currentFrame
  else nextFrameUses t.currentFrame + scrollMoveUses t

/-- L.SCROLLSTEP(l) for a layer of kind ScrollingText (R250). -/
def scrollStep (l : Nat) (lay : Layer) (t : Scroll) (s : State) : State :=
  (s.putLayer l
    { lay with content := .scrollingText (scrollAdvance s.cfg l lay.rotation s.freeCount t) }).setFreeCount
    (s.freeCount + scrollAdvanceUses s.freeCount t)

/-- L.SCROLLSTEP(l) performed on its own: "layer `l` of kind `ScrollingText`" (R250). -/
def execLScrollStep (l : BitVec 4) (s : State) : Res :=
  withOperands (.lScrollStep l) s <| withLayer l.toNat s fun lay =>
    match lay.content with
    | .scrollingText t => .next (scrollStep l.toNat lay t s)
    | .background _ => .refused .badOperand
    | .indexed _ _ _ => .refused .badOperand
    | .monoGfx _ _ => .refused .badOperand

end Sys2Proof.Machine
end

