-- ==== Sys2Proof/Machine/Compositor.lean ====
section
/-! DEFINITION. The layer compositor and the buffer swap (43_compositor.md sections 1 to 4). -/

namespace Sys2Proof.Machine

/-- A layer's contribution to one pixel (R223): a colour, "leave as is", or an element that has not been
written (10_state.md R56). -/
inductive Sample where
  | colour (v : Rgb)
  | leave
  | unspecified
  deriving DecidableEq, Repr

/-- `Sample(l, y, x)` (R223). -/
def sample (c : Config) (lay : Layer) (y x : Nat) : Sample :=
  match lay.content with
  | .background bufs =>
    match Store.read bufs (bufferIndex c lay.refreshBuffer y x) with
    | some v => .colour v
    | none => .unspecified
  | .indexed _ palette bufs =>
    match Store.read bufs (bufferIndex c lay.refreshBuffer y x) with
    | some k =>
      if k = 0 then .leave
      else match palette[k.toNat]? with
        | some v => .colour v
        | none => .unspecified
    | none => .unspecified
  | .monoGfx colour bufs =>
    match Store.read bufs (bufferIndex c lay.refreshBuffer y x) with
    | some b => if b then .colour colour else .leave
    | none => .unspecified
  | .scrollingText t =>
    if t.mode = .off then .leave
    else match Store.read t.canvas (canvasIndex c y x) with
      | some b => if b then .colour t.colour else .leave
      | none => .unspecified

/-- The columns `xs` of L.FILLROW (R233), into the working row whose first sample has index `base`. -/
def fillCells (c : Config) (lay : Layer) (y base : Nat) (sh : BitVec 4) (xs : List Nat)
    (work : Store Rgb) : Option (Store Rgb) :=
  match xs with
  | [] => some work
  | x :: rest =>
    match sample c lay y x with
    | .colour v => fillCells c lay y base sh rest (Store.write work (base + x) (shiftColour v sh))
    | .leave => fillCells c lay y base sh rest work
    | .unspecified => none

/-- L.FILLROW(l, y, WORK[g][j], sh) (R233). -/
def layerFillRow (l y g j : Nat) (sh : BitVec 4) (s : State) : Res :=
  withLayer l s fun lay =>
    match fillCells s.cfg lay y (workIndex s.cfg g j) sh (List.range s.cfg.width) s.work with
    | some work => .next (s.setWork work)
    | none => .fault (.unspecifiedRead .layerBuf)

/-- A buffer store with every element of every buffer `v` (R231). -/
def clearedBuffers {α : Type} (c : Config) (count : Nat) (v : α) : Store α :=
  Store.segment 0 (List.replicate (count * bufferSize c) v)

/-- The kind-specific part of L.BEGIN (R231), `k` the index of the next free value. -/
def beginContent (c : Config) (l : Nat) (count : Nat) (rate : Half) (rot : BitVec 2) (k : Nat) :
    Content → Content
  | .background _ => .background (clearedBuffers c count Rgb.black)
  | .indexed n palette _ => .indexed n palette (clearedBuffers c count 0)
  | .monoGfx colour _ => .monoGfx colour (clearedBuffers c count false)
  | .scrollingText t =>
    .scrollingText
      { t with
        currentFrame := 0
        framesPerScroll := framesFor rate t.pixelsPerSecond k
        canvas := rasteriseCanvas c l t.position rot }

/-- The free values an operation that derives `framesPerScroll` uses. -/
def contentUses : Content → Nat
  | .background _ => 0
  | .indexed _ _ _ => 0
  | .monoGfx _ _ => 0
  | .scrollingText t => framesForUses t.pixelsPerSecond

/-- The layer is of kind ScrollingText. -/
def Content.isText : Content → Bool
  | .background _ => false
  | .indexed _ _ _ => false
  | .monoGfx _ _ => false
  | .scrollingText _ => true

/-- A layer's record after L.BEGIN (R231); a ScrollingText layer has no buffers and keeps its buffer
indices. -/
def beginLayer (s : State) (l : Nat) (lay : Layer) : Layer :=
  { lay with
    rotation := s.ctl.rotation
    localWidth := (s.cfg.localSize s.ctl.rotation).1
    localHeight := (s.cfg.localSize s.ctl.rotation).2
    refreshRate := s.ctl.refreshRate
    swapPending := false
    content :=
      beginContent s.cfg l lay.bufferCount s.ctl.refreshRate s.ctl.rotation s.freeCount lay.content
    refreshBuffer := if lay.content.isText then lay.refreshBuffer else 0
    drawBuffer := if lay.content.isText then lay.drawBuffer else 1
    previousBuffer :=
      if !lay.content.isText && decide (lay.bufferCount = 3) then 2 else lay.previousBuffer }

/-- L.BEGIN(l) (R231). -/
def layerBegin (l : Nat) (s : State) : Res :=
  withLayer l s fun lay =>
    .next ((s.putLayer l (beginLayer s l lay)).setFreeCount (s.freeCount + contentUses lay.content))

/-- `ExchangeBuffers(l)` (R236): no pixel is copied. -/
def exchangeBuffers (lay : Layer) : Layer :=
  if lay.bufferCount = 3 then
    { lay with
      previousBuffer := lay.refreshBuffer
      refreshBuffer := lay.drawBuffer
      drawBuffer := lay.previousBuffer }
  else { lay with drawBuffer := lay.refreshBuffer, refreshBuffer := lay.drawBuffer }

/-- L.FRAME(l) (R235). -/
def layerFrame (l : Nat) (s : State) : Res :=
  withLayer l s fun lay =>
    match lay.content with
    | .scrollingText t => .next (scrollStep l lay t s)
    | .background _ | .indexed _ _ _ | .monoGfx _ _ =>
      if lay.swapPending then
        .next (s.putLayer l { exchangeBuffers lay with swapPending := false })
      else .next s

/-- The kind-specific part of L.SETROT (R237): a ScrollingText layer is rasterised again. -/
def rotateContent (c : Config) (l : Nat) (rot : BitVec 2) : Content → Content
  | .background b => .background b
  | .indexed n p b => .indexed n p b
  | .monoGfx v b => .monoGfx v b
  | .scrollingText t => .scrollingText { t with canvas := rasteriseCanvas c l t.position rot }

/-- L.SETROT(l, rot) (R237): buffer contents are not moved. -/
def layerSetRot (l : Nat) (rot : BitVec 2) (s : State) : Res :=
  withLayer l s fun lay =>
    .next (s.putLayer l
      { lay with
        rotation := rot
        localWidth := (s.cfg.localSize rot).1
        localHeight := (s.cfg.localSize rot).2
        content := rotateContent s.cfg l rot lay.content })

/-- The kind-specific part of L.SETRATE (R238). -/
def rateContent (rate : Half) (k : Nat) : Content → Content
  | .background b => .background b
  | .indexed n p b => .indexed n p b
  | .monoGfx v b => .monoGfx v b
  | .scrollingText t =>
    .scrollingText { t with framesPerScroll := framesFor rate t.pixelsPerSecond k }

/-- L.SETRATE(l, rate) (R238). -/
def layerSetRate (l : Nat) (rate : Half) (s : State) : Res :=
  withLayer l s fun lay =>
    .next ((s.putLayer l
      { lay with refreshRate := rate, content := rateContent rate s.freeCount lay.content }).setFreeCount
      (s.freeCount + contentUses lay.content))

/-- The walk `l <- head; while l != none: ...; l <- L[l].next` (R221) of at most `fuel` layers. -/
def chainFrom (layers : List Layer) (fuel : Nat) (at_ : Option Nat) : Option (List Nat) :=
  match at_ with
  | none => some []
  | some l =>
    match fuel with
    | 0 => none
    | fuel + 1 =>
      match layers[l]? with
      | none => none
      | some lay =>
        match chainFrom layers fuel lay.next with
        | some rest => some (l :: rest)
        | none => none

/-- The layers of the compositing chain in paint order (R221). A layer is attached only once, so a walk
of more layers than the pool has never ends. -/
def chainLayers (s : State) : Option (List Nat) := chainFrom s.layers s.layers.length s.chain.head

/-- `for l in chain` (R221). -/
def forChain (s : State) (f : Nat → State → Res) : Res :=
  match chainLayers s with
  | some ls => forEach ls f s
  | none => .refused .brokenChain

/-- COMP.SETROT(rot) (R240). -/
def chainSetRot (rot : BitVec 2) (s : State) : Res := forChain s fun l => layerSetRot l rot

/-- COMP.SETRATE(rate) (R241). -/
def chainSetRate (rate : Half) (s : State) : Res := forChain s fun l => layerSetRate l rate

/-- COMP.FRAME (R242). -/
def chainFrame (s : State) : Res := forChain s layerFrame

/-- The working row `WORK[g][j]` all black (R243). -/
def clearRow (g j : Nat) (s : State) : State :=
  s.setWork (Store.writeRange s.work (workIndex s.cfg g j) (List.replicate s.cfg.width Rgb.black))

/-- COMP.FILLROW(y, g, j) (R243). -/
def chainFillRow (y g j : Nat) (s : State) : Res :=
  forChain (clearRow g j s) fun l => layerFillRow l y g j s.chain.brightnessShifts

/-- L.BEGIN(l) performed on its own. -/
def execLBegin (l : BitVec 4) (s : State) : Res :=
  withOperands (.lBegin l) s (layerBegin l.toNat s)

/-- L.FRAME(l) performed on its own. -/
def execLFrame (l : BitVec 4) (s : State) : Res :=
  withOperands (.lFrame l) s (layerFrame l.toNat s)

/-- L.FILLROW(l, y, WORK[g][j], sh) performed on its own. -/
def execLFillRow (l : BitVec 4) (y g : BitVec 10) (j : BitVec 1) (sh : BitVec 4) (s : State) : Res :=
  withOperands (.lFillRow l y g j sh) s (layerFillRow l.toNat y.toNat g.toNat j.toNat sh s)

/-- L.SETROT(l, rot) performed on its own. -/
def execLSetRot (l : BitVec 4) (rot : BitVec 2) (s : State) : Res :=
  withOperands (.lSetRot l rot) s (layerSetRot l.toNat rot s)

/-- L.SETRATE(l, rate) performed on its own. -/
def execLSetRate (l : BitVec 4) (rate : BitVec 16) (s : State) : Res :=
  withOperands (.lSetRate l rate) s (layerSetRate l.toNat rate s)

/-- COMP.SETROT(rot) performed on its own. -/
def execCompSetRot (rot : BitVec 2) (s : State) : Res := chainSetRot rot s

/-- COMP.SETRATE(rate) performed on its own, for every `rate`. R241 states no range; the `>= 1` of R238 stands
at L.SETRATE's own operand only, and rate 0 here gives each layer of the chain rate 0, by R238's formula.
DESIGN CHOICE (log 26). -/
def execCompSetRate (rate : BitVec 16) (s : State) : Res := chainSetRate rate s

/-- COMP.FRAME performed on its own. -/
def execCompFrame (s : State) : Res := chainFrame s

/-- COMP.FILLROW(y, g, j) performed on its own. -/
def execCompFillRow (y g : BitVec 10) (j : BitVec 1) (s : State) : Res :=
  withOperands (.compFillRow y g j) s (chainFillRow y.toNat g.toNat j.toNat s)

end Sys2Proof.Machine
end

