-- ==== Sys2Proof/Machine/Encoder.lean ====
section
/-! DEFINITION. The row buffer encoder (42_row_encoder.md). -/

namespace Sys2Proof.Machine

/-- Bit `i` of a channel at its pin position (R196). -/
def pinBit (v : Half) (i pin : Nat) : Word := if v.getLsbD i then 1#32 <<< pin else 0#32

/-- The data word of a pair of samples, the upper and the lower sub-row's, for bit-plane `i` (R196). -/
def packPair (p : PinMap) (upper lower : Rgb) (i : Nat) : Word :=
  pinBit upper.r i p.r0 ||| pinBit upper.g i p.g0 ||| pinBit upper.b i p.b0
    ||| pinBit lower.r i p.r1 ||| pinBit lower.g i p.g1 ||| pinBit lower.b i p.b1

/-- The display column that chain position `pos` carries (R195, R196). -/
def columnOf (c : Config) (pos : Nat) : Nat :=
  if c.reversed (pos / c.width) then c.width - 1 - pos % c.width else pos % c.width

/-- The data word at chain position `pos` for bit-plane `i` (R196), where both samples are written. -/
def dataWord (c : Config) (work : Store Rgb) (i pos : Nat) : Option Word :=
  match Store.read work (workIndex c (pos / c.width) 0 + columnOf c pos),
    Store.read work (workIndex c (pos / c.width) 1 + columnOf c pos) with
  | some upper, some lower => some (packPair c.pins upper lower i)
  | _, _ => none

/-- The words a data word takes: with clock doubling, itself and its duplicate with the clock bit set
(R201). -/
def strobed (c : Config) (d : Word) : List Word :=
  if c.clockDoubling then [d, d ||| (1#32 <<< c.pins.clock)] else [d]

/-- The plane block of bit-plane `i`, in shift order (R196). -/
def planeWords (c : Config) (work : Store Rgb) (i : Nat) : Option (List Word) :=
  match collect ((List.range c.chainLen).map (dataWord c work i)) with
  | some ds => some (ds.flatMap (strobed c))
  | none => none

/-- `EncodePlane(w, i)` (R196). -/
def encodePlane (w i : Nat) (s : State) : Res :=
  match planeWords s.cfg s.work i with
  | some ws => .next (writePlane w i ws s)
  | none => .fault (.unspecifiedRead .work)

/-- ENC.PLANE24, ENC.PLANE36, ENC.PLANE48 as CALC.STEP calls them; the spec keeps "three operations, one
per instance" (R200). -/
def encPlane24 (w i : Nat) (s : State) : Res := encodePlane w i s
def encPlane36 (w i : Nat) (s : State) : Res := encodePlane w i s
def encPlane48 (w i : Nat) (s : State) : Res := encodePlane w i s

/-- The variant of the instance, `ENC.PLANE<3N>` (30_encoding.md R126, R129). -/
def encPlaneOfDepth (w i : Nat) (s : State) : Res :=
  if s.cfg.depth = 8 then encPlane24 w i s
  else if s.cfg.depth = 12 then encPlane36 w i s
  else if s.cfg.depth = 16 then encPlane48 w i s
  else .refused .absentVariant

/-- ENC.PLANE24(w, i) (R197). -/
def execEncPlane24 (w : BitVec 8) (i : BitVec 4) (s : State) : Res :=
  if s.cfg.depth = 8 then withOperands (.encPlane24 w i) s (encPlane24 w.toNat i.toNat s)
  else .refused .absentVariant

/-- ENC.PLANE36(w, i) (R198). -/
def execEncPlane36 (w : BitVec 8) (i : BitVec 4) (s : State) : Res :=
  if s.cfg.depth = 12 then withOperands (.encPlane36 w i) s (encPlane36 w.toNat i.toNat s)
  else .refused .absentVariant

/-- ENC.PLANE48(w, i) (R199). -/
def execEncPlane48 (w : BitVec 8) (i : BitVec 4) (s : State) : Res :=
  if s.cfg.depth = 16 then withOperands (.encPlane48 w i) s (encPlane48 w.toNat i.toNat s)
  else .refused .absentVariant

end Sys2Proof.Machine
end

