-- ==== Sys2Proof/Machine/Timing.lean ====
section
/-! DEFINITION. The bit-plane timing table (41_timing_table.md). -/

namespace Sys2Proof.Machine

/-- `base[i] = m >> (N-1-i)`, the tentative period without the pulse width (R173). -/
def planeBase (c : Config) (m i : Nat) : Nat := m / 2 ^ (c.depth - 1 - i)

/-- `p[i]` of R171: the tentative period of bit-plane `i`, raised to `MinBlockPeriod` (R174). -/
def planePeriod (c : Config) (m i : Nat) : Nat :=
  let p := planeBase c m i + c.pulseWidth
  p + (c.minBlockPeriod - p)

/-- `o[i]` of R171: the tentative on-time at brightness `b` (R173), with the period's padding (R174). -/
def planeOnTime (c : Config) (b m i : Nat) : Nat :=
  let p := planeBase c m i + c.pulseWidth
  planeBase c m i * b / 255 + c.pulseWidth + (c.minBlockPeriod - p)

/-- `p[0] + p[1] + ... + p[N-1]` (R171). -/
def periodSum (c : Config) (m : Nat) : Nat := ((List.range c.depth).map (planePeriod c m)).sum

/-- The search of R171 and R175 for the MSB block width, from trial `m` on, at most `fuel` trials: the
first width whose periods fit the budget `t`. -/
def searchWidth (c : Config) (t fuel m : Nat) : Option Nat :=
  match fuel with
  | 0 => none
  | fuel + 1 =>
    if periodSum c m ≤ t then some m
    else if m = 0 then none
    else searchWidth c t fuel (m - c.msbDecrement)

/-- The width R171 settles at for a row budget of `t` ticks, from the ideal `t div 2` (R172). The width
falls by at least one a trial, so `t div 2 + 1` trials are enough. -/
def settledWidth (c : Config) (t : Nat) : Option Nat := searchWidth c t (t / 2 + 1) (t / 2)

/-- Entry `i` of the table for width `m` and brightness `b`; a value that 16 bits do not hold is the
free value of an index from `k` on (log 8). -/
def tableEntry (c : Config) (k b m i : Nat) : TimingPair :=
  ⟨narrow16 (k + 2 * i) (planePeriod c m i), narrow16 (k + 2 * i + 1) (planeOnTime c b m i)⟩

/-- Every period of the table fits the 16-bit timer (R178 (d)); the on-times are no larger. -/
def periodsFit (c : Config) (m : Nat) : Bool :=
  (List.range c.depth).all (fun i => decide (planePeriod c m i < 65536))

/-- TT.CALC (R171): the whole table, or `TimingInfeasible` with nothing written. -/
def calcTiming (s : State) : Res :=
  match settledWidth s.cfg (s.cfg.ticksPerRow s.ctl.refreshRate.toNat) with
  | none => .fault (.timingInfeasible s.ctl.refreshRate)
  | some m =>
    .next ((s.setTT (Store.writeRange s.tt 0
        ((List.range s.cfg.depth).map
          (tableEntry s.cfg s.freeCount s.ctl.brightness.toNat m)))).setFreeCount
      (if periodsFit s.cfg m then s.freeCount else s.freeCount + 2 * s.cfg.depth))

/-- TT.CALC performed on its own. -/
def execTtCalc (s : State) : Res := calcTiming s

end Sys2Proof.Machine
end

