-- ==== Sys2Proof/Machine/Calculation.lean ====
section
/-! DEFINITION. The calculation task (45_calculation_task.md). -/

namespace Sys2Proof.Machine

/-- A frame start propagates a pending rotation (R301, R302). -/
def propagateRotation (s : State) : Res :=
  if s.flags.rotationChanged then
    andThen (chainSetRot s.ctl.rotation s) fun s => .next s.clearRotationChanged
  else .next s

/-- A frame start propagates a pending refresh rate (R301, R302). -/
def propagateRate (s : State) : Res :=
  if s.flags.refreshRateChanged then chainSetRate s.ctl.refreshRate s else .next s

/-- A frame start recomputes the timing table when the brightness or the rate changed (R301, R302). -/
def refreshTiming (s : State) : Res :=
  if s.flags.brightnessChanged || s.flags.refreshRateChanged then
    andThen (calcTiming s) fun s => .next s.clearTimingChanged
  else .next s

/-- The frame-start work (R302): rotation, rate, every layer's frame callback, timing table. -/
def frameStart (s : State) : Res :=
  andThen (propagateRotation s) fun s =>
    andThen (propagateRate s) fun s =>
      andThen (chainFrame s) refreshTiming

/-- The working rows in the order CALC.STEP fills them (R301). -/
def workRows (c : Config) : List (Nat × Nat) :=
  (List.range c.stack).flatMap fun g => [(g, 0), (g, 1)]

/-- Composition of hardware row `r` (R303). -/
def composeRow (r : Nat) (s : State) : Res :=
  forEach (workRows s.cfg) (fun gj => chainFillRow (s.cfg.displayRow r gj.1 gj.2) gj.1 gj.2) s

/-- Bit-plane `i` of slot `w` (R301, R304): the current timing pair, copied, and the plane block. -/
def fillPlane (w i : Nat) (s : State) : Res :=
  match Store.read s.tt i with
  | some p => encPlaneOfDepth w i (writeTiming w i p s)
  | none => .fault (.unspecifiedRead .timing)

/-- Slot `w` for hardware row `r` (R304). -/
def fillSlot (w r : Nat) (s : State) : Res :=
  forEach (List.range s.cfg.depth) (fillPlane w) (writeRowAddress w (BitVec.ofNat 16 r) s)

/-- Commit, recovery and the row index (R305, R306). -/
def commitRow (r : Nat) (s : State) : State :=
  let s := ringCommitW s
  let s := if s.eng.schedState = .underrun then pointAtHead s else s
  s.setProd { s.prod with rowIndex := (r + 1) % s.cfg.scanRows }

/-- CALC.STEP (R301), called only when the ring is not full. -/
def calcRow (s : State) : Res :=
  andThen (if s.prod.rowIndex = 0 then frameStart s else .next s) fun s =>
    andThen (composeRow s.prod.rowIndex s) fun s =>
      andThen (fillSlot (ringNextW s) s.prod.rowIndex s) fun s =>
        .next (commitRow s.prod.rowIndex s)

/-- CALC.STEP performed on its own: "Precondition: RB.ISFULL is false" (R301, R401). -/
def execCalcStep (s : State) : Res :=
  if ringIsFull s then .refused .requirementUnmet else calcRow s

/-- P.WAKE is enabled (R307). -/
def wakeEnabled (s : State) : Bool :=
  s.flags.begun && decide (s.prod.calcState = .idle) && s.flags.calcWake

/-- P.WAKE (R307). -/
def execPWake (s : State) : Res :=
  if wakeEnabled s then
    .next (s.clearWake.setProd { s.prod with loops := 0, calcState := .running })
  else .refused .notEnabled

/-- The count of iterations and the safety valve after a CALC.STEP (R308, R309). LOOPS wraps modulo its
range (10_state.md R31; log 10). -/
def countLoop (s : State) : State :=
  let s := s.setProd { s.prod with loops := s.prod.loops + 1 }
  if s.cfg.adaptiveRate && s.cfg.safetyValve && decide (s.cfg.maxLoops ≤ s.prod.loops.toNat) then
    (lowerRate s).setProd { s.prod with loops := 0 }
  else s

/-- P.STEP (R308). -/
def execPStep (s : State) : Res :=
  if s.prod.calcState = .running then
    if ringIsFull s then .next (s.setProd { s.prod with calcState := .idle })
    else andThen (calcRow s) fun s => .next (countLoop s)
  else .refused .notEnabled

end Sys2Proof.Machine
end

