-- ==== Sys2Proof/Machine/Commands.lean ====
section
/-! DEFINITION. The host commands (46_host_controls.md) and the phases of SWAPBUFFERS (R330). -/

namespace Sys2Proof.Machine

/-- "A command is accepted only when `hostState = READY`" (R320). -/
def whenReady (s : State) (r : Res) : Res :=
  if s.host.hostState = .ready then r else .refused .hostBusy

/-- A broken host contract: the fault, with no state changed (R320, R352). -/
def violation (c : Contract) : Res := .fault (.contractViolation c)

/-- `while not RB.ISFULL: CALC.STEP` (R321), at most `fuel` rows. -/
def fillRing (fuel : Nat) (s : State) : Res :=
  match fuel with
  | 0 => .next s
  | fuel + 1 => if ringIsFull s then .next s else andThen (calcRow s) (fillRing fuel)

/-- The state BEGIN fills the ring from (R321). -/
def beginSetup (s : State) : State :=
  let s := ringInit s
  (s.setProd { s.prod with rowIndex := 0 }).raiseAllChanged

/-- The end of BEGIN (R321): SCH.START, no wake pending, the producer idle, `begun`. -/
def beginFinish (s : State) : State :=
  let s := pointAtHead s
  (s.setProd { s.prod with calcState := .idle, loops := 0 }).markBegun

/-- BEGIN (R321). From an empty ring each CALC.STEP adds one row, so `C` of them fill it. -/
def execBegin (s : State) : Res :=
  whenReady s <|
    if s.flags.begun then violation .beginTwice
    else andThen (fillRing s.cfg.capacity (beginSetup s)) fun s => .next (beginFinish s)

/-- Linking layer `l` at the end of the chain (R322, R45). -/
def linkLayer (l : Nat) (s : State) : State :=
  match s.chain.head, s.chain.tail with
  | some _, some t =>
    match s.layers[t]? with
    | some last => s.putLayer t { last with next := some l }
    | none => s
  | _, _ => s

/-- The chain's ends, count and shifts after attaching `l` (R322, R49). -/
def chainAppend (ch : Chain) (l : Nat) (shifts : BitVec 4) : Chain :=
  { head := if ch.head = none then some l else ch.head
    tail := some l
    count := ch.count + 1
    brightnessShifts := if ch.brightnessShifts.toNat < shifts.toNat then shifts else ch.brightnessShifts }

/-- Attaching layer `l` after its L.BEGIN (R322). -/
def attachLayer (l : Nat) (s : State) : Res :=
  withLayer l s fun lay =>
    let s := s.putLayer l { lay with attached := true, next := none }
    let s := linkLayer l s
    .next (s.setChain (chainAppend s.chain l lay.requestedShifts))

/-- ADDLAYER layer (R322). -/
def execAddLayer (l : BitVec 4) (s : State) : Res :=
  whenReady s <| withOperands (.addLayer l) s <|
    if s.flags.begun then violation .addAfterBegin
    else withLayer l.toNat s fun lay =>
      if lay.attached then violation .addTwice
      else andThen (layerBegin l.toNat s) (attachLayer l.toNat)

/-- SETBRIGHTNESS imm8 (R323). -/
def execSetBrightness (v : BitVec 8) (s : State) : Res :=
  whenReady s <| .next (s.setCtl { s.ctl with brightness := v }).raiseBrightnessChanged

/-- SETREFRESHRATE imm16 (R324). -/
def execSetRefreshRate (v : BitVec 16) (s : State) : Res :=
  whenReady s <|
    let rate := max v.toNat s.cfg.minRefreshRate
    if s.cfg.maxRefreshRate < rate then violation .rateTooHigh
    else .next (s.setCtl { s.ctl with refreshRate := BitVec.ofNat 16 rate }).raiseRateChanged

/-- SETROTATION rot (R325). -/
def execSetRotation (v : BitVec 2) (s : State) : Res :=
  whenReady s <| .next (s.setCtl { s.ctl with rotation := v }).raiseRotationChanged

/-- SETCCMODE imm8 (R326). -/
def execSetCcMode (v : BitVec 8) (s : State) : Res :=
  whenReady s <| .next (s.setCtl { s.ctl with ccMode := v })

/-- GETREFRESHRATE (R329). -/
def execGetRefreshRate (s : State) : Res :=
  whenReady s <| .next (respond (s.ctl.refreshRate.setWidth 32) s)

/-- GETUNDERRUN (R327): read and clear in one step. -/
def execGetUnderrun (s : State) : Res :=
  whenReady s <| .next (respond (flagWord s.flags.underrun) s.clearUnderrun)

/-- GETLOWERED (R328): read and clear in one step. -/
def execGetLowered (s : State) : Res :=
  whenReady s <| .next (respond (flagWord s.flags.rateLowered) s.clearRateLowered)

/-- A host-side state with another DRAWCOLOR channel (R331). -/
def withChannel (v : Rgb) (ch : Channel) (x : Half) : Rgb :=
  match ch with
  | .red => { v with r := x }
  | .green => { v with g := x }
  | .blue => { v with b := x }

/-- SETCOLOR ch, val (R331). -/
def execSetColor (ch : Channel) (v : BitVec 16) (s : State) : Res :=
  whenReady s <| .next (s.setHost { s.host with drawColor := withChannel s.host.drawColor ch v })

/-- SETINDEX imm8 (R333). -/
def execSetIndex (v : BitVec 8) (s : State) : Res :=
  whenReady s <| .next (s.setHost { s.host with drawIndex := v })

/-- SWAPBUFFERS and DRAWPIXEL need an attached layer that has buffers (R330, R332, R335). -/
def withDrawable (l : Nat) (s : State) (k : Layer → Res) : Res :=
  withLayer l s fun lay =>
    if lay.attached && !lay.content.isText then k lay else violation .badLayer

/-- The element DRAWPIXEL stores, by the layer's kind, at index `k` of its buffers (R332). -/
def drawElement (c : Config) (h : HostRegs) (k : Nat) : Content → Content
  | .background bufs =>
    .background (Store.write bufs k
      ⟨keepDepth c h.drawColor.r, keepDepth c h.drawColor.g, keepDepth c h.drawColor.b⟩)
  | .indexed n palette bufs =>
    .indexed n palette (Store.write bufs k (BitVec.ofNat 8 (h.drawIndex.toNat % 2 ^ n)))
  | .monoGfx colour bufs =>
    .monoGfx colour (Store.write bufs k (decide (h.drawIndex.toNat % 2 = 1)))
  | .scrollingText t => .scrollingText t

/-- Where in its layer's buffers DRAWPIXEL writes local pixel `(x, y)`: the draw buffer, at the hardware
position under the layer's own rotation (R332, R239). -/
def drawTarget (c : Config) (lay : Layer) (x y : Nat) : Nat :=
  bufferIndex c lay.drawBuffer (c.hardwarePos lay.rotation x y).2 (c.hardwarePos lay.rotation x y).1

/-- DRAWPIXEL layer, x, y (R332). -/
def execDrawPixel (l : BitVec 4) (x y : BitVec 10) (s : State) : Res :=
  whenReady s <| withOperands (.drawPixel l x y) s <| withDrawable l.toNat s fun lay =>
    if x.toNat < lay.localWidth ∧ y.toNat < lay.localHeight then
      .next (s.putLayer l.toNat
        { lay with
          content := drawElement s.cfg s.host (drawTarget s.cfg lay x.toNat y.toNat) lay.content })
    else .next s

/-- SWAPBUFFERS copy, layer: phase 0 (R330). -/
def execSwapBuffers (copy : BitVec 1) (l : BitVec 4) (s : State) : Res :=
  whenReady s <| withOperands (.swapBuffers copy l) s <| withDrawable l.toNat s fun _ =>
    .next (s.setHost { s.host with hostState := .swapWait1 l.toNat (decide (copy = 1)) })

/-- Phase 1 of SWAPBUFFERS, once the previous swap has been consumed (R330). -/
def swapRequest (l : Nat) (copy : Bool) (lay : Layer) (s : State) : State :=
  (s.putLayer l { lay with swapPending := true }).setHost
    { s.host with hostState := if copy then .swapWait2 l else .ready }

/-- A buffer store with buffer `src` copied over buffer `dst`, where `src` is written. -/
def copyBuffer {α : Type} (c : Config) (src dst : Nat) (m : Store α) : Option (Store α) :=
  match Store.readRange m (src * bufferSize c) (bufferSize c) with
  | some vs => some (Store.writeRange m (dst * bufferSize c) vs)
  | none => none

/-- `buffers[dst] <- buffers[src]` (R330). -/
def copyContent (c : Config) (src dst : Nat) : Content → Option Content
  | .background bufs => (copyBuffer c src dst bufs).map Content.background
  | .indexed n palette bufs => (copyBuffer c src dst bufs).map (Content.indexed n palette)
  | .monoGfx colour bufs => (copyBuffer c src dst bufs).map (Content.monoGfx colour)
  | .scrollingText t => some (.scrollingText t)

/-- Phase 2 of SWAPBUFFERS, once this swap has been carried out (R330): the copy-forward of the new
refresh contents into the new draw buffer. -/
def swapCopy (l : Nat) (lay : Layer) (s : State) : Res :=
  match copyContent s.cfg lay.refreshBuffer lay.drawBuffer lay.content with
  | some content =>
    .next ((s.putLayer l { lay with content := content }).setHost { s.host with hostState := .ready })
  | none => .fault (.unspecifiedRead .layerBuf)

/-- The next phase of the SWAPBUFFERS in progress (R330): while the layer's `swapPending` is set the host
is held and its turn passes. -/
def hostPhase (s : State) : Res :=
  match s.host.hostState with
  | .ready => .next s
  | .swapWait1 l copy =>
    withLayer l s fun lay => if lay.swapPending then .next s else .next (swapRequest l copy lay s)
  | .swapWait2 l =>
    withLayer l s fun lay => if lay.swapPending then .next s else swapCopy l lay s

end Sys2Proof.Machine
end

