-- ==== Sys2Proof/Machine/RingBuffer.lean ====
section
/-! DEFINITION. The ring buffer's operations performed on their own (40_ring_buffer.md R151 to R158). What
a value-returning one returns stands in `returned` (log 12). -/

namespace Sys2Proof.Machine

/-- RB.INIT (R151); its argument is the parameter `C`. -/
def execRbInit (s : State) : Res := .next (ringInit s)

/-- RB.ISFULL (R152): no state of the block is written. -/
def execRbIsFull (s : State) : Res := .next (s.setReturned (.flag (ringIsFull s)))

/-- RB.ISEMPTY (R153): no state of the block is written. -/
def execRbIsEmpty (s : State) : Res := .next (s.setReturned (.flag (ringIsEmpty s)))

/-- RB.NEXTW (R154): "does not mutate state". -/
def execRbNextW (s : State) : Res := .next (s.setReturned (.index (ringNextW s)))

/-- RB.COMMITW (R155). -/
def execRbCommitW (s : State) : Res := .next (ringCommitW s)

/-- RB.NEXTR (R157): "does not mutate". -/
def execRbNextR (s : State) : Res := .next (s.setReturned (.index (ringNextR s)))

/-- RB.COMMITR (R158). -/
def execRbCommitR (s : State) : Res := ringCommitR s

end Sys2Proof.Machine
end

