-- ==== Sys2Proof/Machine/Scheduler.lean ====
section
/-! DEFINITION. The refresh scheduler's operations (44_refresh_scheduler.md). -/

namespace Sys2Proof.Machine

/-- The data beat of bit-plane `i` of slot `w` (R272, R273), where the slot has been written. -/
def dataBeat (c : Config) (m : Memory) (w i : Nat) : Option Beat :=
  match slotRowAddress c m w, slotTiming c m w i, slotPlane c m w i with
  | some a, some t, some ws =>
    some
      { kind := .data, rowAddress := some a, plane := some i, period := t.period,
        onTime := t.onTime, oe := true, words := ws }
  | _, _, _ => none

/-- The idle beat (R272): the minimum safe period, output disabled. -/
def idleBeat (c : Config) : Beat :=
  { kind := .idle, rowAddress := none, plane := none, period := BitVec.ofNat 16 c.minBlockPeriod,
    onTime := 0, oe := false, words := [] }

/-- BEATINDEX after a beat (R273). -/
def countBeat (s : State) : State := s.setEng { s.eng with beatIndex := s.eng.beatIndex + 1 }

/-- ENG.BEAT (R273). -/
def execEngBeat (s : State) : Res :=
  if beatEnabled s then
    if s.eng.schedState = .shifting then
      match dataBeat s.cfg s.slots s.eng.curSlot s.eng.beatIndex with
      | some b => .next (countBeat (emitBeat b s))
      | none => .fault (.unspecifiedRead .slot)
    else .next (countBeat (emitBeat (idleBeat s.cfg) s))
  else .refused .notEnabled

/-- EV.COMPLETE (R274). -/
def execEvComplete (s : State) : Res :=
  if completeEnabled s then takeCompletion s else .refused .notEnabled

/-- SCH.RECOVER (R279), which "requires schedState = UNDERRUN, RB_COUNT >= 1". -/
def execSchRecover (s : State) : Res :=
  if s.eng.schedState = .underrun ∧ 1 ≤ s.ring.count then .next (pointAtHead s)
  else .refused .requirementUnmet

/-- SCH.START (R280), which "requires RB_COUNT >= 1". -/
def execSchStart (s : State) : Res :=
  if 1 ≤ s.ring.count then .next (pointAtHead s) else .refused .requirementUnmet

/-- SCH.LOWERRATE (R281). -/
def execSchLowerRate (s : State) : Res := .next (lowerRate s)

end Sys2Proof.Machine
end

