-- ==== Sys2Proof/Machine/Dispatch.lean ====
section
/-! DEFINITION. One arm per operation of spec/opcode_table.json: its meaning. -/

namespace Sys2Proof.Machine

def exec (i : Instr) (s : State) : Host.Outcome State Fault Refusal :=
  match i with
  | .beginBlock => Sys2Proof.Machine.execBegin s
  | .addLayer layer => Sys2Proof.Machine.execAddLayer layer s
  | .setBrightness imm8 => Sys2Proof.Machine.execSetBrightness imm8 s
  | .setRefreshRate imm16 => Sys2Proof.Machine.execSetRefreshRate imm16 s
  | .setRotation rot => Sys2Proof.Machine.execSetRotation rot s
  | .setCcMode imm8 => Sys2Proof.Machine.execSetCcMode imm8 s
  | .swapBuffers copy layer => Sys2Proof.Machine.execSwapBuffers copy layer s
  | .getRefreshRate => Sys2Proof.Machine.execGetRefreshRate s
  | .getUnderrun => Sys2Proof.Machine.execGetUnderrun s
  | .getLowered => Sys2Proof.Machine.execGetLowered s
  | .setColor ch val => Sys2Proof.Machine.execSetColor ch val s
  | .setIndex imm8 => Sys2Proof.Machine.execSetIndex imm8 s
  | .drawPixel layer x y => Sys2Proof.Machine.execDrawPixel layer x y s
  | .rbInit => Sys2Proof.Machine.execRbInit s
  | .rbIsFull => Sys2Proof.Machine.execRbIsFull s
  | .rbIsEmpty => Sys2Proof.Machine.execRbIsEmpty s
  | .rbNextW => Sys2Proof.Machine.execRbNextW s
  | .rbCommitW => Sys2Proof.Machine.execRbCommitW s
  | .rbNextR => Sys2Proof.Machine.execRbNextR s
  | .rbCommitR => Sys2Proof.Machine.execRbCommitR s
  | .ttCalc => Sys2Proof.Machine.execTtCalc s
  | .encPlane24 w m => Sys2Proof.Machine.execEncPlane24 w m s
  | .encPlane36 w m => Sys2Proof.Machine.execEncPlane36 w m s
  | .encPlane48 w m => Sys2Proof.Machine.execEncPlane48 w m s
  | .lBegin l => Sys2Proof.Machine.execLBegin l s
  | .lFrame l => Sys2Proof.Machine.execLFrame l s
  | .lFillRow l y g j sh => Sys2Proof.Machine.execLFillRow l y g j sh s
  | .lSetRot l rot => Sys2Proof.Machine.execLSetRot l rot s
  | .lSetRate l rate => Sys2Proof.Machine.execLSetRate l rate s
  | .lScrollStep l => Sys2Proof.Machine.execLScrollStep l s
  | .compSetRot rot => Sys2Proof.Machine.execCompSetRot rot s
  | .compSetRate rate => Sys2Proof.Machine.execCompSetRate rate s
  | .compFrame => Sys2Proof.Machine.execCompFrame s
  | .compFillRow y g j => Sys2Proof.Machine.execCompFillRow y g j s
  | .engBeat => Sys2Proof.Machine.execEngBeat s
  | .evComplete => Sys2Proof.Machine.execEvComplete s
  | .schRecover => Sys2Proof.Machine.execSchRecover s
  | .schStart => Sys2Proof.Machine.execSchStart s
  | .schLowerRate => Sys2Proof.Machine.execSchLowerRate s
  | .pWake => Sys2Proof.Machine.execPWake s
  | .pStep => Sys2Proof.Machine.execPStep s
  | .calcStep => Sys2Proof.Machine.execCalcStep s

end Sys2Proof.Machine
end

