-- ==== Sys2Proof/Decode.lean ====
section
/-! DEFINITION. Decoding and encoding. A host command is one 32-bit word (30_encoding.md R121, R122). A
micro-operation's word is its tag (R123); its arguments "are not encoded" by the spec, and the record
in which the model names one puts each argument in an operand word of its own after the tag (log 4). -/

namespace Sys2Proof

/-- The field of `n` bits whose lowest bit is bit `lo`: `v[hi:lo] = (v >> lo) mod 2^(hi-lo+1)`
(00_scope.md R19). -/
def field (w : Word) (lo n : Nat) : BitVec n := BitVec.ofNat n (w.toNat / 2 ^ lo)

/-- `op = w[31:24]` (30_encoding.md R122). -/
def opOf (w : Word) : Byte := field w 24 8

/-- The operand field `w[23:0]` is all zero (formats H0 and M0). -/
def noOperand (w : Word) : Bool := field w 0 24 == 0

/-- Reads one operand word as an argument `n` bits wide; bits above the argument must be zero. -/
def takeArg (n : Nat) (ws : List Word)
    (k : BitVec n → List Word → Option (Instr × List Word)) : Option (Instr × List Word) :=
  match ws with
  | [] => none
  | a :: rest => if a.toNat < 2 ^ n then k (a.setWidth n) rest else none

/-- `ch` 0, 1, 2; 3 makes the word illegal (30_encoding.md R124). -/
def channelOf (ch : BitVec 2) : Option Channel :=
  match ch.toNat with
  | 0 => some .red
  | 1 => some .green
  | 2 => some .blue
  | _ => none

/-- The host command a word spells (30_encoding.md R122, R125): `none` where `op` is no command's, a
must-be-zero bit is 1 or `ch = 3` (R127). Whether the instance has the layer is `Instr.wellFormed`. -/
def decodeCommand (w : Word) : Option Instr :=
  match (opOf w).toNat with
  | 0x01 => if noOperand w then some .beginBlock else none
  | 0x02 => if field w 4 20 = 0 then some (.addLayer (field w 0 4)) else none
  | 0x03 => if field w 8 16 = 0 then some (.setBrightness (field w 0 8)) else none
  | 0x04 => if field w 16 8 = 0 then some (.setRefreshRate (field w 0 16)) else none
  | 0x05 => if field w 2 22 = 0 then some (.setRotation (field w 0 2)) else none
  | 0x06 => if field w 8 16 = 0 then some (.setCcMode (field w 0 8)) else none
  | 0x07 =>
    if field w 9 15 = 0 ∧ field w 4 4 = 0 then
      some (.swapBuffers (field w 8 1) (field w 0 4))
    else none
  | 0x08 => if noOperand w then some .getRefreshRate else none
  | 0x09 => if noOperand w then some .getUnderrun else none
  | 0x0A => if noOperand w then some .getLowered else none
  | 0x0B =>
    if field w 18 6 = 0 then
      match channelOf (field w 16 2) with
      | some ch => some (.setColor ch (field w 0 16))
      | none => none
    else none
  | 0x0C => if field w 8 16 = 0 then some (.setIndex (field w 0 8)) else none
  | 0x0D => some (.drawPixel (field w 20 4) (field w 10 10) (field w 0 10))
  | _ => none

/-- The micro-operation whose tag is `w` (30_encoding.md R123, R126), its arguments taken from the
operand words `ws` of the record. -/
def decodeTag (w : Word) (ws : List Word) : Option (Instr × List Word) :=
  if noOperand w then
    match (opOf w).toNat with
    | 0x10 => some (.rbInit, ws)
    | 0x11 => some (.rbIsFull, ws)
    | 0x12 => some (.rbIsEmpty, ws)
    | 0x13 => some (.rbNextW, ws)
    | 0x14 => some (.rbCommitW, ws)
    | 0x15 => some (.rbNextR, ws)
    | 0x16 => some (.rbCommitR, ws)
    | 0x20 => some (.ttCalc, ws)
    | 0x30 => takeArg 8 ws fun a r => takeArg 4 r fun i r => some (.encPlane24 a i, r)
    | 0x31 => takeArg 8 ws fun a r => takeArg 4 r fun i r => some (.encPlane36 a i, r)
    | 0x32 => takeArg 8 ws fun a r => takeArg 4 r fun i r => some (.encPlane48 a i, r)
    | 0x40 => takeArg 4 ws fun l r => some (.lBegin l, r)
    | 0x41 => takeArg 4 ws fun l r => some (.lFrame l, r)
    | 0x42 =>
      takeArg 4 ws fun l r => takeArg 10 r fun y r => takeArg 10 r fun g r =>
        takeArg 1 r fun j r => takeArg 4 r fun sh r => some (.lFillRow l y g j sh, r)
    | 0x43 => takeArg 4 ws fun l r => takeArg 2 r fun rot r => some (.lSetRot l rot, r)
    | 0x44 => takeArg 4 ws fun l r => takeArg 16 r fun rate r => some (.lSetRate l rate, r)
    | 0x45 => takeArg 4 ws fun l r => some (.lScrollStep l, r)
    | 0x48 => takeArg 2 ws fun rot r => some (.compSetRot rot, r)
    | 0x49 => takeArg 16 ws fun rate r => some (.compSetRate rate, r)
    | 0x4A => some (.compFrame, ws)
    | 0x4B =>
      takeArg 10 ws fun y r => takeArg 10 r fun g r => takeArg 1 r fun j r =>
        some (.compFillRow y g j, r)
    | 0x50 => some (.engBeat, ws)
    | 0x51 => some (.evComplete, ws)
    | 0x52 => some (.schRecover, ws)
    | 0x53 => some (.schStart, ws)
    | 0x54 => some (.schLowerRate, ws)
    | 0x60 => some (.pWake, ws)
    | 0x61 => some (.pStep, ws)
    | 0x62 => some (.calcStep, ws)
    | _ => none
  else none

/-- The operation at the head of a list of words, with the words after it. -/
def decode : List Word → Option (Instr × List Word)
  | [] => none
  | w :: ws =>
    match decodeCommand w with
    | some i => some (i, ws)
    | none => decodeTag w ws

/-- The command a word on the command port spells to the instance `c`: every word that R127 calls
illegal, the tags of micro-operations among them, spells none. -/
def decodePort (c : Config) (w : Word) : Option Instr :=
  match decodeCommand w with
  | some i => if i.wellFormed c then some i else none
  | none => none

/-- The command word with operation number `op` and operand field `f`, a number below `2^24`. -/
def commandWord (op f : Nat) : Word := BitVec.ofNat 32 (op * 2 ^ 24 + f)

/-- A micro-operation's tag `{op, 24 zero bits}` (30_encoding.md R123). -/
def tagWord (op : Nat) : Word := commandWord op 0

/-- An argument in its operand word. -/
def argWord {n : Nat} (v : BitVec n) : Word := v.setWidth 32

/-- The words of an operation: the command word of R122 and R125, or the tag of R126 followed by one
operand word for each argument (log 4). -/
def encode : Instr → List Word
  | .beginBlock => [commandWord 0x01 0]
  | .addLayer l => [commandWord 0x02 l.toNat]
  | .setBrightness v => [commandWord 0x03 v.toNat]
  | .setRefreshRate v => [commandWord 0x04 v.toNat]
  | .setRotation v => [commandWord 0x05 v.toNat]
  | .setCcMode v => [commandWord 0x06 v.toNat]
  | .swapBuffers c l => [commandWord 0x07 (c.toNat * 2 ^ 8 + l.toNat)]
  | .getRefreshRate => [commandWord 0x08 0]
  | .getUnderrun => [commandWord 0x09 0]
  | .getLowered => [commandWord 0x0A 0]
  | .setColor ch v => [commandWord 0x0B (ch.code.toNat * 2 ^ 16 + v.toNat)]
  | .setIndex v => [commandWord 0x0C v.toNat]
  | .drawPixel l x y => [commandWord 0x0D (l.toNat * 2 ^ 20 + x.toNat * 2 ^ 10 + y.toNat)]
  | .rbInit => [tagWord 0x10]
  | .rbIsFull => [tagWord 0x11]
  | .rbIsEmpty => [tagWord 0x12]
  | .rbNextW => [tagWord 0x13]
  | .rbCommitW => [tagWord 0x14]
  | .rbNextR => [tagWord 0x15]
  | .rbCommitR => [tagWord 0x16]
  | .ttCalc => [tagWord 0x20]
  | .encPlane24 w i => [tagWord 0x30, argWord w, argWord i]
  | .encPlane36 w i => [tagWord 0x31, argWord w, argWord i]
  | .encPlane48 w i => [tagWord 0x32, argWord w, argWord i]
  | .lBegin l => [tagWord 0x40, argWord l]
  | .lFrame l => [tagWord 0x41, argWord l]
  | .lFillRow l y g j sh =>
    [tagWord 0x42, argWord l, argWord y, argWord g, argWord j, argWord sh]
  | .lSetRot l rot => [tagWord 0x43, argWord l, argWord rot]
  | .lSetRate l rate => [tagWord 0x44, argWord l, argWord rate]
  | .lScrollStep l => [tagWord 0x45, argWord l]
  | .compSetRot rot => [tagWord 0x48, argWord rot]
  | .compSetRate rate => [tagWord 0x49, argWord rate]
  | .compFrame => [tagWord 0x4A]
  | .compFillRow y g j => [tagWord 0x4B, argWord y, argWord g, argWord j]
  | .engBeat => [tagWord 0x50]
  | .evComplete => [tagWord 0x51]
  | .schRecover => [tagWord 0x52]
  | .schStart => [tagWord 0x53]
  | .schLowerRate => [tagWord 0x54]
  | .pWake => [tagWord 0x60]
  | .pStep => [tagWord 0x61]
  | .calcStep => [tagWord 0x62]

/-- The words of the opcode table's instruction whose bits are `w`: the table's word, then operand
words of zeros up to the longest record (five). -/
def tableWords (nbits w : Nat) : List Word :=
  [BitVec.ofNat 32 (w % 2 ^ nbits), 0, 0, 0, 0, 0]

/-- The instruction the decoder reads from an opcode-table word. -/
def decodeTableWord (nbits w : Nat) : Option Instr :=
  match decode (tableWords nbits w) with
  | some (i, _) => some i
  | none => none

end Sys2Proof
end

