-- ==== Sys2Proof/Machine/Fetch.lean ====
section
/-! DEFINITION. What the next step is: whose turn it is (60_exceptions.md R361, R362), and what that agent
does with it. -/

namespace Sys2Proof.Machine

/-- What a step does, with the state it does it in. -/
inductive Chosen where
  /-- An operation is performed. -/
  | perform (i : Instr) (s : State)
  /-- The host takes the next phase of its SWAPBUFFERS, or is held in it (R330). -/
  | phase (s : State)
  /-- The agent has no enabled operation and its turn passes (log 2). -/
  | pass (s : State)
  /-- The word spells no operation (30_encoding.md R127). -/
  | illegal (w : Word)
  deriving DecidableEq, Repr

/-- The agent a free choice names. -/
def agentOf (k : Fin 3) : Agent :=
  if k = 0 then .host else if k = 1 then .producer else .engine

/-- The agent whose turn is next: the first of the turns already chosen, else a free one (log 2). -/
def nextAgent (s : State) : Agent :=
  match s.env.turns with
  | a :: _ => a
  | [] => agentOf (Config.freeAgent s.env.turnCount)

/-- The turn is taken. -/
def takeTurn (s : State) : State :=
  match s.env.turns with
  | _ :: rest => s.setEnv { s.env with turns := rest }
  | [] => s.setEnv { s.env with turnCount := s.env.turnCount + 1 }

/-- The engine's enabled operation; with `begun = 1` there is always exactly one (R283). -/
def engineTurn (s : State) : Chosen :=
  if beatEnabled s then .perform .engBeat s
  else if completeEnabled s then .perform .evComplete s
  else .pass s

/-- The producer's enabled operation, if any (R307, R308, R310). -/
def producerTurn (s : State) : Chosen :=
  if wakeEnabled s then .perform .pWake s
  else if s.prod.calcState = .running then .perform .pStep s
  else .pass s

/-- The host's turn: the next word of the command port when READY (R320), else the SWAPBUFFERS in
progress (R330). -/
def hostTurn (s : State) : Chosen :=
  if s.host.hostState = .ready then
    match s.env.commands with
    | [] => .pass s
    | w :: rest =>
      match decodePort s.cfg w with
      | some i => .perform i (s.setEnv { s.env with commands := rest })
      | none => .illegal w
  else .phase s

/-- The turn of an agent. -/
def agentTurn (a : Agent) (s : State) : Chosen :=
  match a with
  | .host => hostTurn s
  | .producer => producerTurn s
  | .engine => engineTurn s

/-- What the next step does. An operation record on the bench is performed on its own, before any agent's
turn (log 4); the block itself has none there. -/
def choose (s : State) : Chosen :=
  match s.env.bench with
  | [] => agentTurn (nextAgent s) (takeTurn s)
  | w :: ws =>
    match decode (w :: ws) with
    | some (i, _) => .perform i (s.setEnv { s.env with bench := [] })
    | none => .illegal w

/-- `s` with the opcode table's word `w` placed for the very next step (log 3, log 4): a command word
first at the command port, with the host READY and its turn next; a micro-operation's tag on the bench,
with operand words of zeros. -/
def placeWord (s : State) (nbits w : Nat) : State :=
  match decodeCommand (BitVec.ofNat 32 (w % 2 ^ nbits)) with
  | some _ =>
    (s.setHost { s.host with hostState := .ready }).setEnv
      { s.env with
        turns := .host :: s.env.turns
        commands := BitVec.ofNat 32 (w % 2 ^ nbits) :: s.env.commands
        bench := [] }
  | none => s.setEnv { s.env with bench := tableWords nbits w }

end Sys2Proof.Machine
end

