-- ==== Sys2Proof/Machine/Step.lean ====
section
/-! DEFINITION. One step of the block: one turn of one agent (60_exceptions.md R362). -/

namespace Sys2Proof.Machine

/-- One step. -/
def step (s : State) : Host.Outcome State Fault Refusal :=
  match choose s with
  | .perform i s => exec i s
  | .phase s => hostPhase s
  | .pass s => .next s
  | .illegal w => .refused (.illegalWord w)

/-- `s` with an opcode-table word placed for the next step. -/
def State.withFetchWord (s : State) (nbits w : Nat) : State := placeWord s nbits w

end Sys2Proof.Machine
end

