-- ==== Sys2Proof/Machine/Image.lean ====
section
/-! DEFINITION. MemRead and MemWrite over the linear image of space SLOT (20_memory.md R94, R95). No
operation of the block is defined through them. -/

namespace Sys2Proof.Machine

/-- An access the image admits (R94, R95): 1, 2 or 4 bytes, aligned to its size, inside the pool. -/
def imageAccess (c : Config) (a n : Nat) : Bool :=
  decide (n = 1 ∨ n = 2 ∨ n = 4) && decide (a % n = 0) && decide (a + n ≤ c.poolBytes)

/-- `MemRead(SLOT, a, n)` (R94). -/
def memRead (s : State) (a n : Nat) : Host.Outcome Nat Fault Refusal :=
  if imageAccess s.cfg a n then
    match Memory.readLE s.slots a n with
    | some v => .next v
    | none => .fault (.unspecifiedRead .slot)
  else .refused .badAccess

/-- `MemWrite(SLOT, a, n, v)` stores `v mod 2^(8n)` (R94). -/
def memWrite (s : State) (a n v : Nat) : Res :=
  if imageAccess s.cfg a n then .next (s.setSlots (Store.writeRange s.slots a (leBytes n v)))
  else .refused .badAccess

end Sys2Proof.Machine
end

