-- ==== Sys2Proof/Safety.lean ====
section
/-! DEFINITION. The terms in which claims about the block are stated: the composited colour of a pixel, what
it takes for a layer, the timing table and a slot to be readable, and the invariants of every reachable
state (10_state.md R57, R46, R50; 44_refresh_scheduler.md R284). -/

namespace Sys2Proof.Machine

/-! ### Composition -/

/-- What a layer's sample leaves in a pixel that held `under` (43_compositor.md R233, R220). -/
def paint (sh : BitVec 4) (under : Rgb) : Sample → Rgb
  | .colour v => shiftColour v sh
  | .leave => under
  | .unspecified => under

/-- The colour of pixel `(y, x)` after the layers `ls` have painted over `under`, the first of them first
(R243). -/
def paintAll (c : Config) (layers : List Layer) (sh : BitVec 4) (y x : Nat) (under : Rgb) :
    List Nat → Rgb
  | [] => under
  | l :: ls =>
    match layers[l]? with
    | some lay => paintAll c layers sh y x (paint sh under (sample c lay y x)) ls
    | none => paintAll c layers sh y x under ls

/-- Layer `l` of the pool has a value for every column of display row `y`. -/
def rowWritten (s : State) (l y : Nat) : Prop :=
  ∃ lay, s.layers[l]? = some lay ∧ ∀ x, x < s.cfg.width → sample s.cfg lay y x ≠ .unspecified

/-- The working rows of one hardware row are all written. -/
def workWritten (c : Config) (work : Store Rgb) : Prop :=
  ∀ k, k < 2 * c.stack * c.width → ∃ v, Store.read work k = some v

/-! ### Layers -/

/-- The element with index `k` of a layer's buffers has not been written; a text layer has no buffers. -/
def Content.UnwrittenAt (k : Nat) : Content → Prop
  | .background bufs => Store.read bufs k = none
  | .indexed _ _ bufs => Store.read bufs k = none
  | .monoGfx _ bufs => Store.read bufs k = none
  | .scrollingText _ => False

/-- Every element of every buffer, or of the canvas, is written, and every index has a palette entry
(10_state.md R44, R46). -/
def Content.written (c : Config) (count : Nat) : Content → Prop
  | .background bufs => ∀ k, k < count * bufferSize c → ∃ v, Store.read bufs k = some v
  | .indexed _ palette bufs =>
    ∀ k, k < count * bufferSize c → ∃ v, Store.read bufs k = some v ∧ v.toNat < palette.length
  | .monoGfx _ bufs => ∀ k, k < count * bufferSize c → ∃ v, Store.read bufs k = some v
  | .scrollingText t => ∀ k, k < bufferSize c → ∃ v, Store.read t.canvas k = some v

/-- The canonical form of a layer's memory. -/
def Content.wf : Content → Bool
  | .background bufs => Store.wf bufs
  | .indexed _ _ bufs => Store.wf bufs
  | .monoGfx _ bufs => Store.wf bufs
  | .scrollingText t => Store.wf t.canvas

/-- The palette of an indexed layer is as large as `IndexBits` says (R46). -/
def Content.paletteFits : Content → Prop
  | .background _ => True
  | .indexed n palette _ => n ≤ 8 ∧ palette.length = 2 ^ n
  | .monoGfx _ _ => True
  | .scrollingText _ => True

/-- A colour of three `uN` channels (10_state.md R46). -/
def FitsDepth (c : Config) (v : Rgb) : Prop :=
  v.r.toNat < 2 ^ c.depth ∧ v.g.toNat < 2 ^ c.depth ∧ v.b.toNat < 2 ^ c.depth

/-- Every written element of a sparse memory has the property. -/
def Store.All {α : Type} (P : α → Prop) (m : Store α) : Prop :=
  ∀ k v, Store.read m k = some v → P v

/-- The kind-specific values of a layer are as wide as their types (10_state.md R46): every colour has `uN`
channels, every index is below `2^IndexBits`. -/
def Content.Fits (c : Config) : Content → Prop
  | .background bufs => Store.All (FitsDepth c) bufs
  | .indexed n palette bufs =>
    (∀ v ∈ palette, FitsDepth c v) ∧ Store.All (fun k => k.toNat < 2 ^ n) bufs
  | .monoGfx colour _ => FitsDepth c colour
  | .scrollingText t => FitsDepth c t.colour

/-- What holds of every layer of the pool: its buffer indices are legal and pairwise distinct (R44,
R57 (f)), its memory canonical. -/
structure Layer.Built (lay : Layer) : Prop where
  count : lay.bufferCount = 2 ∨ lay.bufferCount = 3
  palette : lay.content.paletteFits
  memory : lay.content.wf = true
  refresh : lay.refreshBuffer < lay.bufferCount
  draw : lay.drawBuffer < lay.bufferCount
  distinct : lay.drawBuffer ≠ lay.refreshBuffer
  third : lay.bufferCount = 3 →
    lay.previousBuffer < 3 ∧ lay.previousBuffer ≠ lay.refreshBuffer ∧
      lay.previousBuffer ≠ lay.drawBuffer

/-- What holds of a layer from its L.BEGIN on (43_compositor.md R231, R237). -/
structure Layer.Ready (c : Config) (lay : Layer) : Prop where
  written : lay.content.written c lay.bufferCount
  size : (lay.localWidth, lay.localHeight) = c.localSize lay.rotation

/-- The `next` fields lead from `at_` through exactly the layers `ls` (43_compositor.md R221). -/
def Linked (layers : List Layer) : Option Nat → List Nat → Prop
  | at_, [] => at_ = none
  | at_, l :: rest => at_ = some l ∧ ∃ lay, layers[l]? = some lay ∧ Linked layers lay.next rest

/-- The greatest `requestedShifts` of the layers `ls` (10_state.md R49). -/
def maxShifts (layers : List Layer) : List Nat → Nat
  | [] => 0
  | l :: ls =>
    match layers[l]? with
    | some lay => max lay.requestedShifts.toNat (maxShifts layers ls)
    | none => maxShifts layers ls

/-- The chain is made of the attached layers, each once (R45, R49). -/
structure ChainOk (s : State) (ls : List Nat) : Prop where
  linked : Linked s.layers s.chain.head ls
  once : ls.Nodup
  attached : ∀ l, l ∈ ls ↔ ∃ lay, s.layers[l]? = some lay ∧ lay.attached = true
  tail : s.chain.tail = ls.getLast?
  count : s.chain.count = ls.length
  shifts : s.chain.brightnessShifts.toNat = maxShifts s.layers ls

/-- SWAPBUFFERS and DRAWPIXEL may name layer `l` (R335). -/
def Drawable (s : State) (l : Nat) : Prop :=
  ∃ lay, s.layers[l]? = some lay ∧ lay.attached = true ∧ lay.content.isText = false

/-! ### Tables and slots -/

/-- A timing pair as R50 demands it. -/
def pairOk (c : Config) (p : TimingPair) : Prop :=
  p.onTime.toNat ≤ p.period.toNat ∧ c.minBlockPeriod ≤ p.period.toNat

/-- The whole timing table is written, every pair as R50 demands. -/
def tableReady (c : Config) (tt : Store TimingPair) : Prop :=
  ∀ i, i < c.depth → ∃ p, Store.read tt i = some p ∧ pairOk c p

/-- Slot `w` is completely written and holds hardware row `r` (R51, R57 (e)). -/
structure SlotReady (c : Config) (m : Memory) (w r : Nat) : Prop where
  address : slotRowAddress c m w = some (BitVec.ofNat 16 r)
  timing : ∀ i, i < c.depth → ∃ p, slotTiming c m w i = some p ∧ pairOk c p
  plane : ∀ i, i < c.depth → ∃ ws, slotPlane c m w i = some ws

/-! ### The invariants -/

/-- The control and position fields stay legal (R34, R40 to R43, R57 (a) to (d), R310). -/
structure RegInv (s : State) : Prop where
  valid : s.cfg.valid = true
  minRate : s.cfg.minRefreshRate ≤ s.ctl.refreshRate.toNat
  maxRate : s.ctl.refreshRate.toNat ≤ s.cfg.maxRefreshRate
  count : s.ring.count ≤ s.cfg.capacity
  start : s.ring.start < s.cfg.capacity
  row : s.prod.rowIndex < s.cfg.scanRows
  slot : s.eng.curSlot < s.cfg.capacity
  stopped : s.flags.begun = false ↔ s.eng.schedState = .stopped
  source : s.eng.timingSource = .slot ↔ s.eng.schedState = .shifting
  shifting : s.eng.schedState = .shifting →
    1 ≤ s.ring.count ∧ s.eng.curSlot = s.ring.start ∧ s.eng.beatIndex ≤ s.cfg.depth
  underrun : s.eng.schedState = .underrun → s.ring.count = 0 ∧ s.eng.beatIndex ≤ 1
  atRest : s.flags.begun = false →
    s.ring.count = 0 ∧ s.eng.beatIndex = 0 ∧ s.flags.calcWake = false
  running : s.prod.calcState = .running → s.flags.begun = true
  wake : s.flags.begun = true → s.ring.count < s.cfg.capacity →
    s.flags.calcWake = true ∨ s.prod.calcState = .running

/-- The memories and the layers stay readable (R44 to R52, R57 (f)). -/
structure MemInv (s : State) : Prop where
  pool : s.layers.length = s.cfg.maxLayers
  built : ∀ lay ∈ s.layers, lay.Built
  ready : ∀ lay ∈ s.layers, lay.attached = true → lay.Ready s.cfg
  chain : ∃ ls, ChainOk s ls
  table : s.flags.begun = true → tableReady s.cfg s.tt
  ttWf : Store.wf s.tt = true
  slotsWf : Memory.wf s.slots = true
  workWf : Store.wf s.work = true
  swap : ∀ l copy, s.host.hostState = .swapWait1 l copy → Drawable s l
  copy : ∀ l, s.host.hostState = .swapWait2 l → Drawable s l

/-- The values of narrower types stay in them (log 17): those of every layer (R46) and the `Rgb uN` samples
of the working rows (R52). -/
structure DepthInv (s : State) : Prop where
  layers : ∀ lay ∈ s.layers, lay.content.Fits s.cfg
  work : Store.All (FitsDepth s.cfg) s.work

/-- The data beats of the panel port trace, the oldest first. -/
def dataBeats (s : State) : List Beat := s.out.trace.filter fun b => b.kind == .data

/-- How many beats of the slot in flight are out. -/
def beatsOut (s : State) : Nat := if s.eng.schedState = .shifting then s.eng.beatIndex else 0

/-- The order of rows (R284, 20_memory.md R106), `g` the number of rows that have left the ring. Rows are
produced and shown in the order `0, 1, .., R-1, 0, ..`: the ring's slot number `k` holds row `g + k` of that
sequence, and data beat number `n` shows bit-plane `n mod N` of row `n div N`. -/
structure RowOrder (s : State) (g : Nat) : Prop where
  queued : ∀ k, k < s.ring.count →
    SlotReady s.cfg s.slots ((s.ring.start + k) % s.cfg.capacity) ((g + k) % s.cfg.scanRows)
  next : s.prod.rowIndex = (g + s.ring.count) % s.cfg.scanRows
  shown : (dataBeats s).length = g * s.cfg.depth + beatsOut s
  order : ∀ n b, (dataBeats s)[n]? = some b →
    b.plane = some (n % s.cfg.depth) ∧
      b.rowAddress = some (BitVec.ofNat 16 (n / s.cfg.depth % s.cfg.scanRows))
  fresh : s.flags.begun = false → g = 0

/-- The invariant of every state a run reaches, with no operation record on the bench. -/
structure Inv (s : State) : Prop where
  regs : RegInv s
  mem : MemInv s
  depth : DepthInv s
  rows : ∃ g, RowOrder s g
  bench : s.env.bench = []

/-- What a calculation needs: readable layers on a chain, a rate in range, and a timing table that is
written or is about to be (R301). -/
structure CalcReady (s : State) : Prop where
  valid : s.cfg.valid = true
  minRate : s.cfg.minRefreshRate ≤ s.ctl.refreshRate.toNat
  maxRate : s.ctl.refreshRate.toNat ≤ s.cfg.maxRefreshRate
  row : s.prod.rowIndex < s.cfg.scanRows
  start : s.ring.start < s.cfg.capacity
  built : ∀ lay ∈ s.layers, lay.Built
  ready : ∀ lay ∈ s.layers, lay.attached = true → lay.Ready s.cfg
  chain : ∃ ls, ChainOk s ls
  table : tableReady s.cfg s.tt ∨
    (s.prod.rowIndex = 0 ∧ (s.flags.brightnessChanged = true ∨ s.flags.refreshRateChanged = true))

/-- Every element of the chain is read without a fault in every row. -/
def ChainWritten (s : State) (ls : List Nat) : Prop :=
  chainLayers s = some ls ∧ ∀ l ∈ ls, ∀ y, y < s.cfg.height → rowWritten s l y

/-- The state a calculation composes and fills in: after the frame-start work where `ROWINDEX` is 0
(R301). -/
def frameEntered (s : State) : Res := if s.prod.rowIndex = 0 then frameStart s else .next s

/-- What a filled slot holds (R304): the row address, the current timing pairs, the encoded planes. -/
structure SlotFilled (c : Config) (tt : Store TimingPair) (work : Store Rgb) (m : Memory) (w r n : Nat) :
    Prop where
  address : slotRowAddress c m w = some (BitVec.ofNat 16 r)
  timing : ∀ i, i < n → slotTiming c m w i = Store.read tt i
  plane : ∀ i, i < n → slotPlane c m w i = planeWords c work i

/-! ### Guarded use of the ring (40_ring_buffer.md R159) -/

/-- The states that RB.INIT and then guarded writes and reads lead to from `s0`: `written` RB.COMMITWs and
`consumed` RB.COMMITRs, and in `holds` the number of the write each slot was last used for. -/
inductive RingRun (s0 : State) : State → Nat → Nat → Store Nat → Prop
  | init (s : State) (h : exec .rbInit s0 = .next s) : RingRun s0 s 0 0 []
  | write (s t : State) (written consumed : Nat) (holds : Store Nat)
      (run : RingRun s0 s written consumed holds) (guard : ringIsFull s = false)
      (h : exec .rbCommitW s = .next t) :
      RingRun s0 t (written + 1) consumed (Store.write holds (ringNextW s) written)
  | read (s t : State) (written consumed : Nat) (holds : Store Nat)
      (run : RingRun s0 s written consumed holds) (guard : ringIsEmpty s = false)
      (h : exec .rbCommitR s = .next t) :
      RingRun s0 t written (consumed + 1) holds

/-! ### Repeated operations -/

/-- An operation performed `n` times. -/
def performTimes (n : Nat) (i : Instr) (s : State) : Res :=
  match n with
  | 0 => .next s
  | n + 1 => andThen (exec i s) (performTimes n i)

/-- The machine stepped `n` times. -/
def runSteps (n : Nat) (s : State) : Res :=
  match n with
  | 0 => .next s
  | n + 1 => andThen (step s) (runSteps n)

/-! ### The command port and the operation table -/

/-- The must-be-zero bits of the format of command `op` (30_encoding.md R122, R125); all 24 for H0. -/
def mustBeZero (op : Nat) : Nat :=
  match op with
  | 0x02 => 0xFFFFF0
  | 0x03 => 0xFFFF00
  | 0x04 => 0xFF0000
  | 0x05 => 0xFFFFFC
  | 0x06 => 0xFFFF00
  | 0x07 => 0xFFFEF0
  | 0x0B => 0xFC0000
  | 0x0C => 0xFFFF00
  | 0x0D => 0x000000
  | _ => 0xFFFFFF

/-- The `layer` field of a word, for the three commands that have one (R122, R125). -/
def layerField (w : Nat) : Option Nat :=
  if w / 2 ^ 24 = 0x02 ∨ w / 2 ^ 24 = 0x07 then some (w % 16)
  else if w / 2 ^ 24 = 0x0D then some (w / 2 ^ 20 % 16)
  else none

/-- The word with the bits `w` is illegal on the command port (R127). -/
def IllegalOnPort (c : Config) (w : Nat) : Prop :=
  w / 2 ^ 24 = 0 ∨ 0x0E ≤ w / 2 ^ 24 ∨ w &&& mustBeZero (w / 2 ^ 24) ≠ 0 ∨
    (∃ l, layerField w = some l ∧ c.maxLayers ≤ l) ∨
    (w / 2 ^ 24 = 0x0B ∧ w / 2 ^ 16 % 4 = 3)

/-- Mnemonic and operation id of the micro-operations (R126). -/
def microIds : List (String × Nat) :=
  [("RB.INIT", 0x10), ("RB.ISFULL", 0x11), ("RB.ISEMPTY", 0x12), ("RB.NEXTW", 0x13),
    ("RB.COMMITW", 0x14), ("RB.NEXTR", 0x15), ("RB.COMMITR", 0x16), ("TT.CALC", 0x20)] ++
  [("ENC.PLANE24", 0x30), ("ENC.PLANE36", 0x31), ("ENC.PLANE48", 0x32), ("L.BEGIN", 0x40),
    ("L.FRAME", 0x41), ("L.FILLROW", 0x42), ("L.SETROT", 0x43), ("L.SETRATE", 0x44),
    ("L.SCROLLSTEP", 0x45)] ++
  [("COMP.SETROT", 0x48), ("COMP.SETRATE", 0x49), ("COMP.FRAME", 0x4A), ("COMP.FILLROW", 0x4B),
    ("ENG.BEAT", 0x50), ("EV.COMPLETE", 0x51), ("SCH.RECOVER", 0x52), ("SCH.START", 0x53),
    ("SCH.LOWERRATE", 0x54), ("P.WAKE", 0x60), ("P.STEP", 0x61), ("CALC.STEP", 0x62)]

/-! ### The timing table as the spec computes it -/

/-- The width of trial `k` of the search, from `T div 2` down by `MsbDecrement`, not below 0
(41_timing_table.md R172, R175). -/
def trialWidth (c : Config) (ticks k : Nat) : Nat := ticks / 2 - k * c.msbDecrement

/-- The padding of bit-plane `i` for width `m` (R173, R174). -/
def pad (c : Config) (m i : Nat) : Nat :=
  c.minBlockPeriod - (m / 2 ^ (c.depth - 1 - i) + c.pulseWidth)

/-- The period of bit-plane `i` for width `m` (R171). -/
def specPeriod (c : Config) (m i : Nat) : Nat :=
  m / 2 ^ (c.depth - 1 - i) + c.pulseWidth + pad c m i

/-- The on-time of bit-plane `i` for width `m` and brightness `b` (R171). -/
def specOnTime (c : Config) (b m i : Nat) : Nat :=
  m / 2 ^ (c.depth - 1 - i) * b / 255 + c.pulseWidth + pad c m i

/-- The periods for width `m` fit the budget (R171 step 4). -/
def FitsBudget (c : Config) (ticks m : Nat) : Prop :=
  ((List.range c.depth).map (specPeriod c m)).sum ≤ ticks

/-! ### The encoder -/

/-- Bit `k` of the data word for a pair of samples and bit-plane `i` (42_row_encoder.md R196). -/
def pinSet (p : PinMap) (upper lower : Rgb) (i k : Nat) : Bool :=
  (k == p.r0 && upper.r.getLsbD i) || (k == p.g0 && upper.g.getLsbD i) ||
    (k == p.b0 && upper.b.getLsbD i) || (k == p.r1 && lower.r.getLsbD i) ||
    (k == p.g1 && lower.g.getLsbD i) || (k == p.b1 && lower.b.getLsbD i)

/-- Plane block `i` of slot `w` in `m` holds, at every chain position, the data word of R196 for the working
rows `work`, doubled where the instance doubles (R201); `reversed` segments run backwards (R195). -/
def PlaneHolds (c : Config) (work : Store Rgb) (m : Memory) (w i : Nat) : Prop :=
  ∀ g u, g < c.stack → u < c.width →
    ∃ (upper lower : Rgb) (d : Word),
      Store.read work (workIndex c g 0 + (if c.reversed g then c.width - 1 - u else u)) = some upper ∧
      Store.read work (workIndex c g 1 + (if c.reversed g then c.width - 1 - u else u)) = some lower ∧
      (∀ k, d.getLsbD k = pinSet c.pins upper lower i k) ∧
      if c.clockDoubling then
        slotWord c m w i (2 * (g * c.width + u)) = some d ∧
          slotWord c m w i (2 * (g * c.width + u) + 1) = some (d ||| 1#32 <<< c.pins.clock)
      else slotWord c m w i (g * c.width + u) = some d

/-- `m` holds plane block `i` of slot `w` and is otherwise the slot pool of `s` (R192). -/
def PlaneEncoded (s : State) (w i : Nat) (m : Memory) : Prop :=
  PlaneHolds s.cfg s.work m w i ∧
    ∀ a, (a < s.cfg.planeOffset w i + 4 ∨ s.cfg.planeOffset w i + s.cfg.planeBytes ≤ a) →
      Store.read m a = Store.read s.slots a

/-! ### What the layer operations do to a layer -/

/-- A canvas holds, at every pixel, the bit that `Rasterise(l, position, rot)` returns (R252). -/
def Rasterised (c : Config) (l : Nat) (position : Half) (rot : BitVec 2) (canvas : Store Bool) : Prop :=
  ∀ y x, y < c.height → x < c.width →
    Store.read canvas (canvasIndex c y x) = some (Config.rasterise c.collaborator l position rot y x)

/-- Every element of every buffer of a layer is `v`. -/
def Cleared {α : Type} (c : Config) (count : Nat) (v : α) (bufs : Store α) : Prop :=
  ∀ b y x, b < count → y < c.height → x < c.width → Store.read bufs (bufferIndex c b y x) = some v

/-- L.SETROT(l, rot) leads from `a` to `b` (43_compositor.md R237). -/
def RotatedTo (c : Config) (l : Nat) (rot : BitVec 2) (a b : Layer) : Prop :=
  b = { a with
    rotation := rot
    localWidth := if rot = 0 ∨ rot = 2 then c.width else c.height
    localHeight := if rot = 0 ∨ rot = 2 then c.height else c.width
    content := b.content } ∧
  match a.content with
  | .scrollingText t =>
    ∃ canvas, b.content = .scrollingText { t with canvas := canvas } ∧
      Rasterised c l t.position rot canvas
  | .background _ | .indexed _ _ _ | .monoGfx _ _ => b.content = a.content

/-- L.SETRATE(l, rate) leads from `a` to `b` (R238). -/
def RatedTo (rate : Half) (a b : Layer) : Prop :=
  b = { a with refreshRate := rate, content := b.content } ∧
  match a.content with
  | .scrollingText t =>
    ∃ frames : Half, b.content = .scrollingText { t with framesPerScroll := frames } ∧
      (1 ≤ t.pixelsPerSecond.toNat →
        frames.toNat = max 1 (rate.toNat / t.pixelsPerSecond.toNat))
  | .background _ | .indexed _ _ _ | .monoGfx _ _ => b.content = a.content

/-- The scrolling fields that L.SCROLLSTEP moves, as numbers. -/
structure ScrollView where
  mode : ScrollMode
  position : Int
  counter : Nat
  frame : Nat
  deriving DecidableEq, Repr

/-- The fields of a layer. -/
def Scroll.view (t : Scroll) : ScrollView :=
  ⟨t.mode, t.position.toInt, t.scrollCounter.toNat, t.currentFrame.toNat⟩

/-- The layer is parked or halted (R250). -/
def Scroll.rests (t : Scroll) : Bool :=
  decide (t.scrollCounter = 0 ∨ t.mode = .stopped ∨ t.mode = .off)

/-- Parking (R250): a counter that is 0 after a move puts the position at the left offset. -/
def ScrollView.park (left : Int) (v : ScrollView) : ScrollView :=
  if v.counter = 0 then { v with position := left } else v

/-- R250 on numbers, where `f` is the frame counter plus one and `p` the position after the move. -/
def Scroll.stepped (t : Scroll) (f : Nat) (p : Int) : ScrollView :=
  if t.rests then t.view
  else if f < t.framesPerScroll.toNat then { t.view with frame := f }
  else
    ScrollView.park t.leftOffset.toInt <|
      match t.mode with
      | .wrapForward =>
        if p ≤ t.scrollMin.toInt then ⟨.wrapForward, t.scrollMax.toInt, t.scrollCounter.toNat - 1, 0⟩
        else ⟨.wrapForward, p, t.scrollCounter.toNat, 0⟩
      | .bounceForward =>
        if p ≤ t.scrollMin.toInt then ⟨.bounceReverse, p, t.scrollCounter.toNat - 1, 0⟩
        else ⟨.bounceForward, p, t.scrollCounter.toNat, 0⟩
      | .bounceReverse =>
        if t.scrollMax.toInt ≤ p then ⟨.bounceForward, p, t.scrollCounter.toNat - 1, 0⟩
        else ⟨.bounceReverse, p, t.scrollCounter.toNat, 0⟩
      | .stopped => t.view
      | .off => t.view

/-- L.SCROLLSTEP(l) leads from the fields `t` to `u` for a layer with rotation `rot` (R250). The frame
counter plus one and the moved position are `f` and `p`; where 16 bits do not hold them the spec states
no value and `f` or `p` is any value (log 8). The canvas is rasterised again exactly when the layer moved. -/
def ScrolledTo (c : Config) (l : Nat) (rot : BitVec 2) (t u : Scroll) : Prop :=
  u = { t with
    mode := u.mode
    position := u.position
    scrollCounter := u.scrollCounter
    currentFrame := u.currentFrame
    canvas := u.canvas } ∧
  ∃ f p : Half,
    (t.currentFrame.toNat < 65535 → f.toNat = t.currentFrame.toNat + 1) ∧
    ((t.mode = .wrapForward ∨ t.mode = .bounceForward) → -32768 < t.position.toInt →
      p.toInt = t.position.toInt - 1) ∧
    (t.mode = .bounceReverse → t.position.toInt < 32767 → p.toInt = t.position.toInt + 1) ∧
    u.view = t.stepped f.toNat p.toInt ∧
    if t.rests ∨ f.toNat < t.framesPerScroll.toNat then u.canvas = t.canvas
    else Rasterised c l u.position rot u.canvas

/-- L.FRAME(l) leads from `a` to `b` (R235, R236). -/
def FramedTo (c : Config) (l : Nat) (a b : Layer) : Prop :=
  match a.content with
  | .scrollingText t =>
    ∃ u, b = { a with content := .scrollingText u } ∧ ScrolledTo c l a.rotation t u
  | .background _ | .indexed _ _ _ | .monoGfx _ _ =>
    if a.swapPending then
      b = { a with
        swapPending := false
        refreshBuffer := a.drawBuffer
        drawBuffer := if a.bufferCount = 3 then a.previousBuffer else a.refreshBuffer
        previousBuffer := if a.bufferCount = 3 then a.refreshBuffer else a.previousBuffer }
    else b = a

/-- Every layer of `ls` goes from its record in `old` to its record in `new` by `R`, and no other record
changes. -/
def EachLayer (R : Nat → Layer → Layer → Prop) (ls : List Nat) (old new : List Layer) : Prop :=
  new.length = old.length ∧
  (∀ l a, l ∈ ls → old[l]? = some a → ∃ b, new[l]? = some b ∧ R l a b) ∧
  ∀ l, l ∉ ls → new[l]? = old[l]?

/-- The copy-forward of SWAPBUFFERS leads from `a` to `b` (46_host_controls.md R330): every element of the
draw buffer is the refresh buffer's, every other element is unchanged. -/
def CopiedForward (c : Config) (a b : Layer) : Prop :=
  b = { a with content := b.content } ∧
  match a.content, b.content with
  | .background m, .background n => Copied c a.refreshBuffer a.drawBuffer m n
  | .indexed k p m, .indexed k' p' n => k' = k ∧ p' = p ∧ Copied c a.refreshBuffer a.drawBuffer m n
  | .monoGfx v m, .monoGfx v' n => v' = v ∧ Copied c a.refreshBuffer a.drawBuffer m n
  | _, _ => False
where
  /-- Buffer `dst` of `n` is buffer `src` of `m`, and the rest of `n` is `m`. -/
  Copied {α : Type} (c : Config) (src dst : Nat) (m n : Store α) : Prop :=
    (∀ y x, y < c.height → x < c.width →
      Store.read n (bufferIndex c dst y x) = Store.read m (bufferIndex c src y x)) ∧
    ∀ k, (k < bufferIndex c dst 0 0 ∨ bufferIndex c (dst + 1) 0 0 ≤ k) →
      Store.read n k = Store.read m k

/-- DRAWPIXEL leads from the content `a` to `b` (R332): the element at index `k` is the draw colour's low
`N` bits, the draw index's low `IndexBits` bits, or its lowest bit; every other element is unchanged. -/
def DrawnAt (c : Config) (h : HostRegs) (k : Nat) (a b : Content) : Prop :=
  match a, b with
  | .background m, .background n =>
    (∃ v, Store.read n k = some v ∧ v.r.toNat = h.drawColor.r.toNat % 2 ^ c.depth ∧
      v.g.toNat = h.drawColor.g.toNat % 2 ^ c.depth ∧
      v.b.toNat = h.drawColor.b.toNat % 2 ^ c.depth) ∧ Elsewhere k m n
  | .indexed bits p m, .indexed bits' p' n =>
    bits' = bits ∧ p' = p ∧
      (∃ v : Byte, Store.read n k = some v ∧ v.toNat = h.drawIndex.toNat % 2 ^ bits) ∧ Elsewhere k m n
  | .monoGfx v m, .monoGfx v' n =>
    v' = v ∧ Store.read n k = some (h.drawIndex.getLsbD 0) ∧ Elsewhere k m n
  | _, _ => False
where
  /-- The two stores agree but for index `k`. -/
  Elsewhere {α : Type} (k : Nat) (m n : Store α) : Prop :=
    ∀ k', k' ≠ k → Store.read n k' = Store.read m k'

/-! ### Instances -/

/-- The constraints on the parameters, rule by rule (00_scope.md R7 to R17). -/
structure LegalParameters (c : Config) : Prop where
  /-- R7. -/
  depth : c.depth = 8 ∨ c.depth = 12 ∨ c.depth = 16
  /-- R8. -/
  size : 1 ≤ c.width ∧ c.width ≤ 1024 ∧ 1 ≤ c.height ∧ c.height ≤ 1024
  /-- R10, `P = 2`. -/
  geometry : c.panelHeight = 2 * c.rowPairOffset ∧ c.scanRows = c.rowPairOffset ∧
    c.height = c.stack * c.panelHeight ∧ 1 ≤ c.stack
  /-- R12. -/
  capacity : 1 ≤ c.capacity ∧ c.capacity ≤ 255
  /-- R13. -/
  word : c.wordBits = 8 ∨ c.wordBits = 16 ∨ c.wordBits = 32
  /-- R13: "All `3P + 1` positions are distinct and below `WordBits`". -/
  pins : c.pins.positions.Nodup ∧ ∀ p ∈ c.pins.positions, p < c.wordBits
  /-- R14. -/
  timer : 1 ≤ c.minBlockPeriod ∧ c.minBlockPeriod ≤ 65535 ∧ c.pulseWidth ≤ 65535 ∧
    1 ≤ c.msbDecrement
  /-- R15, R17: there is a least and a greatest supported rate, in order, and `RefreshRateReset` is between
  them. -/
  rates : ∃ least greatest,
    IsLeast {r | 1 ≤ r ∧ c.tickRate / (r * c.scanRows) / 2 + c.pulseWidth ≤ 65535} least ∧
    IsGreatest {r | c.depth * max c.minBlockPeriod c.pulseWidth ≤ c.tickRate / (r * c.scanRows)}
      greatest ∧
    least ≤ c.refreshRateReset.toNat ∧ c.refreshRateReset.toNat ≤ greatest
  /-- R16. -/
  reduction : 1 ≤ c.rateStep ∧ 1 ≤ c.maxLoops
  /-- R17. -/
  pool : 1 ≤ c.maxLayers ∧ c.maxLayers ≤ 16

/-- The constraints on one entry of the pool: `BufferCount` and `IndexBits` (R17), and, by inference (log 20),
the palette and the colours (10_state.md R46) and the launch fields of a text layer (R47). -/
def LegalEntry (c : Config) (e : LayerEntry) : Prop :=
  (e.bufferCount = 2 ∨ e.bufferCount = 3) ∧
  match e.variant with
  | .background => True
  | .indexed n palette =>
    1 ≤ n ∧ n ≤ 8 ∧ palette.length = 2 ^ n ∧ ∀ v ∈ palette, FitsDepth c v
  | .monoGfx v => FitsDepth c v
  | .scrollingText v t =>
    FitsDepth c v ∧ t.scrollMin.toInt < t.scrollMax.toInt ∧ 1 ≤ t.pixelsPerSecond.toNat

/-- The parameters and the pool of an instance (00_scope.md R18). -/
def IsInstance (c : Config) (pool : List LayerEntry) : Prop :=
  LegalParameters c ∧ pool.length = c.maxLayers ∧ ∀ e ∈ pool, LegalEntry c e

end Sys2Proof.Machine
end

