-- ==== Sys2Proof/Certificates/Slice0/Obligations.lean ====
section
/-! DEFINITION. The statements about the block, one for each rule or group of rules of spec/ that says what
an operation or the machine does. A statement that rests on a choice of the model names the log entry. -/

open Sys2Proof Sys2Proof.Machine

/-! ### Encoding -/

/-- R122, R123, R125, R126. The record of every operation, whatever follows it, decodes to that operation
and leaves what follows. That a micro-operation's arguments have operand words is the model's choice
(log 4). -/
def Obligations.DecodeEncodeRoundTrip : Prop :=
  ∀ (i : Instr) (rest : List Word), decode (encode i ++ rest) = some (i, rest)

/-- R121, R122, R125. A host command is spelled by exactly one word: the one it encodes to. -/
def Obligations.EachCommandHasOneWord : Prop :=
  ∀ (w : Word) (i : Instr), decodeCommand w = some i → encode i = [w]

/-- R127. A word on the command port spells no command exactly when it is illegal, and the host's turn at
an illegal word has no step: the model refuses the word by name. -/
def Obligations.PortRefusesExactlyIllegalWords : Prop :=
  (∀ (c : Config) (w : Word), decodePort c w = none ↔ IllegalOnPort c w.toNat) ∧
  ∀ (s : State) (w : Word) (rest : List Word), s.env.bench = [] → nextAgent s = .host →
    s.host.hostState = .ready → s.env.commands = w :: rest → IllegalOnPort s.cfg w.toNat →
    step s = .refused (.illegalWord w)

/-- R130. The worked encodings, both ways, and the worked illegal words. -/
def Obligations.WorkedEncodings : Prop :=
  (∀ p ∈ ([(.beginBlock, 0x01000000), (.addLayer 2, 0x02000002), (.setBrightness 128, 0x03000080),
      (.setRefreshRate 100, 0x04000064), (.setRotation 3, 0x05000003), (.setCcMode 1, 0x06000001),
      (.swapBuffers 1 0, 0x07000100), (.swapBuffers 0 2, 0x07000002),
      (.getRefreshRate, 0x08000000), (.getUnderrun, 0x09000000), (.getLowered, 0x0A000000),
      (.setColor .red 255, 0x0B0000FF), (.setColor .blue 4095, 0x0B020FFF),
      (.setIndex 1, 0x0C000001), (.drawPixel 0 3 1, 0x0D000C01),
      (.drawPixel 1 0 0, 0x0D100000)] : List (Instr × Word)),
    encode p.1 = [p.2] ∧ decodePort Config.rcA p.2 = some p.1) ∧
  decodePort Config.rcA 0x00000000 = none ∧ decodePort Config.rcA 0x01000001 = none ∧
  decodePort Config.rcA 0x0B030000 = none ∧ decodePort Config.rcA 0x14000000 = none

/-- R123, R126. The first word of a micro-operation's record is its operation id and 24 zero bits, the id
of its mnemonic in the table, and the command port refuses it. -/
def Obligations.MicroOperationWordsAreTags : Prop :=
  ∀ i : Instr, i.isCommand = false →
    ∃ (id : Nat) (w : Word) (rest : List Word), (i.mnemonic, id) ∈ microIds ∧
      encode i = w :: rest ∧ w.toNat = id * 2 ^ 24 ∧ ∀ c, decodePort c w = none

/-! ### Steps -/

/-- R320, R362. When the turn is the host's and it is READY, the next word of the command port is
performed: the step is `exec` of the command it spells. The queue of words is the model's (log 3). -/
def Obligations.StepRunsTheHostCommand : Prop :=
  ∀ (s : State) (w : Word) (rest : List Word) (i : Instr), s.env.bench = [] → nextAgent s = .host →
    s.host.hostState = .ready → s.env.commands = w :: rest → decodePort s.cfg w = some i →
    step s = exec i
      { s with env :=
        { bench := []
          commands := rest
          turns := s.env.turns.tail
          turnCount := if s.env.turns = [] then s.env.turnCount + 1 else s.env.turnCount } }

/-- R273, R274, R307, R308, R362. The turn of the engine or of the producer performs the operation the
rules enable; an agent with no enabled operation, or a host with no word to issue, passes (log 2). -/
def Obligations.StepRunsTheEnabledOperation : Prop :=
  ∀ s : State, s.env.bench = [] →
    (takeTurn s =
      { s with env :=
        { s.env with
          turns := s.env.turns.tail
          turnCount := if s.env.turns = [] then s.env.turnCount + 1 else s.env.turnCount } }) ∧
    (nextAgent s = .engine → s.flags.begun = true →
      (s.eng.schedState = .shifting ∧ s.eng.beatIndex < s.cfg.depth) ∨
        (s.eng.schedState = .underrun ∧ s.eng.beatIndex < 1) →
      step s = exec .engBeat (takeTurn s)) ∧
    (nextAgent s = .engine → s.flags.begun = true →
      (s.eng.schedState = .shifting ∧ s.eng.beatIndex = s.cfg.depth) ∨
        (s.eng.schedState = .underrun ∧ s.eng.beatIndex = 1) →
      step s = exec .evComplete (takeTurn s)) ∧
    (nextAgent s = .producer → s.flags.begun = true → s.prod.calcState = .idle →
      s.flags.calcWake = true → step s = exec .pWake (takeTurn s)) ∧
    (nextAgent s = .producer → s.prod.calcState = .running → step s = exec .pStep (takeTurn s)) ∧
    (nextAgent s = .producer → s.prod.calcState = .idle →
      (s.flags.begun = false ∨ s.flags.calcWake = false) → step s = .next (takeTurn s)) ∧
    (nextAgent s = .engine → s.flags.begun = false → step s = .next (takeTurn s)) ∧
    (nextAgent s = .host → s.host.hostState = .ready → s.env.commands = [] →
      step s = .next (takeTurn s))

/-- The model's bench (log 4): an operation's record on it is performed on its own, before any turn. And an
opcode-table word placed by `withFetchWord` is what the very next step performs. -/
def Obligations.StepPerformsTheBenchRecord : Prop :=
  (∀ (s : State) (i : Instr), s.env.bench = encode i →
    step s = exec i { s with env := { s.env with bench := [] } }) ∧
  (∀ (s : State) (w : Nat) (i : Instr), decodeTableWord 32 w = some i → i.isCommand = false →
    step (s.withFetchWord 32 w) = exec i { s with env := { s.env with bench := [] } }) ∧
  ∀ (s : State) (w : Nat) (i : Instr), decodeTableWord 32 w = some i → i.isCommand = true →
    i.wellFormed s.cfg = true →
    step (s.withFetchWord 32 w) =
      exec i { s with host := { s.host with hostState := .ready }, env := { s.env with bench := [] } }

/-- R392. Before BEGIN the engine and the producer have no enabled operation. Their turns then pass, which is
the model's choice (log 2): only the choice of turns moves on. -/
def Obligations.NothingRunsBeforeBegin : Prop :=
  ∀ s : State, Inv s → s.flags.begun = false → nextAgent s ≠ .host → step s = .next (takeTurn s)

/-! ### Ring buffer -/

/-- R151. RB.INIT sets count and start to 0 and touches nothing else. -/
def Obligations.RingInitEmptiesTheRing : Prop :=
  ∀ s : State, exec .rbInit s = .next { s with ring := { start := 0, count := 0 } }

/-- R152, R153, R154, R157. The four queries return their value and write no state of the block; the field
`returned` is the model's (log 12). -/
def Obligations.RingQueriesWriteNoState : Prop :=
  ∀ s : State,
    exec .rbIsFull s =
      .next { s with returned := .flag (decide (s.ring.count = s.cfg.capacity)) } ∧
    exec .rbIsEmpty s = .next { s with returned := .flag (decide (s.ring.count = 0)) } ∧
    exec .rbNextW s =
      .next { s with returned := .index ((s.ring.start + s.ring.count) % s.cfg.capacity) } ∧
    exec .rbNextR s = .next { s with returned := .index s.ring.start }

/-- R155, R158. RB.COMMITW counts up, or drops the oldest slot of a full ring; RB.COMMITR advances the
start and counts down, and on an empty ring raises RingReadEmpty. Nothing else changes. -/
def Obligations.RingCommits : Prop :=
  ∀ s : State,
    (s.ring.count < s.cfg.capacity →
      exec .rbCommitW s = .next { s with ring := { s.ring with count := s.ring.count + 1 } }) ∧
    (s.cfg.capacity ≤ s.ring.count →
      exec .rbCommitW s =
        .next { s with ring := { s.ring with start := (s.ring.start + 1) % s.cfg.capacity } }) ∧
    (1 ≤ s.ring.count →
      exec .rbCommitR s =
        .next { s with ring :=
          { start := (s.ring.start + 1) % s.cfg.capacity, count := s.ring.count - 1 } }) ∧
    (s.ring.count = 0 → exec .rbCommitR s = .fault .ringReadEmpty)

/-- R159. In every sequence of guarded writes and reads after RB.INIT, the count stays in 0..C; after `k`
reads RB.NEXTR is `k mod C`, and with a slot to read that slot holds write number `k`, the oldest one not
yet read. -/
def Obligations.GuardedRingIsFifo : Prop :=
  ∀ (s0 s : State) (written consumed : Nat) (holds : Store Nat), 1 ≤ s0.cfg.capacity →
    RingRun s0 s written consumed holds →
    s.ring.count ≤ s.cfg.capacity ∧ written = consumed + s.ring.count ∧
      ringNextR s = consumed % s.cfg.capacity ∧
      (1 ≤ s.ring.count → Store.read holds (ringNextR s) = some consumed)

/-- R401, R150. In the block the ring changes only by a commit that its guard allows (the overwrite branch
of RB.COMMITW is dead, an empty ring is never read) or by BEGIN, which leaves it full. -/
def Obligations.RingChangesOnlyByGuardedCommits : Prop :=
  ∀ s t : State, Inv s → step s = .next t →
    t.ring = s.ring ∨
    (s.ring.count < s.cfg.capacity ∧ t.ring = { s.ring with count := s.ring.count + 1 }) ∨
    (1 ≤ s.ring.count ∧
      t.ring = { start := (s.ring.start + 1) % s.cfg.capacity, count := s.ring.count - 1 }) ∨
    (s.flags.begun = false ∧ t.flags.begun = true ∧
      t.ring = { start := 0, count := s.cfg.capacity })

/-! ### Timing table -/

/-- R15. MinRefreshRate is the least and MaxRefreshRate the greatest rate with the properties R15 gives, and
an instance has the least no greater than the greatest. -/
def Obligations.SupportedRatesAreLeastAndGreatest : Prop :=
  ∀ c : Config, c.valid = true →
    IsLeast {r | 1 ≤ r ∧ c.tickRate / (r * c.scanRows) / 2 + c.pulseWidth ≤ 65535}
      c.minRefreshRate ∧
    IsGreatest {r | c.depth * max c.minBlockPeriod c.pulseWidth ≤ c.tickRate / (r * c.scanRows)}
      c.maxRefreshRate ∧
    c.minRefreshRate ≤ c.maxRefreshRate

/-- R171 to R175. TT.CALC writes the table of the first width of the search whose periods fit the row's
budget, and nothing else; if no width of the search fits it raises TimingInfeasible. The values are those of
R171 wherever 16 bits hold them, as from MinRefreshRate up they do. -/
def Obligations.TimingTableIsTheFirstThatFits : Prop :=
  ∀ s : State, s.cfg.valid = true → s.cfg.minRefreshRate ≤ s.ctl.refreshRate.toNat →
    let ticks := s.cfg.tickRate / (s.ctl.refreshRate.toNat * s.cfg.scanRows)
    (∀ k, FitsBudget s.cfg ticks (trialWidth s.cfg ticks k) →
      (∀ j, j < k → ¬ FitsBudget s.cfg ticks (trialWidth s.cfg ticks j)) →
      ∃ tt, exec .ttCalc s = .next { s with tt := tt } ∧
        (∀ i, i < s.cfg.depth → ∃ p, Store.read tt i = some p ∧
          p.period.toNat = specPeriod s.cfg (trialWidth s.cfg ticks k) i ∧
          p.onTime.toNat =
            specOnTime s.cfg s.ctl.brightness.toNat (trialWidth s.cfg ticks k) i) ∧
        ∀ i, s.cfg.depth ≤ i → Store.read tt i = Store.read s.tt i) ∧
    ((∀ k, ¬ FitsBudget s.cfg ticks (trialWidth s.cfg ticks k)) →
      exec .ttCalc s = .fault (.timingInfeasible s.ctl.refreshRate))

/-- R176. TT.CALC succeeds exactly when `N * max(MinBlockPeriod, PW) <= T` and otherwise raises
TimingInfeasible with nothing written; every supported rate meets that, and no step of a state that meets the
invariant raises the fault. At rate 0, which no run reaches, the spec gives `T` no value (R19, R34), and that
TT.CALC takes it as 0 and raises the fault is the model's choice (log 24). -/
def Obligations.TimingSucceedsExactlyWhenItFits : Prop :=
  (∀ s : State, s.cfg.valid = true →
    let ticks := s.cfg.tickRate / (s.ctl.refreshRate.toNat * s.cfg.scanRows)
    let least := s.cfg.depth * max s.cfg.minBlockPeriod s.cfg.pulseWidth
    (least ≤ ticks → ∃ t, exec .ttCalc s = .next t) ∧
    (ticks < least → exec .ttCalc s = .fault (.timingInfeasible s.ctl.refreshRate)) ∧
    (s.cfg.minRefreshRate ≤ s.ctl.refreshRate.toNat →
      s.ctl.refreshRate.toNat ≤ s.cfg.maxRefreshRate → least ≤ ticks)) ∧
  ∀ (s : State) (rate : Half), Inv s → step s ≠ .fault (.timingInfeasible rate)

/-- R178, with the order of R177. For every supported rate TT.CALC writes a table in which (a) no on-time
exceeds its period, (b) the periods together fit the budget, (c) and (d) every period is between
MinBlockPeriod and 65535, (e) every on-time is at least PW, PW and the padding at brightness 0, and the period
at brightness 255; and the periods do not decrease. -/
def Obligations.TimingTableResults : Prop :=
  ∀ s : State, s.cfg.valid = true → s.cfg.minRefreshRate ≤ s.ctl.refreshRate.toNat →
    s.ctl.refreshRate.toNat ≤ s.cfg.maxRefreshRate →
    ∃ (tt : Store TimingPair) (period onTime : Nat → Nat) (m : Nat),
      exec .ttCalc s = .next { s with tt := tt } ∧
      (∀ i, i < s.cfg.depth → ∃ p, Store.read tt i = some p ∧ p.period.toNat = period i ∧
        p.onTime.toNat = onTime i ∧ period i = specPeriod s.cfg m i) ∧
      (∀ i, i < s.cfg.depth →
        onTime i ≤ period i ∧ s.cfg.minBlockPeriod ≤ period i ∧ period i ≤ 65535 ∧
          s.cfg.pulseWidth ≤ onTime i ∧
          (s.ctl.brightness = 0 → onTime i = s.cfg.pulseWidth + pad s.cfg m i) ∧
          (s.ctl.brightness = 255 → onTime i = period i)) ∧
      ((List.range s.cfg.depth).map period).sum ≤
        s.cfg.tickRate / (s.ctl.refreshRate.toNat * s.cfg.scanRows) ∧
      ∀ i j, i ≤ j → j < s.cfg.depth → period i ≤ period j

/-! ### Row encoder -/

/-- R196, R201, R192. The encoder variant of the instance's depth, given a slot and a bit-plane and written
working rows, writes every word of that plane block as EncodePlane says, and nothing else. -/
def Obligations.EncoderWritesThePlaneBlock : Prop :=
  ∀ (s : State) (w : BitVec 8) (i : BitVec 4), s.cfg.valid = true → workWritten s.cfg s.work →
    w.toNat < s.cfg.capacity → i.toNat < s.cfg.depth →
    (s.cfg.depth = 8 → ∃ m, exec (.encPlane24 w i) s = .next { s with slots := m } ∧
      PlaneEncoded s w.toNat i.toNat m) ∧
    (s.cfg.depth = 12 → ∃ m, exec (.encPlane36 w i) s = .next { s with slots := m } ∧
      PlaneEncoded s w.toNat i.toNat m) ∧
    (s.cfg.depth = 16 → ∃ m, exec (.encPlane48 w i) s = .next { s with slots := m } ∧
      PlaneEncoded s w.toNat i.toNat m)

/-- R193, R194. `Y(r, g, j)` is the row the formula gives, and each display row belongs to exactly one
hardware row, segment and sub-row. (That it is a bijection is the model's inference.) -/
def Obligations.RowMapCoversTheDisplayOnce : Prop :=
  ∀ c : Config, c.valid = true →
    (∀ r g j, r < c.scanRows → g < c.stack → j < 2 →
      c.displayRow r g j =
        (if c.bottomToTop then c.stack - 1 - g else g) * c.panelHeight +
          (if c.cShape = true ∧ g % 2 = 1 ∧ c.cShapeRowFlip = true then
            c.panelHeight - 1 - (r + j * c.rowPairOffset) else r + j * c.rowPairOffset) ∧
      c.displayRow r g j < c.height) ∧
    ∀ y, y < c.height →
      ∃! p : Nat × Nat × Nat, p.1 < c.scanRows ∧ p.2.1 < c.stack ∧ p.2.2 < 2 ∧
        c.displayRow p.1 p.2.1 p.2.2 = y

/-! ### Layers -/

/-- R223. A layer's contribution to a pixel, by its kind: always a colour for a background; nothing for
index 0, bit 0 or a text layer that is off; else the palette's or the layer's colour. -/
def Obligations.SampleByLayerKind : Prop :=
  ∀ (c : Config) (lay : Layer) (y x : Nat),
    (∀ m v, lay.content = .background m →
      Store.read m ((lay.refreshBuffer * c.height + y) * c.width + x) = some v →
      sample c lay y x = .colour v) ∧
    (∀ n p m k, lay.content = .indexed n p m →
      Store.read m ((lay.refreshBuffer * c.height + y) * c.width + x) = some k →
      (k = 0 → sample c lay y x = .leave) ∧
        ∀ v, k ≠ 0 → p[k.toNat]? = some v → sample c lay y x = .colour v) ∧
    (∀ v m b, lay.content = .monoGfx v m →
      Store.read m ((lay.refreshBuffer * c.height + y) * c.width + x) = some b →
      sample c lay y x = if b then .colour v else .leave) ∧
    (∀ t, lay.content = .scrollingText t → t.mode = .off → sample c lay y x = .leave) ∧
    ∀ t b, lay.content = .scrollingText t → t.mode ≠ .off →
      Store.read t.canvas (y * c.width + x) = some b →
      sample c lay y x = if b then .colour t.colour else .leave

/-- R231. L.BEGIN gives a layer the rotation, geometry and rate of the controls, clears its swap and its
buffers and sets the buffer indices, or restarts and rasterises a text layer; nothing else changes. -/
def Obligations.LayerBeginInitialises : Prop :=
  ∀ (s : State) (l : BitVec 4) (lay : Layer), l.toNat < s.cfg.maxLayers →
    s.layers[l.toNat]? = some lay →
    ∃ content k,
      exec (.lBegin l) s = .next
        { s with
          freeCount := k
          layers := s.layers.set l.toNat
            { lay with
              rotation := s.ctl.rotation
              localWidth :=
                if s.ctl.rotation = 0 ∨ s.ctl.rotation = 2 then s.cfg.width else s.cfg.height
              localHeight :=
                if s.ctl.rotation = 0 ∨ s.ctl.rotation = 2 then s.cfg.height else s.cfg.width
              refreshRate := s.ctl.refreshRate
              swapPending := false
              content := content
              refreshBuffer := if lay.content.isText then lay.refreshBuffer else 0
              drawBuffer := if lay.content.isText then lay.drawBuffer else 1
              previousBuffer :=
                if lay.content.isText = false ∧ lay.bufferCount = 3 then 2
                else lay.previousBuffer } } ∧
      match lay.content with
      | .background _ => ∃ m, content = .background m ∧ Cleared s.cfg lay.bufferCount Rgb.black m
      | .indexed n p _ => ∃ m, content = .indexed n p m ∧ Cleared s.cfg lay.bufferCount 0 m
      | .monoGfx v _ => ∃ m, content = .monoGfx v m ∧ Cleared s.cfg lay.bufferCount false m
      | .scrollingText t =>
        ∃ (frames : Half) (canvas : Store Bool),
          content = .scrollingText
            { t with currentFrame := 0, framesPerScroll := frames, canvas := canvas } ∧
          (1 ≤ t.pixelsPerSecond.toNat →
            frames.toNat = max 1 (s.ctl.refreshRate.toNat / t.pixelsPerSecond.toNat)) ∧
          Rasterised s.cfg l.toNat t.position s.ctl.rotation canvas

/-- R235, R236. L.FRAME steps a text layer as L.SCROLLSTEP does; on another layer it carries out a pending
swap by exchanging buffer indices, and without one changes nothing. -/
def Obligations.LayerFrameExchangesBuffers : Prop :=
  ∀ (s : State) (l : BitVec 4) (lay : Layer), l.toNat < s.cfg.maxLayers →
    s.layers[l.toNat]? = some lay →
    (lay.content.isText = true → exec (.lFrame l) s = exec (.lScrollStep l) s) ∧
    (lay.content.isText = false → lay.swapPending = false → exec (.lFrame l) s = .next s) ∧
    (lay.content.isText = false → lay.swapPending = true → lay.bufferCount = 2 →
      exec (.lFrame l) s = .next
        { s with
          layers := s.layers.set l.toNat
            { lay with
            swapPending := false
            drawBuffer := lay.refreshBuffer
            refreshBuffer := lay.drawBuffer } }) ∧
    (lay.content.isText = false → lay.swapPending = true → lay.bufferCount = 3 →
      exec (.lFrame l) s = .next
        { s with
          layers := s.layers.set l.toNat
            { lay with
            swapPending := false
            previousBuffer := lay.refreshBuffer
            refreshBuffer := lay.drawBuffer
            drawBuffer := lay.previousBuffer } })

/-- R237. L.SETROT gives the layer the rotation and its local size, rasterises a text layer again, moves no
pixel of a buffer, and changes nothing else. -/
def Obligations.LayerSetRotation : Prop :=
  ∀ (s : State) (l : BitVec 4) (rot : BitVec 2) (lay : Layer), l.toNat < s.cfg.maxLayers →
    s.layers[l.toNat]? = some lay →
    ∃ b, exec (.lSetRot l rot) s = .next { s with layers := s.layers.set l.toNat b } ∧
      RotatedTo s.cfg l.toNat rot lay b

/-- R238. L.SETRATE gives the layer the rate and a text layer its frames per scroll, and changes nothing
else (`freeCount` is the model's, log 8). -/
def Obligations.LayerSetRate : Prop :=
  ∀ (s : State) (l : BitVec 4) (rate : BitVec 16) (lay : Layer), l.toNat < s.cfg.maxLayers →
    1 ≤ rate.toNat → s.layers[l.toNat]? = some lay →
    ∃ b k, exec (.lSetRate l rate) s =
        .next { s with layers := s.layers.set l.toNat b, freeCount := k } ∧
      RatedTo rate lay b ∧
      ((∀ t, lay.content = .scrollingText t → 1 ≤ t.pixelsPerSecond.toNat) → k = s.freeCount)

/-- R250. L.SCROLLSTEP moves the scrolling fields of a text layer as R250 says, rasterises it again when it
moved, and changes nothing else; it runs on a move beyond 16 bits too, which R250 gives no value (log 8). -/
def Obligations.ScrollStepMovesTheText : Prop :=
  ∀ (s : State) (l : BitVec 4) (lay : Layer) (t : Scroll), l.toNat < s.cfg.maxLayers →
    s.layers[l.toNat]? = some lay → lay.content = .scrollingText t →
    ∃ u k, exec (.lScrollStep l) s = .next
        { s with
          layers := s.layers.set l.toNat { lay with content := .scrollingText u }
          freeCount := k } ∧
      ScrolledTo s.cfg l.toNat lay.rotation t u

/-- R253. The scroll scenario: from `bounceForward` at scrollMax with the counter at 3 and one frame a step,
the text is at scrollMin going back after `scrollMax - scrollMin` steps, at scrollMax going on after as many
again, parked at the left offset after as many again, and stays there. -/
def Obligations.ScrollScenario : Prop :=
  ∀ (s : State) (l : BitVec 4) (lay : Layer) (t : Scroll) (d : Nat), l.toNat < s.cfg.maxLayers →
    s.layers[l.toNat]? = some lay → lay.content = .scrollingText t →
    t.mode = .bounceForward → t.position = t.scrollMax → t.scrollCounter = 3 →
    t.framesPerScroll = 1 → t.currentFrame = 0 → 1 ≤ d →
    t.scrollMax.toInt = t.scrollMin.toInt + d →
    let at_ := fun (n : Nat) (v : ScrollView) =>
      ∃ u x y, performTimes n (.lScrollStep l) s = .next u ∧ u.layers[l.toNat]? = some x ∧
        x.content = .scrollingText y ∧ y.view = v
    at_ d ⟨.bounceReverse, t.scrollMin.toInt, 2, 0⟩ ∧
      at_ (2 * d) ⟨.bounceForward, t.scrollMax.toInt, 1, 0⟩ ∧
      at_ (3 * d) ⟨.bounceReverse, t.leftOffset.toInt, 0, 0⟩ ∧
      ∀ n, performTimes (3 * d + n) (.lScrollStep l) s = performTimes (3 * d) (.lScrollStep l) s

/-- R233. L.FILLROW writes the layer's colour, shifted, to each sample of the working row where the layer has
one, leaves the others, and changes nothing else. -/
def Obligations.FillRowPaintsOneLayer : Prop :=
  ∀ (s : State) (l : BitVec 4) (y g : BitVec 10) (j : BitVec 1) (sh : BitVec 4) (lay : Layer),
    l.toNat < s.cfg.maxLayers → y.toNat < s.cfg.height → g.toNat < s.cfg.stack →
    s.layers[l.toNat]? = some lay →
    (∀ x, x < s.cfg.width → sample s.cfg lay y.toNat x ≠ .unspecified) →
    ∃ work, exec (.lFillRow l y g j sh) s = .next { s with work := work } ∧
      (∀ x, x < s.cfg.width →
        (∀ v, sample s.cfg lay y.toNat x = .colour v →
          Store.read work (workIndex s.cfg g.toNat j.toNat + x) =
            some ⟨v.r >>> sh.toNat, v.g >>> sh.toNat, v.b >>> sh.toNat⟩) ∧
        (sample s.cfg lay y.toNat x = .leave →
          Store.read work (workIndex s.cfg g.toNat j.toNat + x) =
            Store.read s.work (workIndex s.cfg g.toNat j.toNat + x))) ∧
      ∀ k, (k < workIndex s.cfg g.toNat j.toNat ∨
          workIndex s.cfg g.toNat j.toNat + s.cfg.width ≤ k) →
        Store.read work k = Store.read s.work k

/-- R243. COMP.FILLROW leaves in each sample of the working row what the layers of the chain, painted in
order over black with the common shift, leave there, and changes nothing else. -/
def Obligations.FillRowPaintsTheChain : Prop :=
  ∀ (s : State) (y g : BitVec 10) (j : BitVec 1) (ls : List Nat), ChainOk s ls →
    y.toNat < s.cfg.height → g.toNat < s.cfg.stack → (∀ l ∈ ls, rowWritten s l y.toNat) →
    ∃ work, exec (.compFillRow y g j) s = .next { s with work := work } ∧
      (∀ x, x < s.cfg.width →
        Store.read work (workIndex s.cfg g.toNat j.toNat + x) =
          some (paintAll s.cfg s.layers s.chain.brightnessShifts y.toNat x Rgb.black ls)) ∧
      ∀ k, (k < workIndex s.cfg g.toNat j.toNat ∨
          workIndex s.cfg g.toNat j.toNat + s.cfg.width ≤ k) →
        Store.read work k = Store.read s.work k

/-- R244. Of three layers, the lowest opaque, the second transparent and the topmost opaque everywhere, the
composited row is the topmost layer's content: exactly with no shift, and after the shift with one. -/
def Obligations.TopmostOpaqueLayerWins : Prop :=
  ∀ (s : State) (y g : BitVec 10) (j : BitVec 1) (a b c : Nat) (la lb lc : Layer)
    (bottom top : Nat → Rgb), ChainOk s [a, b, c] → y.toNat < s.cfg.height →
    g.toNat < s.cfg.stack → s.layers[a]? = some la → s.layers[b]? = some lb →
    s.layers[c]? = some lc →
    (∀ x, x < s.cfg.width → sample s.cfg la y.toNat x = .colour (bottom x) ∧
      sample s.cfg lb y.toNat x = .leave ∧ sample s.cfg lc y.toNat x = .colour (top x)) →
    ∃ t, exec (.compFillRow y g j) s = .next t ∧
      ∀ x, x < s.cfg.width →
        (s.chain.brightnessShifts = 0 →
          Store.read t.work (workIndex s.cfg g.toNat j.toNat + x) = some (top x)) ∧
        Store.read t.work (workIndex s.cfg g.toNat j.toNat + x) =
          some (shiftColour (top x) s.chain.brightnessShifts)

/-- R240, R241, R242. COMP.SETROT, COMP.SETRATE and COMP.FRAME do to every layer of the chain what L.SETROT,
L.SETRATE and L.FRAME do to one, and to no other layer anything; nothing else changes. For rate 0 the clause of
COMP.SETRATE is the model's choice (log 26): L.SETRATE itself is refused there (log 11), and each layer gets
rate 0 by the formula of R238. -/
def Obligations.ChainOperationsReachEveryLayer : Prop :=
  ∀ (s : State) (ls : List Nat), ChainOk s ls →
    (∀ rot, ∃ new, exec (.compSetRot rot) s = .next { s with layers := new } ∧
      EachLayer (fun l => RotatedTo s.cfg l rot) ls s.layers new) ∧
    (∀ rate, ∃ new k, exec (.compSetRate rate) s = .next { s with layers := new, freeCount := k } ∧
      EachLayer (fun _ => RatedTo rate) ls s.layers new) ∧
    ∃ new k, exec .compFrame s = .next { s with layers := new, freeCount := k } ∧
      EachLayer (FramedTo s.cfg) ls s.layers new

/-- R239. The four transforms, each a bijection from the local rectangle onto the display. -/
def Obligations.RotationTransformIsBijective : Prop :=
  ∀ c : Config,
    (∀ x y, c.hardwarePos 0 x y = (x, y) ∧ c.hardwarePos 1 x y = (c.width - 1 - y, x) ∧
      c.hardwarePos 2 x y = (c.width - 1 - x, c.height - 1 - y) ∧
      c.hardwarePos 3 x y = (y, c.height - 1 - x)) ∧
    ∀ rot : BitVec 2,
      Set.BijOn (fun p : Nat × Nat => c.hardwarePos rot p.1 p.2)
        {p | p.1 < (c.localSize rot).1 ∧ p.2 < (c.localSize rot).2}
        {p | p.1 < c.width ∧ p.2 < c.height}

/-- R245. Rotating a layer from 0 to 90, 270, 180 degrees and back returns its local size; a layer with
buffers is again what it was, and a pixel drawn at local `(x, y)` lands where it did before. -/
def Obligations.RotationRoundTrip : Prop :=
  ∀ (s : State) (l : BitVec 4) (lay : Layer), l.toNat < s.cfg.maxLayers →
    s.layers[l.toNat]? = some lay → lay.rotation = 0 → lay.localWidth = s.cfg.width →
    lay.localHeight = s.cfg.height →
    ∃ t b, andThen (exec (.lSetRot l 1) s) (fun s => andThen (exec (.lSetRot l 3) s) (fun s =>
        andThen (exec (.lSetRot l 2) s) (exec (.lSetRot l 0)))) = .next t ∧
      t.layers[l.toNat]? = some b ∧ b.localWidth = lay.localWidth ∧
      b.localHeight = lay.localHeight ∧
      (∀ x y, drawTarget s.cfg b x y = drawTarget s.cfg lay x y) ∧
      (lay.content.isText = false → t = s)

/-! ### Refresh scheduler -/

/-- R273, R272. While a slot is shifting out ENG.BEAT emits that slot's next bit-plane, and in the underrun
state one idle beat with the output disabled; BEATINDEX counts it and nothing else changes. -/
def Obligations.EngineBeatEmitsOneRecord : Prop :=
  ∀ s : State, s.flags.begun = true →
    (∀ (a : Half) (p : TimingPair) (ws : List Word), s.eng.schedState = .shifting →
      s.eng.beatIndex < s.cfg.depth → slotRowAddress s.cfg s.slots s.eng.curSlot = some a →
      slotTiming s.cfg s.slots s.eng.curSlot s.eng.beatIndex = some p →
      ws.length = s.cfg.wordsPerPlane →
      (∀ q, q < s.cfg.wordsPerPlane →
        slotWord s.cfg s.slots s.eng.curSlot s.eng.beatIndex q = ws[q]?) →
      exec .engBeat s = .next
        { s with
          eng := { s.eng with beatIndex := s.eng.beatIndex + 1 }
          out := { s.out with trace := s.out.trace ++
            [{ kind := .data, rowAddress := some a, plane := some s.eng.beatIndex,
               period := p.period, onTime := p.onTime, oe := true, words := ws }] } }) ∧
    (s.eng.schedState = .underrun → s.eng.beatIndex < 1 →
      exec .engBeat s = .next
        { s with
          eng := { s.eng with beatIndex := s.eng.beatIndex + 1 }
          out := { s.out with trace := s.out.trace ++
            [{ kind := .idle, rowAddress := none, plane := none,
               period := BitVec.ofNat 16 s.cfg.minBlockPeriod, onTime := 0, oe := false,
               words := [] }] } })

/-- R274, R275, R277, R278. The completion event commits the read of the slot just shifted out, then points
at the new head slot, or on an empty ring falls to the idle source, raises the underrun flag and, with
adaptive rate control, lowers the rate; in the underrun state it does none of that. It always restarts
BEATINDEX and raises the wake, and changes nothing else. -/
def Obligations.CompletionEvent : Prop :=
  ∀ s : State, s.flags.begun = true →
    (s.eng.schedState = .shifting → s.eng.beatIndex = s.cfg.depth → 2 ≤ s.ring.count →
      exec .evComplete s = .next
        { s with
          ring := { start := (s.ring.start + 1) % s.cfg.capacity, count := s.ring.count - 1 }
          eng := { s.eng with
            curSlot := (s.ring.start + 1) % s.cfg.capacity
            beatIndex := 0 }
          flags := { s.flags with calcWake := true } }) ∧
    (s.eng.schedState = .shifting → s.eng.beatIndex = s.cfg.depth → s.ring.count = 1 →
      let starved : State :=
        { s with
          ring := { start := (s.ring.start + 1) % s.cfg.capacity, count := 0 }
          eng := { s.eng with schedState := .underrun, timingSource := .idle, beatIndex := 0 }
          flags := { s.flags with underrun := true, calcWake := true } }
      (s.cfg.adaptiveRate = false → exec .evComplete s = .next starved) ∧
      (s.cfg.adaptiveRate = true →
        ∃ t, exec .schLowerRate starved = .next t ∧ exec .evComplete s = .next t)) ∧
    (s.eng.schedState = .underrun → s.eng.beatIndex = 1 →
      exec .evComplete s = .next
        { s with
          eng := { s.eng with beatIndex := 0 }
          flags := { s.flags with calcWake := true } })

/-- R276, R365. The underrun flag is raised exactly by the steps that enter the underrun state, so once an
episode: a step within an episode never raises it again. -/
def Obligations.UnderrunRaisedOncePerEpisode : Prop :=
  ∀ s t : State, Inv s → step s = .next t →
    (s.flags.underrun = false → t.flags.underrun = true →
      s.eng.schedState = .shifting ∧ t.eng.schedState = .underrun) ∧
    (s.eng.schedState ≠ .underrun → t.eng.schedState = .underrun → t.flags.underrun = true)

/-- R279, R280. SCH.RECOVER, in the underrun state with a slot in the ring, and SCH.START, with a slot in the
ring, point the engine at bit-plane 0 of the ring's head slot; no flag and nothing else changes. -/
def Obligations.RecoverAndStartPointAtTheHead : Prop :=
  ∀ s : State, 1 ≤ s.ring.count →
    (s.eng.schedState = .underrun →
      exec .schRecover s = .next
        { s with eng := ⟨.shifting, .slot, s.ring.start, 0⟩ }) ∧
    exec .schStart s = .next { s with eng := ⟨.shifting, .slot, s.ring.start, 0⟩ }

/-- R281. SCH.LOWERRATE lowers the rate by RateStep, not below MinRefreshRate, and sets its two flags; at the
floor it changes nothing. -/
def Obligations.LowerRateStopsAtTheFloor : Prop :=
  ∀ s : State,
    (s.cfg.minRefreshRate < s.ctl.refreshRate.toNat →
      ∃ rate : Half,
        rate.toNat = max s.cfg.minRefreshRate (s.ctl.refreshRate.toNat - s.cfg.rateStep) ∧
        exec .schLowerRate s = .next
          { s with
            ctl := { s.ctl with refreshRate := rate }
            flags := { s.flags with refreshRateChanged := true, rateLowered := true } }) ∧
    (s.ctl.refreshRate.toNat ≤ s.cfg.minRefreshRate → exec .schLowerRate s = .next s)

/-- R283. After BEGIN exactly one of ENG.BEAT and EV.COMPLETE is enabled, and it has a next state: the engine
always has a step. -/
def Obligations.EngineAlwaysHasAStep : Prop :=
  ∀ s : State, Inv s → s.flags.begun = true →
    ((∃ t, exec .engBeat s = .next t) ∧ exec .evComplete s = .refused .notEnabled) ∨
      ((∃ t, exec .evComplete s = .next t) ∧ exec .engBeat s = .refused .notEnabled)

/-! ### Calculation task -/

/-- R307. P.WAKE, where enabled, takes the wake, restarts LOOPS and sets the producer running. -/
def Obligations.ProducerWake : Prop :=
  ∀ s : State, s.flags.begun = true → s.prod.calcState = .idle → s.flags.calcWake = true →
    exec .pWake s = .next
      { s with
        flags := { s.flags with calcWake := false }
        prod := { s.prod with loops := 0, calcState := .running } }

/-- R308. A running producer's P.STEP yields on a full ring, with nothing else changed; else it performs a
CALC.STEP and counts it in LOOPS, and where the safety valve's bound is reached it also lowers the rate and
restarts LOOPS. -/
def Obligations.ProducerStep : Prop :=
  ∀ s : State, s.prod.calcState = .running →
    (s.ring.count = s.cfg.capacity →
      exec .pStep s = .next { s with prod := { s.prod with calcState := .idle } }) ∧
    (CalcReady s → s.ring.count < s.cfg.capacity →
      ∃ t, exec .calcStep s = .next t ∧
        let counted : State := { t with prod := { t.prod with loops := s.prod.loops + 1 } }
        if s.cfg.adaptiveRate = true ∧ s.cfg.safetyValve = true ∧
            s.cfg.maxLoops ≤ (s.prod.loops + 1).toNat then
          ∃ u, exec .schLowerRate counted = .next u ∧
            exec .pStep s = .next { u with prod := { u.prod with loops := 0 } }
        else exec .pStep s = .next counted)

/-- R301, R303 to R306. CALC.STEP composes the display rows of hardware row ROWINDEX, fills the slot RB.NEXTW
with the row index, the current timing table and the encoded planes, commits it, recovers the engine from an
underrun and advances ROWINDEX. No other slot changes, and in the middle of a frame neither does any layer, the
timing table or a flag. -/
def Obligations.CalcStepProducesOneRow : Prop :=
  ∀ s : State, CalcReady s → s.ring.count < s.cfg.capacity →
    ∃ (t : State) (ls : List Nat), exec .calcStep s = .next t ∧ ChainOk s ls ∧
      t = { s with
        flags := { s.flags with
          brightnessChanged := t.flags.brightnessChanged
          refreshRateChanged := t.flags.refreshRateChanged
          rotationChanged := t.flags.rotationChanged }
        layers := t.layers
        tt := t.tt
        freeCount := t.freeCount
        work := t.work
        slots := t.slots
        ring := { s.ring with count := s.ring.count + 1 }
        prod := { s.prod with rowIndex := (s.prod.rowIndex + 1) % s.cfg.scanRows }
        eng := if s.eng.schedState = .underrun then ⟨.shifting, .slot, s.ring.start, 0⟩
          else s.eng } ∧
      (s.prod.rowIndex ≠ 0 →
        t.flags = s.flags ∧ t.layers = s.layers ∧ t.tt = s.tt ∧ t.freeCount = s.freeCount) ∧
      (∀ g j x, g < s.cfg.stack → j < 2 → x < s.cfg.width →
        Store.read t.work (workIndex s.cfg g j + x) =
          some (paintAll s.cfg t.layers s.chain.brightnessShifts
            (s.cfg.displayRow s.prod.rowIndex g j) x Rgb.black ls)) ∧
      let w := (s.ring.start + s.ring.count) % s.cfg.capacity
      slotRowAddress s.cfg t.slots w = some (BitVec.ofNat 16 s.prod.rowIndex) ∧
        (∀ i, i < s.cfg.depth → (∃ p, Store.read t.tt i = some p) ∧
          slotTiming s.cfg t.slots w i = Store.read t.tt i ∧
          PlaneHolds s.cfg t.work t.slots w i) ∧
        ∀ a, (a < s.cfg.slotOffset w ∨ s.cfg.slotOffset w + s.cfg.slotBytes ≤ a) →
          Store.read t.slots a = Store.read s.slots a

/-- R302. A frame start propagates a pending rotation, then a pending rate, to every layer of the chain, then
calls every layer's frame callback, then recomputes the timing table if the brightness or the rate changed; it
leaves no change flag set. -/
def Obligations.FrameStartPropagates : Prop :=
  ∀ s : State, CalcReady s → s.ring.count < s.cfg.capacity → s.prod.rowIndex = 0 →
    ∃ (t : State) (ls : List Nat) (rotated rated : List Layer),
      exec .calcStep s = .next t ∧ ChainOk s ls ∧
      (if s.flags.rotationChanged then
        EachLayer (fun l => RotatedTo s.cfg l s.ctl.rotation) ls s.layers rotated
      else rotated = s.layers) ∧
      (if s.flags.refreshRateChanged then
        EachLayer (fun _ => RatedTo s.ctl.refreshRate) ls rotated rated
      else rated = rotated) ∧
      EachLayer (FramedTo s.cfg) ls rated t.layers ∧
      (if s.flags.brightnessChanged ∨ s.flags.refreshRateChanged then
        ∃ u, exec .ttCalc s = .next u ∧ t.tt = u.tt
      else t.tt = s.tt) ∧
      t.flags = { s.flags with
        rotationChanged := false
        brightnessChanged := false
        refreshRateChanged := false }

/-! ### Host commands -/

/-- R323, R325, R326, R331, R333. Each of the five controls writes its field, the first two raise their change
flag, and nothing else changes. -/
def Obligations.HostControlsWriteTheirFields : Prop :=
  ∀ s : State, s.host.hostState = .ready →
    (∀ v, exec (.setBrightness v) s = .next
      { s with
        ctl := { s.ctl with brightness := v }
        flags := { s.flags with brightnessChanged := true } }) ∧
    (∀ v, exec (.setRotation v) s = .next
      { s with
        ctl := { s.ctl with rotation := v }
        flags := { s.flags with rotationChanged := true } }) ∧
    (∀ v, exec (.setCcMode v) s = .next { s with ctl := { s.ctl with ccMode := v } }) ∧
    (∀ v, exec (.setColor .red v) s = .next
      { s with host := { s.host with drawColor := { s.host.drawColor with r := v } } }) ∧
    (∀ v, exec (.setColor .green v) s = .next
      { s with host := { s.host with drawColor := { s.host.drawColor with g := v } } }) ∧
    (∀ v, exec (.setColor .blue v) s = .next
      { s with host := { s.host with drawColor := { s.host.drawColor with b := v } } }) ∧
    ∀ v, exec (.setIndex v) s = .next { s with host := { s.host with drawIndex := v } }

/-- R324. SETREFRESHRATE stores the rate raised to MinRefreshRate and raises its flag; a rate that is then
above MaxRefreshRate breaks the contract. -/
def Obligations.SetRefreshRateClamps : Prop :=
  ∀ (s : State) (v : BitVec 16), s.host.hostState = .ready →
    (max v.toNat s.cfg.minRefreshRate ≤ s.cfg.maxRefreshRate → s.cfg.minRefreshRate ≤ 65535 →
      ∃ rate : Half, rate.toNat = max v.toNat s.cfg.minRefreshRate ∧
        exec (.setRefreshRate v) s = .next
          { s with
            ctl := { s.ctl with refreshRate := rate }
            flags := { s.flags with refreshRateChanged := true } }) ∧
    (s.cfg.maxRefreshRate < max v.toNat s.cfg.minRefreshRate →
      exec (.setRefreshRate v) s = .fault (.contractViolation .rateTooHigh))

/-- R327, R328, R329. The three GETs respond with the rate or a flag; the flag is cleared in the same step, so
a second read at once gives 0. Nothing else changes. -/
def Obligations.GetCommandsRespond : Prop :=
  ∀ s : State, s.host.hostState = .ready →
    exec .getRefreshRate s = .next
      { s with out :=
        { s.out with responses := s.out.responses ++ [s.ctl.refreshRate.setWidth 32] } } ∧
    exec .getUnderrun s = .next
      { s with
        flags := { s.flags with underrun := false }
        out := { s.out with
          responses := s.out.responses ++ [if s.flags.underrun then 1 else 0] } } ∧
    exec .getLowered s = .next
      { s with
        flags := { s.flags with rateLowered := false }
        out := { s.out with
          responses := s.out.responses ++ [if s.flags.rateLowered then 1 else 0] } }

/-- R322. ADDLAYER runs the layer's L.BEGIN, attaches it and appends it to the chain, whose last layer then
leads to it; layerCount counts it and the common shift is the greatest requested. No other layer and nothing
else changes. -/
def Obligations.AddLayerAppendsToTheChain : Prop :=
  ∀ (s : State) (l : BitVec 4) (lay : Layer) (ls : List Nat), s.host.hostState = .ready →
    l.toNat < s.cfg.maxLayers → s.flags.begun = false → ChainOk s ls →
    s.layers[l.toNat]? = some lay → lay.attached = false →
    ∃ u t b, exec (.lBegin l) s = .next u ∧ u.layers[l.toNat]? = some b ∧
      exec (.addLayer l) s = .next t ∧
      t.layers[l.toNat]? = some { b with attached := true, next := none } ∧
      (∀ k x, ls.getLast? = some k → s.layers[k]? = some x →
        t.layers[k]? = some { x with next := some l.toNat }) ∧
      (∀ k, k ≠ l.toNat → ls.getLast? ≠ some k → t.layers[k]? = s.layers[k]?) ∧
      t.chain.head = (if ls = [] then some l.toNat else s.chain.head) ∧
      t.chain.tail = some l.toNat ∧ t.chain.count = s.chain.count + 1 ∧
      t.chain.brightnessShifts.toNat =
        max s.chain.brightnessShifts.toNat lay.requestedShifts.toNat ∧
      t = { s with layers := t.layers, chain := t.chain, freeCount := u.freeCount } ∧
      ChainOk t (ls ++ [l.toNat])

/-- R321. BEGIN initialises the ring, sets the three change flags, fills the ring with `C` CALC.STEPs, starts
the engine at the head slot and leaves the producer idle with no wake; it leaves a full ring and slots that hold
rows `0, 1, ...` A second BEGIN breaks the contract. -/
def Obligations.BeginFillsTheRing : Prop :=
  ∀ s : State, Inv s → s.host.hostState = .ready →
    (s.flags.begun = false →
      ∃ v t, performTimes s.cfg.capacity .calcStep
          { s with
            ring := { start := 0, count := 0 }
            prod := { s.prod with rowIndex := 0 }
            flags := { s.flags with
              brightnessChanged := true
              refreshRateChanged := true
              rotationChanged := true } } = .next v ∧
        exec .beginBlock s = .next t ∧
        t = { v with
          eng := ⟨.shifting, .slot, v.ring.start, 0⟩
          prod := { v.prod with loops := 0, calcState := .idle }
          flags := { v.flags with calcWake := false, begun := true } } ∧
        t.ring = { start := 0, count := s.cfg.capacity } ∧
        t.prod.rowIndex = s.cfg.capacity % s.cfg.scanRows ∧
        t.flags.brightnessChanged = false ∧ t.flags.refreshRateChanged = false ∧
        t.flags.rotationChanged = false ∧
        ∀ w, w < s.cfg.capacity → SlotReady s.cfg t.slots w (w % s.cfg.scanRows)) ∧
    (s.flags.begun = true → exec .beginBlock s = .fault (.contractViolation .beginTwice))

/-- R330. SWAPBUFFERS enters its first wait; the host's next turns hold while the layer's swap is pending, then
request the swap, hold again if a copy was asked for, and at last copy the new refresh contents into the new
draw buffer and make the host READY. Nothing else changes but the choice of turns (log 2). That a host turn held
by a pending swap changes nothing else is the model's choice (log 14). -/
def Obligations.SwapBuffersPhases : Prop :=
  (∀ (s : State) (copy : BitVec 1) (l : BitVec 4) (lay : Layer), s.host.hostState = .ready →
    l.toNat < s.cfg.maxLayers → s.layers[l.toNat]? = some lay → lay.attached = true →
    lay.content.isText = false →
    exec (.swapBuffers copy l) s = .next
      { s with host := { s.host with hostState := .swapWait1 l.toNat (copy.getLsbD 0) } }) ∧
  ∀ (s : State) (l : Nat) (lay : Layer), s.env.bench = [] → nextAgent s = .host →
    s.layers[l]? = some lay →
    (∀ copy, s.host.hostState = .swapWait1 l copy →
      (lay.swapPending = true → step s = .next (takeTurn s)) ∧
      (lay.swapPending = false →
        step s = .next
          { takeTurn s with
            layers := s.layers.set l { lay with swapPending := true }
            host := { s.host with hostState := if copy then .swapWait2 l else .ready } })) ∧
    (s.host.hostState = .swapWait2 l →
      (lay.swapPending = true → step s = .next (takeTurn s)) ∧
      (lay.swapPending = false → lay.Built → lay.content.written s.cfg lay.bufferCount →
        lay.content.isText = false →
        ∃ b, CopiedForward s.cfg lay b ∧
          step s = .next
            { takeTurn s with
              layers := s.layers.set l b
              host := { s.host with hostState := .ready } }))

/-- R332. DRAWPIXEL inside the local rectangle writes one element of the layer's draw buffer, at the hardware
position under the layer's own rotation; outside it changes nothing. -/
def Obligations.DrawPixelWritesTheDrawBuffer : Prop :=
  ∀ (s : State) (l : BitVec 4) (x y : BitVec 10) (lay : Layer), s.host.hostState = .ready →
    l.toNat < s.cfg.maxLayers → s.layers[l.toNat]? = some lay → lay.attached = true →
    lay.content.isText = false →
    (x.toNat < lay.localWidth → y.toNat < lay.localHeight →
      let hw := s.cfg.hardwarePos lay.rotation x.toNat y.toNat
      ∃ content, exec (.drawPixel l x y) s = .next
          { s with layers := s.layers.set l.toNat { lay with content := content } } ∧
        DrawnAt s.cfg s.host ((lay.drawBuffer * s.cfg.height + hw.2) * s.cfg.width + hw.1)
          lay.content content) ∧
    ((lay.localWidth ≤ x.toNat ∨ lay.localHeight ≤ y.toNat) →
      exec (.drawPixel l x y) s = .next s)

/-- R352. The five broken contracts, each with its sub-code, and the commands that raise it. -/
def Obligations.BrokenContractsFault : Prop :=
  ∀ s : State, s.host.hostState = .ready →
    (s.flags.begun = true → exec .beginBlock s = .fault (.contractViolation .beginTwice)) ∧
    (∀ v : BitVec 16, s.cfg.maxRefreshRate < max v.toNat s.cfg.minRefreshRate →
      exec (.setRefreshRate v) s = .fault (.contractViolation .rateTooHigh)) ∧
    ∀ (l : BitVec 4) (lay : Layer), l.toNat < s.cfg.maxLayers →
      s.layers[l.toNat]? = some lay →
      (s.flags.begun = true →
        exec (.addLayer l) s = .fault (.contractViolation .addAfterBegin)) ∧
      (s.flags.begun = false → lay.attached = true →
        exec (.addLayer l) s = .fault (.contractViolation .addTwice)) ∧
      ((lay.attached = false ∨ lay.content.isText = true) →
        (∀ copy, exec (.swapBuffers copy l) s = .fault (.contractViolation .badLayer)) ∧
        ∀ x y, exec (.drawPixel l x y) s = .fault (.contractViolation .badLayer))

/-- The model's refusals (log 11, log 14): a command while another is in progress (R320); an engine or
producer operation performed on its own where it is not enabled (R273, R274, R307, R308) or where what its rule
requires does not hold (R279, R280, R301); an encoder variant of another depth or outside its operands (R197 to
R199); a layer beyond the pool (R124), a row beyond the display or the working rows (R8, R52), rate 0 for
L.SETRATE (R238) and L.SCROLLSTEP of a layer that is no text layer (R250). -/
def Obligations.OperationsOutsideTheirRulesAreRefused : Prop :=
  ∀ s : State,
    (∀ i : Instr, i.isCommand = true → s.host.hostState ≠ .ready →
      exec i s = .refused .hostBusy) ∧
    ((s.flags.begun = false ∨ s.eng.schedState = .stopped ∨
        (s.eng.schedState = .shifting ∧ s.cfg.depth ≤ s.eng.beatIndex) ∨
        (s.eng.schedState = .underrun ∧ 1 ≤ s.eng.beatIndex)) →
      exec .engBeat s = .refused .notEnabled) ∧
    ((s.flags.begun = false ∨ s.eng.schedState = .stopped ∨
        (s.eng.schedState = .shifting ∧ s.eng.beatIndex ≠ s.cfg.depth) ∨
        (s.eng.schedState = .underrun ∧ s.eng.beatIndex ≠ 1)) →
      exec .evComplete s = .refused .notEnabled) ∧
    ((s.flags.begun = false ∨ s.prod.calcState = .running ∨ s.flags.calcWake = false) →
      exec .pWake s = .refused .notEnabled) ∧
    (s.prod.calcState = .idle → exec .pStep s = .refused .notEnabled) ∧
    (s.ring.count = 0 → exec .schStart s = .refused .requirementUnmet ∧
      exec .schRecover s = .refused .requirementUnmet) ∧
    (s.eng.schedState ≠ .underrun → exec .schRecover s = .refused .requirementUnmet) ∧
    (s.ring.count = s.cfg.capacity → exec .calcStep s = .refused .requirementUnmet) ∧
    (∀ (w : BitVec 8) (i : BitVec 4),
      (s.cfg.depth ≠ 8 → exec (.encPlane24 w i) s = .refused .absentVariant) ∧
      (s.cfg.depth ≠ 12 → exec (.encPlane36 w i) s = .refused .absentVariant) ∧
      (s.cfg.depth ≠ 16 → exec (.encPlane48 w i) s = .refused .absentVariant) ∧
      ((s.cfg.capacity ≤ w.toNat ∨ s.cfg.depth ≤ i.toNat) →
        (s.cfg.depth = 8 → exec (.encPlane24 w i) s = .refused .badOperand) ∧
        (s.cfg.depth = 12 → exec (.encPlane36 w i) s = .refused .badOperand) ∧
        (s.cfg.depth = 16 → exec (.encPlane48 w i) s = .refused .badOperand))) ∧
    (∀ l : BitVec 4, s.cfg.maxLayers ≤ l.toNat →
      exec (.lBegin l) s = .refused .badOperand ∧ exec (.lFrame l) s = .refused .badOperand ∧
        exec (.lScrollStep l) s = .refused .badOperand ∧
        (∀ rot, exec (.lSetRot l rot) s = .refused .badOperand) ∧
        (∀ rate, exec (.lSetRate l rate) s = .refused .badOperand) ∧
        (∀ y g j sh, exec (.lFillRow l y g j sh) s = .refused .badOperand) ∧
        (s.host.hostState = .ready →
          exec (.addLayer l) s = .refused .badOperand ∧
          (∀ copy, exec (.swapBuffers copy l) s = .refused .badOperand) ∧
          ∀ x y, exec (.drawPixel l x y) s = .refused .badOperand)) ∧
    (∀ (y g : BitVec 10) (j : BitVec 1), (s.cfg.height ≤ y.toNat ∨ s.cfg.stack ≤ g.toNat) →
      exec (.compFillRow y g j) s = .refused .badOperand ∧
        ∀ l sh, exec (.lFillRow l y g j sh) s = .refused .badOperand) ∧
    (∀ l, exec (.lSetRate l 0) s = .refused .badOperand) ∧
    ∀ (l : BitVec 4) (lay : Layer), s.layers[l.toNat]? = some lay → lay.content.isText = false →
      exec (.lScrollStep l) s = .refused .badOperand

/-- R363, R246. After BEGIN no step of the host reaches engine or producer state, the chain, a slot or the
trace; of a layer it changes neither an index nor the geometry nor what its refresh buffer shows. -/
def Obligations.HostReachesNeitherEngineNorProducer : Prop :=
  ∀ s t : State, Inv s → s.flags.begun = true → nextAgent s = .host → step s = .next t →
    t.ring = s.ring ∧ t.prod = s.prod ∧ t.eng = s.eng ∧ t.tt = s.tt ∧ t.slots = s.slots ∧
      t.work = s.work ∧ t.chain = s.chain ∧ t.out.trace = s.out.trace ∧
      t.flags.calcWake = s.flags.calcWake ∧ t.flags.begun = true ∧
      t.layers.length = s.layers.length ∧
      ∀ (l : Nat) (a : Layer), s.layers[l]? = some a → ∃ b, t.layers[l]? = some b ∧
        b.attached = a.attached ∧ b.next = a.next ∧ b.rotation = a.rotation ∧
        b.refreshRate = a.refreshRate ∧ b.drawBuffer = a.drawBuffer ∧
        b.refreshBuffer = a.refreshBuffer ∧ b.previousBuffer = a.previousBuffer ∧
        ∀ y x, y < s.cfg.height → x < s.cfg.width →
          sample s.cfg b y x = sample s.cfg a y x

/-- R403. Before BEGIN a host that waits for a pending swap to be carried out is held for ever: whatever turns
are taken, only the choice of turns moves on, so the words waiting at the command port stay there. That the
engine's and the producer's turns pass (log 2), and that the held host's turn changes nothing (log 14), is the
model's choice. -/
def Obligations.SwapCopyBeforeBeginIsHeld : Prop :=
  ∀ (s : State) (l : Nat) (lay : Layer) (n : Nat), Inv s → s.flags.begun = false →
    (s.host.hostState = .swapWait2 l ∨ ∃ copy, s.host.hostState = .swapWait1 l copy) →
    s.layers[l]? = some lay → lay.swapPending = true →
    ∃ turns turnCount, runSteps n s =
      .next { s with env := { s.env with turns := turns, turnCount := turnCount } }

/-! ### Memory, reset and the whole machine -/

/-- R94, R95. An access of 1, 2 or 4 bytes, aligned and inside the pool, writes `v mod 2^(8n)` where a read
gives it back, and no other byte; any other access is refused. -/
def Obligations.ImageReadsAndWrites : Prop :=
  ∀ (s : State) (a n v : Nat),
    ((n = 1 ∨ n = 2 ∨ n = 4) → a % n = 0 → a + n ≤ s.cfg.capacity * s.cfg.slotBytes →
      ∃ m, memWrite s a n v = .next { s with slots := m } ∧
        memRead { s with slots := m } a n = .next (v % 2 ^ (8 * n)) ∧
        (∀ k, k < n → Store.read m (a + k) = some (BitVec.ofNat 8 (v / 256 ^ k))) ∧
        ∀ b, (b < a ∨ a + n ≤ b) → Store.read m b = Store.read s.slots b) ∧
    ((¬ (n = 1 ∨ n = 2 ∨ n = 4) ∨ a % n ≠ 0 ∨ s.cfg.capacity * s.cfg.slotBytes < a + n) →
      memWrite s a n v = .refused .badAccess ∧ memRead s a n = .refused .badAccess)

/-- R18, R351, R56. The check of construction is the constraints of R7 to R17, with those that R46 and R47 put
on the layers of the pool (that a pool is checked for these is the model's inference, log 20). Parameters that
break one make no instance; else construction is the reset state, with every field R56 gives a value at that
value, no memory written and the launch fields of every layer taken from its pool entry. -/
def Obligations.ConstructionGivesTheResetValues : Prop :=
  ∀ (c : Config) (pool : List LayerEntry),
    (c.validInstance pool = true ↔ IsInstance c pool) ∧
    (c.validInstance pool = false → Machine.construct c pool = .fault .configInvalid) ∧
    (c.validInstance pool = true →
      ∃ s, Machine.construct c pool = .next s ∧ s.cfg = c ∧
        s.ctl = { brightness := 255, refreshRate := c.refreshRateReset, rotation := 0, ccMode := 0 } ∧
        s.flags =
          { underrun := false, rateLowered := false, brightnessChanged := false,
            refreshRateChanged := false, rotationChanged := false, calcWake := false,
            begun := false } ∧
        s.eng = { schedState := .stopped, timingSource := .idle, curSlot := 0, beatIndex := 0 } ∧
        s.ring = { start := 0, count := 0 } ∧
        s.prod = { rowIndex := 0, loops := 0, calcState := .idle } ∧
        s.chain = { head := none, tail := none, count := 0, brightnessShifts := 0 } ∧
        s.host = { drawColor := ⟨0, 0, 0⟩, drawIndex := 0, hostState := .ready } ∧
        s.out.trace = [] ∧ s.tt = [] ∧ s.slots = [] ∧ s.work = [] ∧
        s.layers.length = c.maxLayers ∧
        ∀ (l : Nat) (e : LayerEntry), pool[l]? = some e → ∃ lay, s.layers[l]? = some lay ∧
          lay.attached = false ∧ lay.next = none ∧ lay.swapPending = false ∧
          lay.bufferCount = e.bufferCount ∧ lay.requestedShifts = e.requestedShifts ∧
          match e.variant with
          | .background => lay.content = .background []
          | .indexed n p => lay.content = .indexed n p []
          | .monoGfx v => lay.content = .monoGfx v []
          | .scrollingText v launch =>
            ∃ t, lay.content = .scrollingText t ∧ t.colour = v ∧ t.canvas = [] ∧
              t.mode = launch.mode ∧ t.position = launch.position ∧
              t.scrollMin = launch.scrollMin ∧ t.scrollMax = launch.scrollMax ∧
              t.leftOffset = launch.leftOffset ∧ t.scrollCounter = launch.scrollCounter ∧
              t.pixelsPerSecond = launch.pixelsPerSecond ∧ t.currentFrame = 0)

/-- R57, R284, R106 and the legal values of R34, R40 to R46 and R49 to R52. Every step keeps the invariant: the
registers and memories stay legal, the channels of layers and working rows stay below `2^N` and indices below
`2^IndexBits`, and rows are queued and shown in the order they were produced. That a channel is kept in 16 bits
whatever `N` is, is the model's choice (log 17). -/
def Obligations.StepKeepsTheInvariant : Prop :=
  ∀ s t : State, Inv s → step s = .next t → Inv t

/-- R390, R56. Construction leaves every instance in a state that meets the invariant, and so does the model's
reset, which is RC-A's (log 1). The invariant reads buffer indices that R56 leaves unspecified, which are the
model's choice (log 5), and palettes and colours that construction checks by inference (log 20). -/
def Obligations.ResetMeetsTheInvariant : Prop :=
  Inv State.reset ∧
    ∀ (c : Config) (pool : List LayerEntry) (s : State), Machine.construct c pool = .next s → Inv s

/-- R351, R353, R354. From a state that meets the invariant the machine stops only where the host breaks a
contract or writes an illegal word, and only in the host's turn: no ring, timing, memory or engine fault is
reachable. -/
def Obligations.StepStopsOnlyForTheHost : Prop :=
  ∀ s : State, Inv s →
    (∃ t, step s = .next t) ∨
    (nextAgent s = .host ∧
      ((∃ c, step s = .fault (.contractViolation c)) ∨
        ∃ w, step s = .refused (.illegalWord w)))

/-- R56 (log 6). A read before a write is a fault, whichever operation reads: an encoder the working rows;
L.FILLROW, COMP.FILLROW and the copy of SWAPBUFFERS a layer's refresh buffer or canvas; ENG.BEAT the row address,
a timing pair or a word of the slot in flight; CALC.STEP the timing table, where it does not recompute it;
MemRead a byte of the slot pool. -/
def Obligations.UnwrittenReadsFault : Prop :=
  (∀ (s : State) (w : BitVec 8) (i : BitVec 4) (k : Nat), w.toNat < s.cfg.capacity →
    i.toNat < s.cfg.depth → k < 2 * s.cfg.stack * s.cfg.width → Store.read s.work k = none →
    (s.cfg.depth = 8 → exec (.encPlane24 w i) s = .fault (.unspecifiedRead .work)) ∧
    (s.cfg.depth = 12 → exec (.encPlane36 w i) s = .fault (.unspecifiedRead .work)) ∧
    (s.cfg.depth = 16 → exec (.encPlane48 w i) s = .fault (.unspecifiedRead .work))) ∧
  (∀ (s : State) (l : BitVec 4) (y g : BitVec 10) (j : BitVec 1) (sh : BitVec 4) (lay : Layer)
      (x : Nat), l.toNat < s.cfg.maxLayers → y.toNat < s.cfg.height → g.toNat < s.cfg.stack →
    s.layers[l.toNat]? = some lay → x < s.cfg.width →
    sample s.cfg lay y.toNat x = .unspecified →
    exec (.lFillRow l y g j sh) s = .fault (.unspecifiedRead .layerBuf)) ∧
  (∀ (s : State) (y g : BitVec 10) (j : BitVec 1) (ls : List Nat) (l : Nat) (lay : Layer) (x : Nat),
    y.toNat < s.cfg.height → g.toNat < s.cfg.stack → ChainOk s ls → l ∈ ls →
    s.layers[l]? = some lay → x < s.cfg.width → sample s.cfg lay y.toNat x = .unspecified →
    exec (.compFillRow y g j) s = .fault (.unspecifiedRead .layerBuf)) ∧
  (∀ (s : State) (l : Nat) (lay : Layer) (y x : Nat), s.env.bench = [] → nextAgent s = .host →
    s.host.hostState = .swapWait2 l → s.layers[l]? = some lay → lay.swapPending = false →
    y < s.cfg.height → x < s.cfg.width →
    lay.content.UnwrittenAt (bufferIndex s.cfg lay.refreshBuffer y x) →
    step s = .fault (.unspecifiedRead .layerBuf)) ∧
  (∀ s : State, s.flags.begun = true → s.eng.schedState = .shifting →
    s.eng.beatIndex < s.cfg.depth →
    (slotRowAddress s.cfg s.slots s.eng.curSlot = none ∨
      slotTiming s.cfg s.slots s.eng.curSlot s.eng.beatIndex = none ∨
      ∃ q, q < s.cfg.wordsPerPlane ∧
        slotWord s.cfg s.slots s.eng.curSlot s.eng.beatIndex q = none) →
    exec .engBeat s = .fault (.unspecifiedRead .slot)) ∧
  (∀ (s : State) (tt : Store TimingPair) (i : Nat), CalcReady s → s.ring.count < s.cfg.capacity →
    (s.prod.rowIndex ≠ 0 ∨
      (s.flags.brightnessChanged = false ∧ s.flags.refreshRateChanged = false)) →
    i < s.cfg.depth → Store.read tt i = none →
    exec .calcStep { s with tt := tt } = .fault (.unspecifiedRead .timing)) ∧
  ∀ (s : State) (a n k : Nat), (n = 1 ∨ n = 2 ∨ n = 4) → a % n = 0 →
    a + n ≤ s.cfg.capacity * s.cfg.slotBytes → k < n → Store.read s.slots (a + k) = none →
    memRead s a n = .fault (.unspecifiedRead .slot)
end

