-- ==== Sys2Proof/Laws/State.lean ====
section
/-! SUPPORT. For each update of a part of State, what every field reads afterwards: one lemma per field per
update, true by `rfl`, so that no later proof unfolds a record update. -/

namespace Sys2Proof.Machine

section SetCtl
variable (s : State) (v : Controls)
@[simp] theorem State.setCtl_cfg : (s.setCtl v).cfg = s.cfg := rfl
@[simp] theorem State.setCtl_ctl : (s.setCtl v).ctl = v := rfl
@[simp] theorem State.setCtl_flags : (s.setCtl v).flags = s.flags := rfl
@[simp] theorem State.setCtl_ring : (s.setCtl v).ring = s.ring := rfl
@[simp] theorem State.setCtl_prod : (s.setCtl v).prod = s.prod := rfl
@[simp] theorem State.setCtl_eng : (s.setCtl v).eng = s.eng := rfl
@[simp] theorem State.setCtl_layers : (s.setCtl v).layers = s.layers := rfl
@[simp] theorem State.setCtl_chain : (s.setCtl v).chain = s.chain := rfl
@[simp] theorem State.setCtl_host : (s.setCtl v).host = s.host := rfl
@[simp] theorem State.setCtl_tt : (s.setCtl v).tt = s.tt := rfl
@[simp] theorem State.setCtl_slots : (s.setCtl v).slots = s.slots := rfl
@[simp] theorem State.setCtl_work : (s.setCtl v).work = s.work := rfl
@[simp] theorem State.setCtl_out : (s.setCtl v).out = s.out := rfl
@[simp] theorem State.setCtl_env : (s.setCtl v).env = s.env := rfl
@[simp] theorem State.setCtl_returned : (s.setCtl v).returned = s.returned := rfl
@[simp] theorem State.setCtl_freeCount : (s.setCtl v).freeCount = s.freeCount := rfl
end SetCtl

section SetFlags
variable (s : State) (v : Flags)
@[simp] theorem State.setFlags_cfg : (s.setFlags v).cfg = s.cfg := rfl
@[simp] theorem State.setFlags_ctl : (s.setFlags v).ctl = s.ctl := rfl
@[simp] theorem State.setFlags_flags : (s.setFlags v).flags = v := rfl
@[simp] theorem State.setFlags_ring : (s.setFlags v).ring = s.ring := rfl
@[simp] theorem State.setFlags_prod : (s.setFlags v).prod = s.prod := rfl
@[simp] theorem State.setFlags_eng : (s.setFlags v).eng = s.eng := rfl
@[simp] theorem State.setFlags_layers : (s.setFlags v).layers = s.layers := rfl
@[simp] theorem State.setFlags_chain : (s.setFlags v).chain = s.chain := rfl
@[simp] theorem State.setFlags_host : (s.setFlags v).host = s.host := rfl
@[simp] theorem State.setFlags_tt : (s.setFlags v).tt = s.tt := rfl
@[simp] theorem State.setFlags_slots : (s.setFlags v).slots = s.slots := rfl
@[simp] theorem State.setFlags_work : (s.setFlags v).work = s.work := rfl
@[simp] theorem State.setFlags_out : (s.setFlags v).out = s.out := rfl
@[simp] theorem State.setFlags_env : (s.setFlags v).env = s.env := rfl
@[simp] theorem State.setFlags_returned : (s.setFlags v).returned = s.returned := rfl
@[simp] theorem State.setFlags_freeCount : (s.setFlags v).freeCount = s.freeCount := rfl
end SetFlags

section SetRing
variable (s : State) (v : Ring)
@[simp] theorem State.setRing_cfg : (s.setRing v).cfg = s.cfg := rfl
@[simp] theorem State.setRing_ctl : (s.setRing v).ctl = s.ctl := rfl
@[simp] theorem State.setRing_flags : (s.setRing v).flags = s.flags := rfl
@[simp] theorem State.setRing_ring : (s.setRing v).ring = v := rfl
@[simp] theorem State.setRing_prod : (s.setRing v).prod = s.prod := rfl
@[simp] theorem State.setRing_eng : (s.setRing v).eng = s.eng := rfl
@[simp] theorem State.setRing_layers : (s.setRing v).layers = s.layers := rfl
@[simp] theorem State.setRing_chain : (s.setRing v).chain = s.chain := rfl
@[simp] theorem State.setRing_host : (s.setRing v).host = s.host := rfl
@[simp] theorem State.setRing_tt : (s.setRing v).tt = s.tt := rfl
@[simp] theorem State.setRing_slots : (s.setRing v).slots = s.slots := rfl
@[simp] theorem State.setRing_work : (s.setRing v).work = s.work := rfl
@[simp] theorem State.setRing_out : (s.setRing v).out = s.out := rfl
@[simp] theorem State.setRing_env : (s.setRing v).env = s.env := rfl
@[simp] theorem State.setRing_returned : (s.setRing v).returned = s.returned := rfl
@[simp] theorem State.setRing_freeCount : (s.setRing v).freeCount = s.freeCount := rfl
end SetRing

section SetProd
variable (s : State) (v : Producer)
@[simp] theorem State.setProd_cfg : (s.setProd v).cfg = s.cfg := rfl
@[simp] theorem State.setProd_ctl : (s.setProd v).ctl = s.ctl := rfl
@[simp] theorem State.setProd_flags : (s.setProd v).flags = s.flags := rfl
@[simp] theorem State.setProd_ring : (s.setProd v).ring = s.ring := rfl
@[simp] theorem State.setProd_prod : (s.setProd v).prod = v := rfl
@[simp] theorem State.setProd_eng : (s.setProd v).eng = s.eng := rfl
@[simp] theorem State.setProd_layers : (s.setProd v).layers = s.layers := rfl
@[simp] theorem State.setProd_chain : (s.setProd v).chain = s.chain := rfl
@[simp] theorem State.setProd_host : (s.setProd v).host = s.host := rfl
@[simp] theorem State.setProd_tt : (s.setProd v).tt = s.tt := rfl
@[simp] theorem State.setProd_slots : (s.setProd v).slots = s.slots := rfl
@[simp] theorem State.setProd_work : (s.setProd v).work = s.work := rfl
@[simp] theorem State.setProd_out : (s.setProd v).out = s.out := rfl
@[simp] theorem State.setProd_env : (s.setProd v).env = s.env := rfl
@[simp] theorem State.setProd_returned : (s.setProd v).returned = s.returned := rfl
@[simp] theorem State.setProd_freeCount : (s.setProd v).freeCount = s.freeCount := rfl
end SetProd

section SetEng
variable (s : State) (v : Engine)
@[simp] theorem State.setEng_cfg : (s.setEng v).cfg = s.cfg := rfl
@[simp] theorem State.setEng_ctl : (s.setEng v).ctl = s.ctl := rfl
@[simp] theorem State.setEng_flags : (s.setEng v).flags = s.flags := rfl
@[simp] theorem State.setEng_ring : (s.setEng v).ring = s.ring := rfl
@[simp] theorem State.setEng_prod : (s.setEng v).prod = s.prod := rfl
@[simp] theorem State.setEng_eng : (s.setEng v).eng = v := rfl
@[simp] theorem State.setEng_layers : (s.setEng v).layers = s.layers := rfl
@[simp] theorem State.setEng_chain : (s.setEng v).chain = s.chain := rfl
@[simp] theorem State.setEng_host : (s.setEng v).host = s.host := rfl
@[simp] theorem State.setEng_tt : (s.setEng v).tt = s.tt := rfl
@[simp] theorem State.setEng_slots : (s.setEng v).slots = s.slots := rfl
@[simp] theorem State.setEng_work : (s.setEng v).work = s.work := rfl
@[simp] theorem State.setEng_out : (s.setEng v).out = s.out := rfl
@[simp] theorem State.setEng_env : (s.setEng v).env = s.env := rfl
@[simp] theorem State.setEng_returned : (s.setEng v).returned = s.returned := rfl
@[simp] theorem State.setEng_freeCount : (s.setEng v).freeCount = s.freeCount := rfl
end SetEng

section SetLayers
variable (s : State) (v : List Layer)
@[simp] theorem State.setLayers_cfg : (s.setLayers v).cfg = s.cfg := rfl
@[simp] theorem State.setLayers_ctl : (s.setLayers v).ctl = s.ctl := rfl
@[simp] theorem State.setLayers_flags : (s.setLayers v).flags = s.flags := rfl
@[simp] theorem State.setLayers_ring : (s.setLayers v).ring = s.ring := rfl
@[simp] theorem State.setLayers_prod : (s.setLayers v).prod = s.prod := rfl
@[simp] theorem State.setLayers_eng : (s.setLayers v).eng = s.eng := rfl
@[simp] theorem State.setLayers_layers : (s.setLayers v).layers = v := rfl
@[simp] theorem State.setLayers_chain : (s.setLayers v).chain = s.chain := rfl
@[simp] theorem State.setLayers_host : (s.setLayers v).host = s.host := rfl
@[simp] theorem State.setLayers_tt : (s.setLayers v).tt = s.tt := rfl
@[simp] theorem State.setLayers_slots : (s.setLayers v).slots = s.slots := rfl
@[simp] theorem State.setLayers_work : (s.setLayers v).work = s.work := rfl
@[simp] theorem State.setLayers_out : (s.setLayers v).out = s.out := rfl
@[simp] theorem State.setLayers_env : (s.setLayers v).env = s.env := rfl
@[simp] theorem State.setLayers_returned : (s.setLayers v).returned = s.returned := rfl
@[simp] theorem State.setLayers_freeCount : (s.setLayers v).freeCount = s.freeCount := rfl
end SetLayers

section SetChain
variable (s : State) (v : Chain)
@[simp] theorem State.setChain_cfg : (s.setChain v).cfg = s.cfg := rfl
@[simp] theorem State.setChain_ctl : (s.setChain v).ctl = s.ctl := rfl
@[simp] theorem State.setChain_flags : (s.setChain v).flags = s.flags := rfl
@[simp] theorem State.setChain_ring : (s.setChain v).ring = s.ring := rfl
@[simp] theorem State.setChain_prod : (s.setChain v).prod = s.prod := rfl
@[simp] theorem State.setChain_eng : (s.setChain v).eng = s.eng := rfl
@[simp] theorem State.setChain_layers : (s.setChain v).layers = s.layers := rfl
@[simp] theorem State.setChain_chain : (s.setChain v).chain = v := rfl
@[simp] theorem State.setChain_host : (s.setChain v).host = s.host := rfl
@[simp] theorem State.setChain_tt : (s.setChain v).tt = s.tt := rfl
@[simp] theorem State.setChain_slots : (s.setChain v).slots = s.slots := rfl
@[simp] theorem State.setChain_work : (s.setChain v).work = s.work := rfl
@[simp] theorem State.setChain_out : (s.setChain v).out = s.out := rfl
@[simp] theorem State.setChain_env : (s.setChain v).env = s.env := rfl
@[simp] theorem State.setChain_returned : (s.setChain v).returned = s.returned := rfl
@[simp] theorem State.setChain_freeCount : (s.setChain v).freeCount = s.freeCount := rfl
end SetChain

section SetHost
variable (s : State) (v : HostRegs)
@[simp] theorem State.setHost_cfg : (s.setHost v).cfg = s.cfg := rfl
@[simp] theorem State.setHost_ctl : (s.setHost v).ctl = s.ctl := rfl
@[simp] theorem State.setHost_flags : (s.setHost v).flags = s.flags := rfl
@[simp] theorem State.setHost_ring : (s.setHost v).ring = s.ring := rfl
@[simp] theorem State.setHost_prod : (s.setHost v).prod = s.prod := rfl
@[simp] theorem State.setHost_eng : (s.setHost v).eng = s.eng := rfl
@[simp] theorem State.setHost_layers : (s.setHost v).layers = s.layers := rfl
@[simp] theorem State.setHost_chain : (s.setHost v).chain = s.chain := rfl
@[simp] theorem State.setHost_host : (s.setHost v).host = v := rfl
@[simp] theorem State.setHost_tt : (s.setHost v).tt = s.tt := rfl
@[simp] theorem State.setHost_slots : (s.setHost v).slots = s.slots := rfl
@[simp] theorem State.setHost_work : (s.setHost v).work = s.work := rfl
@[simp] theorem State.setHost_out : (s.setHost v).out = s.out := rfl
@[simp] theorem State.setHost_env : (s.setHost v).env = s.env := rfl
@[simp] theorem State.setHost_returned : (s.setHost v).returned = s.returned := rfl
@[simp] theorem State.setHost_freeCount : (s.setHost v).freeCount = s.freeCount := rfl
end SetHost

section SetTT
variable (s : State) (v : Store TimingPair)
@[simp] theorem State.setTT_cfg : (s.setTT v).cfg = s.cfg := rfl
@[simp] theorem State.setTT_ctl : (s.setTT v).ctl = s.ctl := rfl
@[simp] theorem State.setTT_flags : (s.setTT v).flags = s.flags := rfl
@[simp] theorem State.setTT_ring : (s.setTT v).ring = s.ring := rfl
@[simp] theorem State.setTT_prod : (s.setTT v).prod = s.prod := rfl
@[simp] theorem State.setTT_eng : (s.setTT v).eng = s.eng := rfl
@[simp] theorem State.setTT_layers : (s.setTT v).layers = s.layers := rfl
@[simp] theorem State.setTT_chain : (s.setTT v).chain = s.chain := rfl
@[simp] theorem State.setTT_host : (s.setTT v).host = s.host := rfl
@[simp] theorem State.setTT_tt : (s.setTT v).tt = v := rfl
@[simp] theorem State.setTT_slots : (s.setTT v).slots = s.slots := rfl
@[simp] theorem State.setTT_work : (s.setTT v).work = s.work := rfl
@[simp] theorem State.setTT_out : (s.setTT v).out = s.out := rfl
@[simp] theorem State.setTT_env : (s.setTT v).env = s.env := rfl
@[simp] theorem State.setTT_returned : (s.setTT v).returned = s.returned := rfl
@[simp] theorem State.setTT_freeCount : (s.setTT v).freeCount = s.freeCount := rfl
end SetTT

section SetSlots
variable (s : State) (v : Memory)
@[simp] theorem State.setSlots_cfg : (s.setSlots v).cfg = s.cfg := rfl
@[simp] theorem State.setSlots_ctl : (s.setSlots v).ctl = s.ctl := rfl
@[simp] theorem State.setSlots_flags : (s.setSlots v).flags = s.flags := rfl
@[simp] theorem State.setSlots_ring : (s.setSlots v).ring = s.ring := rfl
@[simp] theorem State.setSlots_prod : (s.setSlots v).prod = s.prod := rfl
@[simp] theorem State.setSlots_eng : (s.setSlots v).eng = s.eng := rfl
@[simp] theorem State.setSlots_layers : (s.setSlots v).layers = s.layers := rfl
@[simp] theorem State.setSlots_chain : (s.setSlots v).chain = s.chain := rfl
@[simp] theorem State.setSlots_host : (s.setSlots v).host = s.host := rfl
@[simp] theorem State.setSlots_tt : (s.setSlots v).tt = s.tt := rfl
@[simp] theorem State.setSlots_slots : (s.setSlots v).slots = v := rfl
@[simp] theorem State.setSlots_work : (s.setSlots v).work = s.work := rfl
@[simp] theorem State.setSlots_out : (s.setSlots v).out = s.out := rfl
@[simp] theorem State.setSlots_env : (s.setSlots v).env = s.env := rfl
@[simp] theorem State.setSlots_returned : (s.setSlots v).returned = s.returned := rfl
@[simp] theorem State.setSlots_freeCount : (s.setSlots v).freeCount = s.freeCount := rfl
end SetSlots

section SetWork
variable (s : State) (v : Store Rgb)
@[simp] theorem State.setWork_cfg : (s.setWork v).cfg = s.cfg := rfl
@[simp] theorem State.setWork_ctl : (s.setWork v).ctl = s.ctl := rfl
@[simp] theorem State.setWork_flags : (s.setWork v).flags = s.flags := rfl
@[simp] theorem State.setWork_ring : (s.setWork v).ring = s.ring := rfl
@[simp] theorem State.setWork_prod : (s.setWork v).prod = s.prod := rfl
@[simp] theorem State.setWork_eng : (s.setWork v).eng = s.eng := rfl
@[simp] theorem State.setWork_layers : (s.setWork v).layers = s.layers := rfl
@[simp] theorem State.setWork_chain : (s.setWork v).chain = s.chain := rfl
@[simp] theorem State.setWork_host : (s.setWork v).host = s.host := rfl
@[simp] theorem State.setWork_tt : (s.setWork v).tt = s.tt := rfl
@[simp] theorem State.setWork_slots : (s.setWork v).slots = s.slots := rfl
@[simp] theorem State.setWork_work : (s.setWork v).work = v := rfl
@[simp] theorem State.setWork_out : (s.setWork v).out = s.out := rfl
@[simp] theorem State.setWork_env : (s.setWork v).env = s.env := rfl
@[simp] theorem State.setWork_returned : (s.setWork v).returned = s.returned := rfl
@[simp] theorem State.setWork_freeCount : (s.setWork v).freeCount = s.freeCount := rfl
end SetWork

section SetOut
variable (s : State) (v : Outputs)
@[simp] theorem State.setOut_cfg : (s.setOut v).cfg = s.cfg := rfl
@[simp] theorem State.setOut_ctl : (s.setOut v).ctl = s.ctl := rfl
@[simp] theorem State.setOut_flags : (s.setOut v).flags = s.flags := rfl
@[simp] theorem State.setOut_ring : (s.setOut v).ring = s.ring := rfl
@[simp] theorem State.setOut_prod : (s.setOut v).prod = s.prod := rfl
@[simp] theorem State.setOut_eng : (s.setOut v).eng = s.eng := rfl
@[simp] theorem State.setOut_layers : (s.setOut v).layers = s.layers := rfl
@[simp] theorem State.setOut_chain : (s.setOut v).chain = s.chain := rfl
@[simp] theorem State.setOut_host : (s.setOut v).host = s.host := rfl
@[simp] theorem State.setOut_tt : (s.setOut v).tt = s.tt := rfl
@[simp] theorem State.setOut_slots : (s.setOut v).slots = s.slots := rfl
@[simp] theorem State.setOut_work : (s.setOut v).work = s.work := rfl
@[simp] theorem State.setOut_out : (s.setOut v).out = v := rfl
@[simp] theorem State.setOut_env : (s.setOut v).env = s.env := rfl
@[simp] theorem State.setOut_returned : (s.setOut v).returned = s.returned := rfl
@[simp] theorem State.setOut_freeCount : (s.setOut v).freeCount = s.freeCount := rfl
end SetOut

section SetEnv
variable (s : State) (v : Env)
@[simp] theorem State.setEnv_cfg : (s.setEnv v).cfg = s.cfg := rfl
@[simp] theorem State.setEnv_ctl : (s.setEnv v).ctl = s.ctl := rfl
@[simp] theorem State.setEnv_flags : (s.setEnv v).flags = s.flags := rfl
@[simp] theorem State.setEnv_ring : (s.setEnv v).ring = s.ring := rfl
@[simp] theorem State.setEnv_prod : (s.setEnv v).prod = s.prod := rfl
@[simp] theorem State.setEnv_eng : (s.setEnv v).eng = s.eng := rfl
@[simp] theorem State.setEnv_layers : (s.setEnv v).layers = s.layers := rfl
@[simp] theorem State.setEnv_chain : (s.setEnv v).chain = s.chain := rfl
@[simp] theorem State.setEnv_host : (s.setEnv v).host = s.host := rfl
@[simp] theorem State.setEnv_tt : (s.setEnv v).tt = s.tt := rfl
@[simp] theorem State.setEnv_slots : (s.setEnv v).slots = s.slots := rfl
@[simp] theorem State.setEnv_work : (s.setEnv v).work = s.work := rfl
@[simp] theorem State.setEnv_out : (s.setEnv v).out = s.out := rfl
@[simp] theorem State.setEnv_env : (s.setEnv v).env = v := rfl
@[simp] theorem State.setEnv_returned : (s.setEnv v).returned = s.returned := rfl
@[simp] theorem State.setEnv_freeCount : (s.setEnv v).freeCount = s.freeCount := rfl
end SetEnv

section SetReturned
variable (s : State) (v : Returned)
@[simp] theorem State.setReturned_cfg : (s.setReturned v).cfg = s.cfg := rfl
@[simp] theorem State.setReturned_ctl : (s.setReturned v).ctl = s.ctl := rfl
@[simp] theorem State.setReturned_flags : (s.setReturned v).flags = s.flags := rfl
@[simp] theorem State.setReturned_ring : (s.setReturned v).ring = s.ring := rfl
@[simp] theorem State.setReturned_prod : (s.setReturned v).prod = s.prod := rfl
@[simp] theorem State.setReturned_eng : (s.setReturned v).eng = s.eng := rfl
@[simp] theorem State.setReturned_layers : (s.setReturned v).layers = s.layers := rfl
@[simp] theorem State.setReturned_chain : (s.setReturned v).chain = s.chain := rfl
@[simp] theorem State.setReturned_host : (s.setReturned v).host = s.host := rfl
@[simp] theorem State.setReturned_tt : (s.setReturned v).tt = s.tt := rfl
@[simp] theorem State.setReturned_slots : (s.setReturned v).slots = s.slots := rfl
@[simp] theorem State.setReturned_work : (s.setReturned v).work = s.work := rfl
@[simp] theorem State.setReturned_out : (s.setReturned v).out = s.out := rfl
@[simp] theorem State.setReturned_env : (s.setReturned v).env = s.env := rfl
@[simp] theorem State.setReturned_returned : (s.setReturned v).returned = v := rfl
@[simp] theorem State.setReturned_freeCount : (s.setReturned v).freeCount = s.freeCount := rfl
end SetReturned

section SetFreeCount
variable (s : State) (v : Nat)
@[simp] theorem State.setFreeCount_cfg : (s.setFreeCount v).cfg = s.cfg := rfl
@[simp] theorem State.setFreeCount_ctl : (s.setFreeCount v).ctl = s.ctl := rfl
@[simp] theorem State.setFreeCount_flags : (s.setFreeCount v).flags = s.flags := rfl
@[simp] theorem State.setFreeCount_ring : (s.setFreeCount v).ring = s.ring := rfl
@[simp] theorem State.setFreeCount_prod : (s.setFreeCount v).prod = s.prod := rfl
@[simp] theorem State.setFreeCount_eng : (s.setFreeCount v).eng = s.eng := rfl
@[simp] theorem State.setFreeCount_layers : (s.setFreeCount v).layers = s.layers := rfl
@[simp] theorem State.setFreeCount_chain : (s.setFreeCount v).chain = s.chain := rfl
@[simp] theorem State.setFreeCount_host : (s.setFreeCount v).host = s.host := rfl
@[simp] theorem State.setFreeCount_tt : (s.setFreeCount v).tt = s.tt := rfl
@[simp] theorem State.setFreeCount_slots : (s.setFreeCount v).slots = s.slots := rfl
@[simp] theorem State.setFreeCount_work : (s.setFreeCount v).work = s.work := rfl
@[simp] theorem State.setFreeCount_out : (s.setFreeCount v).out = s.out := rfl
@[simp] theorem State.setFreeCount_env : (s.setFreeCount v).env = s.env := rfl
@[simp] theorem State.setFreeCount_returned : (s.setFreeCount v).returned = s.returned := rfl
@[simp] theorem State.setFreeCount_freeCount : (s.setFreeCount v).freeCount = v := rfl
end SetFreeCount

end Sys2Proof.Machine
end

