-- ==== Sys2Proof/Laws/Store.lean ====
section
/-! SUPPORT. The laws of sparse memories: reading after writing, and that every write keeps the canonical
form. -/

namespace Sys2Proof.Machine

variable {α : Type}

@[simp] theorem Store.read_nil (k : Nat) : Store.read ([] : Store α) k = none := rfl

theorem Store.read_cons (a : Nat) (v : α) (m : Store α) (k : Nat) :
    Store.read ((a, v) :: m) k = if a = k then some v else Store.read m k := rfl

theorem Store.read_append (m n : Store α) (k : Nat) :
    Store.read (m ++ n) k = (Store.read m k).or (Store.read n k) := by
  induction m with
  | nil => simp
  | cons e m ih =>
    obtain ⟨a, v⟩ := e
    simp only [List.cons_append, Store.read_cons]
    split
    · simp
    · exact ih

theorem Store.read_filter (m : Store α) (p : Nat → Bool) (k : Nat) :
    Store.read (m.filter (fun e => p e.1)) k = if p k then Store.read m k else none := by
  induction m with
  | nil => simp
  | cons e m ih =>
    obtain ⟨a, v⟩ := e
    by_cases ha : p a = true
    · rw [List.filter_cons_of_pos (by simpa using ha)]
      simp only [Store.read_cons, ih]
      by_cases hk : a = k
      · subst hk; simp [ha]
      · simp [hk]
    · rw [List.filter_cons_of_neg (by simpa using ha), ih]
      simp only [Store.read_cons]
      by_cases hk : a = k
      · subst hk; simp [ha]
      · simp [hk]

theorem Store.read_segment (a : Nat) (vs : List α) (k : Nat) :
    Store.read (Store.segment a vs) k = if a ≤ k then vs[k - a]? else none := by
  induction vs generalizing a with
  | nil => simp [Store.segment]
  | cons v vs ih =>
    simp only [Store.segment, Store.read_cons, ih]
    by_cases h1 : a = k
    · subst h1; simp
    · by_cases h2 : a ≤ k
      · have h3 : a + 1 ≤ k := by omega
        have h4 : k - a = (k - (a + 1)) + 1 := by omega
        simp [h1, h2, h3, h4]
      · have h3 : ¬ a + 1 ≤ k := by omega
        simp [h1, h2, h3]

/-- Reading after a write: the written element inside the range, what was there before outside it. -/
theorem Store.read_writeRange (m : Store α) (a : Nat) (vs : List α) (k : Nat) :
    Store.read (Store.writeRange m a vs) k =
      if a ≤ k ∧ k < a + vs.length then vs[k - a]? else Store.read m k := by
  have h1 := Store.read_filter m (fun j => decide (j < a)) k
  have h2 := Store.read_filter m (fun j => decide (a + vs.length ≤ j)) k
  simp only [Store.writeRange, Store.read_append, Store.read_segment, h1, h2, decide_eq_true_eq]
  by_cases ha : a ≤ k
  · have h3 : ¬ k < a := by omega
    by_cases hk : k < a + vs.length
    · have h4 : k - a < vs.length := by omega
      simp [ha, hk, h3, h4]
    · have h4 : vs.length ≤ k - a := by omega
      have h5 : a + vs.length ≤ k := by omega
      simp [ha, hk, h3, h4, h5]
  · have h3 : k < a := by omega
    have h5 : ¬ a + vs.length ≤ k := by omega
    simp [ha, h3, h5]

theorem Store.read_writeRange_outside (m : Store α) (a : Nat) (vs : List α) (k : Nat)
    (h : k < a ∨ a + vs.length ≤ k) :
    Store.read (Store.writeRange m a vs) k = Store.read m k := by
  rw [Store.read_writeRange, if_neg (by omega)]

theorem Store.read_writeRange_inside (m : Store α) (a : Nat) (vs : List α) (i : Nat)
    (h : i < vs.length) :
    Store.read (Store.writeRange m a vs) (a + i) = some vs[i] := by
  rw [Store.read_writeRange, if_pos (by omega)]
  simp [h]

theorem Store.read_write (m : Store α) (a : Nat) (v : α) (k : Nat) :
    Store.read (Store.write m a v) k = if k = a then some v else Store.read m k := by
  simp only [Store.write, Store.read_writeRange, List.length_singleton]
  by_cases h : k = a
  · subst h; simp
  · rw [if_neg (by omega), if_neg h]

/-- A range can be read exactly when each of its elements can, and gives those elements. -/
theorem Store.readRange_eq_some (m : Store α) (a n : Nat) (vs : List α) :
    Store.readRange m a n = some vs ↔
      vs.length = n ∧ ∀ i, i < n → Store.read m (a + i) = vs[i]? := by
  induction n generalizing a vs with
  | zero =>
    simp only [Store.readRange, Option.some.injEq]
    constructor
    · rintro rfl; simp
    · rintro ⟨h, -⟩; exact (List.length_eq_zero_iff.mp h).symm
  | succ n ih =>
    simp only [Store.readRange]
    constructor
    · intro h
      split at h
      · rename_i v vs' hv hvs'
        cases h
        obtain ⟨hl, hr⟩ := (ih (a + 1) vs').mp hvs'
        refine ⟨by simp [hl], fun i hi => ?_⟩
        cases i with
        | zero => simpa using hv
        | succ i =>
          have := hr i (by omega)
          simpa [Nat.add_assoc, Nat.add_comm 1 i] using this
      · cases h
    · rintro ⟨hl, hr⟩
      cases vs with
      | nil => simp at hl
      | cons v vs' =>
        have h0 := hr 0 (by omega)
        have h1 : Store.readRange m (a + 1) n = some vs' := by
          refine (ih (a + 1) vs').mpr ⟨by simpa using hl, fun i hi => ?_⟩
          have := hr (i + 1) (by omega)
          simpa [Nat.add_assoc, Nat.add_comm 1 i] using this
        simp only [Nat.add_zero, List.getElem?_cons_zero] at h0
        rw [h0, h1]

theorem Store.readRange_isSome (m : Store α) (a n : Nat)
    (h : ∀ i, i < n → (Store.read m (a + i)).isSome) : ∃ vs, Store.readRange m a n = some vs := by
  induction n generalizing a with
  | zero => exact ⟨[], rfl⟩
  | succ n ih =>
    obtain ⟨vs, hvs⟩ := ih (a + 1) fun i hi => by
      have := h (i + 1) (by omega)
      rwa [Nat.add_comm i 1, ← Nat.add_assoc] at this
    obtain ⟨v, hv⟩ := Option.isSome_iff_exists.mp (h 0 (by omega))
    exact ⟨v :: vs, by simp only [Store.readRange]; rw [show Store.read m a = some v from hv, hvs]⟩

/-- Two memories that agree on a range read the same range. -/
theorem Store.readRange_congr (m n : Store α) (a len : Nat)
    (h : ∀ i, i < len → Store.read m (a + i) = Store.read n (a + i)) :
    Store.readRange m a len = Store.readRange n a len := by
  induction len generalizing a with
  | zero => rfl
  | succ len ih =>
    have h0 := h 0 (by omega)
    have h1 := ih (a + 1) fun i hi => by
      have := h (i + 1) (by omega)
      rwa [Nat.add_comm i 1, ← Nat.add_assoc] at this
    simp only [Nat.add_zero] at h0
    simp only [Store.readRange, h0, h1]

/-! ### The canonical form -/

theorem Store.wf_cons (a : Nat) (v : α) (m : Store α) :
    Store.wf ((a, v) :: m) = true ↔ (∀ e ∈ m, a < e.1) ∧ Store.wf m = true := by
  simp [Store.wf, List.all_eq_true]

theorem Store.wf_append (m n : Store α) :
    Store.wf (m ++ n) = true ↔
      Store.wf m = true ∧ Store.wf n = true ∧ ∀ e ∈ m, ∀ f ∈ n, e.1 < f.1 := by
  induction m with
  | nil => simp [Store.wf]
  | cons e m ih =>
    obtain ⟨a, v⟩ := e
    simp only [List.cons_append, Store.wf_cons, ih, List.mem_append, List.mem_cons]
    constructor
    · rintro ⟨h1, h2, h3, h4⟩
      refine ⟨⟨fun e he => h1 e (.inl he), h2⟩, h3, ?_⟩
      rintro e (rfl | he) f hf
      · exact h1 f (.inr hf)
      · exact h4 e he f hf
    · rintro ⟨⟨h1, h2⟩, h3, h4⟩
      refine ⟨?_, h2, h3, fun e he f hf => h4 e (.inr he) f hf⟩
      rintro e (he | he)
      · exact h1 e he
      · exact h4 (a, v) (.inl rfl) e he

theorem Store.wf_filter (m : Store α) (p : Nat × α → Bool) (h : Store.wf m = true) :
    Store.wf (m.filter p) = true := by
  induction m with
  | nil => simpa using h
  | cons e m ih =>
    obtain ⟨a, v⟩ := e
    obtain ⟨h1, h2⟩ := (Store.wf_cons a v m).mp h
    by_cases hp : p (a, v) = true
    · rw [List.filter_cons_of_pos hp, Store.wf_cons]
      exact ⟨fun e he => h1 e (List.mem_of_mem_filter he), ih h2⟩
    · rw [List.filter_cons_of_neg (by simpa using hp)]
      exact ih h2

theorem Store.mem_segment (a : Nat) (vs : List α) (e : Nat × α) (h : e ∈ Store.segment a vs) :
    a ≤ e.1 ∧ e.1 < a + vs.length := by
  induction vs generalizing a with
  | nil => simp [Store.segment] at h
  | cons v vs ih =>
    simp only [Store.segment, List.mem_cons] at h
    rcases h with rfl | h
    · simp
    · have := ih (a + 1) h
      simp only [List.length_cons]
      omega

theorem Store.wf_segment (a : Nat) (vs : List α) : Store.wf (Store.segment a vs) = true := by
  induction vs generalizing a with
  | nil => rfl
  | cons v vs ih =>
    rw [Store.segment, Store.wf_cons]
    exact ⟨fun e he => by have := Store.mem_segment (a + 1) vs e he; omega, ih (a + 1)⟩

/-- Every write keeps the canonical form. -/
theorem Store.wf_writeRange (m : Store α) (a : Nat) (vs : List α) (h : Store.wf m = true) :
    Store.wf (Store.writeRange m a vs) = true := by
  rw [Store.writeRange, Store.wf_append, Store.wf_append]
  refine ⟨⟨Store.wf_filter _ _ h, Store.wf_segment a vs, ?_⟩, Store.wf_filter _ _ h, ?_⟩
  · intro e he f hf
    have h1 := (List.mem_filter.mp he).2
    have h2 := Store.mem_segment a vs f hf
    simp only [decide_eq_true_eq] at h1
    omega
  · intro e he f hf
    have h1 := (List.mem_filter.mp hf).2
    simp only [decide_eq_true_eq] at h1
    rcases List.mem_append.mp he with he | he
    · have h2 := (List.mem_filter.mp he).2
      simp only [decide_eq_true_eq] at h2
      omega
    · have h2 := Store.mem_segment a vs e he
      omega

theorem Store.wf_write (m : Store α) (k : Nat) (v : α) (h : Store.wf m = true) :
    Store.wf (Store.write m k v) = true := Store.wf_writeRange m k [v] h

/-! ### Byte order -/

@[simp] theorem leBytes_length (n v : Nat) : (leBytes n v).length = n := by
  induction n generalizing v with
  | zero => rfl
  | succ n ih => simp [leBytes, ih]

/-- The bytes of a number give the number back, modulo what they can hold. -/
theorem ofLeBytes_leBytes (n v : Nat) : ofLeBytes (leBytes n v) = v % 256 ^ n := by
  induction n generalizing v with
  | zero => simp [leBytes, ofLeBytes, Nat.mod_one]
  | succ n ih =>
    have h := Nat.mod_mul (x := v) (a := 256) (b := 256 ^ n)
    simp only [leBytes, ofLeBytes, ih, BitVec.toNat_ofNat, Nat.pow_succ', h]

end Sys2Proof.Machine
end

