-- ==== Sys2Proof/Laws/Ops.lean ====
section
/-! SUPPORT. What each shared operation of Machine/Ops.lean and Machine/Operands.lean can do, said once. -/

namespace Sys2Proof.Machine

/-! ### Sequences of outcomes -/

@[simp] theorem andThen_next (s : State) (f : State → Res) : andThen (.next s) f = f s := rfl

@[simp] theorem andThen_fault (e : Fault) (f : State → Res) : andThen (.fault e) f = .fault e := rfl

@[simp] theorem andThen_refused (e : Refusal) (f : State → Res) :
    andThen (.refused e) f = .refused e := rfl

/-- A sequence answers a next state exactly when both operations do. -/
theorem andThen_eq_next (r : Res) (f : State → Res) (t : State) :
    andThen r f = .next t ↔ ∃ m, r = .next m ∧ f m = .next t := by
  cases r <;> simp [andThen]

@[simp] theorem forEach_nil {α : Type} (f : α → State → Res) (s : State) :
    forEach [] f s = .next s := rfl

@[simp] theorem forEach_cons {α : Type} (x : α) (xs : List α) (f : α → State → Res) (s : State) :
    forEach (x :: xs) f s = andThen (f x s) (forEach xs f) := rfl

/-- What one operation keeps between its input and its output, a sequence of them keeps. -/
theorem forEach_preserves {α : Type} (P : State → State → Prop) (f : α → State → Res)
    (refl : ∀ s, P s s) (trans : ∀ s m t, P s m → P m t → P s t) (xs : List α)
    (each : ∀ x ∈ xs, ∀ s t, f x s = .next t → P s t) (s t : State)
    (h : forEach xs f s = .next t) : P s t := by
  induction xs generalizing s with
  | nil => cases h; exact refl _
  | cons x xs ih =>
    obtain ⟨m, h1, h2⟩ := (andThen_eq_next _ _ _).mp h
    exact trans s m t (each x (by simp) s m h1)
      (ih (fun y hy => each y (by simp [hy])) m h2)

/-- A sequence of operations each of which answers under a condition that it keeps answers, and keeps
the condition. -/
theorem forEach_completes {α : Type} (P : State → Prop) (f : α → State → Res) (xs : List α)
    (each : ∀ x ∈ xs, ∀ s, P s → ∃ t, f x s = .next t ∧ P t) (s : State) (h : P s) :
    ∃ t, forEach xs f s = .next t ∧ P t := by
  induction xs generalizing s with
  | nil => exact ⟨s, rfl, h⟩
  | cons x xs ih =>
    obtain ⟨m, h1, h2⟩ := each x (by simp) s h
    obtain ⟨t, h3, h4⟩ := ih (fun y hy => each y (by simp [hy])) m h2
    exact ⟨t, by rw [forEach_cons, h1, andThen_next, h3], h4⟩

/-- A list of values is read exactly when each value is there. -/
theorem collect_eq_some {α : Type} (vs : List (Option α)) (as : List α) :
    collect vs = some as ↔ vs = as.map some := by
  induction vs generalizing as with
  | nil => cases as <;> simp [collect]
  | cons v vs ih =>
    cases v with
    | none => cases as <;> simp [collect]
    | some a =>
      simp only [collect]
      cases hc : collect vs with
      | none =>
        cases as with
        | nil => simp
        | cons b bs =>
          simp only [List.map_cons, List.cons.injEq, Option.some.injEq, reduceCtorEq, false_iff]
          rintro ⟨-, h⟩
          rw [(ih bs).mpr h] at hc
          cases hc
      | some cs =>
        have := (ih cs).mp hc
        cases as with
        | nil => simp
        | cons b bs =>
          simp only [Option.some.injEq, List.cons.injEq, List.map_cons, this]
          constructor
          · rintro ⟨rfl, rfl⟩; exact ⟨rfl, rfl⟩
          · rintro ⟨rfl, h⟩
            exact ⟨rfl, List.map_injective_iff.mpr (Option.some_injective α) h⟩

theorem collect_isSome {α : Type} (vs : List (Option α)) (h : ∀ v ∈ vs, v.isSome) :
    ∃ as, collect vs = some as ∧ vs = as.map some := by
  induction vs with
  | nil => exact ⟨[], rfl, rfl⟩
  | cons v vs ih =>
    obtain ⟨as, h1, h2⟩ := ih fun v hv => h v (by simp [hv])
    obtain ⟨a, ha⟩ := Option.isSome_iff_exists.mp (h v (by simp))
    refine ⟨a :: as, ?_, by simp [ha, h2]⟩
    simp [collect, ha, h1]

/-! ### Layers of the pool -/

/-- An operation on a layer answers only for a layer of the pool. -/
theorem withLayer_eq_next (l : Nat) (s : State) (k : Layer → Res) (t : State) :
    withLayer l s k = .next t ↔ ∃ lay, s.layers[l]? = some lay ∧ k lay = .next t := by
  unfold withLayer
  cases s.layers[l]? <;> simp

theorem withLayer_some (l : Nat) (s : State) (k : Layer → Res) (lay : Layer)
    (h : s.layers[l]? = some lay) : withLayer l s k = k lay := by
  unfold withLayer; rw [h]

theorem withOperands_eq_next (i : Instr) (s : State) (r : Res) (t : State) :
    withOperands i s r = .next t ↔ i.wellFormed s.cfg = true ∧ r = .next t := by
  unfold withOperands
  cases i.wellFormed s.cfg <;> simp

theorem withOperands_wellFormed (i : Instr) (s : State) (r : Res) (h : i.wellFormed s.cfg = true) :
    withOperands i s r = r := by
  unfold withOperands; rw [if_pos h]

/-- Writing the record of one layer: that record there, every other layer's as before. -/
theorem putLayer_layers (s : State) (l : Nat) (lay : Layer) (k : Nat) :
    (s.putLayer l lay).layers[k]? =
      if l = k ∧ k < s.layers.length then some lay else s.layers[k]? := by
  simp only [State.putLayer, State.setLayers_layers, List.getElem?_set]
  by_cases h : l = k
  · subst h
    by_cases h2 : l < s.layers.length
    · simp [h2]
    · simp [h2]
  · simp [h]

@[simp] theorem putLayer_length (s : State) (l : Nat) (lay : Layer) :
    (s.putLayer l lay).layers.length = s.layers.length := by
  simp [State.putLayer]

/-! ### The ring -/

/-- RB.COMMITR answers exactly when the ring holds a slot. -/
theorem ringCommitR_eq_next (s t : State) :
    ringCommitR s = .next t ↔
      s.ring.count ≠ 0 ∧
        t = s.setRing { start := (s.ring.start + 1) % s.cfg.capacity, count := s.ring.count - 1 } := by
  unfold ringCommitR
  split
  · simp [*]
  · simp only [Host.Outcome.next.injEq, ne_eq, *, not_false_eq_true, true_and]
    exact eq_comm

/-- RB.COMMITW below capacity. -/
theorem ringCommitW_of_lt (s : State) (h : s.ring.count < s.cfg.capacity) :
    ringCommitW s = s.setRing { s.ring with count := s.ring.count + 1 } := by
  unfold ringCommitW; rw [if_pos h]

/-- RB.COMMITW writes the ring and nothing else. -/
theorem ringCommitW_frame (s : State) : ∃ r, ringCommitW s = s.setRing r := by
  unfold ringCommitW; split <;> exact ⟨_, rfl⟩

/-! ### The rate reduction and the completion event -/

/-- SCH.LOWERRATE above the floor lowers the rate; at the floor it changes nothing. -/
theorem lowerRate_cases (s : State) :
    (s.cfg.minRefreshRate < s.ctl.refreshRate.toNat ∧
      lowerRate s = (s.setCtl { s.ctl with
        refreshRate := BitVec.ofNat 16
          (max s.cfg.minRefreshRate (s.ctl.refreshRate.toNat - s.cfg.rateStep)) }).raiseRateLowered) ∨
    (¬ s.cfg.minRefreshRate < s.ctl.refreshRate.toNat ∧ lowerRate s = s) := by
  unfold lowerRate; split <;> simp [*]

/-- SCH.LOWERRATE writes the refresh rate and two flags at most. -/
theorem lowerRate_frame (s : State) :
    ∃ r f, lowerRate s = (s.setCtl { s.ctl with refreshRate := r }).setFlags f ∧
      f.underrun = s.flags.underrun ∧ f.calcWake = s.flags.calcWake ∧ f.begun = s.flags.begun ∧
      f.brightnessChanged = s.flags.brightnessChanged ∧
      f.rotationChanged = s.flags.rotationChanged := by
  rcases lowerRate_cases s with ⟨-, h⟩ | ⟨-, h⟩
  · exact ⟨_, _, h, rfl, rfl, rfl, rfl, rfl⟩
  · exact ⟨s.ctl.refreshRate, s.flags, h, rfl, rfl, rfl, rfl, rfl⟩

/-- The rate after SCH.LOWERRATE: lowered by the step, not below the floor. -/
theorem lowerRate_rate (s : State) :
    (lowerRate s).ctl.refreshRate.toNat =
      if s.cfg.minRefreshRate < s.ctl.refreshRate.toNat
      then max s.cfg.minRefreshRate (s.ctl.refreshRate.toNat - s.cfg.rateStep)
      else s.ctl.refreshRate.toNat := by
  rcases lowerRate_cases s with ⟨h, e⟩ | ⟨h, e⟩ <;> rw [e]
  · rw [if_pos h]
    have := s.ctl.refreshRate.isLt
    show (BitVec.ofNat 16 _).toNat = _
    rw [BitVec.toNat_ofNat]
    exact Nat.mod_eq_of_lt (by omega)
  · rw [if_neg h]

/-- Taking a completion event while shifting: the ring holds the slot just shown, and either another
slot follows or the block starves. -/
theorem takeCompletion_shifting (s t : State) (hs : s.eng.schedState = .shifting) :
    takeCompletion s = .next t ↔
      s.ring.count ≠ 0 ∧
      t =
        (if s.ring.count = 1 then
          let m := ((s.setRing ⟨(s.ring.start + 1) % s.cfg.capacity, 0⟩).setEng
            { s.eng with timingSource := .idle, schedState := .underrun }).raiseUnderrun
          let m := if s.cfg.adaptiveRate then lowerRate m else m
          (m.setEng { m.eng with beatIndex := 0 }).raiseWake
        else
          let m := s.setRing ⟨(s.ring.start + 1) % s.cfg.capacity, s.ring.count - 1⟩
          (m.setEng { m.eng with
            curSlot := (s.ring.start + 1) % s.cfg.capacity, beatIndex := 0 }).raiseWake) := by
  unfold takeCompletion advanceSlot ringCommitR
  rw [if_pos hs]
  by_cases h0 : s.ring.count = 0
  · simp [h0]
  · by_cases h1 : s.ring.count = 1
    · simp only [h1, ringIsEmpty, if_neg, Nat.one_ne_zero, not_false_eq_true, andThen_next,
        State.setRing_ring, Nat.sub_self, decide_true, if_true, ne_eq, true_and,
        Host.Outcome.next.injEq]
      exact eq_comm
    · have h2 : ¬ s.ring.count - 1 = 0 := by omega
      simp only [h0, h1, h2, ringIsEmpty, if_neg, not_false_eq_true, andThen_next,
        State.setRing_ring, decide_false, Bool.false_eq_true, ne_eq, true_and,
        Host.Outcome.next.injEq]
      exact eq_comm

/-- Taking a completion event in any other state: the beat count returns to 0 and the producer is woken. -/
theorem takeCompletion_other (s : State) (hs : s.eng.schedState ≠ .shifting) :
    takeCompletion s = .next (s.setEng { s.eng with beatIndex := 0 }).raiseWake := by
  unfold takeCompletion; rw [if_neg hs]; rfl

end Sys2Proof.Machine
end

