-- ==== Sys2Proof/Laws/Params.lean ====
section
/-! SUPPORT. What valid parameters give, and the sizes of the linear image. -/

namespace Sys2Proof

/-- The constraints of `Config.valid`, one by one. -/
theorem Config.valid_iff (c : Config) :
    c.valid = true ↔
      (c.depth = 8 ∨ c.depth = 12 ∨ c.depth = 16) ∧
      (1 ≤ c.width ∧ c.width ≤ 1024 ∧ 1 ≤ c.height ∧ c.height ≤ 1024) ∧
      (c.panelHeight = 2 * c.rowPairOffset ∧ c.scanRows = c.rowPairOffset) ∧
      (c.height = c.stack * c.panelHeight ∧ 1 ≤ c.stack) ∧
      (1 ≤ c.capacity ∧ c.capacity ≤ 255) ∧
      (c.wordBits = 8 ∨ c.wordBits = 16 ∨ c.wordBits = 32) ∧
      (c.pins.positions.Nodup ∧ ∀ p ∈ c.pins.positions, p < c.wordBits) ∧
      (1 ≤ c.minBlockPeriod ∧ c.minBlockPeriod ≤ 65535 ∧ c.pulseWidth ≤ 65535) ∧
      1 ≤ c.msbDecrement ∧
      c.minRefreshRate ≤ c.maxRefreshRate ∧
      (1 ≤ c.rateStep ∧ 1 ≤ c.maxLoops) ∧
      (1 ≤ c.maxLayers ∧ c.maxLayers ≤ 16) ∧
      (c.minRefreshRate ≤ c.refreshRateReset.toNat ∧ c.refreshRateReset.toNat ≤ c.maxRefreshRate) := by
  simp only [Config.valid, Bool.and_eq_true, decide_eq_true_eq, List.all_eq_true, and_assoc]

variable {c : Config}

theorem Config.valid.depth_pos (h : c.valid = true) : 8 ≤ c.depth ∧ c.depth ≤ 16 := by
  have := (Config.valid_iff c).mp h; omega

theorem Config.valid.capacity (h : c.valid = true) : 1 ≤ c.capacity ∧ c.capacity ≤ 255 :=
  ((Config.valid_iff c).mp h).2.2.2.2.1

theorem Config.valid.decrement (h : c.valid = true) : 1 ≤ c.msbDecrement :=
  ((Config.valid_iff c).mp h).2.2.2.2.2.2.2.2.1

theorem Config.valid.timer (h : c.valid = true) :
    1 ≤ c.minBlockPeriod ∧ c.minBlockPeriod ≤ 65535 ∧ c.pulseWidth ≤ 65535 :=
  ((Config.valid_iff c).mp h).2.2.2.2.2.2.2.1

theorem Config.valid.rates (h : c.valid = true) : c.minRefreshRate ≤ c.maxRefreshRate :=
  ((Config.valid_iff c).mp h).2.2.2.2.2.2.2.2.2.1

theorem Config.valid.size (h : c.valid = true) :
    1 ≤ c.width ∧ c.width ≤ 1024 ∧ 1 ≤ c.height ∧ c.height ≤ 1024 :=
  ((Config.valid_iff c).mp h).2.1

theorem Config.valid.stack_pos (h : c.valid = true) : 1 ≤ c.stack :=
  ((Config.valid_iff c).mp h).2.2.2.1.2

/-- A scan modulus of at least 1, and no larger than the display. -/
theorem Config.valid.scan (h : c.valid = true) : 1 ≤ c.scanRows ∧ c.scanRows ≤ c.height := by
  obtain ⟨-, hs, hp, hh, -⟩ := (Config.valid_iff c).mp h
  have h1 : c.panelHeight ≤ c.height := by
    rw [hh.1]; exact Nat.le_mul_of_pos_left _ hh.2
  have h2 : c.panelHeight ≠ 0 := fun e => by rw [e, Nat.mul_zero] at hh; omega
  omega

/-- Twice the scan modulus is the height of one panel. -/
theorem Config.valid.panel (h : c.valid = true) : c.panelHeight = 2 * c.scanRows := by
  obtain ⟨-, -, hp, -⟩ := (Config.valid_iff c).mp h
  omega

/-- A packed word is one, two or four whole bytes. -/
theorem Config.valid.word (h : c.valid = true) :
    (c.wordBytes = 1 ∨ c.wordBytes = 2 ∨ c.wordBytes = 4) ∧ c.wordBits = 8 * c.wordBytes := by
  obtain ⟨-, -, -, -, -, hw, -⟩ := (Config.valid_iff c).mp h
  unfold Config.wordBytes
  omega

theorem Config.valid.pin (h : c.valid = true) :
    c.pins.positions.Nodup ∧ ∀ p ∈ c.pins.positions, p < c.wordBits :=
  ((Config.valid_iff c).mp h).2.2.2.2.2.2.1

/-- A plane record has room for its pair and its words. -/
theorem Config.planeBytes_ge (c : Config) : 4 + c.wordsPerPlane * c.wordBytes ≤ c.planeBytes := by
  unfold Config.planeBytes; omega

theorem Config.planeOffset_succ (c : Config) (w i : Nat) :
    c.planeOffset w (i + 1) = c.planeOffset w i + c.planeBytes := by
  unfold Config.planeOffset; rw [Nat.add_mul]; omega

theorem Config.planeOffset_mono (c : Config) (w : Nat) {i j : Nat} (h : i < j) :
    c.planeOffset w i + c.planeBytes ≤ c.planeOffset w j := by
  rw [← Config.planeOffset_succ]
  unfold Config.planeOffset
  have := Nat.mul_le_mul_right c.planeBytes (show i + 1 ≤ j from h)
  omega

theorem Config.slotOffset_succ (c : Config) (w : Nat) :
    c.slotOffset (w + 1) = c.slotOffset w + c.slotBytes := by
  unfold Config.slotOffset; rw [Nat.add_mul]; omega

theorem Config.slotOffset_mono (c : Config) {w v : Nat} (h : w < v) :
    c.slotOffset w + c.slotBytes ≤ c.slotOffset v := by
  rw [← Config.slotOffset_succ]
  exact Nat.mul_le_mul_right c.slotBytes (show w + 1 ≤ v from h)

/-- The plane records of a slot lie inside it. -/
theorem Config.planeOffset_bounds (c : Config) (w i : Nat) (h : i < c.depth) :
    c.slotOffset w + 4 ≤ c.planeOffset w i ∧
      c.planeOffset w i + c.planeBytes ≤ c.slotOffset w + c.slotBytes := by
  have h1 := Nat.mul_le_mul_right c.planeBytes (show i + 1 ≤ c.depth from h)
  rw [Nat.add_mul] at h1
  unfold Config.planeOffset Config.slotBytes
  omega

end Sys2Proof
end

