-- ==== Sys2Proof/Laws/Slots.lean ====
section
/-! SUPPORT. The laws of the linear image of the slot pool: each field reads back what was written to it, and
a write to one field leaves every other field alone. -/

namespace Sys2Proof.Machine

/-- Reading bytes outside a write. -/
theorem Memory.readLE_outside (m : Memory) (a : Nat) (bs : List Byte) (b n : Nat)
    (h : b + n ≤ a ∨ a + bs.length ≤ b) :
    Memory.readLE (Store.writeRange m a bs) b n = Memory.readLE m b n := by
  unfold Memory.readLE
  rw [Store.readRange_congr _ m b n fun i hi =>
    Store.read_writeRange_outside m a bs (b + i) (by omega)]

/-- Reading bytes inside a write: that part of the written bytes. -/
theorem Memory.readLE_inside (m : Memory) (a : Nat) (pre bs post : List Byte) :
    Memory.readLE (Store.writeRange m a (pre ++ bs ++ post)) (a + pre.length) bs.length
      = some (ofLeBytes bs) := by
  have h : Store.readRange (Store.writeRange m a (pre ++ bs ++ post)) (a + pre.length) bs.length
      = some bs := by
    refine (Store.readRange_eq_some _ _ _ _).mpr ⟨rfl, fun i hi => ?_⟩
    have h1 : pre.length + i < (pre ++ bs ++ post).length := by simp; omega
    rw [Nat.add_assoc, Store.read_writeRange_inside m a _ _ h1]
    rw [List.getElem?_eq_getElem hi]
    congr 1
    rw [List.getElem_append_left (by simp; omega), List.getElem_append_right (by omega)]
    congr 1
    omega
  unfold Memory.readLE
  rw [h]

theorem ofLeBytes_halfBytes (v : Half) : BitVec.ofNat 16 (ofLeBytes (halfBytes v)) = v := by
  rw [halfBytes, ofLeBytes_leBytes]
  apply BitVec.eq_of_toNat_eq
  have := v.isLt
  rw [BitVec.toNat_ofNat]
  omega

@[simp] theorem halfBytes_length (v : Half) : (halfBytes v).length = 2 := leBytes_length 2 _

/-- A 16-bit field reads back the value in its two bytes. -/
theorem readHalf_inside (m : Memory) (a : Nat) (pre post : List Byte) (v : Half) :
    readHalf (Store.writeRange m a (pre ++ halfBytes v ++ post)) (a + pre.length) = some v := by
  have h := Memory.readLE_inside m a pre (halfBytes v) post
  rw [halfBytes_length] at h
  unfold readHalf
  rw [h]
  simp only [ofLeBytes_halfBytes]

theorem readHalf_outside (m : Memory) (a : Nat) (bs : List Byte) (b : Nat)
    (h : b + 2 ≤ a ∨ a + bs.length ≤ b) :
    readHalf (Store.writeRange m a bs) b = readHalf m b := by
  unfold readHalf
  rw [Memory.readLE_outside m a bs b 2 h]

/-- The row address just written. -/
theorem slotRowAddress_writeRowAddress (w : Nat) (r : Half) (s : State) :
    slotRowAddress s.cfg (writeRowAddress w r s).slots w = some r := by
  have h := readHalf_inside s.slots (s.cfg.slotOffset w) [] [0, 0] r
  simpa [slotRowAddress, writeRowAddress] using h

/-- The timing pair just written. -/
theorem slotTiming_writeTiming (w i : Nat) (p : TimingPair) (s : State) :
    slotTiming s.cfg (writeTiming w i p s).slots w i = some p := by
  have h1 := readHalf_inside s.slots (s.cfg.planeOffset w i) [] (halfBytes p.onTime) p.period
  have h2 := readHalf_inside s.slots (s.cfg.planeOffset w i) (halfBytes p.period) [] p.onTime
  simp only [List.nil_append, List.append_nil, List.length_nil, Nat.add_zero, halfBytes_length] at h1 h2
  simp only [slotTiming, writeTiming, State.setSlots_slots, h1, h2]

theorem flatMap_leBytes_length (n : Nat) (ws : List Word) :
    (ws.flatMap fun v => leBytes n v.toNat).length = ws.length * n := by
  induction ws with
  | nil => simp
  | cons w ws ih =>
    simp only [List.flatMap_cons, List.length_append, leBytes_length, ih, List.length_cons]
    ring

theorem planeBytesOf_length (c : Config) (ws : List Word) (h : ws.length = c.wordsPerPlane) :
    (planeBytesOf c ws).length = c.planeBytes - 4 := by
  have := Config.planeBytes_ge c
  unfold planeBytesOf
  rw [List.length_append, flatMap_leBytes_length, List.length_replicate, h]
  omega

/-- A word of the plane block just written. -/
theorem slotWord_writePlane (w i q : Nat) (ws : List Word) (s : State) (hq : q < ws.length)
    (hw : ws[q].toNat < 256 ^ s.cfg.wordBytes) :
    slotWord s.cfg (writePlane w i ws s).slots w i q = some ws[q] := by
  have hsplit : planeBytesOf s.cfg ws
      = ((ws.take q).flatMap fun v => leBytes s.cfg.wordBytes v.toNat)
        ++ leBytes s.cfg.wordBytes ws[q].toNat
        ++ (((ws.drop (q + 1)).flatMap fun v => leBytes s.cfg.wordBytes v.toNat)
          ++ List.replicate (s.cfg.planeBytes - 4 - ws.length * s.cfg.wordBytes) 0) := by
    unfold planeBytesOf
    have e : ws.flatMap (fun v => leBytes s.cfg.wordBytes v.toNat)
        = (ws.take q ++ ws[q] :: ws.drop (q + 1)).flatMap fun v => leBytes s.cfg.wordBytes v.toNat := by
      rw [← List.drop_eq_getElem_cons hq, List.take_append_drop]
    rw [e, List.flatMap_append, List.flatMap_cons]
    simp only [List.append_assoc]
  have h := Memory.readLE_inside s.slots (s.cfg.planeOffset w i + 4)
    ((ws.take q).flatMap fun v => leBytes s.cfg.wordBytes v.toNat)
    (leBytes s.cfg.wordBytes ws[q].toNat)
    (((ws.drop (q + 1)).flatMap fun v => leBytes s.cfg.wordBytes v.toNat)
      ++ List.replicate (s.cfg.planeBytes - 4 - ws.length * s.cfg.wordBytes) 0)
  rw [← hsplit, flatMap_leBytes_length, leBytes_length, List.length_take,
    Nat.min_eq_left (by omega), ofLeBytes_leBytes, Nat.mod_eq_of_lt hw] at h
  unfold slotWord
  simp only [writePlane, State.setSlots_slots, h]
  congr 1
  apply BitVec.eq_of_toNat_eq
  rw [BitVec.toNat_ofNat]
  exact Nat.mod_eq_of_lt ws[q].isLt

/-- The plane block just written. -/
theorem slotPlane_writePlane (w i : Nat) (ws : List Word) (s : State)
    (hl : ws.length = s.cfg.wordsPerPlane)
    (hw : ∀ v ∈ ws, v.toNat < 256 ^ s.cfg.wordBytes) :
    slotPlane s.cfg (writePlane w i ws s).slots w i = some ws := by
  unfold slotPlane
  rw [collect_eq_some]
  apply List.ext_getElem
  · simp [hl]
  · intro q h1 h2
    simp only [List.length_map, List.length_range] at h1
    rw [List.getElem_map, List.getElem_range, List.getElem_map]
    exact slotWord_writePlane w i q ws s (by omega) (hw _ (List.getElem_mem _))

/-! ### What a write leaves alone -/

/-- Two images that agree on a slot's first two bytes hold the same row address there. -/
theorem slotRowAddress_congr (c : Config) (m n : Memory) (w : Nat)
    (h : ∀ k, c.slotOffset w ≤ k → k < c.slotOffset w + 2 → Store.read m k = Store.read n k) :
    slotRowAddress c m w = slotRowAddress c n w := by
  unfold slotRowAddress readHalf Memory.readLE
  rw [Store.readRange_congr m n _ 2 fun i hi => h _ (by omega) (by omega)]

/-- Two images that agree on a plane record's first four bytes hold the same timing pair there. -/
theorem slotTiming_congr (c : Config) (m n : Memory) (w i : Nat)
    (h : ∀ k, c.planeOffset w i ≤ k → k < c.planeOffset w i + 4 → Store.read m k = Store.read n k) :
    slotTiming c m w i = slotTiming c n w i := by
  unfold slotTiming readHalf Memory.readLE
  rw [Store.readRange_congr m n _ 2 fun i hi => h _ (by omega) (by omega),
    Store.readRange_congr m n (c.planeOffset w i + 2) 2 fun i hi => h _ (by omega) (by omega)]

/-- Two images that agree on a plane block hold the same words there. -/
theorem slotPlane_congr (c : Config) (m n : Memory) (w i : Nat)
    (h : ∀ k, c.planeOffset w i + 4 ≤ k → k < c.planeOffset w i + c.planeBytes →
      Store.read m k = Store.read n k) :
    slotPlane c m w i = slotPlane c n w i := by
  unfold slotPlane
  congr 1
  apply List.map_congr_left
  intro q hq
  have hq := List.mem_range.mp hq
  have hb := Config.planeBytes_ge c
  have h1 := Nat.mul_le_mul_right c.wordBytes (show q + 1 ≤ c.wordsPerPlane from hq)
  rw [Nat.add_mul, Nat.one_mul] at h1
  unfold slotWord Memory.readLE
  rw [Store.readRange_congr m n _ _ fun i hi => h _ (by omega) (by omega)]

/-- The bytes `writeRowAddress` leaves alone. -/
theorem writeRowAddress_read (w : Nat) (r : Half) (s : State) (k : Nat)
    (h : k < s.cfg.slotOffset w ∨ s.cfg.slotOffset w + 4 ≤ k) :
    Store.read (writeRowAddress w r s).slots k = Store.read s.slots k :=
  Store.read_writeRange_outside _ _ _ _ (by simpa using h)

/-- The bytes `writeTiming` leaves alone. -/
theorem writeTiming_read (w i : Nat) (p : TimingPair) (s : State) (k : Nat)
    (h : k < s.cfg.planeOffset w i ∨ s.cfg.planeOffset w i + 4 ≤ k) :
    Store.read (writeTiming w i p s).slots k = Store.read s.slots k :=
  Store.read_writeRange_outside _ _ _ _ (by simpa using h)

/-- The bytes `writePlane` leaves alone. -/
theorem writePlane_read (w i : Nat) (ws : List Word) (s : State) (k : Nat)
    (hl : ws.length = s.cfg.wordsPerPlane)
    (h : k < s.cfg.planeOffset w i + 4 ∨ s.cfg.planeOffset w i + s.cfg.planeBytes ≤ k) :
    Store.read (writePlane w i ws s).slots k = Store.read s.slots k := by
  have hb := Config.planeBytes_ge s.cfg
  exact Store.read_writeRange_outside _ _ _ _ (by rw [planeBytesOf_length _ _ hl]; omega)

/-! ### MemRead after MemWrite -/

theorem Memory.readLE_write (m : Memory) (a n v : Nat) :
    Memory.readLE (Store.writeRange m a (leBytes n v)) a n = some (v % 256 ^ n) := by
  have h := Memory.readLE_inside m a [] (leBytes n v) []
  simpa [ofLeBytes_leBytes] using h

end Sys2Proof.Machine
end

