-- ==== Sys2Proof/Laws/Encoder.lean ====
section
/-! SUPPORT. The laws of the row encoder: the bits of a data word, the words of a plane block, and what
EncodePlane writes. -/

namespace Sys2Proof.Machine

/-- Bit `n` of a sample's bit at a pin. -/
theorem pinBit_getLsbD (v : Half) (i pin n : Nat) (hn : n < 32) :
    (pinBit v i pin).getLsbD n = (decide (n = pin) && v.getLsbD i) := by
  unfold pinBit
  split
  · rename_i h
    simp only [BitVec.getLsbD_shiftLeft, BitVec.getLsbD_one, h, Bool.and_true]
    by_cases e : n = pin
    · subst e; simp [hn]
    · have : ¬ (n - pin = 0 ∧ ¬ n < pin) := by omega
      by_cases h1 : n < pin
      · simp [h1, e]
      · simp [h1, e]; omega
  · rename_i h
    simp [h]

/-- Bit `n` of a data word: the bit of the channel whose pin that is, if any (R196). -/
theorem packPair_getLsbD (p : PinMap) (u l : Rgb) (i n : Nat) (hn : n < 32) :
    (packPair p u l i).getLsbD n =
      ((decide (n = p.r0) && u.r.getLsbD i) || (decide (n = p.g0) && u.g.getLsbD i)
        || (decide (n = p.b0) && u.b.getLsbD i) || (decide (n = p.r1) && l.r.getLsbD i)
        || (decide (n = p.g1) && l.g.getLsbD i) || (decide (n = p.b1) && l.b.getLsbD i)) := by
  simp only [packPair, BitVec.getLsbD_or, pinBit_getLsbD _ _ _ _ hn]

theorem pinBit_lt (v : Half) (i pin k : Nat) (h : pin < k) : (pinBit v i pin).toNat < 2 ^ k := by
  unfold pinBit
  split
  · rw [BitVec.toNat_shiftLeft]
    refine Nat.lt_of_le_of_lt (Nat.mod_le _ _) ?_
    simp only [BitVec.toNat_ofNat, Nat.shiftLeft_eq]
    rw [show 1 % 2 ^ 32 * 2 ^ pin = 2 ^ pin by simp]
    exact Nat.pow_lt_pow_right (by omega) h
  · exact Nat.two_pow_pos k

theorem clockBit_lt (pin k : Nat) (h : pin < k) : (1#32 <<< pin).toNat < 2 ^ k := by
  have := pinBit_lt 1 0 pin k h
  simpa [pinBit] using this

/-- A data word fits `WordBits` bits. -/
theorem packPair_lt (p : PinMap) (u l : Rgb) (i k : Nat) (h : ∀ q ∈ p.positions, q < k) :
    (packPair p u l i).toNat < 2 ^ k := by
  have hp : p.r0 < k ∧ p.g0 < k ∧ p.b0 < k ∧ p.r1 < k ∧ p.g1 < k ∧ p.b1 < k := by
    refine ⟨h _ ?_, h _ ?_, h _ ?_, h _ ?_, h _ ?_, h _ ?_⟩ <;> simp [PinMap.positions]
  simp only [packPair, BitVec.toNat_or]
  refine Nat.or_lt_two_pow (Nat.or_lt_two_pow (Nat.or_lt_two_pow (Nat.or_lt_two_pow
    (Nat.or_lt_two_pow ?_ ?_) ?_) ?_) ?_) ?_ <;> apply pinBit_lt <;> omega

theorem strobed_length (c : Config) (d : Word) :
    (strobed c d).length = if c.clockDoubling then 2 else 1 := by
  unfold strobed; split <;> rfl

theorem flatMap_length_const {α β : Type} (f : α → List β) (n : Nat) (xs : List α)
    (h : ∀ x ∈ xs, (f x).length = n) : (xs.flatMap f).length = xs.length * n := by
  induction xs with
  | nil => simp
  | cons x xs ih =>
    rw [List.flatMap_cons, List.length_append, h x (by simp), ih fun y hy => h y (by simp [hy]),
      List.length_cons]
    ring

/-- Element `p * n + q` of pieces of `n` elements each is element `q` of piece `p`. -/
theorem flatMap_getElem? {α β : Type} (f : α → List β) (n : Nat) (xs : List α)
    (h : ∀ x ∈ xs, (f x).length = n) (p q : Nat) (hp : p < xs.length) (hq : q < n) :
    (xs.flatMap f)[p * n + q]? = (f xs[p])[q]? := by
  induction xs generalizing p with
  | nil => simp at hp
  | cons x xs ih =>
    have hx := h x (by simp)
    rw [List.flatMap_cons]
    cases p with
    | zero =>
      rw [Nat.zero_mul, Nat.zero_add, List.getElem?_append_left (by omega)]
      rfl
    | succ p =>
      rw [List.getElem?_append_right (by rw [hx, Nat.add_mul]; omega), hx,
        show (p + 1) * n + q - n = p * n + q by rw [Nat.add_mul]; omega]
      rw [ih (fun y hy => h y (by simp [hy])) p (by simpa using hp)]
      rfl

/-- The plane block is formed exactly when every sample of the chain is written; it has
`WordsPerPlane` words. -/
theorem planeWords_eq_some (c : Config) (work : Store Rgb) (i : Nat) (ws : List Word)
    (h : planeWords c work i = some ws) :
    ∃ ds : List Word, ds.length = c.chainLen ∧ ws = ds.flatMap (strobed c) ∧
      ∀ pos, pos < c.chainLen → dataWord c work i pos = ds[pos]? := by
  unfold planeWords at h
  split at h
  · rename_i ds hds
    cases h
    have h1 := (collect_eq_some _ _).mp hds
    have hl : ds.length = c.chainLen := by
      have := congrArg List.length h1
      simpa using this.symm
    refine ⟨ds, hl, rfl, fun pos hpos => ?_⟩
    have h2 := congrArg (fun l => l[pos]?) h1
    simp only [List.getElem?_map, List.getElem?_range hpos, Option.map_some] at h2
    rw [List.getElem?_eq_getElem (by omega)] at h2 ⊢
    simpa using h2
  · cases h

theorem planeWords_length (c : Config) (work : Store Rgb) (i : Nat) (ws : List Word)
    (h : planeWords c work i = some ws) : ws.length = c.wordsPerPlane := by
  obtain ⟨ds, hl, rfl, -⟩ := planeWords_eq_some c work i ws h
  rw [flatMap_length_const _ _ ds fun x _ => strobed_length c x, hl]
  rfl

/-- Every sample of the chain is written. -/
theorem planeWords_isSome (c : Config) (work : Store Rgb) (i : Nat)
    (h : ∀ pos, pos < c.chainLen → (dataWord c work i pos).isSome) :
    ∃ ws, planeWords c work i = some ws := by
  obtain ⟨ds, h1, -⟩ := collect_isSome ((List.range c.chainLen).map (dataWord c work i)) fun v hv => by
    obtain ⟨pos, hp, rfl⟩ := List.mem_map.mp hv
    exact h pos (List.mem_range.mp hp)
  exact ⟨_, by unfold planeWords; rw [h1]⟩

/-- With clock doubling, a word and its duplicate for each chain position (R201). -/
theorem planeWords_doubled (c : Config) (work : Store Rgb) (i : Nat) (ws : List Word)
    (h : planeWords c work i = some ws) (hc : c.clockDoubling = true) (pos : Nat)
    (hp : pos < c.chainLen) :
    ∃ d, dataWord c work i pos = some d ∧ ws[2 * pos]? = some d ∧
      ws[2 * pos + 1]? = some (d ||| 1#32 <<< c.pins.clock) := by
  obtain ⟨ds, hl, rfl, hd⟩ := planeWords_eq_some c work i ws h
  have hs : ∀ x ∈ ds, (strobed c x).length = 2 := fun x _ => by rw [strobed_length, hc]; rfl
  have e := hd pos hp
  rw [List.getElem?_eq_getElem (by omega)] at e
  have h0 := flatMap_getElem? (strobed c) 2 ds hs pos 0 (by omega) (by omega)
  have h1 := flatMap_getElem? (strobed c) 2 ds hs pos 1 (by omega) (by omega)
  rw [Nat.mul_comm] at h0 h1
  refine ⟨_, e, ?_, ?_⟩
  · rw [← Nat.add_zero (2 * pos), h0]; simp [strobed, hc]
  · rw [h1]; simp [strobed, hc]

/-- Without clock doubling, one word for each chain position (R201). -/
theorem planeWords_single (c : Config) (work : Store Rgb) (i : Nat) (ws : List Word)
    (h : planeWords c work i = some ws) (hc : c.clockDoubling = false) (pos : Nat)
    (hp : pos < c.chainLen) : ws[pos]? = dataWord c work i pos := by
  obtain ⟨ds, hl, rfl, hd⟩ := planeWords_eq_some c work i ws h
  have hs : ∀ x ∈ ds, (strobed c x).length = 1 := fun x _ => by rw [strobed_length, hc]; rfl
  have h0 := flatMap_getElem? (strobed c) 1 ds hs pos 0 (by omega) (by omega)
  rw [Nat.mul_one, Nat.add_zero] at h0
  rw [hd pos hp, h0, List.getElem?_eq_getElem (l := ds) (hl ▸ hp)]
  simp [strobed, hc]

theorem dataWord_eq_some (c : Config) (work : Store Rgb) (i pos : Nat) (d : Word)
    (h : dataWord c work i pos = some d) : ∃ u l, d = packPair c.pins u l i := by
  unfold dataWord at h
  split at h
  · cases h; exact ⟨_, _, rfl⟩
  · cases h

/-- The words of a plane block fit `WordBits` bits. -/
theorem planeWords_fit (c : Config) (hc : c.valid = true) (work : Store Rgb) (i : Nat) (ws : List Word)
    (h : planeWords c work i = some ws) : ∀ v ∈ ws, v.toNat < 256 ^ c.wordBytes := by
  obtain ⟨ds, hl, rfl, hd⟩ := planeWords_eq_some c work i ws h
  obtain ⟨-, hpin⟩ := Config.valid.pin hc
  have hb : 256 ^ c.wordBytes = 2 ^ c.wordBits := by
    rw [(Config.valid.word hc).2, Nat.pow_mul]
  intro v hv
  obtain ⟨d, hdm, hv⟩ := List.mem_flatMap.mp hv
  obtain ⟨pos, hpos, e⟩ := List.getElem_of_mem hdm
  have h1 := hd pos (by omega)
  rw [List.getElem?_eq_getElem hpos, e] at h1
  obtain ⟨u, l, rfl⟩ := dataWord_eq_some c work i pos d h1
  have h2 := packPair_lt c.pins u l i c.wordBits hpin
  have h3 := clockBit_lt c.pins.clock c.wordBits (hpin _ (by simp [PinMap.positions]))
  rw [hb]
  unfold strobed at hv
  split at hv
  · simp only [List.mem_cons, List.not_mem_nil, or_false] at hv
    rcases hv with rfl | rfl
    · exact h2
    · rw [BitVec.toNat_or]; exact Nat.or_lt_two_pow h2 h3
  · simp only [List.mem_cons, List.not_mem_nil, or_false] at hv
    subst hv; exact h2

/-- EncodePlane answers exactly when the chain's samples are written; it writes one plane block. -/
theorem encodePlane_eq_next (w i : Nat) (s t : State) :
    encodePlane w i s = .next t ↔
      ∃ ws, planeWords s.cfg s.work i = some ws ∧ t = writePlane w i ws s := by
  unfold encodePlane
  split
  · rename_i ws h
    simp only [Host.Outcome.next.injEq, h, Option.some.injEq, exists_eq_left']
    exact eq_comm
  · rename_i h
    simp [h]

/-- The encoder of the instance's depth is EncodePlane. -/
theorem encPlaneOfDepth_eq (w i : Nat) (s : State)
    (h : s.cfg.depth = 8 ∨ s.cfg.depth = 12 ∨ s.cfg.depth = 16) :
    encPlaneOfDepth w i s = encodePlane w i s := by
  unfold encPlaneOfDepth encPlane24 encPlane36 encPlane48
  rcases h with h | h | h <;> simp [h]

/-- EncodePlane writes the slot pool and nothing else. -/
theorem encodePlane_frame (w i : Nat) (s t : State) (h : encodePlane w i s = .next t) :
    ∃ m, t = s.setSlots m := by
  obtain ⟨ws, -, rfl⟩ := (encodePlane_eq_next w i s t).mp h
  exact ⟨_, rfl⟩

theorem encPlaneOfDepth_frame (w i : Nat) (s t : State) (h : encPlaneOfDepth w i s = .next t) :
    ∃ m, t = s.setSlots m := by
  unfold encPlaneOfDepth encPlane24 encPlane36 encPlane48 at h
  split at h
  · exact encodePlane_frame w i s t h
  · split at h
    · exact encodePlane_frame w i s t h
    · split at h
      · exact encodePlane_frame w i s t h
      · cases h

end Sys2Proof.Machine
end

