-- ==== Sys2Proof/Laws/Compositor.lean ====
section
/-! SUPPORT. The laws of composition: which layers a walk visits, which samples are readable, and what the
working row holds after L.FILLROW and COMP.FILLROW. -/

namespace Sys2Proof.Machine

/-! ### The chain -/

/-- A walk along `next` fields that ends visits exactly those layers, given fuel for them. -/
theorem chainFrom_of_linked (layers : List Layer) (ls : List Nat) (fuel : Nat) (at_ : Option Nat)
    (h : Linked layers at_ ls) (hf : ls.length ≤ fuel) : chainFrom layers fuel at_ = some ls := by
  induction ls generalizing fuel at_ with
  | nil =>
    have h : at_ = none := h
    subst h; cases fuel <;> rfl
  | cons l ls ih =>
    obtain ⟨rfl, lay, hl, hr⟩ := h
    cases fuel with
    | zero => simp at hf
    | succ fuel =>
      simp only [List.length_cons] at hf
      simp only [chainFrom, hl, ih fuel lay.next hr (by omega)]

/-- A walk that answers follows the `next` fields. -/
theorem linked_of_chainFrom (layers : List Layer) (ls : List Nat) (fuel : Nat) (at_ : Option Nat)
    (h : chainFrom layers fuel at_ = some ls) : Linked layers at_ ls := by
  induction fuel generalizing at_ ls with
  | zero =>
    cases at_ with
    | none => simp only [chainFrom, Option.some.injEq] at h; subst h; rfl
    | some l => simp [chainFrom] at h
  | succ fuel ih =>
    cases at_ with
    | none => simp only [chainFrom, Option.some.injEq] at h; subst h; rfl
    | some l =>
      simp only [chainFrom] at h
      split at h
      · cases h
      · rename_i lay hl
        split at h
        · rename_i rest hr
          cases h
          exact ⟨rfl, lay, hl, ih _ _ hr⟩
        · cases h

theorem linked_mem (layers : List Layer) (ls : List Nat) (at_ : Option Nat)
    (h : Linked layers at_ ls) : ∀ l ∈ ls, ∃ lay, layers[l]? = some lay := by
  induction ls generalizing at_ with
  | nil => simp
  | cons a ls ih =>
    obtain ⟨-, lay, hl, hr⟩ := h
    intro l hm
    rcases List.mem_cons.mp hm with rfl | hm
    · exact ⟨lay, hl⟩
    · exact ih _ hr l hm

/-- Numbers below a bound, each once, are no more than the bound. -/
theorem length_le_of_nodup (ls : List Nat) (n : Nat) (h : ls.Nodup) (hb : ∀ l ∈ ls, l < n) :
    ls.length ≤ n := by
  have h1 : ls.toFinset ⊆ Finset.range n := fun x hx =>
    Finset.mem_range.mpr (hb x (List.mem_toFinset.mp hx))
  have h2 := Finset.card_le_card h1
  rwa [List.toFinset_card_of_nodup h, Finset.card_range] at h2

/-- The chain of attached layers is what a walk visits. -/
theorem ChainOk.chainLayers {s : State} {ls : List Nat} (h : ChainOk s ls) :
    chainLayers s = some ls := by
  refine chainFrom_of_linked _ _ _ _ h.linked (length_le_of_nodup ls _ h.once fun l hl => ?_)
  obtain ⟨lay, hlay⟩ := linked_mem _ _ _ h.linked l hl
  exact (List.getElem?_eq_some_iff.mp hlay).1

theorem forChain_eq (s : State) (f : Nat → State → Res) (ls : List Nat)
    (h : chainLayers s = some ls) : forChain s f = forEach ls f s := by
  unfold forChain; rw [h]

theorem forChain_eq_next (s t : State) (f : Nat → State → Res) (h : forChain s f = .next t) :
    ∃ ls, chainLayers s = some ls ∧ forEach ls f s = .next t := by
  unfold forChain at h
  split at h
  · rename_i ls hls; exact ⟨ls, hls, h⟩
  · cases h

/-! ### Samples -/

theorem bufferIndex_lt (c : Config) (count b y x : Nat) (hb : b < count) (hy : y < c.height)
    (hx : x < c.width) : bufferIndex c b y x < count * bufferSize c := by
  have h1 := Nat.mul_le_mul_right c.height (show b + 1 ≤ count from hb)
  have h2 := Nat.mul_le_mul_right c.width (show b * c.height + y + 1 ≤ count * c.height by
    rw [Nat.add_mul] at h1; omega)
  have h3 : count * c.height * c.width = count * bufferSize c := by
    unfold bufferSize; ring
  rw [Nat.add_mul] at h2
  unfold bufferIndex
  omega

theorem canvasIndex_lt (c : Config) (y x : Nat) (hy : y < c.height) (hx : x < c.width) :
    canvasIndex c y x < bufferSize c := by
  have h := bufferIndex_lt c 1 0 y x (by omega) hy hx
  unfold bufferIndex at h
  unfold canvasIndex
  rwa [Nat.zero_mul, Nat.zero_add, Nat.one_mul] at h

/-- A layer whose elements are all written has a value everywhere on the display. -/
theorem sample_of_written (c : Config) (lay : Layer) (y x : Nat)
    (h : lay.content.written c lay.bufferCount) (hr : lay.refreshBuffer < lay.bufferCount)
    (hy : y < c.height) (hx : x < c.width) : sample c lay y x ≠ .unspecified := by
  have hi := bufferIndex_lt c _ _ y x hr hy hx
  cases e : lay.content with
  | background bufs =>
    rw [e] at h
    obtain ⟨v, hv⟩ := h _ hi
    simp [sample, e, hv]
  | indexed n palette bufs =>
    rw [e] at h
    obtain ⟨v, hv, hp⟩ := h _ hi
    simp only [sample, e, hv]
    split
    · simp
    · rw [List.getElem?_eq_getElem hp]; simp
  | monoGfx colour bufs =>
    rw [e] at h
    obtain ⟨v, hv⟩ := h _ hi
    cases v <;> simp [sample, e, hv]
  | scrollingText t =>
    rw [e] at h
    obtain ⟨v, hv⟩ := h _ (canvasIndex_lt c y x hy hx)
    simp only [sample, e, hv]
    split
    · simp
    · cases v <;> simp

theorem Layer.Ready.sample {c : Config} {lay : Layer} (h : lay.Ready c) (b : lay.Built) (y x : Nat)
    (hy : y < c.height) (hx : x < c.width) : sample c lay y x ≠ .unspecified :=
  sample_of_written c lay y x h.written b.refresh hy hx

/-! ### L.FILLROW -/

/-- The columns of L.FILLROW: it answers when every sample is there, paints those columns and leaves
every other sample of the working rows alone. -/
theorem fillCells_spec (c : Config) (lay : Layer) (y base : Nat) (sh : BitVec 4) (xs : List Nat)
    (work : Store Rgb) (hs : ∀ x ∈ xs, sample c lay y x ≠ .unspecified) (hn : xs.Nodup) :
    ∃ w, fillCells c lay y base sh xs work = some w ∧
      (∀ k, (∀ x ∈ xs, k ≠ base + x) → Store.read w k = Store.read work k) ∧
      (∀ x ∈ xs, ∀ v, Store.read work (base + x) = some v →
        Store.read w (base + x) = some (paint sh v (sample c lay y x))) ∧
      (Store.wf work = true → Store.wf w = true) := by
  induction xs generalizing work with
  | nil => exact ⟨work, rfl, by simp, by simp, id⟩
  | cons x xs ih =>
    obtain ⟨hx, hn⟩ := List.nodup_cons.mp hn
    have hs' : ∀ z ∈ xs, Machine.sample c lay y z ≠ .unspecified := fun z hz => hs z (by simp [hz])
    cases e : sample c lay y x with
    | unspecified => exact absurd e (hs x (by simp))
    | leave =>
      obtain ⟨w, h1, h2, h3, h4⟩ := ih work hs' hn
      refine ⟨w, by simp only [fillCells, e, h1], fun k hk => h2 k fun z hz => hk z (by simp [hz]),
        ?_, h4⟩
      intro z hz v hv
      rcases List.mem_cons.mp hz with rfl | hz
      · rw [h2 _ fun z' hz' heq => hx (by rw [show z = z' by omega]; exact hz'), hv, e]; rfl
      · exact h3 z hz v hv
    | colour u =>
      obtain ⟨w, h1, h2, h3, h4⟩ := ih (Store.write work (base + x) (shiftColour u sh)) hs' hn
      refine ⟨w, by simp only [fillCells, e, h1], ?_, ?_, fun hw => h4 (Store.wf_write _ _ _ hw)⟩
      · intro k hk
        rw [h2 k fun z hz => hk z (by simp [hz]), Store.read_write, if_neg (hk x (by simp))]
      · intro z hz v hv
        rcases List.mem_cons.mp hz with rfl | hz
        · rw [h2 _ fun z' hz' heq => hx (by rw [show z = z' by omega]; exact hz'), Store.read_write,
            if_pos rfl, e]; rfl
        · refine h3 z hz v ?_
          rw [Store.read_write, if_neg ?_]
          · exact hv
          · intro heq; exact hx (by rw [show x = z by omega]; exact hz)

theorem fillCells_wf (c : Config) (lay : Layer) (y base : Nat) (sh : BitVec 4) (xs : List Nat)
    (work w : Store Rgb) (h : fillCells c lay y base sh xs work = some w)
    (hw : Store.wf work = true) : Store.wf w = true := by
  induction xs generalizing work with
  | nil => cases h; exact hw
  | cons x xs ih =>
    simp only [fillCells] at h
    split at h
    · exact ih _ h (Store.wf_write _ _ _ hw)
    · exact ih _ h hw
    · cases h

/-- L.FILLROW writes the working rows and nothing else. -/
theorem layerFillRow_frame (l y g j : Nat) (sh : BitVec 4) (s t : State)
    (h : layerFillRow l y g j sh s = .next t) :
    ∃ w, t = s.setWork w ∧ (Store.wf s.work = true → Store.wf w = true) := by
  obtain ⟨lay, -, h⟩ := (withLayer_eq_next _ _ _ _).mp h
  split at h
  · rename_i w hw
    cases h
    exact ⟨w, rfl, fillCells_wf _ _ _ _ _ _ _ _ hw⟩
  · cases h

/-- L.FILLROW over a written working row, for a layer that has a value in every column (R233). -/
theorem layerFillRow_spec (l y g j : Nat) (sh : BitVec 4) (s : State) (lay : Layer)
    (hl : s.layers[l]? = some lay)
    (hs : ∀ x, x < s.cfg.width → sample s.cfg lay y x ≠ .unspecified) :
    ∃ w, layerFillRow l y g j sh s = .next (s.setWork w) ∧
      (∀ k, k < workIndex s.cfg g j ∨ workIndex s.cfg g j + s.cfg.width ≤ k →
        Store.read w k = Store.read s.work k) ∧
      (∀ x, x < s.cfg.width → ∀ v, Store.read s.work (workIndex s.cfg g j + x) = some v →
        Store.read w (workIndex s.cfg g j + x) = some (paint sh v (sample s.cfg lay y x))) := by
  obtain ⟨w, h1, h2, h3, -⟩ := fillCells_spec s.cfg lay y (workIndex s.cfg g j) sh
    (List.range s.cfg.width) s.work (fun x hx => hs x (List.mem_range.mp hx)) List.nodup_range
  refine ⟨w, ?_, fun k hk => h2 k fun x hx => ?_, fun x hx => h3 x (List.mem_range.mpr hx)⟩
  · rw [layerFillRow, withLayer_some _ _ _ lay hl, h1]
  · have := List.mem_range.mp hx
    omega

/-! ### COMP.FILLROW -/

/-- The layers of a chain painted one after another over a written working row. -/
theorem forEach_layerFillRow_spec (y g j : Nat) (sh : BitVec 4) (ls : List Nat) (s : State)
    (hs : ∀ l ∈ ls, rowWritten s l y) :
    ∃ w, forEach ls (fun l => layerFillRow l y g j sh) s = .next (s.setWork w) ∧
      (∀ k, k < workIndex s.cfg g j ∨ workIndex s.cfg g j + s.cfg.width ≤ k →
        Store.read w k = Store.read s.work k) ∧
      (∀ x, x < s.cfg.width → ∀ v, Store.read s.work (workIndex s.cfg g j + x) = some v →
        Store.read w (workIndex s.cfg g j + x) = some (paintAll s.cfg s.layers sh y x v ls)) ∧
      (Store.wf s.work = true → Store.wf w = true) := by
  induction ls generalizing s with
  | nil => exact ⟨s.work, rfl, fun _ _ => rfl, fun x _ v hv => hv, id⟩
  | cons l ls ih =>
    obtain ⟨lay, hl, hx⟩ := hs l (by simp)
    obtain ⟨w1, e1, o1, i1⟩ := layerFillRow_spec l y g j sh s lay hl hx
    obtain ⟨_, e1', f1⟩ := layerFillRow_frame l y g j sh s _ e1
    have hw1 : w1 = _ := congrArg State.work e1'
    obtain ⟨w2, e2, o2, i2, f2⟩ := ih (s.setWork w1) fun l' hl' => hs l' (by simp [hl'])
    refine ⟨w2, ?_, ?_, ?_, ?_⟩
    · rw [forEach_cons, e1, andThen_next, e2]; rfl
    · intro k hk
      rw [o2 k hk]; exact o1 k hk
    · intro x hx' v hv
      simp only [paintAll, hl]
      exact i2 x hx' _ (i1 x hx' v hv)
    · intro hw
      exact f2 (by rw [State.setWork_work, hw1]; exact f1 hw)

theorem clearRow_read (g j : Nat) (s : State) (k : Nat) :
    Store.read (clearRow g j s).work k =
      if workIndex s.cfg g j ≤ k ∧ k < workIndex s.cfg g j + s.cfg.width then some Rgb.black
      else Store.read s.work k := by
  unfold clearRow
  rw [State.setWork_work, Store.read_writeRange, List.length_replicate]
  split
  · rename_i h
    rw [List.getElem?_replicate, if_pos (by omega)]
  · rfl

/-- COMP.FILLROW over a chain that is written in row `y` (R243): the working row holds the composited
colours; every other working row is as before. -/
theorem chainFillRow_spec (y g j : Nat) (s : State) (ls : List Nat) (hc : chainLayers s = some ls)
    (hs : ∀ l ∈ ls, rowWritten s l y) :
    ∃ w, chainFillRow y g j s = .next (s.setWork w) ∧
      (∀ k, k < workIndex s.cfg g j ∨ workIndex s.cfg g j + s.cfg.width ≤ k →
        Store.read w k = Store.read s.work k) ∧
      (∀ x, x < s.cfg.width → Store.read w (workIndex s.cfg g j + x) =
        some (paintAll s.cfg s.layers s.chain.brightnessShifts y x Rgb.black ls)) ∧
      (Store.wf s.work = true → Store.wf w = true) := by
  obtain ⟨w, e, o, i, f⟩ := forEach_layerFillRow_spec y g j s.chain.brightnessShifts ls
    (clearRow g j s) hs
  refine ⟨w, ?_, ?_, ?_, ?_⟩
  · rw [chainFillRow, forChain_eq _ _ ls (by exact hc), e]; rfl
  · intro k hk
    rw [o k hk, clearRow_read, if_neg (by omega)]
  · intro x hx
    exact i x hx Rgb.black (by
      rw [clearRow_read, if_pos ⟨by exact Nat.le_add_right _ _, by
        exact Nat.add_lt_add_left hx _⟩])
  · intro hw
    exact f (Store.wf_writeRange _ _ _ hw)

/-- COMP.FILLROW writes the working rows and nothing else. -/
theorem chainFillRow_frame (y g j : Nat) (s t : State) (h : chainFillRow y g j s = .next t) :
    ∃ w, t = s.setWork w ∧ (Store.wf s.work = true → Store.wf w = true) := by
  obtain ⟨ls, -, h⟩ := forChain_eq_next _ _ _ h
  have h1 := forEach_preserves
    (fun a b => ∃ w, b = a.setWork w ∧ (Store.wf a.work = true → Store.wf w = true)) _
    (fun a => ⟨a.work, rfl, id⟩)
    (fun a b c => by
      rintro ⟨w, rfl, hw⟩ ⟨v, rfl, hv⟩
      exact ⟨v, rfl, fun h => hv (hw h)⟩)
    ls (fun l _ a b hab => layerFillRow_frame _ _ _ _ _ a b hab) _ _ h
  obtain ⟨w, rfl, hw⟩ := h1
  exact ⟨w, rfl, fun h => hw (Store.wf_writeRange _ _ _ h)⟩

/-- A colour on top hides what is below (R244). -/
theorem paintAll_last (c : Config) (layers : List Layer) (sh : BitVec 4) (y x : Nat) (under v : Rgb)
    (ls : List Nat) (l : Nat) (lay : Layer) (hl : layers[l]? = some lay)
    (hs : sample c lay y x = .colour v) :
    paintAll c layers sh y x under (ls ++ [l]) = shiftColour v sh := by
  induction ls generalizing under with
  | nil => simp [paintAll, hl, hs, paint]
  | cons a ls ih =>
    simp only [List.cons_append, paintAll]
    split <;> exact ih _

end Sys2Proof.Machine
end

