-- ==== Sys2Proof/Laws/Depth.lean ====
section
/-! SUPPORT. The laws of `DepthInv`: what keeps a sparse memory, a layer and the working rows within the width
of their elements (10_state.md R46, R52; log 17). -/

namespace Sys2Proof.Machine

/-! ### Sparse memories -/

section
variable {α : Type} {P : α → Prop}

theorem Store.All.nil : Store.All P [] := fun _ _ h => nomatch h

theorem Store.All.writeRange {m : Store α} (h : Store.All P m) (a : Nat) (vs : List α)
    (hv : ∀ v ∈ vs, P v) : Store.All P (Store.writeRange m a vs) := by
  intro k v e
  rw [Store.read_writeRange] at e
  split at e
  · exact hv v (List.mem_of_getElem? e)
  · exact h k v e

theorem Store.All.write {m : Store α} (h : Store.All P m) (k : Nat) (v : α) (hv : P v) :
    Store.All P (Store.write m k v) :=
  h.writeRange k [v] fun _ hu => List.mem_singleton.mp hu ▸ hv

theorem Store.All.segment (a : Nat) (vs : List α) (hv : ∀ v ∈ vs, P v) :
    Store.All P (Store.segment a vs) := by
  intro k v e
  rw [Store.read_segment] at e
  split at e
  · exact hv v (List.mem_of_getElem? e)
  · cases e

/-- The elements a range holds. -/
theorem Store.All.readRange {m : Store α} (h : Store.All P m) {a n : Nat} {vs : List α}
    (e : Store.readRange m a n = some vs) : ∀ v ∈ vs, P v := by
  obtain ⟨hl, hr⟩ := (Store.readRange_eq_some m a n vs).mp e
  intro v hv
  obtain ⟨i, hi⟩ := List.getElem?_of_mem hv
  have hlt := (List.getElem?_eq_some_iff.mp hi).1
  exact h (a + i) v ((hr i (by omega)).trans hi)

end

/-! ### Colours -/

theorem fitsDepth_black (c : Config) : FitsDepth c Rgb.black :=
  ⟨Nat.two_pow_pos _, Nat.two_pow_pos _, Nat.two_pow_pos _⟩

theorem fitsDepth_shiftColour {c : Config} {v : Rgb} (h : FitsDepth c v) (sh : BitVec 4) :
    FitsDepth c (shiftColour v sh) := by
  have key : ∀ x : Half, x.toNat < 2 ^ c.depth → (x >>> sh.toNat).toNat < 2 ^ c.depth := by
    intro x hx
    rw [BitVec.toNat_ushiftRight, Nat.shiftRight_eq_div_pow]
    exact Nat.lt_of_le_of_lt (Nat.div_le_self _ _) hx
  exact ⟨key _ h.1, key _ h.2.1, key _ h.2.2⟩

/-- A layer whose values fit contributes colours that fit. -/
theorem fitsDepth_sample {c : Config} {lay : Layer} (h : lay.content.Fits c) {y x : Nat} {v : Rgb}
    (e : sample c lay y x = .colour v) : FitsDepth c v := by
  cases ec : lay.content with
  | background bufs =>
    rw [ec] at h
    cases er : Store.read bufs (bufferIndex c lay.refreshBuffer y x) with
    | none => simp [sample, ec, er] at e
    | some u =>
      simp only [sample, ec, er, Sample.colour.injEq] at e
      exact e ▸ h _ _ er
  | indexed n palette bufs =>
    rw [ec] at h
    cases er : Store.read bufs (bufferIndex c lay.refreshBuffer y x) with
    | none => simp [sample, ec, er] at e
    | some k =>
      simp only [sample, ec, er] at e
      by_cases hk : k = 0
      · rw [if_pos hk] at e; cases e
      · rw [if_neg hk] at e
        cases ep : palette[k.toNat]? with
        | none => rw [ep] at e; cases e
        | some u =>
          rw [ep, Sample.colour.injEq] at e
          exact e ▸ h.1 u (List.mem_of_getElem? ep)
  | monoGfx colour bufs =>
    rw [ec] at h
    cases er : Store.read bufs (bufferIndex c lay.refreshBuffer y x) with
    | none => simp [sample, ec, er] at e
    | some b =>
      cases b
      · simp [sample, ec, er] at e
      · simp only [sample, ec, er, if_true, Sample.colour.injEq] at e
        exact e ▸ h
  | scrollingText t =>
    rw [ec] at h
    by_cases hm : t.mode = .off
    · simp [sample, ec, hm] at e
    · cases er : Store.read t.canvas (canvasIndex c y x) with
      | none => simp [sample, ec, er, hm] at e
      | some b =>
        cases b
        · simp [sample, ec, er, hm] at e
        · simp only [sample, ec, er, hm, if_false, if_true, Sample.colour.injEq] at e
          exact e ▸ h

/-! ### Composition -/

theorem fillCells_depth {c : Config} {lay : Layer} (h : lay.content.Fits c) {y base : Nat} {sh : BitVec 4}
    {xs : List Nat} {work w : Store Rgb} (e : fillCells c lay y base sh xs work = some w)
    (hw : Store.All (FitsDepth c) work) : Store.All (FitsDepth c) w := by
  induction xs generalizing work with
  | nil => cases e; exact hw
  | cons x xs ih =>
    cases es : sample c lay y x with
    | unspecified => simp [fillCells, es] at e
    | leave =>
      simp only [fillCells, es] at e
      exact ih e hw
    | colour v =>
      simp only [fillCells, es] at e
      exact ih e (hw.write _ _ (fitsDepth_shiftColour (fitsDepth_sample h es) sh))

theorem layerFillRow_depth {l y g j : Nat} {sh : BitVec 4} {s t : State}
    (e : layerFillRow l y g j sh s = .next t) (h : DepthInv s) : DepthInv t := by
  obtain ⟨lay, hl, e⟩ := (withLayer_eq_next _ _ _ _).mp e
  cases ef : fillCells s.cfg lay y (workIndex s.cfg g j) sh (List.range s.cfg.width) s.work with
  | none => rw [ef] at e; cases e
  | some w =>
    rw [ef] at e
    cases e
    exact ⟨h.layers, fillCells_depth (h.layers lay (List.mem_of_getElem? hl)) ef h.work⟩

/-- COMP.FILLROW puts colours of `N` bits into the working rows (R233, R243). -/
theorem chainFillRow_depth {y g j : Nat} {s t : State} (e : chainFillRow y g j s = .next t)
    (h : DepthInv s) : DepthInv t := by
  obtain ⟨ls, -, e⟩ := forChain_eq_next _ _ _ e
  refine forEach_preserves (fun a b => DepthInv a → DepthInv b) _ (fun _ => id) (fun _ _ _ f k h => k (f h))
    ls (fun l _ a b hab => layerFillRow_depth hab) _ _ e ⟨h.layers, ?_⟩
  exact h.work.writeRange _ _ fun v hv => (List.mem_replicate.mp hv).2 ▸ fitsDepth_black _

/-! ### The state -/

/-- Whatever leaves the layers and the working rows alone keeps `DepthInv`. -/
theorem DepthInv.same {s t : State} (h : DepthInv s) (hc : t.cfg = s.cfg) (hl : t.layers = s.layers)
    (hw : t.work = s.work) : DepthInv t where
  layers := by rw [hl, hc]; exact h.layers
  work := by rw [hw, hc]; exact h.work

end Sys2Proof.Machine
end

