-- ==== Sys2Proof/Laws/Layers.lean ====
section
/-! SUPPORT. What the producer's layer operations can do to a layer and to the pool: identity, place in the
chain and kind stay; a readable layer stays readable. -/

namespace Sys2Proof.Machine

/-- What every layer operation of a frame start keeps. -/
structure LayerStep (c : Config) (lay lay' : Layer) : Prop where
  count : lay'.bufferCount = lay.bufferCount
  shifts : lay'.requestedShifts = lay.requestedShifts
  attached : lay'.attached = lay.attached
  next : lay'.next = lay.next
  text : lay'.content.isText = lay.content.isText
  built : lay.Built → lay'.Built
  ready : lay.Ready c → lay'.Ready c
  fits : lay.content.Fits c → lay'.content.Fits c

theorem LayerStep.refl (c : Config) (lay : Layer) : LayerStep c lay lay :=
  ⟨rfl, rfl, rfl, rfl, rfl, id, id, id⟩

theorem LayerStep.trans {c : Config} {a b d : Layer} (h : LayerStep c a b) (k : LayerStep c b d) :
    LayerStep c a d :=
  ⟨k.count.trans h.count, k.shifts.trans h.shifts, k.attached.trans h.attached,
    k.next.trans h.next, k.text.trans h.text, fun x => k.built (h.built x),
    fun x => k.ready (h.ready x), fun x => k.fits (h.fits x)⟩

/-- Every layer of the pool is kept in that sense. -/
structure PoolStep (c : Config) (ls ls' : List Layer) : Prop where
  length : ls'.length = ls.length
  each : ∀ (l : Nat) (lay' : Layer), ls'[l]? = some lay' →
    ∃ lay, ls[l]? = some lay ∧ LayerStep c lay lay'

theorem PoolStep.refl (c : Config) (ls : List Layer) : PoolStep c ls ls :=
  ⟨rfl, fun _ lay h => ⟨lay, h, LayerStep.refl c lay⟩⟩

theorem PoolStep.trans {c : Config} {a b d : List Layer} (h : PoolStep c a b) (k : PoolStep c b d) :
    PoolStep c a d :=
  ⟨k.length.trans h.length, fun l lay' e => by
    obtain ⟨m, h1, h2⟩ := k.each l lay' e
    obtain ⟨lay, h3, h4⟩ := h.each l m h1
    exact ⟨lay, h3, h4.trans h2⟩⟩

theorem PoolStep.back {c : Config} {ls ls' : List Layer} (h : PoolStep c ls ls') (l : Nat) (lay : Layer)
    (e : ls[l]? = some lay) : ∃ lay', ls'[l]? = some lay' ∧ LayerStep c lay lay' := by
  have hl := (List.getElem?_eq_some_iff.mp e).1
  have hl' : l < ls'.length := by rw [h.length]; exact hl
  have e' : ls'[l]? = some ls'[l] := List.getElem?_eq_getElem hl'
  obtain ⟨m, h1, h2⟩ := h.each l _ e'
  rw [e] at h1
  cases h1
  exact ⟨_, e', h2⟩

/-- Writing one layer's record. -/
theorem PoolStep.put {c : Config} {s : State} {l : Nat} {lay lay' : Layer}
    (h : s.layers[l]? = some lay) (k : LayerStep c lay lay') :
    PoolStep c s.layers (s.putLayer l lay').layers := by
  refine ⟨putLayer_length s l lay', fun m x e => ?_⟩
  rw [putLayer_layers] at e
  split at e
  · rename_i hm
    cases e
    obtain ⟨rfl, -⟩ := hm
    exact ⟨lay, h, k⟩
  · exact ⟨x, e, LayerStep.refl c x⟩

theorem PoolStep.built {c : Config} {ls ls' : List Layer} (h : PoolStep c ls ls')
    (k : ∀ lay ∈ ls, lay.Built) : ∀ lay ∈ ls', lay.Built := by
  intro lay' hm
  obtain ⟨l, hl⟩ := List.getElem?_of_mem hm
  obtain ⟨lay, h1, h2⟩ := h.each l lay' hl
  exact h2.built (k lay (List.mem_of_getElem? h1))

theorem PoolStep.ready {c : Config} {ls ls' : List Layer} (h : PoolStep c ls ls')
    (k : ∀ lay ∈ ls, lay.attached = true → lay.Ready c) :
    ∀ lay ∈ ls', lay.attached = true → lay.Ready c := by
  intro lay' hm ha
  obtain ⟨l, hl⟩ := List.getElem?_of_mem hm
  obtain ⟨lay, h1, h2⟩ := h.each l lay' hl
  exact h2.ready (k lay (List.mem_of_getElem? h1) (by rw [← h2.attached]; exact ha))

/-- Such a step of the pool, with the working rows left alone, keeps `DepthInv`. -/
theorem PoolStep.depth {s t : State} (h : PoolStep s.cfg s.layers t.layers) (hc : t.cfg = s.cfg)
    (hw : t.work = s.work) (k : DepthInv s) : DepthInv t where
  layers := by
    intro lay' hm
    obtain ⟨l, hl⟩ := List.getElem?_of_mem hm
    obtain ⟨lay, h1, h2⟩ := h.each l lay' hl
    rw [hc]
    exact h2.fits (k.layers lay (List.mem_of_getElem? h1))
  work := by rw [hw, hc]; exact k.work

theorem PoolStep.linked {c : Config} {ls ls' : List Layer} (h : PoolStep c ls ls') (ns : List Nat)
    (at_ : Option Nat) (k : Linked ls at_ ns) : Linked ls' at_ ns := by
  induction ns generalizing at_ with
  | nil => exact k
  | cons l ns ih =>
    obtain ⟨rfl, lay, h1, h2⟩ := k
    obtain ⟨lay', h3, h4⟩ := h.back l lay h1
    exact ⟨rfl, lay', h3, by rw [h4.next]; exact ih _ h2⟩

theorem PoolStep.maxShifts {c : Config} {ls ls' : List Layer} (h : PoolStep c ls ls') (ns : List Nat)
    (at_ : Option Nat) (k : Linked ls at_ ns) : maxShifts ls' ns = maxShifts ls ns := by
  induction ns generalizing at_ with
  | nil => rfl
  | cons l ns ih =>
    obtain ⟨rfl, lay, h1, h2⟩ := k
    obtain ⟨lay', h3, h4⟩ := h.back l lay h1
    simp only [Machine.maxShifts, h1, h3, h4.shifts, ih _ h2]

/-- The chain stays what it is. -/
theorem ChainOk.poolStep {s t : State} {ns : List Nat} (h : ChainOk s ns) (hc : t.chain = s.chain)
    (k : PoolStep s.cfg s.layers t.layers) : ChainOk t ns where
  linked := by rw [hc]; exact k.linked ns _ h.linked
  once := h.once
  attached := fun l => by
    rw [h.attached l]
    constructor
    · rintro ⟨lay, h1, h2⟩
      obtain ⟨lay', h3, h4⟩ := k.back l lay h1
      exact ⟨lay', h3, by rw [h4.attached]; exact h2⟩
    · rintro ⟨lay', h1, h2⟩
      obtain ⟨lay, h3, h4⟩ := k.each l lay' h1
      exact ⟨lay, h3, by rw [← h4.attached]; exact h2⟩
  tail := by rw [hc]; exact h.tail
  count := by rw [hc]; exact h.count
  shifts := by rw [hc, h.shifts]; exact (k.maxShifts ns _ h.linked).symm

theorem Drawable.poolStep {s t : State} {l : Nat} (h : Drawable s l)
    (k : PoolStep s.cfg s.layers t.layers) : Drawable t l := by
  obtain ⟨lay, h1, h2, h3⟩ := h
  obtain ⟨lay', h4, h5⟩ := k.back l lay h1
  exact ⟨lay', h4, by rw [h5.attached]; exact h2, by rw [h5.text]; exact h3⟩

/-! ### Single-layer operations -/

theorem rasteriseCanvas_written (c : Config) (l : Nat) (p : Half) (rot : BitVec 2) (k : Nat)
    (h : k < bufferSize c) : ∃ v, Store.read (rasteriseCanvas c l p rot) k = some v := by
  unfold rasteriseCanvas
  rw [Store.read_segment, if_pos (Nat.zero_le k), Nat.sub_zero,
    List.getElem?_eq_getElem (by simpa using h)]
  exact ⟨_, rfl⟩

theorem rasteriseCanvas_wf (c : Config) (l : Nat) (p : Half) (rot : BitVec 2) :
    Store.wf (rasteriseCanvas c l p rot) = true := Store.wf_segment _ _

/-- The exchange of buffers (R236) keeps the indices legal and distinct. -/
theorem exchangeBuffers_step (c : Config) (lay : Layer) (b : Bool) :
    LayerStep c lay { exchangeBuffers lay with swapPending := b } := by
  unfold exchangeBuffers
  split
  · rename_i h3
    refine ⟨rfl, rfl, rfl, rfl, rfl, fun h => ?_, fun h => ⟨h.written, h.size⟩, id⟩
    obtain ⟨t1, t2, t3⟩ := h.third h3
    exact
      { count := h.count
        palette := h.palette
        memory := h.memory
        refresh := h.draw
        draw := by show lay.previousBuffer < lay.bufferCount; omega
        distinct := t3
        third := fun _ => ⟨by have := h.refresh; show lay.refreshBuffer < 3; omega,
          fun e => h.distinct e.symm, fun e => t2 e.symm⟩ }
  · rename_i h3
    exact ⟨rfl, rfl, rfl, rfl, rfl, fun h =>
      { count := h.count
        palette := h.palette
        memory := h.memory
        refresh := h.draw
        draw := h.refresh
        distinct := fun e => h.distinct e.symm
        third := fun e => absurd e h3 }, fun h => ⟨h.written, h.size⟩, id⟩

/-- Another content, with the indices as they are. -/
theorem Layer.Built.withContent {lay lay' : Layer} (h : lay.Built)
    (hc : lay'.bufferCount = lay.bufferCount) (hr : lay'.refreshBuffer = lay.refreshBuffer)
    (hd : lay'.drawBuffer = lay.drawBuffer) (hp : lay'.previousBuffer = lay.previousBuffer)
    (hpal : lay'.content.paletteFits) (hm : lay'.content.wf = true) : lay'.Built where
  count := by rw [hc]; exact h.count
  palette := hpal
  memory := hm
  refresh := by rw [hc, hr]; exact h.refresh
  draw := by rw [hc, hd]; exact h.draw
  distinct := by rw [hd, hr]; exact h.distinct
  third := by rw [hc, hp, hr, hd]; exact h.third

theorem Content.written_of_text (c : Config) (n : Nat) (t : Scroll)
    (h : ∀ k, k < bufferSize c → ∃ v, Store.read t.canvas k = some v) :
    (Content.scrollingText t).written c n := h

/-- A scrolling layer with another text record of the same colour, whose canvas is all written. -/
theorem textStep (c : Config) (lay : Layer) (t t' : Scroll) (e : lay.content = .scrollingText t)
    (hw : (∀ k, k < bufferSize c → ∃ v, Store.read t.canvas k = some v) →
      ∀ k, k < bufferSize c → ∃ v, Store.read t'.canvas k = some v)
    (hf : Store.wf t.canvas = true → Store.wf t'.canvas = true) (hv : t'.colour = t.colour) :
    LayerStep c lay { lay with content := .scrollingText t' } where
  count := rfl
  shifts := rfl
  attached := rfl
  next := rfl
  text := by rw [e]; rfl
  built := fun h => h.withContent rfl rfl rfl rfl trivial (hf (by have := h.memory; rwa [e] at this))
  ready := fun h => ⟨hw (by have := h.written; rwa [e] at this), h.size⟩
  fits := fun h => by
    rw [e] at h
    show FitsDepth c t'.colour
    rw [hv]
    exact h

theorem scrollAdvance_canvas (c : Config) (l : Nat) (rot : BitVec 2) (k : Nat) (t : Scroll) :
    (scrollAdvance c l rot k t).canvas = t.canvas ∨
      ∃ p, (scrollAdvance c l rot k t).canvas = rasteriseCanvas c l p rot := by
  unfold scrollAdvance
  split
  · exact .inl rfl
  · simp only []
    split
    · exact .inl rfl
    · exact .inr ⟨_, rfl⟩

/-- Scrolling keeps the colour. -/
theorem scrollAdvance_colour (c : Config) (l : Nat) (rot : BitVec 2) (k : Nat) (t : Scroll) :
    (scrollAdvance c l rot k t).colour = t.colour := by
  have hm : ∀ u : Scroll, (scrollMove u (k + nextFrameUses t.currentFrame)).colour = u.colour := by
    intro u
    unfold scrollMove
    cases u.mode <;> simp only [] <;> (try split) <;> rfl
  have hp : ∀ u : Scroll, (parkIfDone u).colour = u.colour := by
    intro u
    unfold parkIfDone
    split <;> rfl
  unfold scrollAdvance
  split
  · rfl
  · simp only []
    split
    · rfl
    · show (parkIfDone _).colour = _
      rw [hp, hm]

/-- L.SCROLLSTEP writes the layer's text record and the count of free values. -/
theorem scrollStep_frame (c : Config) (l : Nat) (lay : Layer) (t : Scroll) (s : State)
    (hc : s.cfg = c) (hl : s.layers[l]? = some lay) (e : lay.content = .scrollingText t) :
    ∃ ls k, scrollStep l lay t s = { s with layers := ls, freeCount := k } ∧
      PoolStep c s.layers ls := by
  refine ⟨_, _, rfl, PoolStep.put hl (textStep c lay t _ e ?_ ?_ (scrollAdvance_colour ..))⟩
  · intro h k hk
    rcases scrollAdvance_canvas s.cfg l lay.rotation s.freeCount t with h1 | ⟨p, h1⟩ <;> rw [h1]
    · exact h k hk
    · exact rasteriseCanvas_written _ _ _ _ k (hc ▸ hk)
  · intro h
    rcases scrollAdvance_canvas s.cfg l lay.rotation s.freeCount t with h1 | ⟨p, h1⟩ <;> rw [h1]
    · exact h
    · exact rasteriseCanvas_wf _ _ _ _

/-- What a layer operation of a frame start writes: the pool and the count of free values. -/
def WritesPool (s t : State) : Prop :=
  ∃ ls k, t = { s with layers := ls, freeCount := k } ∧ PoolStep s.cfg s.layers ls

theorem WritesPool.refl (s : State) : WritesPool s s :=
  ⟨s.layers, s.freeCount, rfl, PoolStep.refl _ _⟩

theorem WritesPool.trans {s m t : State} (h : WritesPool s m) (k : WritesPool m t) : WritesPool s t := by
  obtain ⟨ls, n, rfl, h⟩ := h
  obtain ⟨ls', n', rfl, k⟩ := k
  exact ⟨ls', n', rfl, h.trans k⟩

/-- L.FRAME (R235) answers for every layer of the pool. -/
theorem layerFrame_spec (l : Nat) (s : State) (h : l < s.layers.length) :
    ∃ t, layerFrame l s = .next t ∧ WritesPool s t := by
  have hl : s.layers[l]? = some s.layers[l] := List.getElem?_eq_getElem h
  unfold layerFrame
  rw [withLayer_some _ _ _ _ hl]
  cases e : s.layers[l].content with
  | scrollingText t =>
    obtain ⟨ls, k, h1, h2⟩ := scrollStep_frame s.cfg l _ t s rfl hl e
    exact ⟨_, rfl, ls, k, h1, h2⟩
  | background b =>
    simp only []
    split
    · exact ⟨_, rfl, _, s.freeCount, rfl, PoolStep.put hl (exchangeBuffers_step _ _ _)⟩
    · exact ⟨_, rfl, WritesPool.refl s⟩
  | indexed n p b =>
    simp only []
    split
    · exact ⟨_, rfl, _, s.freeCount, rfl, PoolStep.put hl (exchangeBuffers_step _ _ _)⟩
    · exact ⟨_, rfl, WritesPool.refl s⟩
  | monoGfx v b =>
    simp only []
    split
    · exact ⟨_, rfl, _, s.freeCount, rfl, PoolStep.put hl (exchangeBuffers_step _ _ _)⟩
    · exact ⟨_, rfl, WritesPool.refl s⟩

theorem rotateContent_step (c : Config) (l : Nat) (rot : BitVec 2) (x : Content) (n : Nat) :
    ((rotateContent c l rot x).isText = x.isText) ∧
      (x.paletteFits → (rotateContent c l rot x).paletteFits) ∧
      (x.wf = true → (rotateContent c l rot x).wf = true) ∧
      (x.written c n → (rotateContent c l rot x).written c n) ∧
      (x.Fits c → (rotateContent c l rot x).Fits c) := by
  cases x with
  | scrollingText t =>
    exact ⟨rfl, id, fun _ => rasteriseCanvas_wf _ _ _ _, fun _ k hk => rasteriseCanvas_written _ _ _ _ k hk, id⟩
  | _ => exact ⟨rfl, id, id, id, id⟩

/-- L.SETROT (R237) answers for every layer of the pool. -/
theorem layerSetRot_spec (l : Nat) (rot : BitVec 2) (s : State) (h : l < s.layers.length) :
    ∃ t, layerSetRot l rot s = .next t ∧ WritesPool s t := by
  have hl : s.layers[l]? = some s.layers[l] := List.getElem?_eq_getElem h
  unfold layerSetRot
  rw [withLayer_some _ _ _ _ hl]
  refine ⟨_, rfl, _, s.freeCount, rfl, PoolStep.put hl ?_⟩
  obtain ⟨h1, h2, h3, h4, h5⟩ := rotateContent_step s.cfg l rot s.layers[l].content
    s.layers[l].bufferCount
  exact
    { count := rfl
      shifts := rfl
      attached := rfl
      next := rfl
      text := h1
      built := fun b => b.withContent rfl rfl rfl rfl (h2 b.palette) (h3 b.memory)
      ready := fun r => ⟨h4 r.written, rfl⟩
      fits := h5 }

theorem rateContent_step (c : Config) (rate : Half) (k : Nat) (x : Content) (n : Nat) :
    ((rateContent rate k x).isText = x.isText) ∧
      (x.paletteFits → (rateContent rate k x).paletteFits) ∧
      (x.wf = true → (rateContent rate k x).wf = true) ∧
      (x.written c n → (rateContent rate k x).written c n) ∧
      (x.Fits c → (rateContent rate k x).Fits c) := by
  cases x <;> exact ⟨rfl, id, id, id, id⟩

/-- L.SETRATE (R238) answers for every layer of the pool. -/
theorem layerSetRate_spec (l : Nat) (rate : Half) (s : State) (h : l < s.layers.length) :
    ∃ t, layerSetRate l rate s = .next t ∧ WritesPool s t := by
  have hl : s.layers[l]? = some s.layers[l] := List.getElem?_eq_getElem h
  unfold layerSetRate
  rw [withLayer_some _ _ _ _ hl]
  refine ⟨_, rfl, _, _, rfl, PoolStep.put hl ?_⟩
  obtain ⟨h1, h2, h3, h4, h5⟩ := rateContent_step s.cfg rate s.freeCount s.layers[l].content
    s.layers[l].bufferCount
  exact
    { count := rfl
      shifts := rfl
      attached := rfl
      next := rfl
      text := h1
      built := fun b => b.withContent rfl rfl rfl rfl (h2 b.palette) (h3 b.memory)
      ready := fun r => ⟨h4 r.written, r.size⟩
      fits := h5 }

/-! ### The chain operations -/

/-- An operation that answers for every layer of the pool and writes the pool only answers for a chain. -/
theorem forChain_writesPool (f : Nat → State → Res) (s : State) (ls : List Nat) (h : ChainOk s ls)
    (hf : ∀ l t, l < t.layers.length → ∃ u, f l t = .next u ∧ WritesPool t u) :
    ∃ t, forChain s f = .next t ∧ WritesPool s t := by
  rw [forChain_eq s f ls h.chainLayers]
  have hm : ∀ l ∈ ls, l < s.layers.length := fun l hl => by
    obtain ⟨lay, hlay⟩ := linked_mem _ _ _ h.linked l hl
    exact (List.getElem?_eq_some_iff.mp hlay).1
  refine forEach_completes (fun t => WritesPool s t) f ls (fun l hl t ht => ?_) s (WritesPool.refl s)
  obtain ⟨ls', n, e, hp⟩ := ht
  obtain ⟨u, h1, h2⟩ := hf l t (by rw [e]; show l < ls'.length; rw [hp.length]; exact hm l hl)
  exact ⟨u, h1, WritesPool.trans ⟨ls', n, e, hp⟩ h2⟩

theorem chainSetRot_spec (rot : BitVec 2) (s : State) (ls : List Nat) (h : ChainOk s ls) :
    ∃ t, chainSetRot rot s = .next t ∧ WritesPool s t :=
  forChain_writesPool _ s ls h fun l t hl => layerSetRot_spec l rot t hl

theorem chainSetRate_spec (rate : Half) (s : State) (ls : List Nat) (h : ChainOk s ls) :
    ∃ t, chainSetRate rate s = .next t ∧ WritesPool s t :=
  forChain_writesPool _ s ls h fun l t hl => layerSetRate_spec l rate t hl

theorem chainFrame_spec (s : State) (ls : List Nat) (h : ChainOk s ls) :
    ∃ t, chainFrame s = .next t ∧ WritesPool s t :=
  forChain_writesPool _ s ls h fun l t hl => layerFrame_spec l t hl

/-! ### L.BEGIN -/

theorem clearedBuffers_read {α : Type} (c : Config) (count : Nat) (v : α) (k : Nat)
    (h : k < count * bufferSize c) : Store.read (clearedBuffers c count v) k = some v := by
  unfold clearedBuffers
  rw [Store.read_segment, if_pos (Nat.zero_le k), Nat.sub_zero, List.getElem?_replicate, if_pos h]

theorem clearedBuffers_wf {α : Type} (c : Config) (count : Nat) (v : α) :
    Store.wf (clearedBuffers c count v) = true := Store.wf_segment _ _

theorem beginContent_written (c : Config) (l n : Nat) (rate : Half) (rot : BitVec 2) (k : Nat)
    (x : Content) (hp : x.paletteFits) : (beginContent c l n rate rot k x).written c n := by
  cases x with
  | background b => exact fun k hk => ⟨_, clearedBuffers_read c n _ k hk⟩
  | indexed m p b =>
    intro k hk
    refine ⟨0, clearedBuffers_read c n _ k hk, ?_⟩
    rw [hp.2]
    exact Nat.two_pow_pos m
  | monoGfx v b => exact fun k hk => ⟨_, clearedBuffers_read c n _ k hk⟩
  | scrollingText t => exact fun k hk => rasteriseCanvas_written _ _ _ _ k hk

theorem beginContent_wf (c : Config) (l n : Nat) (rate : Half) (rot : BitVec 2) (k : Nat)
    (x : Content) : (beginContent c l n rate rot k x).wf = true := by
  cases x with
  | background b => exact clearedBuffers_wf _ _ _
  | indexed m p b => exact clearedBuffers_wf _ _ _
  | monoGfx v b => exact clearedBuffers_wf _ _ _
  | scrollingText t => exact rasteriseCanvas_wf _ _ _ _

theorem beginLayer_text (s : State) (l : Nat) (lay : Layer) :
    (beginLayer s l lay).content.isText = lay.content.isText := by
  show (beginContent _ _ _ _ _ _ _).isText = _
  cases lay.content <;> rfl

theorem beginContent_palette (c : Config) (l n : Nat) (rate : Half) (rot : BitVec 2) (k : Nat)
    (x : Content) (hp : x.paletteFits) : (beginContent c l n rate rot k x).paletteFits := by
  cases x with
  | indexed m p b => exact hp
  | _ => trivial

theorem clearedBuffers_all {α : Type} {P : α → Prop} (c : Config) (count : Nat) (v : α) (h : P v) :
    Store.All P (clearedBuffers c count v) :=
  Store.All.segment _ _ fun _ hu => (List.mem_replicate.mp hu).2 ▸ h

/-- L.BEGIN clears to values that fit and keeps the palette and the colour. -/
theorem beginContent_fits (c : Config) (l n : Nat) (rate : Half) (rot : BitVec 2) (k : Nat)
    (x : Content) (h : x.Fits c) : (beginContent c l n rate rot k x).Fits c := by
  cases x with
  | background b => exact clearedBuffers_all c n _ (fitsDepth_black c)
  | indexed m p b => exact ⟨h.1, clearedBuffers_all c n _ (Nat.two_pow_pos m)⟩
  | monoGfx v b => exact h
  | scrollingText t => exact h

/-- A layer of the pool keeps its kind and palette through L.BEGIN and is well built after it. -/
theorem beginLayer_built (s : State) (l : Nat) (lay : Layer) (h : lay.Built) :
    (beginLayer s l lay).Built := by
  have hc := h.count
  have hp : (beginLayer s l lay).content.paletteFits := beginContent_palette _ _ _ _ _ _ _ h.palette
  have hm : (beginLayer s l lay).content.wf = true := beginContent_wf _ _ _ _ _ _ _
  cases e : lay.content.isText with
  | true =>
    refine h.withContent rfl ?_ ?_ ?_ hp hm <;> simp [beginLayer, e]
  | false =>
    refine ⟨hc, hp, hm, ?_, ?_, ?_, ?_⟩ <;> simp only [beginLayer, e] <;> simp
    · omega
    · omega
    · intro h3; simp [h3]

/-- A layer is readable after L.BEGIN, whatever it was before. -/
theorem beginLayer_ready (s : State) (l : Nat) (lay : Layer) (h : lay.Built) :
    (beginLayer s l lay).Ready s.cfg :=
  ⟨beginContent_written _ _ _ _ _ _ _ h.palette, rfl⟩

end Sys2Proof.Machine
end

