-- ==== Sys2Proof/Laws/Timing.lean ====
section
/-! SUPPORT. The laws of the timing table's search and of its entries. -/

namespace Sys2Proof.Machine

theorem planePeriod_eq_max (c : Config) (m i : Nat) :
    planePeriod c m i = max (planeBase c m i + c.pulseWidth) c.minBlockPeriod := by
  unfold planePeriod; simp only []; omega

theorem planeBase_mono_width (c : Config) (i : Nat) {m n : Nat} (h : m ≤ n) :
    planeBase c m i ≤ planeBase c n i := Nat.div_le_div_right h

theorem planeBase_mono_plane (c : Config) (m : Nat) {i j : Nat} (h : i ≤ j) :
    planeBase c m i ≤ planeBase c m j :=
  Nat.div_le_div_left (Nat.pow_le_pow_right (by omega) (by omega)) (Nat.two_pow_pos _)

theorem planeBase_le (c : Config) (m i : Nat) : planeBase c m i ≤ m := Nat.div_le_self _ _

theorem planePeriod_mono_width (c : Config) (i : Nat) {m n : Nat} (h : m ≤ n) :
    planePeriod c m i ≤ planePeriod c n i := by
  have := planeBase_mono_width c i h
  rw [planePeriod_eq_max, planePeriod_eq_max]; omega

theorem planePeriod_mono_plane (c : Config) (m : Nat) {i j : Nat} (h : i ≤ j) :
    planePeriod c m i ≤ planePeriod c m j := by
  have := planeBase_mono_plane c m h
  rw [planePeriod_eq_max, planePeriod_eq_max]; omega

theorem planeOnTime_le_planePeriod (c : Config) (b m i : Nat) (hb : b ≤ 255) :
    planeOnTime c b m i ≤ planePeriod c m i := by
  have h : planeBase c m i * b / 255 ≤ planeBase c m i := by
    apply Nat.div_le_of_le_mul
    rw [Nat.mul_comm 255]
    exact Nat.mul_le_mul_left _ hb
  unfold planeOnTime planePeriod
  simp only []
  omega

theorem planeOnTime_full (c : Config) (m i : Nat) : planeOnTime c 255 m i = planePeriod c m i := by
  unfold planeOnTime planePeriod
  simp only [Nat.mul_div_cancel _ (show 0 < 255 by decide)]

theorem planeOnTime_dark (c : Config) (m i : Nat) :
    planeOnTime c 0 m i = c.pulseWidth + (c.minBlockPeriod - (planeBase c m i + c.pulseWidth)) := by
  unfold planeOnTime
  simp

theorem sum_map_le (f g : Nat → Nat) (xs : List Nat) (h : ∀ x ∈ xs, f x ≤ g x) :
    (xs.map f).sum ≤ (xs.map g).sum := by
  induction xs with
  | nil => simp
  | cons x xs ih =>
    have h1 := h x (by simp)
    have h2 := ih fun y hy => h y (by simp [hy])
    simp only [List.map_cons, List.sum_cons]; omega

/-- "The sum of periods does not grow when `m` shrinks" (R176). -/
theorem periodSum_mono (c : Config) {m n : Nat} (h : m ≤ n) : periodSum c m ≤ periodSum c n :=
  sum_map_le _ _ _ fun i _ => planePeriod_mono_width c i h

/-- At width 0 every period is the floor (R176). -/
theorem periodSum_zero (c : Config) : periodSum c 0 = c.depth * c.floorPeriod := by
  have h : ∀ i, planePeriod c 0 i = c.floorPeriod := fun i => by
    rw [planePeriod_eq_max, planeBase, Nat.zero_div, Config.floorPeriod]; omega
  unfold periodSum
  rw [List.map_congr_left fun i _ => h i]
  simp

/-- The search stops at the first trial whose periods fit. -/
theorem searchWidth_eq_some (c : Config) (t fuel start m : Nat)
    (h : searchWidth c t fuel start = some m) :
    ∃ k, m = start - k * c.msbDecrement ∧ periodSum c m ≤ t ∧
      ∀ j, j < k → t < periodSum c (start - j * c.msbDecrement) := by
  induction fuel generalizing start with
  | zero => simp [searchWidth] at h
  | succ fuel ih =>
    simp only [searchWidth] at h
    split at h
    · rename_i hle
      cases h
      exact ⟨0, by simp, hle, by omega⟩
    · rename_i hgt
      split at h
      · cases h
      · obtain ⟨k, hm, hk, hj⟩ := ih _ h
        refine ⟨k + 1, ?_, hk, ?_⟩
        · rw [hm, Nat.add_mul]; omega
        · intro j hjk
          cases j with
          | zero => simpa using Nat.lt_of_not_le hgt
          | succ j =>
            have := hj j (by omega)
            rw [Nat.add_mul]
            rwa [show start - (j * c.msbDecrement + 1 * c.msbDecrement)
              = start - c.msbDecrement - j * c.msbDecrement by omega]

/-- The search finds a width when the floor itself fits and there is fuel for every trial. -/
theorem searchWidth_isSome (c : Config) (t fuel start : Nat) (hd : 1 ≤ c.msbDecrement)
    (hfit : c.depth * c.floorPeriod ≤ t) (hf : start < fuel) :
    ∃ m, searchWidth c t fuel start = some m := by
  induction fuel generalizing start with
  | zero => omega
  | succ fuel ih =>
    simp only [searchWidth]
    split
    · exact ⟨_, rfl⟩
    · rename_i hgt
      split
      · rename_i h0
        rw [h0, periodSum_zero] at hgt
        exact absurd hfit hgt
      · exact ih _ (by omega)

/-- The width TT.CALC settles at: the first trial that fits. -/
theorem settledWidth_spec (c : Config) (t m : Nat) (h : settledWidth c t = some m) :
    ∃ k, m = t / 2 - k * c.msbDecrement ∧ periodSum c m ≤ t ∧
      ∀ j, j < k → t < periodSum c (t / 2 - j * c.msbDecrement) :=
  searchWidth_eq_some c t _ _ m h

theorem settledWidth_le (c : Config) (t m : Nat) (h : settledWidth c t = some m) : m ≤ t / 2 := by
  obtain ⟨k, hm, -, -⟩ := settledWidth_spec c t m h
  omega

theorem settledWidth_fits (c : Config) (t m : Nat) (h : settledWidth c t = some m) :
    periodSum c m ≤ t := by
  obtain ⟨k, -, hm, -⟩ := settledWidth_spec c t m h
  exact hm

/-- A width is found exactly when the shortest periods fit the budget (R176). -/
theorem settledWidth_isSome_iff (c : Config) (t : Nat) (hd : 1 ≤ c.msbDecrement) :
    (∃ m, settledWidth c t = some m) ↔ c.depth * c.floorPeriod ≤ t := by
  constructor
  · rintro ⟨m, hm⟩
    have h1 := settledWidth_fits c t m hm
    have h2 := periodSum_mono c (Nat.zero_le m)
    rw [periodSum_zero] at h2
    omega
  · intro h
    exact searchWidth_isSome c t _ _ hd h (by omega)

/-- TT.CALC writes the table, and counts the free values it used, if a width is found. -/
theorem calcTiming_eq_next (s t : State) :
    calcTiming s = .next t ↔
      ∃ m, settledWidth s.cfg (s.cfg.ticksPerRow s.ctl.refreshRate.toNat) = some m ∧
        t = (s.setTT (Store.writeRange s.tt 0
          ((List.range s.cfg.depth).map
            (tableEntry s.cfg s.freeCount s.ctl.brightness.toNat m)))).setFreeCount
          (if periodsFit s.cfg m then s.freeCount else s.freeCount + 2 * s.cfg.depth) := by
  unfold calcTiming
  split
  · simp [*]
  · rename_i m h
    simp only [Host.Outcome.next.injEq, h, Option.some.injEq, exists_eq_left']
    exact eq_comm

/-- TT.CALC writes the timing table and the count of free values, nothing else. -/
theorem calcTiming_frame (s t : State) (h : calcTiming s = .next t) :
    ∃ tt k, t = (s.setTT tt).setFreeCount k := by
  obtain ⟨m, -, rfl⟩ := (calcTiming_eq_next s t).mp h
  exact ⟨_, _, rfl⟩

/-- A value that 16 bits hold is stored as it is. -/
theorem narrow16_toNat (k v : Nat) (h : v < 65536) : (narrow16 k v).toNat = v := by
  rw [narrow16, if_pos h, BitVec.toNat_ofNat]
  exact Nat.mod_eq_of_lt h

/-- Entry `i` of the table TT.CALC writes. -/
theorem calcTiming_read (s : State) (m i : Nat) (hi : i < s.cfg.depth) :
    Store.read (Store.writeRange s.tt 0
      ((List.range s.cfg.depth).map (tableEntry s.cfg s.freeCount s.ctl.brightness.toNat m))) i =
      some (tableEntry s.cfg s.freeCount s.ctl.brightness.toNat m i) := by
  have h := Store.read_writeRange_inside s.tt 0
    ((List.range s.cfg.depth).map (tableEntry s.cfg s.freeCount s.ctl.brightness.toNat m)) i
    (by simpa using hi)
  simpa using h

/-! ### The supported rates (R15) -/

/-- The low edge of R15: the ideal MSB period fits the timer exactly from `minRefreshRate` on. -/
theorem minRefreshRate_le_iff (c : Config) (hp : c.pulseWidth ≤ 65535) (hr : 1 ≤ c.scanRows) (r : Nat)
    (h1 : 1 ≤ r) : c.minRefreshRate ≤ r ↔ c.ticksPerRow r / 2 + c.pulseWidth ≤ 65535 := by
  unfold Config.minRefreshRate Config.ticksPerRow
  have hk : 0 < (2 * (65535 - c.pulseWidth) + 2) * c.scanRows := by positivity
  have hrr : 0 < r * c.scanRows := by positivity
  have e1 : c.tickRate / ((2 * (65535 - c.pulseWidth) + 2) * c.scanRows) + 1 ≤ r ↔
      c.tickRate < r * ((2 * (65535 - c.pulseWidth) + 2) * c.scanRows) := by
    rw [Nat.succ_le_iff, Nat.div_lt_iff_lt_mul hk]
  have e2 : c.tickRate / (r * c.scanRows) < 2 * (65535 - c.pulseWidth) + 2 ↔
      c.tickRate < (2 * (65535 - c.pulseWidth) + 2) * (r * c.scanRows) :=
    Nat.div_lt_iff_lt_mul hrr
  rw [e1, show r * ((2 * (65535 - c.pulseWidth) + 2) * c.scanRows)
    = (2 * (65535 - c.pulseWidth) + 2) * (r * c.scanRows) by ring, ← e2]
  omega

/-- The high edge of R15: the shortest periods fit a row exactly up to `maxRefreshRate`. -/
theorem le_maxRefreshRate_iff (c : Config) (hd : 1 ≤ c.depth) (hb : 1 ≤ c.minBlockPeriod)
    (hr : 1 ≤ c.scanRows) (r : Nat) (h1 : 1 ≤ r) :
    r ≤ c.maxRefreshRate ↔ c.depth * c.floorPeriod ≤ c.ticksPerRow r := by
  unfold Config.maxRefreshRate Config.ticksPerRow
  have hf : 1 ≤ c.floorPeriod := by unfold Config.floorPeriod; omega
  have hk : 0 < c.depth * c.floorPeriod * c.scanRows := by positivity
  have hrr : 0 < r * c.scanRows := by positivity
  rw [Nat.le_div_iff_mul_le hk, Nat.le_div_iff_mul_le hrr]
  rw [show r * (c.depth * c.floorPeriod * c.scanRows) = c.depth * c.floorPeriod * (r * c.scanRows) by ring]

theorem one_le_minRefreshRate (c : Config) : 1 ≤ c.minRefreshRate := by
  unfold Config.minRefreshRate; exact Nat.le_add_left 1 _

end Sys2Proof.Machine
end

