-- ==== Sys2Proof/Laws/Calculation.lean ====
section
/-! SUPPORT. What the parts of CALC.STEP do: the frame start, the composition of a hardware row, the filling
of a slot, the commit; and CALC.STEP as a whole. -/

namespace Sys2Proof.Machine

/-! ### Sequences over a range -/

theorem forEach_append {α : Type} (xs ys : List α) (f : α → State → Res) (s : State) :
    forEach (xs ++ ys) f s = andThen (forEach xs f s) (forEach ys f) := by
  induction xs generalizing s with
  | nil => rfl
  | cons x xs ih =>
    rw [List.cons_append, forEach_cons, forEach_cons]
    cases f x s with
    | next m => simp [ih]
    | fault e => rfl
    | refused e => rfl

/-- A sequence over `0 .. n-1` whose operation number `i` takes condition `P i` to `P (i + 1)`. -/
theorem forEach_range {f : Nat → State → Res} (P : Nat → State → Prop) (n : Nat) (s : State)
    (h0 : P 0 s) (each : ∀ i, i < n → ∀ t, P i t → ∃ u, f i t = .next u ∧ P (i + 1) u) :
    ∃ t, forEach (List.range n) f s = .next t ∧ P n t := by
  induction n with
  | zero => exact ⟨s, rfl, h0⟩
  | succ n ih =>
    obtain ⟨t, h1, h2⟩ := ih fun i hi => each i (by omega)
    obtain ⟨u, h3, h4⟩ := each n (by omega) t h2
    exact ⟨u, by rw [List.range_succ, forEach_append, h1, andThen_next, forEach_cons, h3]; rfl, h4⟩

/-! ### TT.CALC in the supported range -/

/-- The entries of the table for a supported rate fit 16 bits and are as R50 demands. -/
theorem tableEntry_ok (c : Config) (hv : c.valid = true) (k b m i rate : Nat) (hb : b ≤ 255)
    (hr : c.minRefreshRate ≤ rate) (hm : settledWidth c (c.ticksPerRow rate) = some m) :
    (tableEntry c k b m i).period.toNat = planePeriod c m i ∧
      (tableEntry c k b m i).onTime.toNat = planeOnTime c b m i ∧
      pairOk c (tableEntry c k b m i) := by
  obtain ⟨t1, t2, t3⟩ := Config.valid.timer hv
  have h1 := settledWidth_le c _ m hm
  have h2 := (minRefreshRate_le_iff c t3 (Config.valid.scan hv).1 rate
    (Nat.le_trans (one_le_minRefreshRate c) hr)).mp hr
  have h3 := planeBase_le c m i
  have hp : planePeriod c m i < 65536 := by
    rw [planePeriod_eq_max]
    omega
  have ho := planeOnTime_le_planePeriod c b m i hb
  have e1 : (tableEntry c k b m i).period.toNat = planePeriod c m i := narrow16_toNat _ _ hp
  have e2 : (tableEntry c k b m i).onTime.toNat = planeOnTime c b m i :=
    narrow16_toNat _ _ (by omega)
  refine ⟨e1, e2, ?_, ?_⟩
  · rw [e1, e2]; exact ho
  · rw [e1, planePeriod_eq_max]; exact Nat.le_max_right _ _

/-- For a supported rate TT.CALC answers (R176), with every pair as R50 demands. -/
theorem calcTiming_spec (s : State) (hv : s.cfg.valid = true)
    (h1 : s.cfg.minRefreshRate ≤ s.ctl.refreshRate.toNat)
    (h2 : s.ctl.refreshRate.toNat ≤ s.cfg.maxRefreshRate) :
    ∃ tt k, calcTiming s = .next { s with tt := tt, freeCount := k } ∧ tableReady s.cfg tt ∧
      (Store.wf s.tt = true → Store.wf tt = true) := by
  have hd := Config.valid.depth_pos hv
  have hpos : 1 ≤ s.ctl.refreshRate.toNat := Nat.le_trans (one_le_minRefreshRate _) h1
  have hfit := (le_maxRefreshRate_iff s.cfg (by omega) (Config.valid.timer hv).1
    (Config.valid.scan hv).1 _ hpos).mp h2
  obtain ⟨m, hm⟩ := (settledWidth_isSome_iff s.cfg _ (Config.valid.decrement hv)).mpr hfit
  refine ⟨_, _, (calcTiming_eq_next s _).mpr ⟨m, hm, rfl⟩, fun i hi => ?_,
    fun h => Store.wf_writeRange _ _ _ h⟩
  refine ⟨_, calcTiming_read s m i hi, ?_⟩
  exact (tableEntry_ok s.cfg hv _ _ m i _ (by have := s.ctl.brightness.isLt; omega) h1 hm).2.2

/-! ### The frame start -/

/-- What a frame start writes, and what it keeps (R301, R302). -/
structure FrameStep (s t : State) : Prop where
  same : ∃ fl ls tt k, t = { s with flags := fl, layers := ls, tt := tt, freeCount := k }
  pool : PoolStep s.cfg s.layers t.layers
  underrun : t.flags.underrun = s.flags.underrun
  lowered : t.flags.rateLowered = s.flags.rateLowered
  wake : t.flags.calcWake = s.flags.calcWake
  begun : t.flags.begun = s.flags.begun
  brightness : t.flags.brightnessChanged = false
  rate : t.flags.refreshRateChanged = false
  rotation : t.flags.rotationChanged = false
  table : (tableReady s.cfg s.tt ∨ s.flags.brightnessChanged = true ∨
    s.flags.refreshRateChanged = true) → tableReady s.cfg t.tt
  ttWf : Store.wf s.tt = true → Store.wf t.tt = true

/-- A frame start propagates the rotation and the rate and calls the frame callbacks, then looks at the timing
table (R302); before that it writes the layers and clears `rotationChanged` only. -/
theorem frameStart_eq_refreshTiming (s : State) (ls : List Nat) (hc : ChainOk s ls) :
    ∃ l k, frameStart s = refreshTiming
        { s with flags := { s.flags with rotationChanged := false }, layers := l, freeCount := k } ∧
      PoolStep s.cfg s.layers l := by
  -- rotation
  have hrot : ∃ t, propagateRotation s = .next t ∧ ∃ l1 k1,
      t = { s with flags := { s.flags with rotationChanged := false }, layers := l1, freeCount := k1 } ∧
        PoolStep s.cfg s.layers l1 := by
    unfold propagateRotation
    split
    · obtain ⟨t, e, l1, k1, rfl, hp⟩ := chainSetRot_spec s.ctl.rotation s ls hc
      exact ⟨_, by rw [e, andThen_next]; rfl, l1, k1, rfl, hp⟩
    · rename_i h
      refine ⟨s, rfl, s.layers, s.freeCount, ?_, PoolStep.refl _ _⟩
      have : s.flags.rotationChanged = false := by simpa using h
      rw [← this]
  obtain ⟨s1, e1, l1, k1, rfl, p1⟩ := hrot
  have hc1 : ChainOk { s with flags := { s.flags with rotationChanged := false }, layers := l1, freeCount := k1 } ls :=
    hc.poolStep rfl p1
  -- rate
  have hrate : ∀ u : State, ChainOk u ls → ∃ t, propagateRate u = .next t ∧ WritesPool u t := by
    intro u hu
    unfold propagateRate
    split
    · exact chainSetRate_spec _ u ls hu
    · exact ⟨u, rfl, WritesPool.refl u⟩
  obtain ⟨s2, e2, l2, k2, rfl, p2⟩ := hrate _ hc1
  have hc2 := hc1.poolStep (t := { ({ s with flags := { s.flags with rotationChanged := false }, layers := l1, freeCount := k1 } : State) with layers := l2, freeCount := k2 }) rfl p2
  obtain ⟨s3, e3, l3, k3, rfl, p3⟩ := chainFrame_spec _ ls hc2
  refine ⟨l3, k3, ?_, (p1.trans p2).trans p3⟩
  unfold frameStart
  rw [e1, andThen_next, e2, andThen_next, e3, andThen_next]

theorem frameStart_spec (s : State) (hv : s.cfg.valid = true)
    (h1 : s.cfg.minRefreshRate ≤ s.ctl.refreshRate.toNat)
    (h2 : s.ctl.refreshRate.toNat ≤ s.cfg.maxRefreshRate) (ls : List Nat) (hc : ChainOk s ls) :
    ∃ t, frameStart s = .next t ∧ FrameStep s t := by
  obtain ⟨l3, k3, hstart, pp⟩ := frameStart_eq_refreshTiming s ls hc
  obtain ⟨tt, k4, e4, ht, hw⟩ := calcTiming_spec
    { s with flags := { s.flags with rotationChanged := false }, layers := l3, freeCount := k3 } hv h1 h2
  by_cases hf : (s.flags.brightnessChanged || s.flags.refreshRateChanged) = true
  · refine ⟨_, by rw [hstart]; unfold refreshTiming; rw [if_pos hf, e4, andThen_next], ?_⟩
    exact
      { same := ⟨_, _, _, _, rfl⟩
        pool := pp
        underrun := rfl
        lowered := rfl
        wake := rfl
        begun := rfl
        brightness := rfl
        rate := rfl
        rotation := rfl
        table := fun _ => ht
        ttWf := hw }
  · refine ⟨_, by rw [hstart]; unfold refreshTiming; rw [if_neg hf], ?_⟩
    simp only [Bool.or_eq_true, not_or, Bool.not_eq_true] at hf
    exact
      { same := ⟨_, _, _, _, rfl⟩
        pool := pp
        underrun := rfl
        lowered := rfl
        wake := rfl
        begun := rfl
        brightness := hf.1
        rate := hf.2
        rotation := rfl
        table := fun h => by
          rcases h with h | h | h
          · exact h
          · rw [hf.1] at h; cases h
          · rw [hf.2] at h; cases h
        ttWf := id }

/-! ### The composition of a hardware row -/

/-- The display rows of a hardware row exist (R193). -/
theorem displayRow_lt (c : Config) (hv : c.valid = true) (r g j : Nat) (hr : r < c.scanRows)
    (hg : g < c.stack) (hj : j < 2) : c.displayRow r g j < c.height := by
  obtain ⟨-, -, hp, hh, -⟩ := (Config.valid_iff c).mp hv
  have hj' : j = 0 ∨ j = 1 := by omega
  have hprow : r + j * c.rowPairOffset < c.panelHeight := by
    rcases hj' with rfl | rfl <;> omega
  have key : ∀ k prow, k < c.stack → prow < c.panelHeight → k * c.panelHeight + prow < c.height := by
    intro k prow hk hpr
    have := Nat.mul_le_mul_right c.panelHeight (show k + 1 ≤ c.stack from hk)
    rw [Nat.add_mul, ← hh.1] at this
    omega
  unfold Config.displayRow
  simp only []
  apply key
  · split <;> omega
  · split <;> omega

/-- The working rows are apart from each other. -/
theorem workIndex_disjoint (c : Config) (g j g' j' x : Nat) (hj : j < 2) (hj' : j' < 2)
    (hne : (g, j) ≠ (g', j')) (hx : x < c.width) :
    workIndex c g j + x < workIndex c g' j' ∨ workIndex c g' j' + c.width ≤ workIndex c g j + x := by
  have hk : 2 * g + j ≠ 2 * g' + j' := by
    intro h
    apply hne
    rw [Prod.mk.injEq]
    omega
  unfold workIndex
  rcases Nat.lt_or_gt_of_ne hk with h | h
  · left
    have := Nat.mul_le_mul_right c.width (show 2 * g + j + 1 ≤ 2 * g' + j' from h)
    rw [Nat.add_mul] at this
    omega
  · right
    have := Nat.mul_le_mul_right c.width (show 2 * g' + j' + 1 ≤ 2 * g + j from h)
    rw [Nat.add_mul] at this
    omega

theorem mem_workRows (c : Config) (g j : Nat) : (g, j) ∈ workRows c ↔ g < c.stack ∧ j < 2 := by
  unfold workRows
  simp only [List.mem_flatMap, List.mem_range, List.mem_cons, Prod.mk.injEq, List.not_mem_nil, or_false]
  constructor
  · rintro ⟨a, ha, ⟨rfl, rfl⟩ | ⟨rfl, rfl⟩⟩ <;> omega
  · rintro ⟨hg, hj⟩
    exact ⟨g, hg, by omega⟩

theorem nodup_workRows (c : Config) : (workRows c).Nodup := by
  unfold workRows
  rw [List.nodup_flatMap]
  refine ⟨fun g _ => by simp, ?_⟩
  refine List.Pairwise.imp ?_ (List.nodup_range (n := c.stack))
  intro a b hab
  simp only [Function.onFun, List.disjoint_left, List.mem_cons, List.not_mem_nil, or_false]
  rintro ⟨x, y⟩ h1 h2
  simp only [Prod.mk.injEq] at h1 h2
  omega

/-- The working rows in a list of them, each composited from its display row. -/
theorem composeRows_spec (r : Nat) (rows : List (Nat × Nat)) (ls : List Nat) (s : State)
    (hc : chainLayers s = some ls) (hn : rows.Nodup) (hj : ∀ gj ∈ rows, gj.2 < 2)
    (hs : ∀ gj ∈ rows, ∀ l ∈ ls, rowWritten s l (s.cfg.displayRow r gj.1 gj.2)) :
    ∃ w, forEach rows (fun gj => chainFillRow (s.cfg.displayRow r gj.1 gj.2) gj.1 gj.2) s
        = .next (s.setWork w) ∧
      (∀ gj ∈ rows, ∀ x, x < s.cfg.width → Store.read w (workIndex s.cfg gj.1 gj.2 + x) =
        some (paintAll s.cfg s.layers s.chain.brightnessShifts (s.cfg.displayRow r gj.1 gj.2) x
          Rgb.black ls)) ∧
      (∀ gj : Nat × Nat, gj.2 < 2 → gj ∉ rows → ∀ x, x < s.cfg.width →
        Store.read w (workIndex s.cfg gj.1 gj.2 + x)
          = Store.read s.work (workIndex s.cfg gj.1 gj.2 + x)) ∧
      (Store.wf s.work = true → Store.wf w = true) := by
  induction rows generalizing s with
  | nil => exact ⟨s.work, rfl, by simp, fun _ _ _ _ _ => rfl, id⟩
  | cons gj rows ih =>
    obtain ⟨hnot, hn⟩ := List.nodup_cons.mp hn
    obtain ⟨w1, e1, o1, i1, f1⟩ := chainFillRow_spec (s.cfg.displayRow r gj.1 gj.2) gj.1 gj.2 s ls hc
      (hs gj (by simp))
    obtain ⟨w2, e2, i2, o2, f2⟩ := ih (s.setWork w1) hc hn (fun x hx => hj x (by simp [hx]))
      (fun x hx => hs x (by simp [hx]))
    refine ⟨w2, ?_, ?_, ?_, fun h => f2 (f1 h)⟩
    · rw [forEach_cons, e1, andThen_next]; exact e2
    · intro gj' hm x hx
      rcases List.mem_cons.mp hm with rfl | hm
      · have := o2 gj' (hj gj' (by simp)) hnot x hx
        rw [show s.cfg = (s.setWork w1).cfg from rfl, this]
        exact i1 x hx
      · exact i2 gj' hm x hx
    · intro gj' h2 hm x hx
      have h3 : gj' ≠ gj := fun e => hm (by simp [e])
      have := o2 gj' h2 (fun e => hm (by simp [e])) x hx
      rw [show s.cfg = (s.setWork w1).cfg from rfl, this]
      exact o1 _ (workIndex_disjoint s.cfg gj'.1 gj'.2 gj.1 gj.2 x h2 (hj gj (by simp)) h3 hx)

/-- The composition of hardware row `r` (R303): every working row holds its display row. -/
theorem composeRow_spec (r : Nat) (ls : List Nat) (s : State) (hv : s.cfg.valid = true)
    (hr : r < s.cfg.scanRows) (hc : ChainWritten s ls) :
    ∃ w, composeRow r s = .next (s.setWork w) ∧
      (∀ g j x, g < s.cfg.stack → j < 2 → x < s.cfg.width →
        Store.read w (workIndex s.cfg g j + x) =
          some (paintAll s.cfg s.layers s.chain.brightnessShifts (s.cfg.displayRow r g j) x
            Rgb.black ls)) ∧
      (Store.wf s.work = true → Store.wf w = true) := by
  obtain ⟨w, e, i, -, f⟩ := composeRows_spec r (workRows s.cfg) ls s hc.1 (nodup_workRows _)
    (fun gj h => ((mem_workRows s.cfg gj.1 gj.2).mp h).2)
    (fun gj h l hl => by
      obtain ⟨hg, hj⟩ := (mem_workRows s.cfg gj.1 gj.2).mp h
      exact hc.2 l hl _ (displayRow_lt s.cfg hv r _ _ hr hg hj))
  exact ⟨w, e, fun g j x hg hj hx => i (g, j) ((mem_workRows _ _ _).mpr ⟨hg, hj⟩) x hx, f⟩

/-- The composition keeps the working rows within `N` bits a channel. -/
theorem composeRow_depth {r : Nat} {s t : State} (e : composeRow r s = .next t) (h : DepthInv s) :
    DepthInv t :=
  forEach_preserves (fun a b => DepthInv a → DepthInv b) _ (fun _ => id) (fun _ _ _ f k h => k (f h))
    _ (fun _ _ _ _ hab => chainFillRow_depth hab) _ _ e h

/-- Composited working rows are read by the encoder at every chain position. -/
theorem dataWord_isSome (c : Config) (work : Store Rgb) (i : Nat) (hw : 1 ≤ c.width)
    (h : ∀ g j x, g < c.stack → j < 2 → x < c.width →
      (Store.read work (workIndex c g j + x)).isSome) (pos : Nat) (hp : pos < c.chainLen) :
    (dataWord c work i pos).isSome := by
  have hg : pos / c.width < c.stack := by
    rw [Nat.div_lt_iff_lt_mul hw, Nat.mul_comm]; exact hp
  have hx : columnOf c pos < c.width := by
    have := Nat.mod_lt pos hw
    unfold columnOf
    split <;> omega
  obtain ⟨u, hu⟩ := Option.isSome_iff_exists.mp (h _ 0 _ hg (by omega) hx)
  obtain ⟨l, hl⟩ := Option.isSome_iff_exists.mp (h _ 1 _ hg (by omega) hx)
  simp [dataWord, hu, hl]

/-! ### The filling of a slot -/

/-- Bit-plane `i` of a slot, from a written table entry and written working rows (R304). -/
theorem fillPlane_eq (w i : Nat) (s : State) (p : TimingPair) (ws : List Word) (hv : s.cfg.valid = true)
    (hp : Store.read s.tt i = some p) (hws : planeWords s.cfg s.work i = some ws) :
    fillPlane w i s = .next (writePlane w i ws (writeTiming w i p s)) := by
  unfold fillPlane
  rw [hp]
  simp only []
  rw [encPlaneOfDepth_eq _ _ _ (by exact ((Config.valid_iff s.cfg).mp hv).1)]
  exact (encodePlane_eq_next w i _ _).mpr ⟨ws, hws, rfl⟩

/-- Filling slot `w` for row `r` (R304): the slot holds the row; every byte outside it is as before. -/
theorem fillSlot_spec (w r : Nat) (s : State) (hv : s.cfg.valid = true)
    (ht : ∀ i, i < s.cfg.depth → (Store.read s.tt i).isSome)
    (hw : ∀ i, i < s.cfg.depth → ∃ ws, planeWords s.cfg s.work i = some ws) :
    ∃ m, fillSlot w r s = .next (s.setSlots m) ∧
      SlotFilled s.cfg s.tt s.work m w r s.cfg.depth ∧
      (∀ k, k < s.cfg.slotOffset w ∨ s.cfg.slotOffset w + s.cfg.slotBytes ≤ k →
        Store.read m k = Store.read s.slots k) ∧
      (Memory.wf s.slots = true → Memory.wf m = true) := by
  let P : Nat → State → Prop := fun n t => ∃ m, t = s.setSlots m ∧
    SlotFilled s.cfg s.tt s.work m w r n ∧
    (∀ k, k < s.cfg.slotOffset w ∨ s.cfg.slotOffset w + s.cfg.slotBytes ≤ k →
      Store.read m k = Store.read s.slots k) ∧
    (Memory.wf s.slots = true → Memory.wf m = true)
  have h0 : P 0 (writeRowAddress w (BitVec.ofNat 16 r) s) := by
    refine ⟨_, rfl, ⟨slotRowAddress_writeRowAddress w _ s, by omega, by omega⟩, ?_,
      fun h => Store.wf_writeRange _ _ _ h⟩
    intro k hk
    have hsb : 4 ≤ s.cfg.slotBytes := by unfold Config.slotBytes; omega
    exact writeRowAddress_read w _ s k (by omega)
  have hstep : ∀ i, i < s.cfg.depth → ∀ t, P i t → ∃ u, fillPlane w i t = .next u ∧ P (i + 1) u := by
    rintro i hi t ⟨m, rfl, hf, ho, hwf⟩
    obtain ⟨p, hp⟩ := Option.isSome_iff_exists.mp (ht i hi)
    obtain ⟨ws, hws⟩ := hw i hi
    have hl := planeWords_length _ _ _ _ hws
    have hfit := planeWords_fit _ hv _ _ _ hws
    obtain ⟨hb1, hb2⟩ := Config.planeOffset_bounds s.cfg w i hi
    have hpb := Config.planeBytes_ge s.cfg
    set t1 : State := writeTiming w i p (s.setSlots m) with ht1
    have hu : fillPlane w i (s.setSlots m) = .next (writePlane w i ws t1) :=
      fillPlane_eq w i (s.setSlots m) p ws hv hp hws
    have r1 : ∀ k, k < s.cfg.planeOffset w i ∨ s.cfg.planeOffset w i + s.cfg.planeBytes ≤ k →
        Store.read (writePlane w i ws t1).slots k = Store.read m k := by
      intro k hk
      rw [writePlane_read w i ws t1 k hl (by
        show k < s.cfg.planeOffset w i + 4 ∨ s.cfg.planeOffset w i + s.cfg.planeBytes ≤ k
        omega)]
      exact writeTiming_read w i p (s.setSlots m) k (by
        show k < s.cfg.planeOffset w i ∨ s.cfg.planeOffset w i + 4 ≤ k
        omega)
    refine ⟨_, hu, (writePlane w i ws t1).slots, rfl, ⟨?_, ?_, ?_⟩, ?_, ?_⟩
    · rw [← hf.address]
      exact slotRowAddress_congr _ _ _ _ fun k h1 h2 => r1 k (by omega)
    · intro j hj
      by_cases hji : j = i
      · subst hji
        rw [hp, ← slotTiming_writeTiming w j p (s.setSlots m)]
        exact slotTiming_congr _ _ _ _ _ fun k h1 h2 =>
          writePlane_read w j ws t1 k hl (.inl h2)
      · rw [← hf.timing j (by omega)]
        have hm := Config.planeOffset_mono s.cfg w (show j < i by omega)
        exact slotTiming_congr _ _ _ _ _ fun k h1 h2 => r1 k (by omega)
    · intro j hj
      by_cases hji : j = i
      · subst hji
        rw [hws]
        exact slotPlane_writePlane w j ws t1 hl hfit
      · rw [← hf.plane j (by omega)]
        have hm := Config.planeOffset_mono s.cfg w (show j < i by omega)
        exact slotPlane_congr _ _ _ _ _ fun k h1 h2 => r1 k (by omega)
    · intro k hk
      rw [r1 k (by omega), ho k hk]
    · intro h
      exact Store.wf_writeRange _ _ _ (Store.wf_writeRange _ _ _ (hwf h))
  obtain ⟨t, e, m, rfl, h1, h2, h3⟩ := forEach_range P s.cfg.depth _ h0 hstep
  refine ⟨m, ?_, h1, h2, h3⟩
  unfold fillSlot
  exact e

/-- A slot filled from a good table is ready. -/
theorem SlotFilled.ready {c : Config} {tt : Store TimingPair} {work : Store Rgb} {m : Memory}
    {w r : Nat} (h : SlotFilled c tt work m w r c.depth) (ht : tableReady c tt)
    (hw : ∀ i, i < c.depth → ∃ ws, planeWords c work i = some ws) : SlotReady c m w r where
  address := h.address
  timing := fun i hi => by
    obtain ⟨p, h1, h2⟩ := ht i hi
    exact ⟨p, by rw [h.timing i hi, h1], h2⟩
  plane := fun i hi => by
    obtain ⟨ws, h1⟩ := hw i hi
    exact ⟨ws, by rw [h.plane i hi, h1]⟩

/-- A ready slot stays ready where its bytes stay. -/
theorem SlotReady.congr {c : Config} {m n : Memory} {w r : Nat} (h : SlotReady c m w r)
    (hk : ∀ k, c.slotOffset w ≤ k → k < c.slotOffset w + c.slotBytes →
      Store.read n k = Store.read m k) : SlotReady c n w r where
  address := by
    rw [← h.address]
    exact slotRowAddress_congr _ _ _ _ fun k h1 h2 => hk k h1 (by
      have : 4 ≤ c.slotBytes := by unfold Config.slotBytes; omega
      omega)
  timing := fun i hi => by
    obtain ⟨p, h1, h2⟩ := h.timing i hi
    obtain ⟨hb1, hb2⟩ := Config.planeOffset_bounds c w i hi
    have hpb := Config.planeBytes_ge c
    refine ⟨p, ?_, h2⟩
    rw [← h1]
    exact slotTiming_congr _ _ _ _ _ fun k h1 h2 => hk k (by omega) (by omega)
  plane := fun i hi => by
    obtain ⟨ws, h1⟩ := h.plane i hi
    obtain ⟨hb1, hb2⟩ := Config.planeOffset_bounds c w i hi
    refine ⟨ws, ?_⟩
    rw [← h1]
    exact slotPlane_congr _ _ _ _ _ fun k h1 h2 => hk k (by omega) (by omega)

/-! ### CALC.STEP -/

/-- What CALC.STEP does (R301 to R306). -/
structure CalcStep (s t : State) : Prop where
  cfg : t.cfg = s.cfg
  ctl : t.ctl = s.ctl
  chain : t.chain = s.chain
  host : t.host = s.host
  out : t.out = s.out
  env : t.env = s.env
  returned : t.returned = s.returned
  ring : t.ring = { s.ring with count := s.ring.count + 1 }
  prod : t.prod = { s.prod with rowIndex := (s.prod.rowIndex + 1) % s.cfg.scanRows }
  eng : t.eng = if s.eng.schedState = .underrun then
      { schedState := .shifting, timingSource := .slot, curSlot := s.ring.start, beatIndex := 0 }
    else s.eng
  underrun : t.flags.underrun = s.flags.underrun
  lowered : t.flags.rateLowered = s.flags.rateLowered
  wake : t.flags.calcWake = s.flags.calcWake
  begun : t.flags.begun = s.flags.begun
  pool : PoolStep s.cfg s.layers t.layers
  table : tableReady s.cfg t.tt
  frame : ∃ m, frameEntered s = .next m ∧ t.flags = m.flags ∧ t.layers = m.layers ∧ t.tt = m.tt ∧
    t.freeCount = m.freeCount
  rows : ∃ ls, chainLayers s = some ls ∧ ∀ g j x, g < s.cfg.stack → j < 2 → x < s.cfg.width →
    Store.read t.work (workIndex s.cfg g j + x) =
      some (paintAll s.cfg t.layers s.chain.brightnessShifts (s.cfg.displayRow s.prod.rowIndex g j) x
        Rgb.black ls)
  filled : SlotFilled s.cfg t.tt t.work t.slots ((s.ring.start + s.ring.count) % s.cfg.capacity)
    s.prod.rowIndex s.cfg.depth
  slot : SlotReady s.cfg t.slots ((s.ring.start + s.ring.count) % s.cfg.capacity) s.prod.rowIndex
  others : ∀ k,
    (k < s.cfg.slotOffset ((s.ring.start + s.ring.count) % s.cfg.capacity) ∨
      s.cfg.slotOffset ((s.ring.start + s.ring.count) % s.cfg.capacity) + s.cfg.slotBytes ≤ k) →
    Store.read t.slots k = Store.read s.slots k
  ttWf : Store.wf s.tt = true → Store.wf t.tt = true
  slotsWf : Memory.wf s.slots = true → Memory.wf t.slots = true
  workWf : Store.wf s.work = true → Store.wf t.work = true
  depth : DepthInv s → DepthInv t

/-- A chain of attached, readable layers is written in every row. -/
theorem ChainOk.written {s : State} {ls : List Nat} (h : ChainOk s ls)
    (hb : ∀ lay ∈ s.layers, lay.Built)
    (hr : ∀ lay ∈ s.layers, lay.attached = true → lay.Ready s.cfg) : ChainWritten s ls := by
  refine ⟨h.chainLayers, fun l hl y hy => ?_⟩
  obtain ⟨lay, h1, h2⟩ := (h.attached l).mp hl
  have hm := List.mem_of_getElem? h1
  exact ⟨lay, h1, fun x hx => (hr lay hm h2).sample (hb lay hm) y x hy hx⟩

/-- CALC.STEP answers from every state that is ready for it, with a free slot (R301). -/
theorem calcRow_spec (s : State) (h : CalcReady s) (hfree : s.ring.count < s.cfg.capacity) :
    ∃ t, calcRow s = .next t ∧ CalcStep s t := by
  obtain ⟨ls, hc⟩ := h.chain
  -- the frame start
  have hfs : ∃ t, frameEntered s = .next t ∧
      (∃ fl l1 tt k, t = { s with flags := fl, layers := l1, tt := tt, freeCount := k }) ∧
      PoolStep s.cfg s.layers t.layers ∧ tableReady s.cfg t.tt ∧
      t.flags.underrun = s.flags.underrun ∧ t.flags.rateLowered = s.flags.rateLowered ∧
      t.flags.calcWake = s.flags.calcWake ∧ t.flags.begun = s.flags.begun ∧
      (Store.wf s.tt = true → Store.wf t.tt = true) := by
    unfold frameEntered
    split
    · obtain ⟨t, e, f⟩ := frameStart_spec s h.valid h.minRate h.maxRate ls hc
      refine ⟨t, e, f.same, f.pool, f.table ?_, f.underrun, f.lowered, f.wake, f.begun, f.ttWf⟩
      rcases h.table with ht | ⟨-, ht⟩
      · exact .inl ht
      · exact .inr ht
    · rename_i h0
      refine ⟨s, rfl, ⟨s.flags, s.layers, s.tt, s.freeCount, rfl⟩, PoolStep.refl _ _, ?_,
        rfl, rfl, rfl, rfl, id⟩
      rcases h.table with ht | ⟨hz, -⟩
      · exact ht
      · exact absurd hz h0
  obtain ⟨s1, e1, ⟨fl, l1, tt, k1, rfl⟩, hp, ht, f1, f2, f3, f4, hw1⟩ := hfs
  -- the composition
  have hc1 : ChainOk { s with flags := fl, layers := l1, tt := tt, freeCount := k1 } ls :=
    hc.poolStep rfl hp
  have hcw := hc1.written (hp.built h.built) (hp.ready h.ready)
  obtain ⟨w, e2, hrows, hw2⟩ := composeRow_spec s.prod.rowIndex ls
    { s with flags := fl, layers := l1, tt := tt, freeCount := k1 } h.valid h.row hcw
  have hdepth : DepthInv s → DepthInv { s with layers := l1, work := w } := fun hd =>
    (composeRow_depth e2 (hp.depth rfl rfl hd)).same rfl rfl rfl
  have hsome : ∀ i, i < s.cfg.depth → ∃ ws, planeWords s.cfg w i = some ws := fun i _ =>
    planeWords_isSome _ _ _ fun pos hpos =>
      dataWord_isSome s.cfg w i (Config.valid.size h.valid).1
        (fun g j x hg hj hx => by rw [hrows g j x hg hj hx]; rfl) pos hpos
  -- the slot
  obtain ⟨m, e3, hf, ho, hw3⟩ := fillSlot_spec ((s.ring.start + s.ring.count) % s.cfg.capacity)
    s.prod.rowIndex { s with flags := fl, layers := l1, tt := tt, freeCount := k1, work := w } h.valid
    (fun i hi => by obtain ⟨p, hp, -⟩ := ht i hi; rw [hp]; rfl) hsome
  have hcommit : ringCommitW { s with flags := fl, layers := l1, tt := tt, freeCount := k1, work := w, slots := m }
      = { s with flags := fl, layers := l1, tt := tt, freeCount := k1, work := w, slots := m,
                 ring := { s.ring with count := s.ring.count + 1 } } :=
    ringCommitW_of_lt _ hfree
  have hcalc : calcRow s = .next (commitRow s.prod.rowIndex
      { s with flags := fl, layers := l1, tt := tt, freeCount := k1, work := w, slots := m }) := by
    have e1' : (if s.prod.rowIndex = 0 then frameStart s else .next s) = _ := e1
    unfold calcRow
    rw [e1', andThen_next]
    show andThen (composeRow s.prod.rowIndex _) _ = _
    rw [e2, andThen_next]
    show andThen (fillSlot ((s.ring.start + s.ring.count) % s.cfg.capacity) s.prod.rowIndex
      { s with flags := fl, layers := l1, tt := tt, freeCount := k1, work := w }) _ = _
    rw [e3, andThen_next]
    rfl
  refine ⟨_, hcalc, ?_⟩
  unfold commitRow
  simp only [hcommit]
  by_cases hu : s.eng.schedState = .underrun
  · rw [if_pos hu]
    exact
      { cfg := rfl, ctl := rfl, chain := rfl, host := rfl, out := rfl, env := rfl, returned := rfl,
        ring := rfl, prod := rfl
        eng := by rw [if_pos hu]; rfl
        underrun := f1, lowered := f2, wake := f3, begun := f4, pool := hp, table := ht
        frame := ⟨_, e1, rfl, rfl, rfl, rfl⟩
        rows := ⟨ls, hc.chainLayers, hrows⟩
        filled := hf
        slot := hf.ready ht hsome
        others := ho, ttWf := hw1, slotsWf := hw3, workWf := hw2
        depth := fun hd => (hdepth hd).same rfl rfl rfl }
  · rw [if_neg hu]
    exact
      { cfg := rfl, ctl := rfl, chain := rfl, host := rfl, out := rfl, env := rfl, returned := rfl,
        ring := rfl, prod := rfl
        eng := by rw [if_neg hu]; rfl
        underrun := f1, lowered := f2, wake := f3, begun := f4, pool := hp, table := ht
        frame := ⟨_, e1, rfl, rfl, rfl, rfl⟩
        rows := ⟨ls, hc.chainLayers, hrows⟩
        filled := hf
        slot := hf.ready ht hsome
        others := ho, ttWf := hw1, slotsWf := hw3, workWf := hw2
        depth := fun hd => (hdepth hd).same rfl rfl rfl }

end Sys2Proof.Machine
end

