-- ==== Sys2Proof/Laws/Chain.lean ====
section
/-! SUPPORT. An operation performed for every layer of a chain changes each of them once (43_compositor.md
R221, R240 to R242). -/

namespace Sys2Proof.Machine

theorem EachLayer.nil (R : Nat → Layer → Layer → Prop) (old : List Layer) : EachLayer R [] old old :=
  ⟨rfl, fun _ _ h => absurd h (List.not_mem_nil), fun _ _ => rfl⟩

/-- One layer more, one that the others leave alone. -/
theorem EachLayer.cons {R : Nat → Layer → Layer → Prop} {l : Nat} {ls : List Nat} {old new : List Layer}
    {a b : Layer} (hl : l ∉ ls) (ha : old[l]? = some a) (hr : R l a b)
    (h : EachLayer R ls (old.set l b) new) : EachLayer R (l :: ls) old new := by
  have hlt : l < old.length := (List.getElem?_eq_some_iff.mp ha).1
  obtain ⟨h1, h2, h3⟩ := h
  refine ⟨by rw [h1, List.length_set], fun m x hm hx => ?_, fun m hm => ?_⟩
  · by_cases e : m = l
    · subst e
      rw [ha] at hx
      cases hx
      exact ⟨b, by rw [h3 _ hl, List.getElem?_set_self hlt], hr⟩
    · have hm' : m ∈ ls := (List.mem_cons.mp hm).resolve_left e
      exact h2 m x hm' (by rw [List.getElem?_set_ne (fun h => e h.symm)]; exact hx)
  · have hne : m ≠ l := fun e => hm (e ▸ List.mem_cons_self)
    rw [h3 m fun hx => hm (List.mem_cons_of_mem _ hx), List.getElem?_set_ne (fun h => hne h.symm)]

/-- Where the operation takes any layer's record `a` to some `b` with `R l a b` and changes nothing else but
the count of free values, the whole walk does so for every layer of it. -/
theorem forEach_eachLayer (c : Config) (R : Nat → Layer → Layer → Prop) (f : Nat → State → Res)
    (hf : ∀ (l : Nat) (s : State) (a : Layer), s.cfg = c → s.layers[l]? = some a →
      ∃ b k, f l s = .next { s with layers := s.layers.set l b, freeCount := k } ∧ R l a b)
    (ls : List Nat) (s : State) (hs : s.cfg = c) (hd : ls.Nodup)
    (hin : ∀ l ∈ ls, ∃ a, s.layers[l]? = some a) :
    ∃ new k, forEach ls f s = .next { s with layers := new, freeCount := k } ∧
      EachLayer R ls s.layers new := by
  induction ls generalizing s with
  | nil => exact ⟨s.layers, s.freeCount, rfl, EachLayer.nil R _⟩
  | cons l ls ih =>
    obtain ⟨hl, hd⟩ := List.nodup_cons.mp hd
    obtain ⟨a, ha⟩ := hin l List.mem_cons_self
    obtain ⟨b, k, e, hr⟩ := hf l s a hs ha
    obtain ⟨new, k', e', h⟩ := ih { s with layers := s.layers.set l b, freeCount := k } hs hd
      (fun m hm => by
        obtain ⟨x, hx⟩ := hin m (List.mem_cons_of_mem _ hm)
        have hne : m ≠ l := fun e => hl (e ▸ hm)
        exact ⟨x, by
          show (s.layers.set l b)[m]? = some x
          rw [List.getElem?_set_ne (fun h => hne h.symm)]; exact hx⟩)
    exact ⟨new, k', by rw [forEach_cons, e, andThen_next, e'], h.cons hl ha hr⟩

end Sys2Proof.Machine
end

