-- ==== Sys2Proof/Laws/Commands.lean ====
section
/-! SUPPORT. What the host commands and the phases of SWAPBUFFERS do to the pool, the chain and the ring. -/

namespace Sys2Proof.Machine

theorem whenReady_ready (s : State) (r : Res) (h : s.host.hostState = .ready) : whenReady s r = r := by
  unfold whenReady; rw [if_pos h]

theorem whenReady_busy (s : State) (r : Res) (h : s.host.hostState ≠ .ready) :
    whenReady s r = .refused .hostBusy := by
  unfold whenReady; rw [if_neg h]

/-- SWAPBUFFERS and DRAWPIXEL go on for an attached layer that has buffers. -/
theorem withDrawable_of (l : Nat) (s : State) (k : Layer → Res) (lay : Layer)
    (hl : s.layers[l]? = some lay) (ha : lay.attached = true) (ht : lay.content.isText = false) :
    withDrawable l s k = k lay := by
  unfold withDrawable; rw [withLayer_some _ _ _ _ hl]; simp [ha, ht]

/-- Any other layer of the pool breaks the contract (R352). -/
theorem withDrawable_bad (l : Nat) (s : State) (k : Layer → Res) (lay : Layer)
    (hl : s.layers[l]? = some lay) (h : lay.attached = false ∨ lay.content.isText = true) :
    withDrawable l s k = .fault (.contractViolation .badLayer) := by
  unfold withDrawable; rw [withLayer_some _ _ _ _ hl]
  rcases h with h | h <;> simp [h, violation]

/-! ### Local and hardware positions -/

/-- A local pixel lies on the display (R239). -/
theorem hardwarePos_lt (c : Config) (rot : BitVec 2) (x y : Nat) (hx : x < (c.localSize rot).1)
    (hy : y < (c.localSize rot).2) :
    (c.hardwarePos rot x y).1 < c.width ∧ (c.hardwarePos rot x y).2 < c.height := by
  have h : ∀ r : BitVec 2, r = 0 ∨ r = 1 ∨ r = 2 ∨ r = 3 := by decide
  rcases h rot with rfl | rfl | rfl | rfl <;> simp [Config.localSize, Config.hardwarePos] at * <;> omega

/-! ### DRAWPIXEL -/

theorem drawElement_isText (c : Config) (h : HostRegs) (k : Nat) (x : Content) :
    (drawElement c h k x).isText = x.isText := by cases x <;> rfl

/-- Storing one element keeps the kind, the palette, the canonical form and what is written. -/
theorem drawElement_step (c : Config) (h : HostRegs) (k n : Nat) (x : Content) :
    (x.paletteFits → (drawElement c h k x).paletteFits) ∧
      (x.wf = true → (drawElement c h k x).wf = true) ∧
      (x.paletteFits → x.written c n → (drawElement c h k x).written c n) := by
  have key : ∀ {α : Type} (m : Store α) (v : α) (q : Nat), (∃ u, Store.read m q = some u) →
      ∃ u, Store.read (Store.write m k v) q = some u := by
    intro α m v q hq
    rw [Store.read_write]
    split
    · exact ⟨v, rfl⟩
    · exact hq
  cases x with
  | background b =>
    exact ⟨id, fun hw => Store.wf_write _ _ _ hw, fun _ hw q hq => key _ _ q (hw q hq)⟩
  | monoGfx v b =>
    exact ⟨id, fun hw => Store.wf_write _ _ _ hw, fun _ hw q hq => key _ _ q (hw q hq)⟩
  | scrollingText t => exact ⟨id, id, fun _ hw => hw⟩
  | indexed m p b =>
    refine ⟨id, fun hw => Store.wf_write _ _ _ hw, fun hp hw q hq => ?_⟩
    show ∃ v, Store.read (Store.write b k _) q = some v ∧ _
    rw [Store.read_write]
    split
    · refine ⟨_, rfl, ?_⟩
      rw [hp.2, BitVec.toNat_ofNat]
      have hm : h.drawIndex.toNat % 2 ^ m < 2 ^ m := Nat.mod_lt _ (Nat.two_pow_pos m)
      exact Nat.lt_of_le_of_lt (Nat.mod_le _ _) hm
    · exact hw q hq

/-- DRAWPIXEL stores a colour of `N` bits a channel, an index of `IndexBits` bits (R332). -/
theorem drawElement_fits (c : Config) (h : HostRegs) (k : Nat) (x : Content) (hx : x.Fits c) :
    (drawElement c h k x).Fits c := by
  have low : ∀ w n v : Nat, (BitVec.ofNat w (v % 2 ^ n)).toNat < 2 ^ n := fun w n v => by
    rw [BitVec.toNat_ofNat]
    exact Nat.lt_of_le_of_lt (Nat.mod_le _ _) (Nat.mod_lt _ (Nat.two_pow_pos n))
  cases x with
  | background b => exact hx.write _ _ ⟨low _ _ _, low _ _ _, low _ _ _⟩
  | indexed m p b => exact ⟨hx.1, hx.2.write _ _ (low _ _ _)⟩
  | monoGfx v b => exact hx
  | scrollingText t => exact hx

/-- DRAWPIXEL keeps a layer what it is. -/
theorem drawElement_layerStep (c : Config) (h : HostRegs) (k : Nat) (lay : Layer) (hb : lay.Built) :
    LayerStep c lay { lay with content := drawElement c h k lay.content } where
  count := rfl
  shifts := rfl
  attached := rfl
  next := rfl
  text := drawElement_isText _ _ _ _
  built := fun b => b.withContent rfl rfl rfl rfl
    ((drawElement_step c h k lay.bufferCount lay.content).1 b.palette)
    ((drawElement_step c h k lay.bufferCount lay.content).2.1 b.memory)
  ready := fun r => ⟨(drawElement_step c h k lay.bufferCount lay.content).2.2 hb.palette r.written, r.size⟩
  fits := drawElement_fits c h k lay.content

/-! ### SWAPBUFFERS -/

theorem swapPending_layerStep (c : Config) (lay : Layer) (b : Bool) :
    LayerStep c lay { lay with swapPending := b } :=
  ⟨rfl, rfl, rfl, rfl, rfl, fun h => h.withContent rfl rfl rfl rfl h.palette h.memory,
    fun h => ⟨h.written, h.size⟩, id⟩

/-- A buffer copied over another: what was written there, from the source; the rest as before. -/
theorem copyBuffer_spec {α : Type} (c : Config) (src dst : Nat) (m : Store α)
    (h : ∀ i, i < bufferSize c → (Store.read m (src * bufferSize c + i)).isSome) :
    ∃ n, copyBuffer c src dst m = some n ∧
      (∀ i, i < bufferSize c →
        Store.read n (dst * bufferSize c + i) = Store.read m (src * bufferSize c + i)) ∧
      (∀ k, k < dst * bufferSize c ∨ dst * bufferSize c + bufferSize c ≤ k →
        Store.read n k = Store.read m k) ∧
      (Store.wf m = true → Store.wf n = true) := by
  obtain ⟨vs, hvs⟩ := Store.readRange_isSome m (src * bufferSize c) (bufferSize c) h
  obtain ⟨hl, hr⟩ := (Store.readRange_eq_some _ _ _ _).mp hvs
  refine ⟨Store.writeRange m (dst * bufferSize c) vs, by unfold copyBuffer; rw [hvs], ?_, ?_,
    fun hw => Store.wf_writeRange _ _ _ hw⟩
  · intro i hi
    rw [hr i hi, Store.read_writeRange_inside _ _ _ i (by omega), List.getElem?_eq_getElem (by omega)]
  · intro k hk
    exact Store.read_writeRange_outside _ _ _ _ (by omega)

theorem index_lt_of_buffer (size count b i : Nat) (hb : b < count) (hi : i < size) :
    b * size + i < count * size := by
  have := Nat.mul_le_mul_right size (show b + 1 ≤ count from hb)
  rw [Nat.add_mul] at this
  omega

/-- The copy-forward of phase 2 answers on a layer whose buffers are written, and keeps it readable. -/
theorem copyContent_spec (c : Config) (src dst n : Nat) (x : Content) (hs : src < n)
    (hw : x.written c n) :
    ∃ y, copyContent c src dst x = some y ∧ y.isText = x.isText ∧
      (x.paletteFits → y.paletteFits) ∧ (x.wf = true → y.wf = true) ∧ y.written c n := by
  have hin : ∀ i, i < bufferSize c → src * bufferSize c + i < n * bufferSize c := fun i hi =>
    index_lt_of_buffer _ _ _ _ hs hi
  have split : ∀ k, k < n * bufferSize c →
      (∃ i, i < bufferSize c ∧ k = dst * bufferSize c + i) ∨
        (k < dst * bufferSize c ∨ dst * bufferSize c + bufferSize c ≤ k) := by
    intro k _
    by_cases h : dst * bufferSize c ≤ k ∧ k < dst * bufferSize c + bufferSize c
    · exact .inl ⟨k - dst * bufferSize c, by omega, by omega⟩
    · exact .inr (by omega)
  have plain : ∀ {α : Type} (m : Store α), (∀ k, k < n * bufferSize c → ∃ v, Store.read m k = some v) →
      ∃ m', copyBuffer c src dst m = some m' ∧ (Store.wf m = true → Store.wf m' = true) ∧
        ∀ k, k < n * bufferSize c → ∃ v, Store.read m' k = some v := by
    intro α m hm
    obtain ⟨m', e, h1, h2, h3⟩ := copyBuffer_spec c src dst m fun i hi => by
      obtain ⟨v, hv⟩ := hm _ (hin i hi); rw [hv]; rfl
    refine ⟨m', e, h3, fun k hk => ?_⟩
    rcases split k hk with ⟨i, hi, rfl⟩ | hk'
    · rw [h1 i hi]; exact hm _ (hin i hi)
    · rw [h2 k hk']; exact hm k hk
  cases x with
  | background b =>
    obtain ⟨m', e, h1, h2⟩ := plain b hw
    exact ⟨.background m', by simp only [copyContent, e, Option.map_some], rfl, id, h1, h2⟩
  | monoGfx v b =>
    obtain ⟨m', e, h1, h2⟩ := plain b hw
    exact ⟨.monoGfx v m', by simp only [copyContent, e, Option.map_some], rfl, id, h1, h2⟩
  | scrollingText t => exact ⟨_, rfl, rfl, id, id, hw⟩
  | indexed q p b =>
    obtain ⟨m', e, h1, h2, h3⟩ := copyBuffer_spec c src dst b fun i hi => by
      obtain ⟨v, hv, -⟩ := hw _ (hin i hi); rw [hv]; rfl
    refine ⟨.indexed q p m', by simp only [copyContent, e, Option.map_some], rfl, id, h3,
      fun k hk => ?_⟩
    show ∃ v, Store.read m' k = some v ∧ _
    rcases split k hk with ⟨i, hi, rfl⟩ | hk'
    · rw [h1 i hi]; exact hw _ (hin i hi)
    · rw [h2 k hk']; exact hw k hk

/-- The copy-forward brings in nothing that the layer did not hold. -/
theorem copyContent_fits (c : Config) (src dst : Nat) (x y : Content)
    (e : copyContent c src dst x = some y) (h : x.Fits c) : y.Fits c := by
  have copied : ∀ {α : Type} {P : α → Prop} (m n : Store α), copyBuffer c src dst m = some n →
      Store.All P m → Store.All P n := by
    intro α P m n e h
    unfold copyBuffer at e
    cases er : Store.readRange m (src * bufferSize c) (bufferSize c) with
    | none => rw [er] at e; cases e
    | some vs =>
      rw [er] at e
      cases e
      exact h.writeRange _ _ (h.readRange er)
  cases x with
  | background b =>
    obtain ⟨n, hn, rfl⟩ := Option.map_eq_some_iff.mp e
    exact copied b n hn h
  | indexed m p b =>
    obtain ⟨n, hn, rfl⟩ := Option.map_eq_some_iff.mp e
    exact ⟨h.1, copied b n hn h.2⟩
  | monoGfx v b =>
    obtain ⟨n, -, rfl⟩ := Option.map_eq_some_iff.mp e
    exact h
  | scrollingText t => cases e; exact h

/-! ### ADDLAYER -/

/-- Attaching a layer at the end of the chain: its links then lead through the old layers to it. -/
theorem linked_append (layers layers' : List Layer) (l : Nat) (lay' : Layer) (ls : List Nat)
    (at_ : Option Nat) (h : Linked layers at_ ls) (hne : ls ≠ []) (hn : ls.Nodup) (hl : l ∉ ls)
    (hnew : layers'[l]? = some lay') (hnext : lay'.next = none)
    (hlast : ∀ t lay, ls.getLast? = some t → layers[t]? = some lay →
      ∃ m, layers'[t]? = some m ∧ m.next = some l)
    (hold : ∀ k lay, k ∈ ls → ls.getLast? ≠ some k → layers[k]? = some lay →
      ∃ m, layers'[k]? = some m ∧ m.next = lay.next) :
    Linked layers' at_ (ls ++ [l]) := by
  induction ls generalizing at_ with
  | nil => exact absurd rfl hne
  | cons a ls ih =>
    obtain ⟨rfl, lay, h1, h2⟩ := h
    obtain ⟨ha, hn'⟩ := List.nodup_cons.mp hn
    cases ls with
    | nil =>
      obtain ⟨m, hm, hmn⟩ := hlast a lay rfl h1
      exact ⟨rfl, m, hm, hmn, lay', hnew, hnext⟩
    | cons b bs =>
      have hnl : (a :: b :: bs).getLast? ≠ some a := by
        rw [List.getLast?_cons_cons]
        intro e
        exact ha (List.mem_of_getLast? e)
      obtain ⟨m, hm, hmn⟩ := hold a lay (by simp) hnl h1
      refine ⟨rfl, m, hm, ?_⟩
      rw [hmn]
      refine ih lay.next h2 (by simp) hn' (fun e => hl (by simp [e])) ?_ ?_
      · intro t x ht hx
        exact hlast t x (by rw [List.getLast?_cons_cons]; exact ht) hx
      · intro k x hk hkl hx
        exact hold k x (by simp [hk]) (by rw [List.getLast?_cons_cons]; exact hkl) hx

/-! ### BEGIN -/

/-- Filling the ring from a state ready for it: as many CALC.STEPs as there are free slots (R321). -/
theorem fillRing_full (s : State) (fuel : Nat) (h : ringIsFull s = true) : fillRing fuel s = .next s := by
  cases fuel with
  | zero => rfl
  | succ fuel => simp [fillRing, h]

end Sys2Proof.Machine
end

