-- ==== Sys2Proof/Laws/Decode.lean ====
section
/-! SUPPORT. The laws of the fields of a command word and of the operand words of a record. -/

namespace Sys2Proof

theorem commandWord_toNat (op f : Nat) (hop : op < 256) (hf : f < 2 ^ 24) :
    (commandWord op f).toNat = op * 2 ^ 24 + f := by
  rw [commandWord, BitVec.toNat_ofNat]
  exact Nat.mod_eq_of_lt (by omega)

theorem field_commandWord (op f lo n : Nat) (hop : op < 256) (hf : f < 2 ^ 24) :
    field (commandWord op f) lo n = BitVec.ofNat n ((op * 2 ^ 24 + f) / 2 ^ lo) := by
  rw [field, commandWord_toNat op f hop hf]

/-- A field below bit 24 is a field of the operand. -/
theorem field_commandWord_operand (op f lo n : Nat) (hop : op < 256) (hf : f < 2 ^ 24)
    (hn : lo + n ≤ 24) : field (commandWord op f) lo n = BitVec.ofNat n (f / 2 ^ lo) := by
  rw [field_commandWord op f lo n hop hf]
  apply BitVec.eq_of_toNat_eq
  simp only [BitVec.toNat_ofNat]
  have h : op * 2 ^ 24 = 2 ^ lo * (2 ^ n * (op * 2 ^ (24 - lo - n))) := by
    rw [show (24 : Nat) = lo + (n + (24 - lo - n)) by omega, Nat.pow_add, Nat.pow_add,
      show lo + (n + (24 - lo - n)) - lo - n = 24 - lo - n by omega]
    ac_rfl
  rw [h, Nat.add_comm, Nat.add_mul_div_left _ _ (Nat.two_pow_pos lo), Nat.add_mul_mod_self_left]

theorem opOf_commandWord (op f : Nat) (hop : op < 256) (hf : f < 2 ^ 24) :
    opOf (commandWord op f) = BitVec.ofNat 8 op := by
  rw [opOf, field_commandWord op f 24 8 hop hf]
  congr 1
  omega

/-- The operation number of a command word. -/
theorem opOf_commandWord_toNat (op f : Nat) (hop : op < 256) (hf : f < 2 ^ 24) :
    (opOf (commandWord op f)).toNat = op := by
  rw [opOf_commandWord op f hop hf, BitVec.toNat_ofNat]
  exact Nat.mod_eq_of_lt hop

theorem noOperand_commandWord (op f : Nat) (hop : op < 256) (hf : f < 2 ^ 24) :
    noOperand (commandWord op f) = decide (f = 0) := by
  have h := field_commandWord_operand op f 0 24 hop hf (by omega)
  rw [noOperand, h, Nat.pow_zero, Nat.div_one, Bool.eq_iff_iff]
  simp only [beq_iff_eq, decide_eq_true_eq, ← BitVec.toNat_inj, BitVec.toNat_ofNat]
  rw [Nat.mod_eq_of_lt hf]
  simp

theorem opOf_tagWord_toNat (op : Nat) (hop : op < 256) : (opOf (tagWord op)).toNat = op :=
  opOf_commandWord_toNat op 0 hop (by decide)

theorem noOperand_tagWord (op : Nat) (hop : op < 256) : noOperand (tagWord op) = true := by
  rw [tagWord, noOperand_commandWord op 0 hop (by decide)]; rfl

/-- An argument's operand word is read back as the argument. -/
theorem takeArg_argWord {n : Nat} (hn : n ≤ 32) (v : BitVec n) (rest : List Word)
    (k : BitVec n → List Word → Option (Instr × List Word)) :
    takeArg n (argWord v :: rest) k = k v rest := by
  have h : (argWord v).toNat = v.toNat := by
    rw [argWord, BitVec.toNat_setWidth]
    exact Nat.mod_eq_of_lt (Nat.lt_of_lt_of_le v.isLt (Nat.pow_le_pow_right (by omega) hn))
  rw [takeArg, if_pos (h ▸ v.isLt)]
  congr 1
  apply BitVec.eq_of_toNat_eq
  rw [BitVec.toNat_setWidth, h]
  exact Nat.mod_eq_of_lt v.isLt

theorem channelOf_code (ch : Channel) : channelOf ch.code = some ch := by
  cases ch <;> rfl

/-- No tag of a micro-operation is a command word. -/
theorem decodeCommand_tagWord (op : Nat) (hop : op < 256) (h : 0x0D < op) :
    decodeCommand (tagWord op) = none := by
  simp only [decodeCommand, opOf_tagWord_toNat op hop]
  split <;> first | rfl | omega

/-- A record whose first word spells a command. -/
theorem decode_command (w : Word) (ws : List Word) (i : Instr) (h : decodeCommand w = some i) :
    decode (w :: ws) = some (i, ws) := by
  simp only [decode, h]

/-- A record whose first word spells no command. -/
theorem decode_tag (w : Word) (ws : List Word) (h : decodeCommand w = none) :
    decode (w :: ws) = decodeTag w ws := by
  simp only [decode, h]

end Sys2Proof
end

