-- ==== Sys2Proof/Laws/Invariant.lean ====
section
/-! SUPPORT. What each operation of an agent does to the invariant of Safety.lean: lemmas per operation, from
which a claim about every step is assembled. -/

namespace Sys2Proof.Machine

/-! ### Steps that touch none of the state the invariant speaks of -/

/-- The two states agree on everything the invariant reads, but for the refresh rate. -/
structure SameCore (s t : State) : Prop where
  cfg : t.cfg = s.cfg
  ring : t.ring = s.ring
  prod : t.prod = s.prod
  eng : t.eng = s.eng
  begun : t.flags.begun = s.flags.begun
  wake : t.flags.calcWake = s.flags.calcWake
  layers : t.layers = s.layers
  chain : t.chain = s.chain
  host : t.host.hostState = s.host.hostState
  tt : t.tt = s.tt
  slots : t.slots = s.slots
  work : t.work = s.work
  trace : t.out.trace = s.out.trace
  bench : t.env.bench = s.env.bench

theorem ChainOk.same {s t : State} {ls : List Nat} (h : ChainOk s ls) (hl : t.layers = s.layers)
    (hc : t.chain = s.chain) : ChainOk t ls :=
  h.poolStep hc (by rw [hl]; exact PoolStep.refl _ _)

theorem RowOrder.same {s t : State} {g : Nat} (h : RowOrder s g) (c : SameCore s t) : RowOrder t g where
  queued := by rw [c.ring, c.cfg, c.slots]; exact h.queued
  next := by rw [c.ring, c.cfg, c.prod]; exact h.next
  shown := by
    rw [c.cfg, beatsOut, c.eng, dataBeats, c.trace]; exact h.shown
  order := by rw [c.cfg, dataBeats, c.trace]; exact h.order
  fresh := by rw [c.begun]; exact h.fresh

/-- Such a step keeps the invariant if it leaves the rate in its range. -/
theorem Inv.same {s t : State} (h : Inv s) (c : SameCore s t)
    (h1 : s.cfg.minRefreshRate ≤ t.ctl.refreshRate.toNat)
    (h2 : t.ctl.refreshRate.toNat ≤ s.cfg.maxRefreshRate) : Inv t where
  regs :=
    { valid := by rw [c.cfg]; exact h.regs.valid
      minRate := by rw [c.cfg]; exact h1
      maxRate := by rw [c.cfg]; exact h2
      count := by rw [c.ring, c.cfg]; exact h.regs.count
      start := by rw [c.ring, c.cfg]; exact h.regs.start
      row := by rw [c.prod, c.cfg]; exact h.regs.row
      slot := by rw [c.eng, c.cfg]; exact h.regs.slot
      stopped := by rw [c.begun, c.eng]; exact h.regs.stopped
      source := by rw [c.eng]; exact h.regs.source
      shifting := by rw [c.eng, c.ring, c.cfg]; exact h.regs.shifting
      underrun := by rw [c.eng, c.ring]; exact h.regs.underrun
      atRest := by rw [c.begun, c.ring, c.eng, c.wake]; exact h.regs.atRest
      running := by rw [c.prod, c.begun]; exact h.regs.running
      wake := by rw [c.begun, c.ring, c.cfg, c.wake, c.prod]; exact h.regs.wake }
  mem :=
    { pool := by rw [c.layers, c.cfg]; exact h.mem.pool
      built := by rw [c.layers]; exact h.mem.built
      ready := by rw [c.layers, c.cfg]; exact h.mem.ready
      chain := by
        obtain ⟨ls, hls⟩ := h.mem.chain
        exact ⟨ls, hls.same c.layers c.chain⟩
      table := by rw [c.begun, c.cfg, c.tt]; exact h.mem.table
      ttWf := by rw [c.tt]; exact h.mem.ttWf
      slotsWf := by rw [c.slots]; exact h.mem.slotsWf
      workWf := by rw [c.work]; exact h.mem.workWf
      swap := by
        unfold Drawable
        rw [c.host, c.layers]; exact h.mem.swap
      copy := by
        unfold Drawable
        rw [c.host, c.layers]; exact h.mem.copy }
  depth := h.depth.same c.cfg c.layers c.work
  rows := by
    obtain ⟨g, hg⟩ := h.rows
    exact ⟨g, hg.same c⟩
  bench := by rw [c.bench]; exact h.bench

/-- A step that keeps the layers in the sense of `PoolStep` and may move the host's phase. -/
theorem Inv.poolStep {s t : State} (h : Inv s) (e : ∃ ls hs, t = { s with layers := ls, host := hs })
    (hp : PoolStep s.cfg s.layers t.layers)
    (h1 : ∀ l copy, t.host.hostState = .swapWait1 l copy → Drawable s l)
    (h2 : ∀ l, t.host.hostState = .swapWait2 l → Drawable s l) : Inv t := by
  obtain ⟨ls, hs, rfl⟩ := e
  exact
    { regs := ⟨h.regs.valid, h.regs.minRate, h.regs.maxRate, h.regs.count, h.regs.start, h.regs.row,
        h.regs.slot, h.regs.stopped, h.regs.source, h.regs.shifting, h.regs.underrun, h.regs.atRest,
        h.regs.running, h.regs.wake⟩
      mem :=
        { pool := hp.length.trans h.mem.pool
          built := hp.built h.mem.built
          ready := hp.ready h.mem.ready
          chain := by
            obtain ⟨ns, hns⟩ := h.mem.chain
            exact ⟨ns, hns.poolStep rfl hp⟩
          table := h.mem.table
          ttWf := h.mem.ttWf
          slotsWf := h.mem.slotsWf
          workWf := h.mem.workWf
          swap := fun l c hl => (h1 l c hl).poolStep hp
          copy := fun l hl => (h2 l hl).poolStep hp }
      depth := hp.depth rfl rfl h.depth
      rows := by
        obtain ⟨g, hg⟩ := h.rows
        exact ⟨g, hg.queued, hg.next, hg.shown, hg.order, hg.fresh⟩
      bench := h.bench }

theorem lowerRate_range (s : State) (h1 : s.cfg.minRefreshRate ≤ s.ctl.refreshRate.toNat)
    (h2 : s.ctl.refreshRate.toNat ≤ s.cfg.maxRefreshRate) :
    s.cfg.minRefreshRate ≤ (lowerRate s).ctl.refreshRate.toNat ∧
      (lowerRate s).ctl.refreshRate.toNat ≤ s.cfg.maxRefreshRate := by
  rw [lowerRate_rate]
  split <;> omega

theorem lowerRate_sameCore (s : State) : SameCore s (lowerRate s) := by
  obtain ⟨r, f, e, h1, h2, h3, -, -⟩ := lowerRate_frame s
  rw [e]
  exact ⟨rfl, rfl, rfl, rfl, h3, h2, rfl, rfl, rfl, rfl, rfl, rfl, rfl, rfl⟩

theorem Inv.lowerRate {s : State} (h : Inv s) : Inv (lowerRate s) := by
  obtain ⟨h1, h2⟩ := lowerRate_range s h.regs.minRate h.regs.maxRate
  exact h.same (lowerRate_sameCore s) h1 h2

theorem takeTurn_frame (s : State) :
    ∃ e, takeTurn s = s.setEnv e ∧ e.bench = s.env.bench ∧ e.commands = s.env.commands := by
  unfold takeTurn
  split <;> exact ⟨_, rfl, rfl, rfl⟩

/-- Taking a turn keeps the invariant. -/
theorem Inv.takeTurn {s : State} (h : Inv s) : Inv (takeTurn s) := by
  obtain ⟨e, he, hb, -⟩ := takeTurn_frame s
  rw [he]
  exact h.same ⟨rfl, rfl, rfl, rfl, rfl, rfl, rfl, rfl, rfl, rfl, rfl, rfl, rfl, hb⟩
    h.regs.minRate h.regs.maxRate

/-! ### The engine -/

theorem dataBeats_emit (s : State) (b : Beat) :
    (s.out.trace ++ [b]).filter (fun x => x.kind == BeatKind.data) =
      dataBeats s ++ if b.kind = .data then [b] else [] := by
  rw [List.filter_append, dataBeats]
  congr 1
  cases h : b.kind <;> simp [h]

/-- A beat of a ready slot (R272, R273). -/
theorem dataBeat_of_ready (c : Config) (m : Memory) (w r i : Nat) (h : SlotReady c m w r)
    (hi : i < c.depth) :
    ∃ b, dataBeat c m w i = some b ∧ b.kind = .data ∧ b.rowAddress = some (BitVec.ofNat 16 r) ∧
      b.plane = some i := by
  obtain ⟨p, hp, -⟩ := h.timing i hi
  obtain ⟨ws, hw⟩ := h.plane i hi
  exact ⟨_, by unfold dataBeat; rw [h.address, hp, hw], rfl, rfl, rfl⟩

theorem div_mod_of_lt (g n k : Nat) (h : k < n) : (g * n + k) % n = k ∧ (g * n + k) / n = g := by
  constructor
  · rw [Nat.mul_comm, Nat.mul_add_mod, Nat.mod_eq_of_lt h]
  · rw [Nat.mul_comm, Nat.mul_add_div (by omega), Nat.div_eq_of_lt h, Nat.add_zero]

/-- A beat of the slot in flight keeps the order of rows. -/
theorem RowOrder.dataBeat {s : State} {g : Nat} (h : RowOrder s g)
    (hs : s.eng.schedState = .shifting) (hi : s.eng.beatIndex < s.cfg.depth) (b : Beat)
    (hk : b.kind = .data) (hr : b.rowAddress = some (BitVec.ofNat 16 (g % s.cfg.scanRows)))
    (hp : b.plane = some s.eng.beatIndex) : RowOrder (countBeat (emitBeat b s)) g := by
  have hb : dataBeats (countBeat (emitBeat b s)) = dataBeats s ++ [b] := by
    have := dataBeats_emit s b
    rw [if_pos hk] at this
    exact this
  have hsh := h.shown
  rw [beatsOut, if_pos hs] at hsh
  refine ⟨h.queued, h.next, ?_, ?_, h.fresh⟩
  · rw [hb, List.length_append, hsh]
    show _ = g * s.cfg.depth + beatsOut (countBeat (emitBeat b s))
    rw [beatsOut, if_pos (by exact hs)]
    show _ = g * s.cfg.depth + (s.eng.beatIndex + 1)
    simp only [List.length_cons, List.length_nil]
    omega
  · intro n x hx
    rw [hb] at hx
    by_cases hn : n < (dataBeats s).length
    · rw [List.getElem?_append_left hn] at hx
      exact h.order n x hx
    · rw [List.getElem?_append_right (by omega)] at hx
      have hn' : n = (dataBeats s).length := by
        have := (List.getElem?_eq_some_iff.mp hx).1
        simp only [List.length_cons, List.length_nil] at this
        omega
      subst hn'
      rw [Nat.sub_self] at hx
      simp only [List.getElem?_cons_zero, Option.some.injEq] at hx
      subst hx
      obtain ⟨d1, d2⟩ := div_mod_of_lt g s.cfg.depth s.eng.beatIndex hi
      rw [hsh]
      refine ⟨?_, ?_⟩
      · show b.plane = some ((g * s.cfg.depth + s.eng.beatIndex) % s.cfg.depth)
        rw [d1]; exact hp
      · show b.rowAddress = some (BitVec.ofNat 16
          ((g * s.cfg.depth + s.eng.beatIndex) / s.cfg.depth % s.cfg.scanRows))
        rw [d2]; exact hr

/-- ENG.BEAT where enabled answers and keeps the invariant. -/
theorem Inv.engBeat {s : State} (h : Inv s) (he : beatEnabled s = true) :
    ∃ t, execEngBeat s = .next t ∧ Inv t := by
  obtain ⟨g, hg⟩ := h.rows
  unfold execEngBeat
  rw [if_pos he]
  have hbeg : s.flags.begun = true := by
    unfold beatEnabled at he; simp only [Bool.and_eq_true] at he; exact he.1
  by_cases hs : s.eng.schedState = .shifting
  · rw [if_pos hs]
    obtain ⟨c1, c2, c3⟩ := h.regs.shifting hs
    have hi : s.eng.beatIndex < s.cfg.depth := by
      unfold beatEnabled beatLimit at he
      rw [hs] at he
      simpa [hbeg] using he
    have hq := hg.queued 0 (by omega)
    rw [Nat.add_zero, Nat.add_zero, Nat.mod_eq_of_lt h.regs.start, ← c2] at hq
    obtain ⟨b, e, hk, hr, hp⟩ := dataBeat_of_ready _ _ _ _ _ hq hi
    rw [e]
    refine ⟨_, rfl, ?_⟩
    exact
      { regs := ⟨h.regs.valid, h.regs.minRate, h.regs.maxRate, h.regs.count, h.regs.start, h.regs.row,
          h.regs.slot, h.regs.stopped, h.regs.source, fun _ => ⟨c1, c2, hi⟩,
          fun hu => (nomatch hs.symm.trans hu),
          fun hn => (nomatch hbeg.symm.trans hn),
          h.regs.running, h.regs.wake⟩
        mem := ⟨h.mem.pool, h.mem.built, h.mem.ready, by
            obtain ⟨ls, hls⟩ := h.mem.chain
            exact ⟨ls, hls.same rfl rfl⟩, h.mem.table, h.mem.ttWf, h.mem.slotsWf, h.mem.workWf,
          h.mem.swap, h.mem.copy⟩
        depth := h.depth.same rfl rfl rfl
        rows := ⟨g, hg.dataBeat hs hi b hk hr hp⟩
        bench := h.bench }
  · rw [if_neg hs]
    have hu : s.eng.schedState = .underrun := by
      cases e : s.eng.schedState with
      | stopped =>
        have := h.regs.stopped.mpr e
        rw [hbeg] at this; cases this
      | shifting => exact absurd e hs
      | underrun => rfl
    have hi : s.eng.beatIndex < 1 := by
      unfold beatEnabled beatLimit at he
      rw [hu] at he
      simpa [hbeg] using he
    refine ⟨_, rfl, ?_⟩
    have hb : dataBeats (countBeat (emitBeat (idleBeat s.cfg) s)) = dataBeats s := by
      have := dataBeats_emit s (idleBeat s.cfg)
      rw [if_neg (by simp [idleBeat]), List.append_nil] at this
      exact this
    exact
      { regs := ⟨h.regs.valid, h.regs.minRate, h.regs.maxRate, h.regs.count, h.regs.start, h.regs.row,
          h.regs.slot, h.regs.stopped, h.regs.source, fun e => absurd e hs,
          fun _ => ⟨(h.regs.underrun hu).1, hi⟩,
          fun hn => (nomatch hbeg.symm.trans hn),
          h.regs.running, h.regs.wake⟩
        mem := ⟨h.mem.pool, h.mem.built, h.mem.ready, by
            obtain ⟨ls, hls⟩ := h.mem.chain
            exact ⟨ls, hls.same rfl rfl⟩, h.mem.table, h.mem.ttWf, h.mem.slotsWf, h.mem.workWf,
          h.mem.swap, h.mem.copy⟩
        depth := h.depth.same rfl rfl rfl
        rows := ⟨g, hg.queued, hg.next, by
            have := hg.shown
            rw [beatsOut, if_neg hs] at this
            rw [hb, beatsOut, if_neg (by exact hs)]
            exact this, by rw [hb]; exact hg.order, hg.fresh⟩
        bench := h.bench }

theorem add_mod_succ (a k n : Nat) : ((a + 1) % n + k) % n = (a + (k + 1)) % n := by
  rw [Nat.mod_add_mod]; congr 1; omega

/-- EV.COMPLETE where enabled answers and keeps the invariant. -/
theorem Inv.evComplete {s : State} (h : Inv s) (he : completeEnabled s = true) :
    ∃ t, execEvComplete s = .next t ∧ Inv t := by
  obtain ⟨g, hg⟩ := h.rows
  unfold execEvComplete
  rw [if_pos he]
  have hbeg : s.flags.begun = true := by
    unfold completeEnabled at he; simp only [Bool.and_eq_true] at he; exact he.1
  have hcap := Config.valid.capacity h.regs.valid
  obtain ⟨ls, hls⟩ := h.mem.chain
  by_cases hs : s.eng.schedState = .shifting
  · obtain ⟨c1, c2, c3⟩ := h.regs.shifting hs
    have hi : s.eng.beatIndex = s.cfg.depth := by
      unfold completeEnabled beatLimit at he
      rw [hs] at he
      simpa [hbeg] using he
    have hsh := hg.shown
    rw [beatsOut, if_pos hs, hi] at hsh
    have hsh' : (dataBeats s).length = (g + 1) * s.cfg.depth := by rw [hsh, Nat.add_mul]; omega
    have hstart : (s.ring.start + 1) % s.cfg.capacity < s.cfg.capacity := Nat.mod_lt _ (by omega)
    by_cases h1 : s.ring.count = 1
    · -- into the underrun state
      set m : State := ((s.setRing ⟨(s.ring.start + 1) % s.cfg.capacity, 0⟩).setEng
        { s.eng with timingSource := .idle, schedState := .underrun }).raiseUnderrun with hm
      have key : ∀ u : State, SameCore m u →
          m.cfg.minRefreshRate ≤ u.ctl.refreshRate.toNat →
          u.ctl.refreshRate.toNat ≤ m.cfg.maxRefreshRate →
          Inv (u.setEng { u.eng with beatIndex := 0 }).raiseWake := by
        intro u hu r1 r2
        have hc : u.cfg = s.cfg := hu.cfg
        have hr : u.ring = ⟨(s.ring.start + 1) % s.cfg.capacity, 0⟩ := hu.ring
        have hE : u.eng = { s.eng with timingSource := .idle, schedState := .underrun } := hu.eng
        have hb : u.flags.begun = true := hu.begun.trans hbeg
        have hp : u.prod = s.prod := hu.prod
        have hl : u.layers = s.layers := hu.layers
        have hch : u.chain = s.chain := hu.chain
        have hh : u.host.hostState = s.host.hostState := hu.host
        have htt : u.tt = s.tt := hu.tt
        have hsl : u.slots = s.slots := hu.slots
        have hw : u.work = s.work := hu.work
        have htr : u.out.trace = s.out.trace := hu.trace
        have hbe : u.env.bench = s.env.bench := hu.bench
        have hchain : ChainOk (u.setEng { u.eng with beatIndex := 0 }).raiseWake ls :=
          hls.same hl hch
        exact
          { regs :=
              { valid := by show u.cfg.valid = true; rw [hc]; exact h.regs.valid
                minRate := by show u.cfg.minRefreshRate ≤ _; rw [hu.cfg]; exact r1
                maxRate := by show _ ≤ u.cfg.maxRefreshRate; rw [hu.cfg]; exact r2
                count := by show u.ring.count ≤ _; rw [hr]; exact Nat.zero_le _
                start := by show u.ring.start < u.cfg.capacity; rw [hr, hc]; exact hstart
                row := by show u.prod.rowIndex < u.cfg.scanRows; rw [hp, hc]; exact h.regs.row
                slot := by show u.eng.curSlot < u.cfg.capacity; rw [hE, hc]; exact h.regs.slot
                stopped := by
                  show u.flags.begun = false ↔ u.eng.schedState = .stopped
                  rw [hb, hE]; simp
                source := by
                  show u.eng.timingSource = .slot ↔ u.eng.schedState = .shifting
                  rw [hE]; simp
                shifting := by
                  show u.eng.schedState = .shifting → _
                  rw [hE]; intro e; cases e
                underrun := fun _ => ⟨by show u.ring.count = 0; rw [hr], by
                  show (0 : Nat) ≤ 1; omega⟩
                atRest := by
                  show u.flags.begun = false → _
                  rw [hb]; intro e; cases e
                running := fun _ => hb
                wake := fun _ _ => .inl rfl }
            mem :=
              { pool := by show u.layers.length = u.cfg.maxLayers; rw [hl, hc]; exact h.mem.pool
                built := by show ∀ lay ∈ u.layers, _; rw [hl]; exact h.mem.built
                ready := by
                  show ∀ lay ∈ u.layers, lay.attached = true → lay.Ready u.cfg
                  rw [hl, hc]; exact h.mem.ready
                chain := ⟨ls, hchain⟩
                table := fun _ => by
                  show tableReady u.cfg u.tt
                  rw [hc, htt]; exact h.mem.table hbeg
                ttWf := by show Store.wf u.tt = true; rw [htt]; exact h.mem.ttWf
                slotsWf := by show Memory.wf u.slots = true; rw [hsl]; exact h.mem.slotsWf
                workWf := by show Store.wf u.work = true; rw [hw]; exact h.mem.workWf
                swap := by
                  show ∀ l c, u.host.hostState = _ → ∃ lay, u.layers[l]? = some lay ∧ _
                  rw [hh, hl]; exact h.mem.swap
                copy := by
                  show ∀ l, u.host.hostState = _ → ∃ lay, u.layers[l]? = some lay ∧ _
                  rw [hh, hl]; exact h.mem.copy }
            depth := h.depth.same hc hl hw
            rows := by
              refine ⟨g + 1, ?_, ?_, ?_, ?_, ?_⟩
              · show ∀ k, k < u.ring.count → _
                rw [hr]
                intro k hk
                exact absurd hk (Nat.not_lt_zero k)
              · show u.prod.rowIndex = (g + 1 + u.ring.count) % u.cfg.scanRows
                rw [hp, hr, hc, hg.next, h1]; rfl
              · show (u.out.trace.filter _).length
                  = (g + 1) * u.cfg.depth + if u.eng.schedState = .shifting then 0 else 0
                rw [htr, hc]
                have := hsh'
                unfold dataBeats at this
                rw [this]; simp
              · show ∀ n b, (u.out.trace.filter _)[n]? = some b →
                  b.plane = some (n % u.cfg.depth) ∧
                    b.rowAddress = some (BitVec.ofNat 16 (n / u.cfg.depth % u.cfg.scanRows))
                rw [htr, hc]; exact hg.order
              · show u.flags.begun = false → _
                rw [hb]; intro e; cases e
            bench := by show u.env.bench = []; rw [hbe]; exact h.bench }
      refine ⟨_, (takeCompletion_shifting s _ hs).mpr ⟨by omega, rfl⟩, ?_⟩
      rw [if_pos h1]
      simp only []
      cases s.cfg.adaptiveRate with
      | true =>
        rw [if_pos rfl]
        obtain ⟨r1, r2⟩ := lowerRate_range m h.regs.minRate h.regs.maxRate
        exact key _ (lowerRate_sameCore m) r1 r2
      | false =>
        rw [if_neg (by decide)]
        exact key m ⟨rfl, rfl, rfl, rfl, rfl, rfl, rfl, rfl, rfl, rfl, rfl, rfl, rfl, rfl⟩
          h.regs.minRate h.regs.maxRate
    · -- on to the next slot
      refine ⟨_, (takeCompletion_shifting s _ hs).mpr ⟨by omega, rfl⟩, ?_⟩
      rw [if_neg h1]
      simp only []
      exact
        { regs :=
            { valid := h.regs.valid
              minRate := h.regs.minRate
              maxRate := h.regs.maxRate
              count := by
                show s.ring.count - 1 ≤ s.cfg.capacity
                have := h.regs.count
                omega
              start := hstart
              row := h.regs.row
              slot := hstart
              stopped := h.regs.stopped
              source := h.regs.source
              shifting := fun _ => ⟨by show 1 ≤ s.ring.count - 1; omega, rfl, Nat.zero_le _⟩
              underrun := fun e => (nomatch hs.symm.trans e)
              atRest := fun e => (nomatch hbeg.symm.trans e)
              running := h.regs.running
              wake := fun _ _ => .inl rfl }
          mem := ⟨h.mem.pool, h.mem.built, h.mem.ready, ⟨ls, hls.same rfl rfl⟩, h.mem.table,
            h.mem.ttWf, h.mem.slotsWf, h.mem.workWf, h.mem.swap, h.mem.copy⟩
          depth := h.depth.same rfl rfl rfl
          rows := by
            refine ⟨g + 1, ?_, ?_, ?_, hg.order, ?_⟩
            · intro k hk
              have hk' : k < s.ring.count - 1 := hk
              have := hg.queued (k + 1) (by omega)
              rw [← add_mod_succ, show g + (k + 1) = g + 1 + k by omega] at this
              exact this
            · show s.prod.rowIndex = (g + 1 + (s.ring.count - 1)) % s.cfg.scanRows
              rw [hg.next]; congr 1; omega
            · show (dataBeats s).length = (g + 1) * s.cfg.depth
                + if s.eng.schedState = .shifting then 0 else 0
              rw [hsh', if_pos hs]; rfl
            · exact fun e => (nomatch hbeg.symm.trans e)
          bench := h.bench }
  · refine ⟨_, takeCompletion_other s hs, ?_⟩
    have hu : s.eng.schedState = .underrun := by
      cases e : s.eng.schedState with
      | stopped =>
        have := h.regs.stopped.mpr e
        rw [hbeg] at this; cases this
      | shifting => exact absurd e hs
      | underrun => rfl
    exact
      { regs := ⟨h.regs.valid, h.regs.minRate, h.regs.maxRate, h.regs.count, h.regs.start, h.regs.row,
          h.regs.slot, h.regs.stopped, h.regs.source, fun e => absurd e hs,
          fun _ => ⟨(h.regs.underrun hu).1, Nat.zero_le _⟩,
          fun hn => (nomatch hbeg.symm.trans hn),
          h.regs.running, fun _ _ => .inl rfl⟩
        mem := ⟨h.mem.pool, h.mem.built, h.mem.ready, ⟨ls, hls.same rfl rfl⟩, h.mem.table,
          h.mem.ttWf, h.mem.slotsWf, h.mem.workWf, h.mem.swap, h.mem.copy⟩
        depth := h.depth.same rfl rfl rfl
        rows := ⟨g, hg.queued, hg.next, by
            have := hg.shown
            rw [beatsOut, if_neg hs] at this
            rw [beatsOut, if_neg (by exact hs)]
            exact this, hg.order, hg.fresh⟩
        bench := h.bench }

/-! ### The producer -/

/-- A started block whose invariant holds is ready for a calculation. -/
theorem Inv.calcReady {s : State} (h : Inv s) (hb : s.flags.begun = true) : CalcReady s where
  valid := h.regs.valid
  minRate := h.regs.minRate
  maxRate := h.regs.maxRate
  row := h.regs.row
  start := h.regs.start
  built := h.mem.built
  ready := h.mem.ready
  chain := h.mem.chain
  table := .inl (h.mem.table hb)

/-- Two places of a ring are the same slot only if they are the same place. -/
theorem ring_slot_ne (start k n c : Nat) (hk : k < n) (hn : n < c) :
    (start + k) % c ≠ (start + n) % c := by
  intro h
  have h1 : (start + k) % c = (start + k + (n - k)) % c := by
    rw [h]; congr 1; omega
  have h2 : c ∣ n - k := by
    have := (Nat.modEq_iff_dvd' (show start + k ≤ start + k + (n - k) by omega)).mp h1
    rwa [Nat.add_sub_cancel_left] at this
  have := Nat.le_of_dvd (by omega) h2
  omega

/-- A new row keeps the order of rows. -/
theorem RowOrder.calcStep {s t : State} {g : Nat} (h : RowOrder s g) (hc : CalcStep s t)
    (hfree : s.ring.count < s.cfg.capacity) : RowOrder t g where
  queued := by
    rw [hc.cfg, hc.ring]
    intro k hk
    have hk : k < s.ring.count + 1 := hk
    by_cases hlast : k = s.ring.count
    · subst hlast
      have := hc.slot
      rw [h.next] at this
      exact this
    · have hk' : k < s.ring.count := by omega
      refine (h.queued k hk').congr fun b h1 h2 => hc.others b ?_
      have hne := ring_slot_ne s.ring.start k s.ring.count s.cfg.capacity hk' hfree
      rcases Nat.lt_or_gt_of_ne hne with hlt | hgt
      · left
        have := Config.slotOffset_mono s.cfg hlt
        omega
      · right
        have := Config.slotOffset_mono s.cfg hgt
        have h1' : s.cfg.slotOffset ((s.ring.start + k) % s.cfg.capacity) ≤ b := h1
        omega
  next := by
    rw [hc.prod, hc.ring, hc.cfg]
    show (s.prod.rowIndex + 1) % s.cfg.scanRows = (g + (s.ring.count + 1)) % s.cfg.scanRows
    rw [h.next, Nat.mod_add_mod, Nat.add_assoc]
  shown := by
    rw [hc.cfg, dataBeats, hc.out]
    have := h.shown
    unfold dataBeats beatsOut at *
    rw [this, hc.eng]
    by_cases e : s.eng.schedState = .underrun
    · rw [if_pos e]
      simp [e]
    · rw [if_neg e]
  order := by rw [hc.cfg, dataBeats, hc.out]; exact h.order
  fresh := by rw [hc.begun]; exact h.fresh

/-- A calculated row keeps the invariant of a started block. -/
theorem Inv.calcStep {s t : State} (h : Inv s) (hb : s.flags.begun = true) (hc : CalcStep s t)
    (hfree : s.ring.count < s.cfg.capacity) (hrun : s.prod.calcState = .running) : Inv t where
  regs :=
    { valid := by rw [hc.cfg]; exact h.regs.valid
      minRate := by rw [hc.cfg, hc.ctl]; exact h.regs.minRate
      maxRate := by rw [hc.cfg, hc.ctl]; exact h.regs.maxRate
      count := by rw [hc.ring, hc.cfg]; exact hfree
      start := by rw [hc.ring, hc.cfg]; exact h.regs.start
      row := by
        rw [hc.prod, hc.cfg]
        exact Nat.mod_lt _ (Nat.lt_of_lt_of_le Nat.zero_lt_one (Config.valid.scan h.regs.valid).1)
      slot := by
        rw [hc.eng, hc.cfg]
        split
        · exact h.regs.start
        · exact h.regs.slot
      stopped := by
        rw [hc.begun, hc.eng, hb]
        split
        · simp
        · have := h.regs.stopped
          rw [hb] at this
          exact this
      source := by
        rw [hc.eng]
        split
        · simp
        · exact h.regs.source
      shifting := by
        rw [hc.eng, hc.ring, hc.cfg]
        split
        · intro _
          exact ⟨Nat.le_add_left 1 _, rfl, Nat.zero_le _⟩
        · intro e
          obtain ⟨c1, c2, c3⟩ := h.regs.shifting e
          exact ⟨Nat.le_add_left 1 _, c2, c3⟩
      underrun := by
        rw [hc.eng]
        split
        · intro e; cases e
        · rename_i hne
          intro e; exact absurd e hne
      atRest := by rw [hc.begun, hb]; intro e; cases e
      running := fun _ => by rw [hc.begun]; exact hb
      wake := fun _ _ => .inr (by rw [hc.prod]; exact hrun) }
  mem :=
    { pool := by rw [hc.pool.length, hc.cfg]; exact h.mem.pool
      built := hc.pool.built h.mem.built
      ready := by rw [hc.cfg]; exact hc.pool.ready h.mem.ready
      chain := by
        obtain ⟨ls, hls⟩ := h.mem.chain
        exact ⟨ls, hls.poolStep hc.chain hc.pool⟩
      table := fun _ => by rw [hc.cfg]; exact hc.table
      ttWf := hc.ttWf h.mem.ttWf
      slotsWf := hc.slotsWf h.mem.slotsWf
      workWf := hc.workWf h.mem.workWf
      swap := fun l c hl => by
        rw [hc.host] at hl
        exact (h.mem.swap l c hl).poolStep hc.pool
      copy := fun l hl => by
        rw [hc.host] at hl
        exact (h.mem.copy l hl).poolStep hc.pool }
  depth := hc.depth h.depth
  rows := by
    obtain ⟨g, hg⟩ := h.rows
    exact ⟨g, hg.calcStep hc hfree⟩
  bench := by rw [hc.env]; exact h.bench

/-- P.WAKE where enabled answers and keeps the invariant. -/
theorem Inv.pWake {s : State} (h : Inv s) (he : wakeEnabled s = true) :
    ∃ t, execPWake s = .next t ∧ Inv t := by
  have hbeg : s.flags.begun = true := by
    unfold wakeEnabled at he; simp only [Bool.and_eq_true] at he; exact he.1.1
  obtain ⟨ls, hls⟩ := h.mem.chain
  obtain ⟨g, hg⟩ := h.rows
  unfold execPWake
  rw [if_pos he]
  refine ⟨_, rfl, ?_⟩
  exact
    { regs := ⟨h.regs.valid, h.regs.minRate, h.regs.maxRate, h.regs.count, h.regs.start, h.regs.row,
        h.regs.slot, h.regs.stopped, h.regs.source, h.regs.shifting, h.regs.underrun,
        fun e => (nomatch hbeg.symm.trans e),
        fun _ => hbeg, fun _ _ => .inr rfl⟩
      mem := ⟨h.mem.pool, h.mem.built, h.mem.ready, ⟨ls, hls.same rfl rfl⟩, h.mem.table,
        h.mem.ttWf, h.mem.slotsWf, h.mem.workWf, h.mem.swap, h.mem.copy⟩
      depth := h.depth.same rfl rfl rfl
      rows := ⟨g, hg.queued, hg.next, hg.shown, hg.order, hg.fresh⟩
      bench := h.bench }

/-- Only the count of iterations changes. -/
theorem Inv.setLoops {s : State} (h : Inv s) (v : Half) : Inv (s.setProd { s.prod with loops := v }) := by
  obtain ⟨ls, hls⟩ := h.mem.chain
  obtain ⟨g, hg⟩ := h.rows
  exact
    { regs := ⟨h.regs.valid, h.regs.minRate, h.regs.maxRate, h.regs.count, h.regs.start, h.regs.row,
        h.regs.slot, h.regs.stopped, h.regs.source, h.regs.shifting, h.regs.underrun, h.regs.atRest,
        h.regs.running, h.regs.wake⟩
      mem := ⟨h.mem.pool, h.mem.built, h.mem.ready, ⟨ls, hls.same rfl rfl⟩, h.mem.table,
        h.mem.ttWf, h.mem.slotsWf, h.mem.workWf, h.mem.swap, h.mem.copy⟩
      depth := h.depth.same rfl rfl rfl
      rows := ⟨g, hg.queued, hg.next, hg.shown, hg.order, hg.fresh⟩
      bench := h.bench }

theorem Inv.countLoop {s : State} (h : Inv s) : Inv (countLoop s) := by
  unfold Machine.countLoop
  simp only []
  split
  · have h1 := Inv.setLoops (Inv.lowerRate (h.setLoops (s.prod.loops + 1))) 0
    rw [(lowerRate_sameCore _).prod] at h1
    exact h1
  · exact h.setLoops _

/-- P.STEP of a running producer answers and keeps the invariant. -/
theorem Inv.pStep {s : State} (h : Inv s) (hrun : s.prod.calcState = .running) :
    ∃ t, execPStep s = .next t ∧ Inv t := by
  have hbeg := h.regs.running hrun
  unfold execPStep
  rw [if_pos hrun]
  by_cases hf : ringIsFull s = true
  · rw [if_pos hf]
    obtain ⟨ls, hls⟩ := h.mem.chain
    obtain ⟨g, hg⟩ := h.rows
    refine ⟨_, rfl, ?_⟩
    have hfull : s.ring.count = s.cfg.capacity := of_decide_eq_true hf
    exact
      { regs := ⟨h.regs.valid, h.regs.minRate, h.regs.maxRate, h.regs.count, h.regs.start, h.regs.row,
          h.regs.slot, h.regs.stopped, h.regs.source, h.regs.shifting, h.regs.underrun, h.regs.atRest,
          fun e => (nomatch e),
          fun _ hlt => absurd hlt (Nat.not_lt_of_le (Nat.le_of_eq hfull.symm))⟩
        mem := ⟨h.mem.pool, h.mem.built, h.mem.ready, ⟨ls, hls.same rfl rfl⟩, h.mem.table,
          h.mem.ttWf, h.mem.slotsWf, h.mem.workWf, h.mem.swap, h.mem.copy⟩
        depth := h.depth.same rfl rfl rfl
        rows := ⟨g, hg.queued, hg.next, hg.shown, hg.order, hg.fresh⟩
        bench := h.bench }
  · rw [if_neg hf]
    have hfree : s.ring.count < s.cfg.capacity := by
      have h1 := h.regs.count
      have h2 : s.ring.count ≠ s.cfg.capacity := fun e => hf (decide_eq_true e)
      omega
    obtain ⟨t, e, hc⟩ := calcRow_spec s (h.calcReady hbeg) hfree
    exact ⟨_, by rw [e, andThen_next], (h.calcStep hbeg hc hfree hrun).countLoop⟩

/-! ### The host's phases -/

/-- The next phase of a SWAPBUFFERS answers and keeps the invariant. -/
theorem Inv.hostPhase {s : State} (h : Inv s) : ∃ t, hostPhase s = .next t ∧ Inv t := by
  unfold Machine.hostPhase
  cases e : s.host.hostState with
  | ready => exact ⟨s, rfl, h⟩
  | swapWait1 l copy =>
    obtain ⟨lay, hl, ha, ht⟩ := h.mem.swap l copy e
    simp only []
    rw [withLayer_some _ _ _ _ hl]
    split
    · exact ⟨s, rfl, h⟩
    · refine ⟨_, rfl, h.poolStep ⟨_, _, rfl⟩ (PoolStep.put hl (swapPending_layerStep _ _ _)) ?_ ?_⟩
      · intro l' c' hh
        unfold swapRequest at hh
        cases copy <;> simp at hh
      · intro l' hh
        unfold swapRequest at hh
        cases copy
        · simp at hh
        · simp only [State.setHost_host, if_true, HostState.swapWait2.injEq] at hh
          subst hh
          exact ⟨lay, hl, ha, ht⟩
  | swapWait2 l =>
    obtain ⟨lay, hl, ha, ht⟩ := h.mem.copy l e
    simp only []
    rw [withLayer_some _ _ _ _ hl]
    split
    · exact ⟨s, rfl, h⟩
    · have hm := List.mem_of_getElem? hl
      have hB := h.mem.built lay hm
      have hR := h.mem.ready lay hm ha
      obtain ⟨y, h1, h2, h3, h4, h5⟩ := copyContent_spec s.cfg lay.refreshBuffer lay.drawBuffer
        lay.bufferCount lay.content hB.refresh hR.written
      unfold swapCopy
      rw [h1]
      refine ⟨_, rfl, h.poolStep ⟨_, _, rfl⟩ (PoolStep.put hl ?_) ?_ ?_⟩
      · exact
          { count := rfl
            shifts := rfl
            attached := rfl
            next := rfl
            text := h2
            built := fun b => b.withContent rfl rfl rfl rfl (h3 b.palette) (h4 b.memory)
            ready := fun r => ⟨h5, r.size⟩
            fits := copyContent_fits s.cfg _ _ _ _ h1 }
      · intro l' c' hh
        simp at hh
      · intro l' hh
        simp at hh

end Sys2Proof.Machine
end

