-- ==== Sys2Proof/Laws/InvariantHost.lean ====
section
/-! SUPPORT. What the host's commands do to the invariant of Safety.lean. -/

namespace Sys2Proof.Machine

/-! ### BEGIN -/

/-- A state in the middle of BEGIN's filling of the ring (R321), `s` the state it began from. -/
structure Filling (s t : State) : Prop where
  cfg : t.cfg = s.cfg
  ctl : t.ctl = s.ctl
  chain : t.chain = s.chain
  host : t.host = s.host
  out : t.out = s.out
  env : t.env = s.env
  eng : t.eng = s.eng
  begun : t.flags.begun = s.flags.begun
  wake : t.flags.calcWake = s.flags.calcWake
  start : t.ring.start = 0
  count : t.ring.count ≤ s.cfg.capacity
  ready : CalcReady t
  pool : PoolStep s.cfg s.layers t.layers
  table : 1 ≤ t.ring.count → tableReady t.cfg t.tt
  rows : RowOrder t 0
  ttWf : Store.wf t.tt = true
  slotsWf : Memory.wf t.slots = true
  workWf : Store.wf t.work = true
  depth : DepthInv t

theorem Filling.step {s t u : State} (h : Filling s t) (hs : s.eng.schedState = .stopped)
    (hc : CalcStep t u) (hfree : t.ring.count < t.cfg.capacity) : Filling s u := by
  have heng : u.eng = t.eng := by
    rw [hc.eng, if_neg]
    rw [h.eng, hs]
    decide
  exact
    { cfg := hc.cfg.trans h.cfg
      ctl := hc.ctl.trans h.ctl
      chain := hc.chain.trans h.chain
      host := hc.host.trans h.host
      out := hc.out.trans h.out
      env := hc.env.trans h.env
      eng := heng.trans h.eng
      begun := hc.begun.trans h.begun
      wake := hc.wake.trans h.wake
      start := by rw [hc.ring]; exact h.start
      count := by
        rw [hc.ring]
        show t.ring.count + 1 ≤ s.cfg.capacity
        rw [h.cfg] at hfree
        exact hfree
      ready :=
        { valid := by rw [hc.cfg]; exact h.ready.valid
          minRate := by rw [hc.cfg, hc.ctl]; exact h.ready.minRate
          maxRate := by rw [hc.cfg, hc.ctl]; exact h.ready.maxRate
          row := by
            rw [hc.prod, hc.cfg]
            exact Nat.mod_lt _ (Nat.lt_of_lt_of_le Nat.zero_lt_one (Config.valid.scan h.ready.valid).1)
          start := by rw [hc.ring, hc.cfg]; exact h.ready.start
          built := hc.pool.built h.ready.built
          ready := by rw [hc.cfg]; exact hc.pool.ready h.ready.ready
          chain := by
            obtain ⟨ls, hls⟩ := h.ready.chain
            exact ⟨ls, hls.poolStep hc.chain hc.pool⟩
          table := .inl (by rw [hc.cfg]; exact hc.table) }
      pool := by
        have := hc.pool
        rw [h.cfg] at this
        exact h.pool.trans this
      table := fun _ => by rw [hc.cfg]; exact hc.table
      rows := h.rows.calcStep hc hfree
      ttWf := hc.ttWf h.ttWf
      slotsWf := hc.slotsWf h.slotsWf
      workWf := hc.workWf h.workWf
      depth := hc.depth h.depth }

/-- The filling ends with a full ring. -/
theorem fillRing_spec {s : State} (hs : s.eng.schedState = .stopped) (fuel : Nat) (t : State)
    (h : Filling s t) (hf : s.cfg.capacity ≤ t.ring.count + fuel) :
    ∃ u, fillRing fuel t = .next u ∧ Filling s u ∧ u.ring.count = s.cfg.capacity := by
  induction fuel generalizing t with
  | zero =>
    have := h.count
    exact ⟨t, rfl, h, by omega⟩
  | succ fuel ih =>
    simp only [fillRing]
    by_cases hfull : ringIsFull t = true
    · rw [if_pos hfull]
      have e : t.ring.count = t.cfg.capacity := of_decide_eq_true hfull
      rw [h.cfg] at e
      exact ⟨t, rfl, h, e⟩
    · rw [if_neg hfull]
      have hfree : t.ring.count < t.cfg.capacity := by
        have h1 := h.count
        have h2 : t.ring.count ≠ t.cfg.capacity := fun e => hfull (decide_eq_true e)
        rw [h.cfg] at h2 ⊢
        omega
      obtain ⟨u, e, hc⟩ := calcRow_spec t h.ready hfree
      rw [e, andThen_next]
      have hu := h.step hs hc hfree
      refine ih u hu ?_
      rw [hc.ring]
      show s.cfg.capacity ≤ t.ring.count + 1 + fuel
      omega

/-- The filling of the ring by BEGIN, from a state that meets the invariant. -/
theorem Inv.filling {s : State} (h : Inv s) (hb : s.flags.begun = false) :
    ∃ u, fillRing s.cfg.capacity (beginSetup s) = .next u ∧ Filling s u ∧
      u.ring.count = s.cfg.capacity := by
  have hcap := Config.valid.capacity h.regs.valid
  have hstop := h.regs.stopped.mp hb
  obtain ⟨g, hg⟩ := h.rows
  have hg0 := hg.fresh hb
  subst hg0
  refine fillRing_spec hstop _ _ ?_ (Nat.le_add_left _ _)
  exact
    { cfg := rfl, ctl := rfl, chain := rfl, host := rfl, out := rfl, env := rfl, eng := rfl
      begun := rfl, wake := rfl, start := rfl
      count := Nat.zero_le _
      ready :=
        { valid := h.regs.valid
          minRate := h.regs.minRate
          maxRate := h.regs.maxRate
          row := Nat.lt_of_lt_of_le Nat.zero_lt_one (Config.valid.scan h.regs.valid).1
          start := Nat.lt_of_lt_of_le Nat.zero_lt_one hcap.1
          built := h.mem.built
          ready := h.mem.ready
          chain := by
            obtain ⟨ls, hls⟩ := h.mem.chain
            exact ⟨ls, hls.same rfl rfl⟩
          table := .inr ⟨rfl, .inl rfl⟩ }
      pool := PoolStep.refl _ _
      table := fun hc => absurd hc (Nat.not_succ_le_zero 0)
      rows := ⟨fun k hk => absurd hk (Nat.not_lt_zero k), (Nat.zero_mod _).symm, hg.shown, hg.order,
        fun _ => rfl⟩
      ttWf := h.mem.ttWf
      slotsWf := h.mem.slotsWf
      workWf := h.mem.workWf
      depth := h.depth.same rfl rfl rfl }

/-- The end of BEGIN. -/
theorem Filling.finish {s u : State} (h : Inv s) (hb : s.flags.begun = false) (hf : Filling s u)
    (hcount : u.ring.count = s.cfg.capacity) : Inv (beginFinish u) := by
  have hcap := Config.valid.capacity h.regs.valid
  have hstop := h.regs.stopped.mp hb
  have hc1 : 1 ≤ u.ring.count := by omega
  obtain ⟨ls, hls⟩ := hf.ready.chain
  exact
    { regs :=
        { valid := hf.ready.valid
          minRate := hf.ready.minRate
          maxRate := hf.ready.maxRate
          count := by
            show u.ring.count ≤ u.cfg.capacity
            rw [hf.cfg]; exact hf.count
          start := hf.ready.start
          row := hf.ready.row
          slot := hf.ready.start
          stopped := ⟨fun e => (nomatch e), fun e => (nomatch e)⟩
          source := ⟨fun _ => rfl, fun _ => rfl⟩
          shifting := fun _ => ⟨hc1, rfl, Nat.zero_le _⟩
          underrun := fun e => (nomatch e)
          atRest := fun e => (nomatch e)
          running := fun e => (nomatch e)
          wake := fun _ hlt => absurd hlt (by
            show ¬ u.ring.count < u.cfg.capacity
            rw [hf.cfg, hcount]; exact Nat.lt_irrefl _) }
      mem :=
        { pool := by
            show u.layers.length = u.cfg.maxLayers
            rw [hf.pool.length, hf.cfg]; exact h.mem.pool
          built := hf.ready.built
          ready := hf.ready.ready
          chain := ⟨ls, hls.same rfl rfl⟩
          table := fun _ => hf.table hc1
          ttWf := hf.ttWf
          slotsWf := hf.slotsWf
          workWf := hf.workWf
          swap := fun l c hl => by
            have hl' : u.host.hostState = .swapWait1 l c := hl
            rw [hf.host] at hl'
            exact (h.mem.swap l c hl').poolStep hf.pool
          copy := fun l hl => by
            have hl' : u.host.hostState = .swapWait2 l := hl
            rw [hf.host] at hl'
            exact (h.mem.copy l hl').poolStep hf.pool }
      depth := hf.depth.same rfl rfl rfl
      rows := by
        refine ⟨0, hf.rows.queued, hf.rows.next, ?_, hf.rows.order, fun e => (nomatch e)⟩
        have := hf.rows.shown
        rw [beatsOut, hf.eng, hstop, if_neg (by decide)] at this
        exact this
      bench := by
        show u.env.bench = []
        rw [hf.env]; exact h.bench }

/-- BEGIN before the block has begun answers and keeps the invariant; afterwards it breaks the
contract (R321). -/
theorem Inv.begin {s : State} (h : Inv s) (hr : s.host.hostState = .ready) :
    (s.flags.begun = true ∧ execBegin s = .fault (.contractViolation .beginTwice)) ∨
      ∃ t, execBegin s = .next t ∧ Inv t := by
  unfold execBegin
  rw [whenReady_ready s _ hr]
  cases hb : s.flags.begun with
  | true => exact .inl ⟨rfl, rfl⟩
  | false =>
    right
    rw [if_neg (by decide)]
    obtain ⟨u, e, hf, hc⟩ := h.filling hb
    exact ⟨_, by rw [e, andThen_next], hf.finish h hb hc⟩

/-! ### ADDLAYER -/

theorem getLast?_append_singleton (ls : List Nat) (l : Nat) : (ls ++ [l]).getLast? = some l := by simp

theorem maxShifts_append (layers layers' : List Layer) (ls : List Nat) (l : Nat) (lay : Layer)
    (hl : layers'[l]? = some lay)
    (h : ∀ k ∈ ls, (layers'[k]?).map Layer.requestedShifts = (layers[k]?).map Layer.requestedShifts) :
    maxShifts layers' (ls ++ [l]) = max (maxShifts layers ls) lay.requestedShifts.toNat := by
  induction ls with
  | nil => simp [maxShifts, hl]
  | cons a ls ih =>
    have h1 := h a (by simp)
    have h2 := ih fun k hk => h k (by simp [hk])
    simp only [List.cons_append, maxShifts]
    cases e1 : layers'[a]? with
    | none =>
      cases e2 : layers[a]? with
      | none => simp only [h2]
      | some y => rw [e1, e2] at h1; simp at h1
    | some x =>
      cases e2 : layers[a]? with
      | none => rw [e1, e2] at h1; simp at h1
      | some y =>
        rw [e1, e2] at h1
        simp only [Option.map_some, Option.some.injEq] at h1
        simp only [h1, h2]
        omega

/-- What ADDLAYER makes of the pool: layer `l` begun, attached and last; the old last layer linked to it;
every other layer as it was. -/
structure Attached (s t : State) (l : Nat) (lay : Layer) (ls : List Nat) : Prop where
  length : t.layers.length = s.layers.length
  new : t.layers[l]? = some { beginLayer s l lay with attached := true, next := none }
  last : ∀ k x, k ≠ l → ls.getLast? = some k → s.layers[k]? = some x →
    t.layers[k]? = some { x with next := some l }
  others : ∀ k, k ≠ l → ls.getLast? ≠ some k → t.layers[k]? = s.layers[k]?
  chain : t.chain = chainAppend s.chain l lay.requestedShifts
  same : ∃ n, t = { s with layers := t.layers, chain := t.chain, freeCount := n }

/-- ADDLAYER's effect, for an unattached layer before BEGIN (R322). -/
theorem attach_spec (s : State) (l : Nat) (lay : Layer) (ls : List Nat) (hc : ChainOk s ls)
    (hl : s.layers[l]? = some lay) (ha : lay.attached = false) :
    ∃ t, andThen (layerBegin l s) (attachLayer l) = .next t ∧ Attached s t l lay ls := by
  have hlt : l < s.layers.length := (List.getElem?_eq_some_iff.mp hl).1
  have hnot : l ∉ ls := fun hm => by
    obtain ⟨x, h1, h2⟩ := (hc.attached l).mp hm
    rw [hl] at h1; cases h1
    rw [ha] at h2; cases h2
  set s1 : State := (s.putLayer l (beginLayer s l lay)).setFreeCount (s.freeCount + contentUses lay.content)
    with hs1
  have e1 : layerBegin l s = .next s1 := by
    unfold layerBegin; rw [withLayer_some _ _ _ _ hl]
  have hl1 : s1.layers[l]? = some (beginLayer s l lay) := by
    show (s.putLayer l (beginLayer s l lay)).layers[l]? = _
    rw [putLayer_layers, if_pos ⟨rfl, hlt⟩]
  set lay2 : Layer := { beginLayer s l lay with attached := true, next := none } with hlay2
  set s2 : State := s1.putLayer l lay2 with hs2
  have hlen2 : s2.layers.length = s.layers.length := by
    rw [hs2, putLayer_length]
    show (s.putLayer l _).layers.length = _
    rw [putLayer_length]
  have hr2 : ∀ k, s2.layers[k]? = if l = k then some lay2 else s.layers[k]? := by
    intro k
    rw [hs2, putLayer_layers]
    by_cases hk : l = k
    · subst hk
      rw [if_pos ⟨rfl, by
        show l < (s.putLayer l _).layers.length
        rw [putLayer_length]; exact hlt⟩, if_pos rfl]
    · rw [if_neg (fun e => hk e.1), if_neg hk]
      show (s.putLayer l _).layers[k]? = _
      rw [putLayer_layers, if_neg (fun e => hk e.1)]
  have e2 : andThen (layerBegin l s) (attachLayer l)
      = .next ((linkLayer l s2).setChain
          (chainAppend (linkLayer l s2).chain l lay.requestedShifts)) := by
    rw [e1, andThen_next]
    unfold attachLayer
    rw [withLayer_some _ _ _ _ hl1]
    rfl
  refine ⟨_, e2, ?_⟩
  have hch2 : s2.chain = s.chain := rfl
  -- the links
  have hlink : (linkLayer l s2).chain = s.chain ∧
      (∃ n, linkLayer l s2 = { s with layers := (linkLayer l s2).layers, freeCount := n }) ∧
      (linkLayer l s2).layers.length = s.layers.length ∧
      (∀ k, (linkLayer l s2).layers[k]? =
        if ls.getLast? = some k then (s2.layers[k]?).map fun x => { x with next := some l }
        else s2.layers[k]?) := by
    unfold linkLayer
    have ht := hc.tail
    cases hls : ls with
    | nil =>
      rw [hls] at ht
      have hh : s2.chain.head = none := by
        have := hc.linked
        rw [hls] at this
        exact this
      rw [hh]
      simp only []
      exact ⟨rfl, ⟨_, rfl⟩, hlen2, fun k => by simp⟩
    | cons a as =>
      rw [hls] at ht
      have hh : s2.chain.head = some a := by
        have := hc.linked
        rw [hls] at this
        exact this.1
      obtain ⟨t, hlast⟩ : ∃ t, (a :: as).getLast? = some t :=
        ⟨_, List.getLast?_eq_some_getLast (by simp)⟩
      have hct : s2.chain.tail = some t := by rw [hch2, ht, hlast]
      rw [hh, hct, hlast]
      simp only []
      have htl : t ∈ ls := by rw [hls]; exact List.mem_of_getLast? hlast
      obtain ⟨x, hx⟩ := linked_mem _ _ _ hc.linked t htl
      have hne : l ≠ t := fun e => hnot (e ▸ htl)
      have hx2 : s2.layers[t]? = some x := by rw [hr2, if_neg hne]; exact hx
      rw [hx2]
      simp only []
      refine ⟨rfl, ⟨_, rfl⟩, by rw [putLayer_length]; exact hlen2, fun k => ?_⟩
      rw [putLayer_layers]
      by_cases hk : t = k
      · subst hk
        rw [if_pos ⟨rfl, (List.getElem?_eq_some_iff.mp hx2).1⟩, if_pos rfl, hx2, Option.map_some]
      · simp [hk]
  obtain ⟨hch, ⟨n, hsame⟩, hlen, hread⟩ := hlink
  refine ⟨hlen, ?_, ?_, ?_, ?_, n, ?_⟩
  · show (linkLayer l s2).layers[l]? = _
    rw [hread, if_neg, hr2, if_pos rfl]
    intro e
    exact hnot (List.mem_of_getLast? e)
  · intro k x hk hlast hx
    show (linkLayer l s2).layers[k]? = _
    rw [hread, if_pos hlast, hr2, if_neg (fun e => hk e.symm), hx]
    rfl
  · intro k hk hlast
    show (linkLayer l s2).layers[k]? = _
    rw [hread, if_neg hlast, hr2, if_neg (fun e => hk e.symm)]
  · show chainAppend (linkLayer l s2).chain l _ = _
    rw [hch]
  · show (linkLayer l s2).setChain _ = _
    rw [hsame]
    rfl

/-- The chain after ADDLAYER. -/
theorem Attached.chainOk {s t : State} {l : Nat} {lay : Layer} {ls : List Nat} (h : Attached s t l lay ls)
    (hc : ChainOk s ls) (hl : s.layers[l]? = some lay) (ha : lay.attached = false) :
    ChainOk t (ls ++ [l]) := by
  have hnot : l ∉ ls := fun hm => by
    obtain ⟨x, h1, h2⟩ := (hc.attached l).mp hm
    rw [hl] at h1; cases h1
    rw [ha] at h2; cases h2
  have hold : ∀ k, k ≠ l → ∀ x, s.layers[k]? = some x → ∃ m, t.layers[k]? = some m ∧
      m.attached = x.attached ∧ m.requestedShifts = x.requestedShifts := by
    intro k hk x hx
    by_cases hlast : ls.getLast? = some k
    · exact ⟨_, h.last k x hk hlast hx, rfl, rfl⟩
    · exact ⟨x, by rw [h.others k hk hlast]; exact hx, rfl, rfl⟩
  refine ⟨?_, ?_, ?_, ?_, ?_, ?_⟩
  · rw [h.chain]
    cases hls : ls with
    | nil =>
      have hh : s.chain.head = none := by
        have := hc.linked
        rw [hls] at this
        exact this
      rw [show (chainAppend s.chain l lay.requestedShifts).head = some l by simp [chainAppend, hh]]
      exact ⟨rfl, _, h.new, rfl⟩
    | cons a as =>
      have hh : s.chain.head = some a := by
        have := hc.linked
        rw [hls] at this
        exact this.1
      rw [show (chainAppend s.chain l lay.requestedShifts).head = s.chain.head by
        simp [chainAppend, hh]]
      rw [← hls]
      refine linked_append s.layers t.layers l _ ls _ hc.linked (by rw [hls]; simp) hc.once hnot
        h.new rfl ?_ ?_
      · intro k x hk hx
        exact ⟨_, h.last k x (fun e => hnot (e ▸ List.mem_of_getLast? hk)) hk hx, rfl⟩
      · intro k x hk hkl hx
        exact ⟨x, by rw [h.others k (fun e => hnot (e ▸ hk)) hkl]; exact hx, rfl⟩
  · rw [List.nodup_append]
    exact ⟨hc.once, by simp, fun a ha' b hb => by
      rw [List.mem_singleton] at hb; subst hb
      intro e; exact hnot (e ▸ ha')⟩
  · intro k
    rw [List.mem_append, List.mem_singleton, hc.attached k]
    constructor
    · rintro (⟨x, h1, h2⟩ | rfl)
      · by_cases hk : k = l
        · subst hk
          rw [hl] at h1; cases h1
          rw [ha] at h2; cases h2
        · obtain ⟨m, h3, h4, -⟩ := hold k hk x h1
          exact ⟨m, h3, by rw [h4]; exact h2⟩
      · exact ⟨_, h.new, rfl⟩
    · rintro ⟨m, h1, h2⟩
      by_cases hk : k = l
      · exact .inr hk
      · left
        have hlt : k < s.layers.length := by
          rw [← h.length]; exact (List.getElem?_eq_some_iff.mp h1).1
        have hx : s.layers[k]? = some s.layers[k] := List.getElem?_eq_getElem hlt
        obtain ⟨m', h3, h4, -⟩ := hold k hk _ hx
        rw [h1] at h3; cases h3
        exact ⟨_, hx, by rw [← h4]; exact h2⟩
  · rw [h.chain, getLast?_append_singleton]; rfl
  · rw [h.chain, List.length_append, ← hc.count]; rfl
  · rw [h.chain, maxShifts_append s.layers t.layers ls l _ h.new, ← hc.shifts]
    · show (if s.chain.brightnessShifts.toNat < lay.requestedShifts.toNat then lay.requestedShifts
          else s.chain.brightnessShifts).toNat
        = max s.chain.brightnessShifts.toNat lay.requestedShifts.toNat
      split <;> omega
    · intro k hk
      have hkl : k ≠ l := fun e => hnot (e ▸ hk)
      obtain ⟨x, hx⟩ := linked_mem _ _ _ hc.linked k hk
      obtain ⟨m, h1, -, h2⟩ := hold k hkl x hx
      rw [h1, hx]; simp [h2]

/-- ADDLAYER answers for an unattached layer before BEGIN and keeps the invariant. -/
theorem Inv.attach {s : State} (h : Inv s) (l : Nat) (lay : Layer) (hl : s.layers[l]? = some lay)
    (ha : lay.attached = false) (hr : s.host.hostState = .ready) :
    ∃ t, andThen (layerBegin l s) (attachLayer l) = .next t ∧ Inv t := by
  obtain ⟨ls, hc⟩ := h.mem.chain
  obtain ⟨t, e, hA⟩ := attach_spec s l lay ls hc hl ha
  refine ⟨t, e, ?_⟩
  have hB := h.mem.built lay (List.mem_of_getElem? hl)
  have each : ∀ m ∈ t.layers,
      m.Built ∧ (m.attached = true → m.Ready s.cfg) ∧ m.content.Fits s.cfg := by
    intro m hm
    obtain ⟨k, hk⟩ := List.getElem?_of_mem hm
    by_cases hkl : k = l
    · subst hkl
      rw [hA.new] at hk; cases hk
      have b := beginLayer_built s k lay hB
      have r := beginLayer_ready s k lay hB
      exact ⟨b.withContent rfl rfl rfl rfl b.palette b.memory, fun _ => ⟨r.written, r.size⟩,
        beginContent_fits _ _ _ _ _ _ _ (h.depth.layers lay (List.mem_of_getElem? hl))⟩
    · have hlt : k < s.layers.length := by
        rw [← hA.length]; exact (List.getElem?_eq_some_iff.mp hk).1
      have hx : s.layers[k]? = some s.layers[k] := List.getElem?_eq_getElem hlt
      have hmem := List.mem_of_getElem? hx
      have b := h.mem.built _ hmem
      have r := h.mem.ready _ hmem
      have f := h.depth.layers _ hmem
      by_cases hlast : ls.getLast? = some k
      · rw [hA.last k _ hkl hlast hx] at hk; cases hk
        exact ⟨b.withContent rfl rfl rfl rfl b.palette b.memory,
          fun ha' => ⟨(r ha').written, (r ha').size⟩, f⟩
      · rw [hA.others k hkl hlast, hx] at hk; cases hk
        exact ⟨b, r, f⟩
  have hck := hA.chainOk hc hl ha
  have hlen := hA.length
  obtain ⟨n, hsame⟩ := hA.same
  obtain ⟨g, hg⟩ := h.rows
  generalize hly : t.layers = ly at hsame each hlen
  generalize hch : t.chain = ch at hsame
  have hck' : ChainOk { s with layers := ly, chain := ch, freeCount := n } (ls ++ [l]) := by
    rw [← hsame]; exact hck
  rw [hsame]
  exact
    { regs := ⟨h.regs.valid, h.regs.minRate, h.regs.maxRate, h.regs.count, h.regs.start, h.regs.row,
        h.regs.slot, h.regs.stopped, h.regs.source, h.regs.shifting, h.regs.underrun, h.regs.atRest,
        h.regs.running, h.regs.wake⟩
      mem :=
        { pool := hlen.trans h.mem.pool
          built := fun m hm => (each m hm).1
          ready := fun m hm => (each m hm).2.1
          chain := ⟨_, hck'⟩
          table := h.mem.table
          ttWf := h.mem.ttWf
          slotsWf := h.mem.slotsWf
          workWf := h.mem.workWf
          swap := fun k c hk => (nomatch hr.symm.trans hk)
          copy := fun k hk => (nomatch hr.symm.trans hk) }
      depth := ⟨fun m hm => (each m hm).2.2, h.depth.work⟩
      rows := ⟨g, hg.queued, hg.next, hg.shown, hg.order, hg.fresh⟩
      bench := h.bench }

end Sys2Proof.Machine
end

