-- ==== Sys2Proof/Laws/PerInstr.lean ====
section
/-! SUPPORT. The length of every operation's record, one lemma per operation (30_encoding.md R121, R123;
log 4). -/

namespace Sys2Proof.Laws.EncodingLength

/-- How many operand words follow the first word of an operation's record: none for a host command, one
for each argument of a micro-operation (log 4). -/
def argCount (i : Instr) : Nat := if i.isCommand then 0 else i.operands.length

/-- The record of an operation is its command word or tag and its operand words, six words at most. -/
def Statement (i : Instr) : Prop :=
  (encode i).length = 1 + argCount i ∧ argCount i ≤ 5

theorem beginBlock : Statement .beginBlock :=
  ⟨rfl, Nat.le_of_ble_eq_true rfl⟩

theorem addLayer (layer : BitVec 4) : Statement (.addLayer layer) :=
  ⟨rfl, Nat.le_of_ble_eq_true rfl⟩

theorem setBrightness (imm8 : BitVec 8) : Statement (.setBrightness imm8) :=
  ⟨rfl, Nat.le_of_ble_eq_true rfl⟩

theorem setRefreshRate (imm16 : BitVec 16) : Statement (.setRefreshRate imm16) :=
  ⟨rfl, Nat.le_of_ble_eq_true rfl⟩

theorem setRotation (rot : BitVec 2) : Statement (.setRotation rot) :=
  ⟨rfl, Nat.le_of_ble_eq_true rfl⟩

theorem setCcMode (imm8 : BitVec 8) : Statement (.setCcMode imm8) :=
  ⟨rfl, Nat.le_of_ble_eq_true rfl⟩

theorem swapBuffers (copy : BitVec 1) (layer : BitVec 4) : Statement (.swapBuffers copy layer) :=
  ⟨rfl, Nat.le_of_ble_eq_true rfl⟩

theorem getRefreshRate : Statement .getRefreshRate :=
  ⟨rfl, Nat.le_of_ble_eq_true rfl⟩

theorem getUnderrun : Statement .getUnderrun :=
  ⟨rfl, Nat.le_of_ble_eq_true rfl⟩

theorem getLowered : Statement .getLowered :=
  ⟨rfl, Nat.le_of_ble_eq_true rfl⟩

theorem setColor (ch : Channel) (val : BitVec 16) : Statement (.setColor ch val) :=
  ⟨rfl, Nat.le_of_ble_eq_true rfl⟩

theorem setIndex (imm8 : BitVec 8) : Statement (.setIndex imm8) :=
  ⟨rfl, Nat.le_of_ble_eq_true rfl⟩

theorem drawPixel (layer : BitVec 4) (x y : BitVec 10) : Statement (.drawPixel layer x y) :=
  ⟨rfl, Nat.le_of_ble_eq_true rfl⟩

theorem rbInit : Statement .rbInit :=
  ⟨rfl, Nat.le_of_ble_eq_true rfl⟩

theorem rbIsFull : Statement .rbIsFull :=
  ⟨rfl, Nat.le_of_ble_eq_true rfl⟩

theorem rbIsEmpty : Statement .rbIsEmpty :=
  ⟨rfl, Nat.le_of_ble_eq_true rfl⟩

theorem rbNextW : Statement .rbNextW :=
  ⟨rfl, Nat.le_of_ble_eq_true rfl⟩

theorem rbCommitW : Statement .rbCommitW :=
  ⟨rfl, Nat.le_of_ble_eq_true rfl⟩

theorem rbNextR : Statement .rbNextR :=
  ⟨rfl, Nat.le_of_ble_eq_true rfl⟩

theorem rbCommitR : Statement .rbCommitR :=
  ⟨rfl, Nat.le_of_ble_eq_true rfl⟩

theorem ttCalc : Statement .ttCalc :=
  ⟨rfl, Nat.le_of_ble_eq_true rfl⟩

theorem encPlane24 (w : BitVec 8) (i : BitVec 4) : Statement (.encPlane24 w i) :=
  ⟨rfl, Nat.le_of_ble_eq_true rfl⟩

theorem encPlane36 (w : BitVec 8) (i : BitVec 4) : Statement (.encPlane36 w i) :=
  ⟨rfl, Nat.le_of_ble_eq_true rfl⟩

theorem encPlane48 (w : BitVec 8) (i : BitVec 4) : Statement (.encPlane48 w i) :=
  ⟨rfl, Nat.le_of_ble_eq_true rfl⟩

theorem lBegin (l : BitVec 4) : Statement (.lBegin l) :=
  ⟨rfl, Nat.le_of_ble_eq_true rfl⟩

theorem lFrame (l : BitVec 4) : Statement (.lFrame l) :=
  ⟨rfl, Nat.le_of_ble_eq_true rfl⟩

theorem lFillRow (l : BitVec 4) (y g : BitVec 10) (j : BitVec 1) (sh : BitVec 4) : Statement (.lFillRow l y g j sh) :=
  ⟨rfl, Nat.le_of_ble_eq_true rfl⟩

theorem lSetRot (l : BitVec 4) (rot : BitVec 2) : Statement (.lSetRot l rot) :=
  ⟨rfl, Nat.le_of_ble_eq_true rfl⟩

theorem lSetRate (l : BitVec 4) (rate : BitVec 16) : Statement (.lSetRate l rate) :=
  ⟨rfl, Nat.le_of_ble_eq_true rfl⟩

theorem lScrollStep (l : BitVec 4) : Statement (.lScrollStep l) :=
  ⟨rfl, Nat.le_of_ble_eq_true rfl⟩

theorem compSetRot (rot : BitVec 2) : Statement (.compSetRot rot) :=
  ⟨rfl, Nat.le_of_ble_eq_true rfl⟩

theorem compSetRate (rate : BitVec 16) : Statement (.compSetRate rate) :=
  ⟨rfl, Nat.le_of_ble_eq_true rfl⟩

theorem compFrame : Statement .compFrame :=
  ⟨rfl, Nat.le_of_ble_eq_true rfl⟩

theorem compFillRow (y g : BitVec 10) (j : BitVec 1) : Statement (.compFillRow y g j) :=
  ⟨rfl, Nat.le_of_ble_eq_true rfl⟩

theorem engBeat : Statement .engBeat :=
  ⟨rfl, Nat.le_of_ble_eq_true rfl⟩

theorem evComplete : Statement .evComplete :=
  ⟨rfl, Nat.le_of_ble_eq_true rfl⟩

theorem schRecover : Statement .schRecover :=
  ⟨rfl, Nat.le_of_ble_eq_true rfl⟩

theorem schStart : Statement .schStart :=
  ⟨rfl, Nat.le_of_ble_eq_true rfl⟩

theorem schLowerRate : Statement .schLowerRate :=
  ⟨rfl, Nat.le_of_ble_eq_true rfl⟩

theorem pWake : Statement .pWake :=
  ⟨rfl, Nat.le_of_ble_eq_true rfl⟩

theorem pStep : Statement .pStep :=
  ⟨rfl, Nat.le_of_ble_eq_true rfl⟩

theorem calcStep : Statement .calcStep :=
  ⟨rfl, Nat.le_of_ble_eq_true rfl⟩

end Sys2Proof.Laws.EncodingLength
end

