-- ==== Sys2Proof/Laws/Step.lean ====
section
/-! SUPPORT. What one step is, by what is chosen for it. -/

namespace Sys2Proof.Machine

theorem step_perform (s t : State) (i : Instr) (h : choose s = .perform i t) : step s = exec i t := by
  unfold step; rw [h]

theorem step_phase (s t : State) (h : choose s = .phase t) : step s = hostPhase t := by
  unfold step; rw [h]

theorem step_pass (s t : State) (h : choose s = .pass t) : step s = .next t := by
  unfold step; rw [h]

theorem step_illegal (s : State) (w : Word) (h : choose s = .illegal w) :
    step s = .refused (.illegalWord w) := by
  unfold step; rw [h]

/-- With nothing on the bench, the step is the next agent's turn. -/
theorem choose_turn (s : State) (h : s.env.bench = []) :
    choose s = agentTurn (nextAgent s) (takeTurn s) := by
  unfold choose; rw [h]

/-- Taking a turn changes the model's own inputs only, and of them the turns. -/
theorem takeTurn_eq (s : State) :
    ∃ ts n, takeTurn s = s.setEnv { s.env with turns := ts, turnCount := n } := by
  unfold takeTurn
  split
  · exact ⟨_, _, rfl⟩
  · rename_i h
    exact ⟨s.env.turns, _, rfl⟩

/-- The words a command word spells on the port are commands of the instance. -/
theorem decodePort_eq_some (c : Config) (w : Word) (i : Instr) :
    decodePort c w = some i ↔ decodeCommand w = some i ∧ i.wellFormed c = true := by
  unfold decodePort
  cases decodeCommand w with
  | none => simp
  | some k =>
    simp only [Option.some.injEq]
    constructor
    · intro h
      split at h
      · rename_i hw
        cases h; exact ⟨rfl, hw⟩
      · cases h
    · rintro ⟨rfl, h⟩
      rw [if_pos h]

/-- What a command word spells is a host command. -/
theorem decodeCommand_isCommand (w : Word) (i : Instr) (h : decodeCommand w = some i) :
    i.isCommand = true := by
  unfold decodeCommand at h
  split at h <;> (try split at h) <;> (try split at h) <;> first | (cases h; rfl) | cases h

end Sys2Proof.Machine
end

