-- ==== Sys2Proof/Laws/Unwritten.lean ====
section
/-! SUPPORT. What the reads of the memories do where an element has not been written (10_state.md R56). -/

namespace Sys2Proof.Machine

/-! ### Sequences and ranges -/

/-- A sequence stops with fault `e` if one of its operations does wherever `P` holds, and every other one
stops so too or keeps `P`. -/
theorem forEach_faults {α : Type} (P : State → Prop) (f : α → State → Res) (e : Fault) (xs : List α)
    (each : ∀ x ∈ xs, ∀ s, P s → (∃ t, f x s = .next t ∧ P t) ∨ f x s = .fault e) (x : α)
    (hx : x ∈ xs) (stop : ∀ s, P s → f x s = .fault e) (s : State) (h : P s) :
    forEach xs f s = .fault e := by
  induction xs generalizing s with
  | nil => cases hx
  | cons y ys ih =>
    rw [forEach_cons]
    rcases List.mem_cons.mp hx with rfl | hx
    · rw [stop s h, andThen_fault]
    · rcases each y (by simp) s h with ⟨t, h1, h2⟩ | h1
      · rw [h1, andThen_next]
        exact ih (fun z hz => each z (by simp [hz])) hx t h2
      · rw [h1, andThen_fault]

/-- Values of which one is missing are not collected. -/
theorem collect_missing {α : Type} (vs : List (Option α)) (h : none ∈ vs) : collect vs = none := by
  cases e : collect vs with
  | none => rfl
  | some as =>
    rw [(collect_eq_some vs as).mp e] at h
    simp at h

/-- A range with an unwritten element is not read. -/
theorem Store.readRange_missing {α : Type} (m : Store α) (a n i : Nat) (hi : i < n)
    (h : Store.read m (a + i) = none) : Store.readRange m a n = none := by
  cases e : Store.readRange m a n with
  | none => rfl
  | some vs =>
    obtain ⟨hl, hr⟩ := (Store.readRange_eq_some m a n vs).mp e
    have := hr i hi
    rw [h, eq_comm, List.getElem?_eq_none_iff] at this
    omega

/-! ### Layers -/

/-- The cells of a row with an unreadable column are not filled. -/
theorem fillCells_missing (c : Config) (lay : Layer) (y base : Nat) (sh : BitVec 4) (xs : List Nat)
    (work : Store Rgb) (x : Nat) (hx : x ∈ xs) (h : sample c lay y x = .unspecified) :
    fillCells c lay y base sh xs work = none := by
  induction xs generalizing work with
  | nil => cases hx
  | cons z xs ih =>
    unfold fillCells
    rcases List.mem_cons.mp hx with rfl | hx
    · rw [h]
    · split
      · exact ih _ hx
      · exact ih _ hx
      · rfl

/-- L.FILLROW of a row with an unreadable column stops. -/
theorem layerFillRow_missing (l y g j : Nat) (sh : BitVec 4) (s : State) (lay : Layer) (x : Nat)
    (hl : s.layers[l]? = some lay) (hx : x < s.cfg.width)
    (h : sample s.cfg lay y x = .unspecified) :
    layerFillRow l y g j sh s = .fault (.unspecifiedRead .layerBuf) := by
  unfold layerFillRow
  rw [withLayer_some _ _ _ _ hl]
  simp only [fillCells_missing _ _ _ _ _ _ _ x (List.mem_range.mpr hx) h]

/-- L.FILLROW of a layer of the pool writes the working rows or stops at an unreadable column. -/
theorem layerFillRow_outcome (l y g j : Nat) (sh : BitVec 4) (s : State) (lay : Layer)
    (hl : s.layers[l]? = some lay) :
    (∃ w, layerFillRow l y g j sh s = .next (s.setWork w)) ∨
      layerFillRow l y g j sh s = .fault (.unspecifiedRead .layerBuf) := by
  unfold layerFillRow
  rw [withLayer_some _ _ _ _ hl]
  split
  · exact .inl ⟨_, rfl⟩
  · exact .inr rfl

/-- COMP.FILLROW stops if one layer of the chain has an unreadable column in the row. -/
theorem chainFillRow_missing (y g j : Nat) (s : State) (ls : List Nat) (hc : ChainOk s ls) (l : Nat)
    (lay : Layer) (x : Nat) (hm : l ∈ ls) (hl : s.layers[l]? = some lay) (hx : x < s.cfg.width)
    (h : sample s.cfg lay y x = .unspecified) :
    chainFillRow y g j s = .fault (.unspecifiedRead .layerBuf) := by
  unfold chainFillRow
  rw [forChain_eq _ _ ls (by exact hc.chainLayers)]
  refine forEach_faults (fun t => ∃ w, t = s.setWork w) _ _ ls ?_ l hm ?_ _ ⟨_, rfl⟩
  · rintro k hk _ ⟨w, rfl⟩
    obtain ⟨lk, h1, -⟩ := (hc.attached k).mp hk
    rcases layerFillRow_outcome k y g j s.chain.brightnessShifts (s.setWork w) lk h1 with ⟨v, e⟩ | e
    · exact .inl ⟨_, e, v, rfl⟩
    · exact .inr e
  · rintro _ ⟨w, rfl⟩
    exact layerFillRow_missing l y g j _ (s.setWork w) lay x hl hx h

/-- The elements of a buffer have the indices `bufferIndex`. -/
theorem bufferIndex_eq (c : Config) (b y x : Nat) :
    bufferIndex c b y x = b * bufferSize c + canvasIndex c y x := by
  unfold bufferIndex bufferSize canvasIndex
  rw [Nat.add_mul, Nat.mul_assoc, Nat.add_assoc]

/-- A buffer with an unwritten element is not copied. -/
theorem copyContent_missing (c : Config) (src dst y x : Nat) (m : Content) (hy : y < c.height)
    (hx : x < c.width) (h : m.UnwrittenAt (bufferIndex c src y x)) : copyContent c src dst m = none := by
  have hi := canvasIndex_lt c y x hy hx
  rw [bufferIndex_eq] at h
  cases m with
  | scrollingText t => exact h.elim
  | background b =>
    simp [copyContent, copyBuffer, Store.readRange_missing b _ _ _ hi h]
  | indexed n p b =>
    simp [copyContent, copyBuffer, Store.readRange_missing b _ _ _ hi h]
  | monoGfx v b =>
    simp [copyContent, copyBuffer, Store.readRange_missing b _ _ _ hi h]

/-! ### The encoder -/

/-- Every index of the working rows is read at some chain position. -/
theorem workIndex_of_lt (c : Config) (k : Nat) (hk : k < 2 * c.stack * c.width) :
    ∃ pos j, pos < c.chainLen ∧ j < 2 ∧
      workIndex c (pos / c.width) j + columnOf c pos = k := by
  have hw : 0 < c.width := Nat.pos_of_ne_zero fun e => by rw [e] at hk; omega
  have hq : k / c.width < 2 * c.stack := (Nat.div_lt_iff_lt_mul hw).mpr hk
  have hm := Nat.mod_lt k hw
  have hdm := Nat.div_add_mod k c.width
  set q := k / c.width with hqd
  set x := k % c.width with hxd
  -- the segment, and the place in the segment that carries column `x`
  set u := if c.reversed (q / 2) then c.width - 1 - x else x with hu
  have hul : u < c.width := by rw [hu]; split <;> omega
  have hpos : (u + c.width * (q / 2)) / c.width = q / 2 := by
    rw [Nat.add_mul_div_left _ _ hw, Nat.div_eq_of_lt hul, Nat.zero_add]
  have hmod : (u + c.width * (q / 2)) % c.width = u := by
    rw [Nat.add_mul_mod_self_left, Nat.mod_eq_of_lt hul]
  refine ⟨u + c.width * (q / 2), q % 2, ?_, Nat.mod_lt _ (by omega), ?_⟩
  · have := Nat.mul_le_mul_left c.width (show q / 2 + 1 ≤ c.stack by omega)
    rw [Nat.mul_add] at this
    unfold Config.chainLen
    omega
  · unfold columnOf workIndex
    rw [hpos, hmod]
    have h2 : 2 * (q / 2) + q % 2 = q := Nat.div_add_mod q 2
    have h3 : (if c.reversed (q / 2) then c.width - 1 - u else u) = x := by
      rw [hu]; split <;> omega
    rw [h2, h3, Nat.mul_comm]
    exact hdm

/-- Working rows with an unwritten sample are not encoded. -/
theorem planeWords_missing (c : Config) (work : Store Rgb) (i k : Nat)
    (hk : k < 2 * c.stack * c.width) (h : Store.read work k = none) : planeWords c work i = none := by
  obtain ⟨pos, j, hp, hj, e⟩ := workIndex_of_lt c k hk
  have hd : dataWord c work i pos = none := by
    unfold dataWord
    obtain rfl | rfl : j = 0 ∨ j = 1 := by omega
    · rw [e, h]
    · rw [e, h]
      split
      · rename_i h2; cases h2
      · rfl
  unfold planeWords
  rw [collect_missing _ (List.mem_map.mpr ⟨pos, List.mem_range.mpr hp, hd⟩)]

/-- `EncodePlane` stops at an unwritten sample. -/
theorem encodePlane_missing (w i k : Nat) (s : State) (hk : k < 2 * s.cfg.stack * s.cfg.width)
    (h : Store.read s.work k = none) : encodePlane w i s = .fault (.unspecifiedRead .work) := by
  unfold encodePlane
  rw [planeWords_missing s.cfg s.work i k hk h]

/-! ### The slot in flight -/

/-- No data beat is made of a slot of which a part is unwritten. -/
theorem dataBeat_missing (c : Config) (m : Memory) (w i : Nat)
    (h : slotRowAddress c m w = none ∨ slotTiming c m w i = none ∨
      ∃ q, q < c.wordsPerPlane ∧ slotWord c m w i q = none) : dataBeat c m w i = none := by
  have hp : (∃ q, q < c.wordsPerPlane ∧ slotWord c m w i q = none) → slotPlane c m w i = none := by
    rintro ⟨q, hq, e⟩
    exact collect_missing _ (List.mem_map.mpr ⟨q, List.mem_range.mpr hq, e⟩)
  unfold dataBeat
  rcases h with h | h | h
  · rw [h]
  · rw [h]; split <;> simp_all
  · rw [hp h]; split <;> simp_all

/-! ### The timing table -/

/-- The fill of a slot stops at the first entry of the timing table that is not written (R304). -/
theorem fillSlot_missing (w r i : Nat) (s : State) (hv : s.cfg.valid = true) (hi : i < s.cfg.depth)
    (ht : Store.read s.tt i = none)
    (hw : ∀ k, k < s.cfg.depth → ∃ ws, planeWords s.cfg s.work k = some ws) :
    fillSlot w r s = .fault (.unspecifiedRead .timing) := by
  have stop : ∀ k t, (∃ m, t = s.setSlots m) → Store.read s.tt k = none →
      fillPlane w k t = .fault (.unspecifiedRead .timing) := by
    rintro k _ ⟨m, rfl⟩ hk
    unfold fillPlane
    rw [show (s.setSlots m).tt = s.tt from rfl, hk]
  refine forEach_faults (fun t => ∃ m, t = s.setSlots m) _ _ _ ?_ i (List.mem_range.mpr hi)
    (fun t h => stop i t h ht) _ ⟨_, rfl⟩
  rintro k hk t ⟨m, rfl⟩
  cases e : Store.read s.tt k with
  | none => exact .inr (stop k _ ⟨m, rfl⟩ e)
  | some p =>
    obtain ⟨ws, hws⟩ := hw k (List.mem_range.mp hk)
    exact .inl ⟨_, fillPlane_eq w k (s.setSlots m) p ws hv e hws, _, rfl⟩

/-- The frame-start work of a calculation that does not recompute the timing table (R301, R302): the layers and
the flags are written only. -/
theorem frameEntered_quiet (s : State) (ls : List Nat) (hc : ChainOk s ls)
    (h : s.prod.rowIndex ≠ 0 ∨
      (s.flags.brightnessChanged = false ∧ s.flags.refreshRateChanged = false)) :
    ∃ fl l k, frameEntered s = .next { s with flags := fl, layers := l, freeCount := k } ∧
      PoolStep s.cfg s.layers l := by
  unfold frameEntered
  split
  · rename_i h0
    rcases h with h | ⟨h1, h2⟩
    · exact absurd h0 h
    · obtain ⟨l, k, e, hp⟩ := frameStart_eq_refreshTiming s ls hc
      refine ⟨{ s.flags with rotationChanged := false }, l, k, ?_, hp⟩
      rw [e]
      unfold refreshTiming
      rw [if_neg (by simp [h1, h2])]
  · exact ⟨s.flags, s.layers, s.freeCount, rfl, PoolStep.refl _ _⟩

/-! ### The linear image -/

/-- No number is read from bytes of which one is unwritten. -/
theorem Memory.readLE_missing (m : Memory) (a n i : Nat) (hi : i < n)
    (h : Store.read m (a + i) = none) : Memory.readLE m a n = none := by
  unfold Memory.readLE
  rw [Store.readRange_missing m a n i hi h]

end Sys2Proof.Machine
end

