-- ==== Sys2Proof/Machine/Pseudo.lean ====
section
/-! DEFINITION. The pseudo-operations of 30_encoding.md R129 that expand to steps of the producer. (`SETRGB`
and `SWAP` expand to commands and stand in Syntax.lean.) -/

namespace Sys2Proof.Machine

/-- `isRowBufferFree` = not RB.ISFULL. -/
def isRowBufferFree (s : State) : Bool := !ringIsFull s

/-- `ENC.ROW(w)`: the instance's encoder variant for `i = 0, 1, ..., N-1` in that order (R129, R202). -/
def encodeRow (w : Nat) (s : State) : Res :=
  forEach (List.range s.cfg.depth) (encPlaneOfDepth w) s

/-- P.STEP until `calcState = IDLE`, at most `fuel` steps. -/
def stepUntilIdle (fuel : Nat) (s : State) : Res :=
  match fuel with
  | 0 => .next s
  | fuel + 1 =>
    if s.prod.calcState = .idle then .next s else andThen (execPStep s) (stepUntilIdle fuel)

/-- `CALC.RUN` = P.WAKE followed by P.STEP until `calcState = IDLE`. With no other agent stepping, a ring
with `C` slots is full after at most `C` rows and the next P.STEP yields. -/
def calcRun (s : State) : Res := andThen (execPWake s) (stepUntilIdle (s.cfg.capacity + 1))

/-- The general-purpose `write`: RB.NEXTW, fill the slot, RB.COMMITW. -/
def ringWrite (fill : Nat → State → Res) (s : State) : Res :=
  andThen (fill (ringNextW s) s) fun s => .next (ringCommitW s)

/-- The general-purpose `read`: RB.NEXTR, use the slot, RB.COMMITR. -/
def ringRead (use : Nat → State → Res) (s : State) : Res :=
  andThen (use (ringNextR s) s) ringCommitR

end Sys2Proof.Machine
end

