-- ==== Sys2Proof/Tests/Slice0.lean ====
section
/-! SUPPORT. Tests with expected values from spec/30_encoding.md, spec/95_test_vectors.md and the rules'
examples (each test names its source), and for every statement a concrete state and operands that meet its
hypotheses. -/

open Sys2Proof Sys2Proof.Machine

namespace Sys2Proof.Tests

/- One theorem after another: the kernel's evaluations side by side take too much memory. -/
set_option Elab.async false

/-! ### Encoding -/

/-- R122, R125: `op` in bits 31..24, the operand field below it, written bit by bit. -/
theorem test_decode_words :
    decodeTableWord 32 0b00000001_000000000000000000000000 = some .beginBlock ∧
    decodeTableWord 32 0b00000010_00000000000000000000_0101 = some (.addLayer 5) ∧
    decodeTableWord 32 0b00000011_0000000000000000_10000001 = some (.setBrightness 129) ∧
    decodeTableWord 32 0b00000100_00000000_1000000000000001 = some (.setRefreshRate 32769) ∧
    decodeTableWord 32 0b00000101_0000000000000000000000_10 = some (.setRotation 2) ∧
    decodeTableWord 32 0b00000111_000000000000000_1_0000_0010 = some (.swapBuffers 1 2) ∧
    decodeTableWord 32 0b00001011_000000_01_1000000000000001 = some (.setColor .green 32769) ∧
    decodeTableWord 32 0b00001101_0010_1000000001_0000000011 = some (.drawPixel 2 513 3) := by
  decide +kernel

/-- R123, R126: one tag of each family of micro-operations, operand words zero. -/
theorem test_decode_tags :
    decodeTableWord 32 0b00010100_000000000000000000000000 = some .rbCommitW ∧
    decodeTableWord 32 0b00100000_000000000000000000000000 = some .ttCalc ∧
    decodeTableWord 32 0b00110001_000000000000000000000000 = some (.encPlane36 0 0) ∧
    decodeTableWord 32 0b01000101_000000000000000000000000 = some (.lScrollStep 0) ∧
    decodeTableWord 32 0b01001011_000000000000000000000000 = some (.compFillRow 0 0 0) ∧
    decodeTableWord 32 0b01010001_000000000000000000000000 = some .evComplete ∧
    decodeTableWord 32 0b01100010_000000000000000000000000 = some .calcStep ∧
    decodeTableWord 32 0b01000110_000000000000000000000000 = none := by
  decide +kernel

/-- The opcode table's words, one a row in its order, decode to its mnemonics. -/
theorem test_decode_table :
    ([0x01, 0x02, 0x03, 0x04, 0x05, 0x06, 0x07, 0x08, 0x09, 0x0A, 0x0B, 0x0C, 0x0D].map fun op =>
      (decodeTableWord 32 (op * 2 ^ 24)).map Instr.mnemonic) =
      ["BEGIN", "ADDLAYER", "SETBRIGHTNESS", "SETREFRESHRATE", "SETROTATION", "SETCCMODE",
        "SWAPBUFFERS", "GETREFRESHRATE", "GETUNDERRUN", "GETLOWERED", "SETCOLOR", "SETINDEX",
        "DRAWPIXEL"].map some ∧
    ∀ p ∈ microIds, (decodeTableWord 32 (p.2 * 2 ^ 24)).map Instr.mnemonic = some p.1 := by
  decide +kernel

/-- R127, V73: refused words. -/
theorem test_illegal_words :
    ([0x00000000, 0x01000001, 0x0B030000, 0x14000000, 0x0E000000, 0x02000003].map
      (decodePort Config.rcA)) = [none, none, none, none, none, none] := by
  decide +kernel

/-- The arguments of a micro-operation's record (log 4); an argument too wide for its range spells none. -/
theorem test_decode_records :
    decode [0x42000000, 2, 3, 0, 1, 4] = some (.lFillRow 2 3 0 1 4, []) ∧
    decode [0x30000000, 1, 16] = none := by
  decide +kernel

/-- R128: the textual form. -/
theorem test_text :
    (Instr.swapBuffers 1 0).text = "SWAPBUFFERS 1, 0" ∧
    (Instr.encPlane24 0 3).text = "ENC.PLANE24(0, 3)" ∧ Instr.beginBlock.text = "BEGIN" := by
  decide +kernel

/-- R129: SETRGB and SWAP. -/
theorem test_pseudo :
    (pseudoSetRgb 1 2 3).map Instr.text = ["SETCOLOR 0, 1", "SETCOLOR 1, 2", "SETCOLOR 2, 3"] ∧
    (pseudoSwap 2).map Instr.text = ["SWAPBUFFERS 1, 2"] := by
  decide +kernel

/-! ### Well-formedness: an ill-formed term for each check -/

/-- R124: `layer < MaxLayers`, here 3. -/
theorem test_wellFormed_layer :
    Instr.wellFormed Config.rcA (.addLayer 2) = true ∧
    Instr.wellFormed Config.rcA (.addLayer 3) = false ∧
    Instr.wellFormed Config.rcA (.drawPixel 3 0 0) = false := by decide

/-- R197 to R199: the depth, `w < C` and `i < N`. -/
theorem test_wellFormed_plane :
    Instr.wellFormed Config.rcA (.encPlane24 1 7) = true ∧
    Instr.wellFormed Config.rcA (.encPlane36 1 7) = false ∧
    Instr.wellFormed Config.rcA (.encPlane24 2 7) = false ∧
    Instr.wellFormed Config.rcA (.encPlane24 1 8) = false := by decide

/-- R223, R243: `y < Hd` and `g < S`. -/
theorem test_wellFormed_row :
    Instr.wellFormed Config.rcA (.compFillRow 3 0 1) = true ∧
    Instr.wellFormed Config.rcA (.compFillRow 4 0 1) = false ∧
    Instr.wellFormed Config.rcA (.lFillRow 0 3 1 0 0) = false := by decide

/-- R238: `rate >= 1`. -/
theorem test_wellFormed_rate :
    Instr.wellFormed Config.rcA (.lSetRate 0 1) = true ∧
    Instr.wellFormed Config.rcA (.lSetRate 0 0) = false := by decide

/-- R18: RC-A is an instance; with a broken constraint nothing is constructed. -/
theorem test_construct :
    Config.rcA.validInstance Config.rcALayers = true ∧
    Config.validInstance { Config.rcA with depth := 9 } Config.rcALayers = false ∧
    Config.validInstance { Config.rcA with maxLayers := 2 } Config.rcALayers = false := by decide

/-! ### States for the tests -/

/-- The next state of an outcome. -/
def nextOf (d : State) (r : Res) : State :=
  match r with
  | .next t => t
  | _ => d

/-- The outcome is a next state. -/
def answers (r : Res) : Bool :=
  match r with
  | .next _ => true
  | _ => false

/-- The outcome is this fault. -/
def faultsWith (e : Fault) (r : Res) : Bool :=
  match r with
  | .fault x => decide (x = e)
  | _ => false

/-- The state with the turn of agent `a` next. -/
def turn (a : Agent) (s : State) : State := s.setEnv { s.env with turns := [a] }

/-- RC-A after reset, the host's turn next. -/
def start : State := turn .host State.reset

/-- After `ADDLAYER 0`. -/
def attached : State := nextOf start (exec (.addLayer 0) start)

/-- After `BEGIN`. -/
def running : State := nextOf attached (exec .beginBlock attached)

/-- The state with this ring. -/
def ringAt (start count : Nat) (s : State) : State := s.setRing { start := start, count := count }

/-- The state with this scheduler state and beat. -/
def engineAt (st : SchedState) (src : TimingSource) (beat : Nat) (s : State) : State :=
  s.setEng { s.eng with schedState := st, timingSource := src, beatIndex := beat }

/-- The state with calculation task state `c`. -/
def taskAt (c : CalcState) (s : State) : State := s.setProd { s.prod with calcState := c }

/-- A text layer, its position at its right bound (V46). -/
def textEntry : LayerEntry :=
  ⟨.scrollingText ⟨0, 255, 0⟩
    { mode := .bounceForward, position := 3, scrollMin := 0, scrollMax := 3, leftOffset := 1,
      scrollCounter := 3, pixelsPerSecond := 30 }, 2, 0⟩

/-- An instance with a background, a mono and a text layer. -/
def textState : State :=
  turn .host (State.resetOf Config.rcA [⟨.background, 2, 0⟩, ⟨.monoGfx ⟨0, 255, 0⟩, 3, 1⟩, textEntry])

/-! ### One step each, values of spec/95_test_vectors.md -/

/-- R151: "from `(start, count) = (3, 2)` the result is `(0, 0)`". -/
theorem test_rbInit : (nextOf start (exec .rbInit (ringAt 3 2 start))).ring = ⟨0, 0⟩ := by decide

/-- RC-A with a ring of four slots. -/
def four (a b : Nat) : State := ringAt a b { start with cfg := { Config.rcA with capacity := 4 } }

/-- The examples of R152 to R158, V2 and V3, with `C = 4`. -/
theorem test_ring :
    (nextOf start (exec .rbIsFull (four 3 4))).returned = .flag true ∧
    (nextOf start (exec .rbIsFull (four 3 3))).returned = .flag false ∧
    (nextOf start (exec .rbIsEmpty (four 3 0))).returned = .flag true ∧
    (nextOf start (exec .rbNextW (four 3 2))).returned = .index 1 ∧
    (nextOf start (exec .rbNextR (four 3 2))).returned = .index 3 ∧
    (nextOf start (exec .rbCommitW (four 3 2))).ring = ⟨3, 3⟩ ∧
    (nextOf start (exec .rbCommitW (four 3 4))).ring = ⟨0, 4⟩ ∧
    (nextOf start (exec .rbCommitR (four 3 2))).ring = ⟨0, 1⟩ ∧
    faultsWith .ringReadEmpty (exec .rbCommitR (four 3 0)) = true := by decide

/-- A table with these periods and on-times. -/
def tableOf (p o : List Nat) : Store TimingPair :=
  Store.segment 0 ((p.zip o).map fun x => ⟨BitVec.ofNat 16 x.1, BitVec.ofNat 16 x.2⟩)

/-- V11: rate 100, brightness 128. -/
theorem test_ttCalc :
    (nextOf start (exec .ttCalc (start.setCtl { start.ctl with brightness := 128 }))).tt =
      tableOf [16, 16, 16, 21, 39, 74, 145, 286] [15, 14, 12, 12, 21, 39, 74, 145] := by
  decide +kernel

/-- V21: rate 489 cannot be met. -/
theorem test_ttCalc_infeasible :
    faultsWith (.timingInfeasible 489)
      (exec .ttCalc (start.setCtl { start.ctl with refreshRate := 489 })) = true := by
  decide +kernel

/-- The working rows of V30. -/
def rows30 : Store Rgb := Store.segment 0
  [⟨255, 0, 0⟩, ⟨0, 255, 0⟩, ⟨0, 0, 255⟩, ⟨0x80, 1, 0⟩,
   ⟨0, 0, 0⟩, ⟨255, 255, 255⟩, ⟨1, 2, 4⟩, ⟨0, 0, 255⟩]

/-- V30, planes 0 and 7. -/
theorem test_encPlane24 :
    slotPlane Config.rcA (nextOf start (exec (.encPlane24 1 0) (start.setWork rows30))).slots 1 0 =
      some [0x01, 0x41, 0x3A, 0x7A, 0x0C, 0x4C, 0x22, 0x62] ∧
    slotPlane Config.rcA (nextOf start (exec (.encPlane24 1 7) (start.setWork rows30))).slots 1 7 =
      some [0x01, 0x41, 0x3A, 0x7A, 0x04, 0x44, 0x21, 0x61] := by
  decide +kernel

/-- An instance one pixel wide without clock doubling, of depth `n`, with this pair of samples. -/
def pairState (n : Nat) (upper lower : Rgb) : State :=
  { start with
    cfg := { Config.rcA with depth := n, width := 1, clockDoubling := false }
    work := Store.segment 0 [upper, lower] }

/-- V33, `N = 12`. -/
theorem test_encPlane36 :
    ([11, 0, 5].map fun i =>
      slotWord (pairState 12 ⟨0x800, 0, 0⟩ ⟨0xFFF, 0, 1⟩).cfg
        (nextOf start (exec (.encPlane36 0 (BitVec.ofNat 4 i))
          (pairState 12 ⟨0x800, 0, 0⟩ ⟨0xFFF, 0, 1⟩))).slots 0 i 0) =
      [some 0x09, some 0x28, some 0x08] := by
  decide +kernel

/-- V33, `N = 16`. -/
theorem test_encPlane48 :
    ([15, 14].map fun i =>
      slotWord (pairState 16 ⟨0x8000, 0x8000, 0x8000⟩ ⟨0, 0, 0⟩).cfg
        (nextOf start (exec (.encPlane48 0 (BitVec.ofNat 4 i))
          (pairState 16 ⟨0x8000, 0x8000, 0x8000⟩ ⟨0, 0, 0⟩))).slots 0 i 0) =
      [some 0x07, some 0] := by
  decide +kernel

/-- R231: "a background layer after L.BEGIN samples `some((0,0,0))` everywhere". -/
theorem test_lBegin :
    ((nextOf start (exec (.lBegin 0) start)).layers[0]?.map fun l => sample Config.rcA l 3 3) =
      some (.colour ⟨0, 0, 0⟩) := by
  decide +kernel

/-- V45: the exchanges of two and of three buffers. -/
theorem test_lFrame :
    ((nextOf start (exec (.lFrame 0) (start.putLayer 0
        { Layer.reset ⟨.background, 2, 0⟩ with swapPending := true }))).layers[0]?.map fun l =>
      (l.drawBuffer, l.refreshBuffer, l.swapPending)) = some (0, 1, false) ∧
    ((nextOf start (exec (.lFrame 0) (start.putLayer 0
        { Layer.reset ⟨.background, 3, 0⟩ with swapPending := true }))).layers[0]?.map fun l =>
      (l.previousBuffer, l.refreshBuffer, l.drawBuffer)) = some (0, 1, 2) := by
  decide +kernel

/-- V43: a shift of 1 writes `(255, 128, 1)` as `(127, 64, 0)`. -/
theorem test_lFillRow :
    Store.read (nextOf start (exec (.lFillRow 0 0 0 1 1) (start.putLayer 0
        { Layer.reset ⟨.background, 2, 0⟩ with
          content := .background (Store.segment 0 (List.replicate 16 ⟨255, 128, 1⟩)) }))).work 7 =
      some ⟨127, 64, 0⟩ := by
  decide +kernel

/-- R237, for a display 4 wide and 2 high (V44). -/
theorem test_lSetRot :
    ((nextOf start (exec (.lSetRot 0 1)
        { start with cfg := { Config.rcA with height := 2 } })).layers[0]?.map fun l =>
      (l.rotation, l.localWidth, l.localHeight)) = some (1, 2, 4) := by
  decide +kernel

/-- V48: rates 100 and 20 at 30 pixels a second. -/
theorem test_lSetRate :
    ([100, 20].map fun r =>
      (nextOf start (exec (.lSetRate 2 r) textState)).layers[2]?.map fun l =>
        match l.content with
        | .scrollingText t => t.framesPerScroll
        | _ => 0) = [some 3, some 1] := by
  decide +kernel

/-- The view of the text layer of V46 after `n` steps. -/
def textView (n : Nat) : Option ScrollView :=
  (nextOf start (performTimes n (.lScrollStep 2) textState)).layers[2]?.bind fun l =>
    match l.content with
    | .scrollingText t => some t.view
    | _ => none

/-- V46, its first steps. -/
theorem test_lScrollStep :
    textView 1 = some ⟨.bounceForward, 2, 3, 0⟩ ∧ textView 3 = some ⟨.bounceReverse, 0, 2, 0⟩ := by
  decide +kernel

/-- R240, R241: the attached layer, and no other, gets rotation and rate. -/
theorem test_comp_set :
    ((nextOf start (exec (.compSetRot 3) attached)).layers.map fun l => l.rotation) = [3, 0, 0] ∧
    ((nextOf start (exec (.compSetRate 99) attached)).layers.map fun l => l.refreshRate) =
      [99, 0, 0] := by
  decide +kernel

/-- R242: a pending swap of the attached layer is carried out. -/
theorem test_compFrame :
    ((nextOf start (exec .compFrame { attached with
      layers := attached.layers.map fun l => { l with swapPending := true } })).layers.map fun l =>
        (l.refreshBuffer, l.swapPending)) = [(1, false), (0, true), (0, true)] := by
  decide +kernel

/-- V42: with no layer the row is black. -/
theorem test_compFillRow :
    (nextOf start (exec (.compFillRow 0 0 0) start)).work =
      Store.segment 0 (List.replicate 4 ⟨0, 0, 0⟩) := by
  decide +kernel

/-- V52: the idle beat. -/
theorem test_engBeat_idle :
    (nextOf start (exec .engBeat (engineAt .underrun .idle 0 running))).out.trace =
      [{ kind := .idle, rowAddress := none, plane := none, period := 16, onTime := 0, oe := false,
         words := [] }] := by
  decide +kernel

/-- R273: the first data beat after BEGIN, of a black row. -/
theorem test_engBeat_data :
    (nextOf start (exec .engBeat running)).out.trace =
      [{ kind := .data, rowAddress := some 0, plane := some 0, period := 16, onTime := 16,
         oe := true, words := [0, 0x40, 0, 0x40, 0, 0x40, 0, 0x40] }] := by
  decide +kernel

/-- V50: normal advance. -/
theorem test_evComplete :
    (fun t : State => (t.ring, t.eng, t.flags.calcWake, t.flags.underrun))
      (nextOf start (exec .evComplete (engineAt .shifting .slot 8 running))) =
      (⟨1, 1⟩, ⟨.shifting, .slot, 1, 0⟩, true, false) := by
  decide +kernel

/-- V51: into underrun. -/
theorem test_evComplete_underrun :
    (fun t : State => (t.ring, t.eng.schedState, t.eng.timingSource, t.flags.underrun,
        t.ctl.refreshRate, t.flags.rateLowered))
      (nextOf start (exec .evComplete (ringAt 1 1 (engineAt .shifting .slot 8 running)))) =
      (⟨0, 0⟩, .underrun, .idle, true, 99, true) := by
  decide +kernel

/-- V53, R280: recovery and start point at the head. -/
theorem test_recover_start :
    (nextOf start (exec .schRecover (ringAt 1 1 (engineAt .underrun .idle 1 running)))).eng =
      ⟨.shifting, .slot, 1, 0⟩ ∧
    (nextOf start (exec .schStart (ringAt 0 2 start))).eng = ⟨.shifting, .slot, 0, 0⟩ := by
  decide +kernel

/-- V54: `RateStep = 5`, rate 31, floor 29. -/
theorem test_schLowerRate :
    (nextOf start (exec .schLowerRate
      { start with
        cfg := { Config.rcA with tickRate := 60000000, scanRows := 16, pulseWidth := 24, rateStep := 5 }
        ctl := { start.ctl with refreshRate := 31 } })).ctl.refreshRate = 29 := by
  decide +kernel

/-- R307: the wake is taken. -/
theorem test_pWake :
    (fun t : State => (t.flags.calcWake, t.prod.calcState))
      (nextOf start (exec .pWake (running.setFlags { running.flags with calcWake := true }))) =
      (false, .running) := by
  decide +kernel

/-- V60: a full ring makes the producer yield. -/
theorem test_pStep :
    (nextOf start (exec .pStep (taskAt .running running))).prod.calcState = .idle := by
  decide +kernel

/-- V61: a row that is no frame start. -/
theorem test_calcStep :
    (fun t : State => (t.ring, t.prod.rowIndex, slotRowAddress t.cfg t.slots 1))
      (nextOf start (exec .calcStep (ringAt 0 1 (running.setProd { running.prod with rowIndex := 1 })))) =
      (⟨0, 2⟩, 0, some 1) := by
  decide +kernel

/-- R321: the state after BEGIN. -/
theorem test_beginBlock :
    running.ring = ⟨0, 2⟩ ∧ running.prod.rowIndex = 0 ∧ running.eng = ⟨.shifting, .slot, 0, 0⟩ ∧
      running.flags.begun = true ∧
      running.tt = tableOf [16, 16, 16, 21, 39, 74, 145, 286] [16, 16, 16, 21, 39, 74, 145, 286] := by
  decide +kernel

/-- R322: `ADDLAYER 1` then `ADDLAYER 0` gives the chain 1, 0. -/
theorem test_addLayer :
    chainLayers (nextOf start (exec (.addLayer 0) (nextOf start (exec (.addLayer 1) start)))) =
      some [1, 0] := by
  decide +kernel

/-- V71: rates 0, 488 and 489. -/
theorem test_setRefreshRate :
    (nextOf start (exec (.setRefreshRate 0) start)).ctl.refreshRate = 1 ∧
    (nextOf start (exec (.setRefreshRate 488) start)).ctl.refreshRate = 488 ∧
    faultsWith (.contractViolation .rateTooHigh) (exec (.setRefreshRate 489) start) = true := by
  decide +kernel

/-- R323, R325, R326, R331, R333: the controls, through the command port. -/
theorem test_controls :
    (nextOf start (step (start.withFetchWord 32 0x03000080))).ctl.brightness = 128 ∧
    (nextOf start (step (start.withFetchWord 32 0x05000003))).flags.rotationChanged = true ∧
    (nextOf start (step (start.withFetchWord 32 0x06000001))).ctl.ccMode = 1 ∧
    (nextOf start (step (start.withFetchWord 32 0x0B020FFF))).host.drawColor = ⟨0, 0, 4095⟩ ∧
    (nextOf start (step (start.withFetchWord 32 0x0C000001))).host.drawIndex = 1 := by
  decide +kernel

/-- R327 to R329: the responses and the flags. -/
theorem test_gets :
    (nextOf start (exec .getRefreshRate start)).out.responses = [0x64] ∧
    (fun t : State => (t.out.responses, t.flags.underrun))
      (nextOf start (exec .getUnderrun start.raiseUnderrun)) = ([1], false) ∧
    (fun t : State => (t.out.responses, t.flags.rateLowered))
      (nextOf start (exec .getLowered start.raiseRateLowered)) = ([1], false) := by
  decide +kernel

/-- R330: phase 0 and phase 1, the latter in a turn of the host. -/
theorem test_swapBuffers :
    (nextOf start (exec (.swapBuffers 1 0) attached)).host.hostState = .swapWait1 0 true ∧
    (fun t : State => (t.host.hostState, t.layers.map (·.swapPending)))
      (nextOf start (step (turn .host (nextOf start (exec (.swapBuffers 1 0) attached))))) =
      (.swapWait2 0, [true, false, false]) := by
  decide +kernel

/-- R332: with rotation 1, `DRAWPIXEL 0, 3, 1` writes element `[3][2]` of the draw buffer. -/
theorem test_drawPixel :
    ((nextOf start (exec (.drawPixel 0 3 1) ((nextOf start (exec (.lSetRot 0 1) attached)).setHost
        { start.host with drawColor := ⟨0x1FF, 2, 3⟩ }))).layers[0]?.map fun l =>
      match l.content with
      | .background m => Store.read m (16 + 3 * 4 + 2)
      | _ => none) = some (some ⟨255, 2, 3⟩) := by
  decide +kernel

/-- V72: broken contracts. -/
theorem test_contracts :
    faultsWith (.contractViolation .beginTwice) (exec .beginBlock running) = true ∧
    faultsWith (.contractViolation .addAfterBegin) (exec (.addLayer 0) running) = true ∧
    faultsWith (.contractViolation .addTwice) (exec (.addLayer 0) attached) = true ∧
    faultsWith (.contractViolation .badLayer) (exec (.drawPixel 1 0 0) attached) = true := by
  decide +kernel

/-! ### States that meet the invariant -/

/-- No layer is attached at the start. -/
theorem start_chain : ChainOk start [] where
  linked := rfl
  once := List.nodup_nil
  attached := fun l => by
    constructor
    · exact fun h => absurd h List.not_mem_nil
    · rintro ⟨lay, h1, h2⟩
      have hm : ∀ x ∈ start.layers, x.attached = false := by decide
      rw [hm lay (List.mem_of_getElem? h1)] at h2
      cases h2
  tail := rfl
  count := rfl
  shifts := rfl

theorem start_built : ∀ lay ∈ start.layers, lay.Built := by
  have h : ∀ lay ∈ start.layers, lay.bufferCount = 2 ∧ lay.content.wf = true ∧
      lay.refreshBuffer = 0 ∧ lay.drawBuffer = 1 := by decide
  have hp : ∀ lay ∈ start.layers, lay.content.paletteFits := by
    intro lay hl
    simp only [start, turn, State.reset, State.resetOf, Config.rcALayers, State.setEnv, List.map_cons,
      List.map_nil, List.mem_cons, List.not_mem_nil, or_false] at hl
    rcases hl with rfl | rfl | rfl <;> simp [Layer.reset, Content.paletteFits]
  intro lay hl
  obtain ⟨h1, h2, h3, h4⟩ := h lay hl
  exact
    { count := .inl h1, palette := hp lay hl, memory := h2, refresh := by omega, draw := by omega
      distinct := by omega, third := fun e => by omega }

theorem start_fits : ∀ lay ∈ start.layers, lay.content.Fits start.cfg := by
  intro lay hl
  simp only [start, turn, State.reset, State.resetOf, Config.rcALayers, State.setEnv, List.map_cons,
    List.map_nil, List.mem_cons, List.not_mem_nil, or_false] at hl
  rcases hl with rfl | rfl | rfl
  · exact Store.All.nil
  · show FitsDepth Config.rcA _
    unfold FitsDepth; decide
  · refine ⟨?_, Store.All.nil⟩
    show ∀ v ∈ _, FitsDepth Config.rcA v
    unfold FitsDepth; decide

theorem start_inv : Inv start where
  regs :=
    { valid := by decide, minRate := by decide, maxRate := by decide, count := by decide
      start := by decide, row := by decide, slot := by decide, stopped := by decide
      source := by decide, shifting := by decide, underrun := by decide, atRest := by decide
      running := by decide, wake := by decide }
  mem :=
    { pool := rfl
      built := start_built
      ready := fun lay hl ha => by
        have hm : ∀ x ∈ start.layers, x.attached = false := by decide
        rw [hm lay hl] at ha
        cases ha
      chain := ⟨[], start_chain⟩
      table := fun h => (nomatch h)
      ttWf := rfl, slotsWf := rfl, workWf := rfl
      swap := fun _ _ e => (nomatch e)
      copy := fun _ e => (nomatch e) }
  depth := ⟨start_fits, Store.All.nil⟩
  rows := ⟨0, fun k hk => absurd hk (Nat.not_lt_zero k), rfl, rfl, fun n b e => by simp [dataBeats, start,
    turn, State.reset, State.resetOf, State.setEnv] at e, fun _ => rfl⟩
  bench := rfl

/-- An outcome that is a next state with `P` is `nextOf` of itself. -/
theorem nextOf_of {P : State → Prop} {d : State} {r : Res} (h : ∃ t, r = .next t ∧ P t) :
    r = .next (nextOf d r) ∧ P (nextOf d r) := by
  obtain ⟨t, rfl, ht⟩ := h
  exact ⟨rfl, ht⟩

theorem attached_inv : Inv attached := by
  have h := start_inv.attach 0 _ (by rfl) rfl rfl
  exact (nextOf_of (d := start) h).2

theorem running_inv : Inv running := by
  rcases attached_inv.begin (by decide +kernel) with ⟨h, -⟩ | h
  · exact absurd h (by decide +kernel)
  · exact (nextOf_of (d := attached) h).2

/-- The state with another turn. -/
theorem turn_inv (a : Agent) {s : State} (h : Inv s) : Inv (turn a s) :=
  h.same ⟨rfl, rfl, rfl, rfl, rfl, rfl, rfl, rfl, rfl, rfl, rfl, rfl, rfl, rfl⟩ h.regs.minRate h.regs.maxRate

/-! ### Checks that make witnesses -/

/-- A chain is well formed if the walk gives it and it holds exactly the attached layers. -/
theorem chainOk_of (s : State) (ls : List Nat) (hw : chainLayers s = some ls) (hd : ls.Nodup)
    (hin : ∀ l ∈ ls, l < s.layers.length)
    (ha : ∀ l, l < s.layers.length → (l ∈ ls ↔ s.layers[l]?.map Layer.attached = some true))
    (ht : s.chain.tail = ls.getLast?) (hc : s.chain.count = ls.length)
    (hs : s.chain.brightnessShifts.toNat = maxShifts s.layers ls) : ChainOk s ls where
  linked := linked_of_chainFrom _ _ _ _ hw
  once := hd
  attached := fun l => by
    by_cases h : l < s.layers.length
    · rw [ha l h, List.getElem?_eq_getElem h]
      simp
    · constructor
      · exact fun hl => absurd (hin l hl) h
      · rintro ⟨lay, h1, -⟩
        exact absurd (List.getElem?_eq_some_iff.mp h1).1 h
  tail := ht
  count := hc
  shifts := hs

/-- A row of a layer is readable if every column is. -/
theorem rowWritten_of (s : State) (l y : Nat)
    (h : (s.layers[l]?.map fun lay =>
      (List.range s.cfg.width).all fun x => decide (sample s.cfg lay y x ≠ .unspecified)) = some true) :
    rowWritten s l y := by
  cases e : s.layers[l]? with
  | none => rw [e] at h; cases h
  | some lay =>
    rw [e] at h
    simp only [Option.map_some, Option.some.injEq, List.all_eq_true, List.mem_range,
      decide_eq_true_eq] at h
    exact ⟨lay, e, h⟩

/-- Working rows are written if every index has a value. -/
theorem workWritten_of (c : Config) (work : Store Rgb)
    (h : ((List.range (2 * c.stack * c.width)).all fun k => (Store.read work k).isSome) = true) :
    workWritten c work := by
  intro k hk
  simp only [List.all_eq_true, List.mem_range] at h
  exact Option.isSome_iff_exists.mp (h k hk)

/-- A calculation needs nothing of the ring but its start, nor of the scheduler and the task's state. -/
theorem calcReady_of {s : State} (h : CalcReady s) (a b : Nat) (e : Engine) (c : CalcState) (r : Nat)
    (ht : tableReady s.cfg s.tt) (ha : a < s.cfg.capacity) (hr : r < s.cfg.scanRows) :
    CalcReady { s with
      ring := ⟨a, b⟩, eng := e, prod := { s.prod with calcState := c, rowIndex := r } } where
  valid := h.valid
  minRate := h.minRate
  maxRate := h.maxRate
  row := hr
  start := ha
  built := h.built
  ready := h.ready
  chain := let ⟨ls, hls⟩ := h.chain; ⟨ls, hls.same rfl rfl⟩
  table := .inl ht

/-- The first layer of a state. -/
def layer (l : Nat) (s : State) : Layer := s.layers.getD l (Layer.reset ⟨.background, 2, 0⟩)

/-- The state with these words at the command port. -/
def port (ws : List Word) (s : State) : State := s.setEnv { s.env with commands := ws }

/-- RC-A at this refresh rate. -/
def atRate (r : Half) : State := start.setCtl { start.ctl with refreshRate := r }

/-! ### Witnesses: a state and operands that meet each statement's hypotheses -/

theorem witness_EachCommandHasOneWord : decodeCommand 0x03000080 = some (.setBrightness 128) := by
  decide +kernel

/-- One word for each reason of R127, at the ends of its range. -/
theorem witness_PortRefusesExactlyIllegalWords :
    (port [0] start).env.bench = [] ∧ nextAgent (port [0] start) = .host ∧
      (port [0] start).host.hostState = .ready ∧ (port [0] start).env.commands = 0 :: [] ∧
      IllegalOnPort Config.rcA 0 ∧ IllegalOnPort Config.rcA 0x0E000000 ∧
      IllegalOnPort Config.rcA 0xFFFFFFFF ∧ IllegalOnPort Config.rcA 0x01000001 ∧
      IllegalOnPort Config.rcA 0x02000003 ∧ IllegalOnPort Config.rcA 0x0B030000 :=
  ⟨rfl, rfl, rfl, rfl, .inl (by decide), .inr (.inl (by decide)), .inr (.inl (by decide)),
    .inr (.inr (.inl (by decide))), .inr (.inr (.inr (.inl ⟨3, by decide, by decide⟩))),
    .inr (.inr (.inr (.inr (by decide))))⟩

theorem witness_MicroOperationWordsAreTags : Instr.isCommand (.lFillRow 0 0 0 0 0) = false := rfl

theorem witness_StepRunsTheHostCommand :
    (port [0x03000080] start).env.bench = [] ∧ nextAgent (port [0x03000080] start) = .host ∧
      (port [0x03000080] start).host.hostState = .ready ∧
      (port [0x03000080] start).env.commands = 0x03000080 :: [] ∧
      decodePort (port [0x03000080] start).cfg 0x03000080 = some (.setBrightness 128) := by
  decide +kernel

/-- The conditions of each clause, at the last beat and at the limit. -/
theorem witness_StepRunsTheEnabledOperation :
    (fun s : State => s.env.bench = [] ∧ nextAgent s = .engine ∧ s.flags.begun = true ∧
      s.eng.schedState = .shifting ∧ s.eng.beatIndex < s.cfg.depth)
      (turn .engine (engineAt .shifting .slot 7 running)) ∧
    (fun s : State => nextAgent s = .engine ∧ s.eng.schedState = .underrun ∧ s.eng.beatIndex < 1)
      (turn .engine (engineAt .underrun .idle 0 running)) ∧
    (fun s : State => nextAgent s = .engine ∧ s.flags.begun = true ∧
      s.eng.schedState = .shifting ∧ s.eng.beatIndex = s.cfg.depth)
      (turn .engine (engineAt .shifting .slot 8 running)) ∧
    (fun s : State => nextAgent s = .engine ∧ s.eng.schedState = .underrun ∧ s.eng.beatIndex = 1)
      (turn .engine (engineAt .underrun .idle 1 running)) ∧
    (fun s : State => nextAgent s = .producer ∧ s.flags.begun = true ∧ s.prod.calcState = .idle ∧
      s.flags.calcWake = true) (turn .producer running.raiseWake) ∧
    (fun s : State => nextAgent s = .producer ∧ s.prod.calcState = .running)
      (turn .producer (taskAt .running running)) ∧
    (fun s : State => nextAgent s = .producer ∧ s.prod.calcState = .idle ∧
      (s.flags.begun = false ∨ s.flags.calcWake = false)) (turn .producer running) ∧
    (fun s : State => nextAgent s = .engine ∧ s.flags.begun = false) (turn .engine start) ∧
    (fun s : State => nextAgent s = .host ∧ s.host.hostState = .ready ∧ s.env.commands = []) start := by
  decide +kernel

theorem witness_StepPerformsTheBenchRecord :
    (start.setEnv { start.env with bench := encode (.lSetRot 2 3) }).env.bench =
      encode (.lSetRot 2 3) ∧
    decodeTableWord 32 0x10000000 = some .rbInit ∧ Instr.isCommand .rbInit = false ∧
    decodeTableWord 32 0x02000002 = some (.addLayer 2) ∧ Instr.isCommand (.addLayer 2) = true ∧
    Instr.wellFormed start.cfg (.addLayer 2) = true := by
  decide +kernel

theorem witness_NothingRunsBeforeBegin :
    Inv (turn .engine start) ∧ (turn .engine start).flags.begun = false ∧
      nextAgent (turn .engine start) ≠ .host :=
  ⟨turn_inv _ start_inv, rfl, by decide⟩

theorem witness_RingCommits :
    (four 3 3).ring.count < (four 3 3).cfg.capacity ∧ (four 3 4).cfg.capacity ≤ (four 3 4).ring.count ∧
      1 ≤ (four 3 1).ring.count ∧ (four 3 0).ring.count = 0 := by
  decide

/-- A run with a write and a read. -/
theorem witness_GuardedRingIsFifo :
    1 ≤ start.cfg.capacity ∧
      RingRun start { start with ring := ⟨1, 0⟩ } 1 1
        (Store.write [] (ringNextW { start with ring := ⟨0, 0⟩ }) 0) :=
  ⟨by decide, .read { start with ring := ⟨0, 1⟩ } _ 1 0 _
    (.write { start with ring := ⟨0, 0⟩ } _ 0 0 [] (.init _ rfl) rfl rfl) rfl rfl⟩

/-- Steps of BEGIN and of the engine's beat from states that meet the invariant. -/
theorem witness_RingChangesOnlyByGuardedCommits :
    Inv (turn .engine running) ∧ answers (step (turn .engine running)) = true ∧
      Inv (turn .producer start) ∧ answers (step (turn .producer start)) = true :=
  ⟨turn_inv _ running_inv, by decide +kernel, turn_inv _ start_inv, by decide +kernel⟩

theorem witness_SupportedRatesAreLeastAndGreatest : Config.rcA.valid = true := by decide

/-- Rate 100 settles at the fourth trial (V10); at rate 489 no trial fits (V21). -/
theorem witness_TimingTableIsTheFirstThatFits :
    (start.cfg.valid = true ∧ start.cfg.minRefreshRate ≤ start.ctl.refreshRate.toNat ∧
      FitsBudget start.cfg 625 (trialWidth start.cfg 625 3) ∧
      ∀ j, j < 3 → ¬ FitsBudget start.cfg 625 (trialWidth start.cfg 625 j)) ∧
    (atRate 489).cfg.minRefreshRate ≤ (atRate 489).ctl.refreshRate.toNat ∧
      ∀ k, ¬ FitsBudget (atRate 489).cfg 127 (trialWidth (atRate 489).cfg 127 k) := by
  refine ⟨⟨by decide, by decide, by unfold FitsBudget; decide +kernel, ?_⟩, by decide, fun k h => ?_⟩
  · unfold FitsBudget
    decide +kernel
  · have h1 : periodSum Config.rcA (trialWidth Config.rcA 127 k) ≤ 127 := h
    have h2 := periodSum_mono Config.rcA (Nat.zero_le (trialWidth Config.rcA 127 k))
    have h3 : periodSum Config.rcA 0 = 128 := by decide +kernel
    omega

/-- Both sides of the bound, and a state that meets the invariant. -/
theorem witness_TimingSucceedsExactlyWhenItFits :
    (fun s : State => s.cfg.valid = true ∧ s.cfg.minRefreshRate ≤ s.ctl.refreshRate.toNat ∧
      s.ctl.refreshRate.toNat ≤ s.cfg.maxRefreshRate ∧
      s.cfg.depth * max s.cfg.minBlockPeriod s.cfg.pulseWidth ≤
        s.cfg.tickRate / (s.ctl.refreshRate.toNat * s.cfg.scanRows)) (atRate 488) ∧
    (fun s : State => s.cfg.tickRate / (s.ctl.refreshRate.toNat * s.cfg.scanRows) <
      s.cfg.depth * max s.cfg.minBlockPeriod s.cfg.pulseWidth) (atRate 489) ∧
    Inv running :=
  ⟨by decide +kernel, by decide +kernel, running_inv⟩

/-- The least and the greatest rate of RC-A. -/
theorem witness_TimingTableResults :
    (fun s : State => s.cfg.valid = true ∧ s.cfg.minRefreshRate ≤ s.ctl.refreshRate.toNat ∧
      s.ctl.refreshRate.toNat ≤ s.cfg.maxRefreshRate) (atRate 1) ∧
    (fun s : State => s.cfg.valid = true ∧ s.cfg.minRefreshRate ≤ s.ctl.refreshRate.toNat ∧
      s.ctl.refreshRate.toNat ≤ s.cfg.maxRefreshRate) (atRate 488) := by
  decide +kernel

/-- The three depths, each with the last slot and the last bit-plane. -/
theorem witness_EncoderWritesThePlaneBlock :
    ∀ n ∈ [8, 12, 16],
      (fun s : State => workWritten s.cfg s.work ∧ s.cfg.depth = n ∧ 1 < s.cfg.capacity ∧
        n - 1 < s.cfg.depth) (pairState n ⟨1, 2, 3⟩ ⟨4, 5, 6⟩) ∧
      ({ Config.rcA with
        depth := n, width := 1, clockDoubling := false, minBlockPeriod := 4 } : Config).valid = true := by
  intro n hn
  simp only [List.mem_cons, List.not_mem_nil, or_false] at hn
  rcases hn with rfl | rfl | rfl <;>
    exact ⟨⟨workWritten_of _ _ (by decide +kernel), rfl, by decide, by decide⟩, by decide +kernel⟩

theorem witness_RowMapCoversTheDisplayOnce :
    Config.rcA.valid = true ∧ 1 < Config.rcA.scanRows ∧ 0 < Config.rcA.stack ∧
      3 < Config.rcA.height := by
  decide

/-! #### Layers -/

/-- A layer of each kind, its memory written. -/
theorem witness_SampleByLayerKind :
    (fun c : Config × Layer =>
      ∃ m v, c.2.content = .background m ∧
        Store.read m ((c.2.refreshBuffer * c.1.height + 3) * c.1.width + 3) = some v)
      (attached.cfg, layer 0 attached) ∧
    (∀ k : Byte, k = 0 ∨ k = 1 →
      Store.read (Store.write [] 15 k) ((0 * 4 + 3) * 4 + 3) = some k ∧
        k.toNat < [Rgb.black, ⟨1, 2, 3⟩].length) ∧
    (∀ b : Bool, Store.read (Store.write [] 15 b) ((0 * 4 + 3) * 4 + 3) = some b) := by
  refine ⟨⟨_, ⟨0, 0, 0⟩, rfl, by decide +kernel⟩, ?_, by decide⟩
  rintro k (rfl | rfl) <;> decide +kernel

/-- A text layer that shows its canvas, and one that is off. -/
theorem witness_SampleByLayerKind_text :
    ∃ t, (layer 2 textState).content = .scrollingText t ∧ t.mode ≠ .off ∧
      ({ t with mode := .off } : Scroll).mode = .off ∧
      Store.read (Store.write t.canvas 15 true) (3 * 4 + 3) = some true :=
  ⟨_, rfl, by decide, rfl, by decide⟩

theorem witness_LayerBeginInitialises :
    ∀ l : BitVec 4, l = 0 ∨ l = 1 ∨ l = 2 → l.toNat < textState.cfg.maxLayers ∧
      textState.layers[l.toNat]? = some (layer l.toNat textState) := by
  rintro l (rfl | rfl | rfl) <;> decide +kernel

/-- The state with a swap pending on layer `l`. -/
def pending (l : Nat) (s : State) : State := s.putLayer l { layer l s with swapPending := true }

/-- One layer for each clause. -/
theorem witness_LayerFrameExchangesBuffers :
    ((layer 2 textState).content.isText = true ∧ textState.layers[2]? = some (layer 2 textState)) ∧
    (fun a : Layer => a.content.isText = false ∧ a.swapPending = false) (layer 0 textState) ∧
    (fun s : State => s.layers[0]? = some (layer 0 s) ∧ (layer 0 s).content.isText = false ∧
      (layer 0 s).swapPending = true ∧ (layer 0 s).bufferCount = 2) (pending 0 textState) ∧
    (fun s : State => s.layers[1]? = some (layer 1 s) ∧ (layer 1 s).content.isText = false ∧
      (layer 1 s).swapPending = true ∧ (layer 1 s).bufferCount = 3) (pending 1 textState) := by
  decide +kernel

theorem witness_LayerSetRotation :
    (2 : BitVec 4).toNat < textState.cfg.maxLayers ∧ (3 : BitVec 2).toNat = 3 ∧
      textState.layers[(2 : BitVec 4).toNat]? = some (layer 2 textState) := by
  decide +kernel

/-- The least rate. -/
theorem witness_LayerSetRate :
    (2 : BitVec 4).toNat < textState.cfg.maxLayers ∧ 1 ≤ (1 : BitVec 16).toNat ∧
      textState.layers[(2 : BitVec 4).toNat]? = some (layer 2 textState) ∧
      ∃ t, (layer 2 textState).content = .scrollingText t ∧ 1 ≤ t.pixelsPerSecond.toNat :=
  ⟨by decide +kernel, by decide, by decide +kernel, _, rfl, by decide⟩

theorem witness_ScrollStepMovesTheText :
    (2 : BitVec 4).toNat < textState.cfg.maxLayers ∧
      textState.layers[(2 : BitVec 4).toNat]? = some (layer 2 textState) ∧
      ∃ t, (layer 2 textState).content = .scrollingText t :=
  ⟨by decide +kernel, by decide +kernel, _, rfl⟩

theorem witness_ScrollScenario :
    ∃ t, (layer 2 textState).content = .scrollingText t ∧
      textState.layers[(2 : BitVec 4).toNat]? = some (layer 2 textState) ∧
      t.mode = .bounceForward ∧ t.position = t.scrollMax ∧ t.scrollCounter = 3 ∧
      t.framesPerScroll = 1 ∧ t.currentFrame = 0 ∧ 1 ≤ 3 ∧
      t.scrollMax.toInt = t.scrollMin.toInt + (3 : Nat) :=
  ⟨_, rfl, by decide +kernel, rfl, rfl, rfl, rfl, rfl, by decide, by decide⟩

/-- The last row and the last column of the display. -/
theorem witness_FillRowPaintsOneLayer :
    (0 : BitVec 4).toNat < attached.cfg.maxLayers ∧ (3 : BitVec 10).toNat < attached.cfg.height ∧
      (0 : BitVec 10).toNat < attached.cfg.stack ∧
      attached.layers[(0 : BitVec 4).toNat]? = some (layer 0 attached) ∧
      ∀ x, x < attached.cfg.width → sample attached.cfg (layer 0 attached) 3 x ≠ .unspecified := by
  decide +kernel

theorem attached_chain : ChainOk attached [0] :=
  chainOk_of _ _ (by decide +kernel) (by decide) (by decide +kernel) (by decide +kernel)
    (by decide +kernel) (by decide +kernel) (by decide +kernel)

theorem witness_FillRowPaintsTheChain :
    ChainOk attached [0] ∧ (3 : BitVec 10).toNat < attached.cfg.height ∧
      (0 : BitVec 10).toNat < attached.cfg.stack ∧ ∀ l ∈ [0], rowWritten attached l 3 :=
  ⟨attached_chain, by decide +kernel, by decide +kernel, fun l hl => by
    obtain rfl := List.mem_singleton.mp hl
    exact rowWritten_of _ _ _ (by decide +kernel)⟩

/-- A background, a mono layer and a background again, all attached. -/
def threeLayers : State :=
  let s := turn .host
    (State.resetOf Config.rcA [⟨.background, 2, 0⟩, ⟨.monoGfx ⟨0, 255, 0⟩, 3, 1⟩, ⟨.background, 2, 0⟩])
  let s := nextOf s (exec (.addLayer 0) s)
  let s := nextOf s (exec (.addLayer 1) s)
  nextOf s (exec (.addLayer 2) s)

theorem threeLayers_chain : ChainOk threeLayers [0, 1, 2] :=
  chainOk_of _ _ (by decide +kernel) (by decide) (by decide +kernel) (by decide +kernel)
    (by decide +kernel) (by decide +kernel) (by decide +kernel)

/-- With the pool's common shift of 1, and with a shift of 0 in the chain's register. -/
theorem witness_TopmostOpaqueLayerWins :
    ChainOk threeLayers [0, 1, 2] ∧ (3 : BitVec 10).toNat < threeLayers.cfg.height ∧
      (0 : BitVec 10).toNat < threeLayers.cfg.stack ∧
      (∀ l ∈ [0, 1, 2], threeLayers.layers[l]? = some (layer l threeLayers)) ∧
      (∀ x, x < threeLayers.cfg.width →
        sample threeLayers.cfg (layer 0 threeLayers) 3 x = .colour ⟨0, 0, 0⟩ ∧
          sample threeLayers.cfg (layer 1 threeLayers) 3 x = .leave ∧
          sample threeLayers.cfg (layer 2 threeLayers) 3 x = .colour ⟨0, 0, 0⟩) ∧
      attached.chain.brightnessShifts = 0 :=
  ⟨threeLayers_chain, by decide +kernel, by decide +kernel, by decide +kernel, by decide +kernel,
    by decide +kernel⟩

theorem witness_ChainOperationsReachEveryLayer : ChainOk threeLayers [0, 1, 2] ∧ ChainOk start [] :=
  ⟨threeLayers_chain, start_chain⟩

theorem witness_RotationRoundTrip :
    (0 : BitVec 4).toNat < attached.cfg.maxLayers ∧
      attached.layers[(0 : BitVec 4).toNat]? = some (layer 0 attached) ∧
      (layer 0 attached).rotation = 0 ∧ (layer 0 attached).localWidth = attached.cfg.width ∧
      (layer 0 attached).localHeight = attached.cfg.height ∧
      (layer 0 attached).content.isText = false := by
  decide +kernel

/-! #### The scheduler -/

/-- The first and the last bit-plane of a slot, and the idle beat. -/
theorem witness_EngineBeatEmitsOneRecord :
    (∀ i, i = 0 ∨ i = 7 →
      (fun s : State => s.flags.begun = true ∧ s.eng.schedState = .shifting ∧
        s.eng.beatIndex < s.cfg.depth ∧ slotRowAddress s.cfg s.slots s.eng.curSlot = some 0 ∧
        (slotTiming s.cfg s.slots s.eng.curSlot s.eng.beatIndex).isSome = true ∧
        (fun ws : List Word => ws.length = s.cfg.wordsPerPlane ∧
          ∀ q, q < s.cfg.wordsPerPlane →
            slotWord s.cfg s.slots s.eng.curSlot s.eng.beatIndex q = ws[q]?)
          [0, 0x40, 0, 0x40, 0, 0x40, 0, 0x40]) (engineAt .shifting .slot i running)) ∧
    (fun s : State => s.flags.begun = true ∧ s.eng.schedState = .underrun ∧ s.eng.beatIndex < 1)
      (engineAt .underrun .idle 0 running) := by
  refine ⟨?_, by decide +kernel⟩
  rintro i (rfl | rfl) <;> decide +kernel

/-- An advance, an underrun with and without adaptive rate control, an event in an underrun. -/
theorem witness_CompletionEvent :
    (fun s : State => s.flags.begun = true ∧ s.eng.schedState = .shifting ∧
      s.eng.beatIndex = s.cfg.depth ∧ 2 ≤ s.ring.count) (engineAt .shifting .slot 8 running) ∧
    (fun s : State => s.eng.schedState = .shifting ∧ s.eng.beatIndex = s.cfg.depth ∧
      s.ring.count = 1 ∧ s.cfg.adaptiveRate = true ∧
      ({ s.cfg with adaptiveRate := false } : Config).adaptiveRate = false)
      (ringAt 1 1 (engineAt .shifting .slot 8 running)) ∧
    (fun s : State => s.eng.schedState = .underrun ∧ s.eng.beatIndex = 1)
      (engineAt .underrun .idle 1 running) := by
  decide +kernel

/-- The engine's next `n` beats. -/
def beats (n : Nat) (s : State) : State :=
  match n with
  | 0 => s
  | n + 1 => beats n (nextOf s (exec .engBeat s))

/-- Each of them is enabled. -/
def canBeat (n : Nat) (s : State) : Bool :=
  match n with
  | 0 => true
  | n + 1 => beatEnabled s && canBeat n (nextOf s (exec .engBeat s))

theorem beats_inv (n : Nat) (s : State) (h : Inv s) (he : canBeat n s = true) : Inv (beats n s) := by
  induction n generalizing s with
  | zero => exact h
  | succ n ih =>
    simp only [canBeat, Bool.and_eq_true] at he
    exact ih _ (nextOf_of (d := s) (h.engBeat he.1)).2 he.2

/-- One row shown, and of the next row all beats: the next event starves the engine. -/
def lastBeat : State :=
  let s := beats 8 running
  beats 8 (nextOf s (exec .evComplete s))

theorem lastBeat_inv : Inv lastBeat := by
  have h1 : Inv (beats 8 running) := beats_inv 8 running running_inv (by decide +kernel)
  have h2 := (nextOf_of (d := beats 8 running) (h1.evComplete (by decide +kernel))).2
  exact beats_inv 8 _ h2 (by decide +kernel)

theorem witness_UnderrunRaisedOncePerEpisode :
    (fun s : State => Inv s ∧ answers (step s) = true ∧
      (s.flags.underrun, s.eng.schedState) = (false, .shifting) ∧
      (fun t : State => (t.flags.underrun, t.eng.schedState)) (nextOf s (step s)) = (true, .underrun))
      (turn .engine lastBeat) :=
  ⟨turn_inv _ lastBeat_inv, by decide +kernel⟩

/-- The least ring. -/
theorem witness_RecoverAndStartPointAtTheHead :
    1 ≤ (ringAt 1 1 (engineAt .underrun .idle 1 running)).ring.count ∧
      (ringAt 1 1 (engineAt .underrun .idle 1 running)).eng.schedState = .underrun := by
  decide +kernel

/-- Above the floor, and at it. -/
theorem witness_LowerRateStopsAtTheFloor :
    (atRate 100).cfg.minRefreshRate < (atRate 100).ctl.refreshRate.toNat ∧
      (atRate 2).cfg.minRefreshRate < (atRate 2).ctl.refreshRate.toNat ∧
      (atRate 1).ctl.refreshRate.toNat ≤ (atRate 1).cfg.minRefreshRate := by
  decide +kernel

theorem witness_EngineAlwaysHasAStep :
    Inv running ∧ running.flags.begun = true :=
  ⟨running_inv, by decide +kernel⟩

/-! #### The producer -/

theorem witness_ProducerWake :
    (fun s : State => s.flags.begun = true ∧ s.prod.calcState = .idle ∧ s.flags.calcWake = true)
      (turn .producer running.raiseWake) := by
  decide +kernel

/-- The running block with one slot free and the producer at hardware row `r`. -/
def oneFree (r : Nat) : State :=
  { running with
    ring := ⟨0, 1⟩, eng := running.eng, prod := { running.prod with calcState := .running, rowIndex := r } }

theorem oneFree_ready (r : Nat) (hr : r < running.cfg.scanRows) : CalcReady (oneFree r) :=
  calcReady_of (running_inv.calcReady (by decide +kernel)) 0 1 running.eng .running r
    (running_inv.mem.table (by decide +kernel)) (by decide +kernel) hr

theorem witness_ProducerStep :
    ((taskAt .running running).prod.calcState = .running ∧
      (taskAt .running running).ring.count = (taskAt .running running).cfg.capacity) ∧
    (oneFree 0).prod.calcState = .running ∧ CalcReady (oneFree 0) ∧
      (oneFree 0).ring.count < (oneFree 0).cfg.capacity :=
  ⟨by decide +kernel, by decide +kernel, oneFree_ready 0 (by decide +kernel), by decide +kernel⟩

/-- A frame start and the last row of a frame. -/
theorem witness_CalcStepProducesOneRow :
    CalcReady (oneFree 0) ∧ (oneFree 0).ring.count < (oneFree 0).cfg.capacity ∧
      CalcReady (oneFree 1) ∧ (oneFree 1).ring.count < (oneFree 1).cfg.capacity ∧
      (oneFree 1).prod.rowIndex ≠ 0 :=
  ⟨oneFree_ready 0 (by decide +kernel), by decide +kernel, oneFree_ready 1 (by decide +kernel),
    by decide +kernel, by decide⟩

theorem witness_FrameStartPropagates :
    CalcReady (oneFree 0) ∧ (oneFree 0).ring.count < (oneFree 0).cfg.capacity ∧
      (oneFree 0).prod.rowIndex = 0 :=
  ⟨oneFree_ready 0 (by decide +kernel), by decide +kernel, rfl⟩

/-! #### Host commands -/

theorem witness_HostControlsWriteTheirFields : start.host.hostState = .ready := rfl

/-- The ends of both ranges. -/
theorem witness_SetRefreshRateClamps :
    start.host.hostState = .ready ∧ start.cfg.minRefreshRate ≤ 65535 ∧
      max (0 : BitVec 16).toNat start.cfg.minRefreshRate ≤ start.cfg.maxRefreshRate ∧
      max (488 : BitVec 16).toNat start.cfg.minRefreshRate ≤ start.cfg.maxRefreshRate ∧
      start.cfg.maxRefreshRate < max (489 : BitVec 16).toNat start.cfg.minRefreshRate ∧
      start.cfg.maxRefreshRate < max (65535 : BitVec 16).toNat start.cfg.minRefreshRate := by
  decide +kernel

theorem witness_GetCommandsRespond : start.raiseUnderrun.host.hostState = .ready := rfl

/-- The first layer of an empty chain, and the second of a chain of one. -/
theorem witness_AddLayerAppendsToTheChain :
    (start.host.hostState = .ready ∧ (0 : BitVec 4).toNat < start.cfg.maxLayers ∧
      start.flags.begun = false ∧ ChainOk start [] ∧
      start.layers[(0 : BitVec 4).toNat]? = some (layer 0 start) ∧
      (layer 0 start).attached = false) ∧
    attached.host.hostState = .ready ∧ attached.flags.begun = false ∧ ChainOk attached [0] ∧
      attached.layers[(1 : BitVec 4).toNat]? = some (layer 1 attached) ∧
      (layer 1 attached).attached = false :=
  ⟨⟨rfl, by decide, rfl, start_chain, rfl, rfl⟩, by decide +kernel, by decide +kernel, attached_chain,
    by decide +kernel, by decide +kernel⟩

theorem witness_BeginFillsTheRing :
    (Inv attached ∧ attached.host.hostState = .ready ∧ attached.flags.begun = false) ∧
      Inv running ∧ running.host.hostState = .ready ∧ running.flags.begun = true :=
  ⟨⟨attached_inv, by decide +kernel, by decide +kernel⟩, running_inv, by decide +kernel,
    by decide +kernel⟩

/-- The attached block held by the host in this state, with or without a swap pending on layer 0. -/
def held (h : HostState) (p : Bool) : State :=
  let s := turn .host attached
  { s with
    layers := s.layers.set 0 { layer 0 s with swapPending := p }
    host := { s.host with hostState := h } }

/-- Every phase, with the swap pending and carried out. -/
theorem witness_SwapBuffersPhases :
    (attached.host.hostState = .ready ∧ (0 : BitVec 4).toNat < attached.cfg.maxLayers ∧
      attached.layers[(0 : BitVec 4).toNat]? = some (layer 0 attached) ∧
      (layer 0 attached).attached = true ∧ (layer 0 attached).content.isText = false) ∧
    (∀ h ∈ [HostState.swapWait1 0 true, .swapWait1 0 false, .swapWait2 0], ∀ p,
      (fun s : State => s.env.bench = [] ∧ nextAgent s = .host ∧ s.host.hostState = h ∧
        s.layers[0]? = some (layer 0 s) ∧ (layer 0 s).swapPending = p) (held h p)) ∧
    (layer 0 (held (.swapWait2 0) false)).Built ∧
      (layer 0 (held (.swapWait2 0) false)).content.written attached.cfg 2 := by
  have ha : layer 0 attached ∈ attached.layers :=
    List.mem_of_getElem? (i := 0) (by decide +kernel)
  have e : layer 0 (held (.swapWait2 0) false) = layer 0 attached := by decide +kernel
  have hc : (layer 0 attached).bufferCount = 2 := by decide +kernel
  rw [e]
  refine ⟨by decide +kernel, ?_, attached_inv.mem.built _ ha,
    hc ▸ (attached_inv.mem.ready _ ha (by decide +kernel)).written⟩
  intro h hh p
  simp only [List.mem_cons, List.not_mem_nil, or_false] at hh
  rcases hh with rfl | rfl | rfl <;> cases p <;> decide +kernel

/-- The last pixel of the local rectangle, and the first beyond it in each direction. -/
theorem witness_DrawPixelWritesTheDrawBuffer :
    attached.host.hostState = .ready ∧ (0 : BitVec 4).toNat < attached.cfg.maxLayers ∧
      attached.layers[(0 : BitVec 4).toNat]? = some (layer 0 attached) ∧
      (layer 0 attached).attached = true ∧ (layer 0 attached).content.isText = false ∧
      (3 : BitVec 10).toNat < (layer 0 attached).localWidth ∧
      (3 : BitVec 10).toNat < (layer 0 attached).localHeight ∧
      (layer 0 attached).localWidth ≤ (4 : BitVec 10).toNat ∧
      (layer 0 attached).localHeight ≤ (4 : BitVec 10).toNat := by
  decide +kernel

theorem witness_BrokenContractsFault :
    (running.host.hostState = .ready ∧ running.flags.begun = true) ∧
    (start.host.hostState = .ready ∧
      start.cfg.maxRefreshRate < max (489 : BitVec 16).toNat start.cfg.minRefreshRate) ∧
    (0 : BitVec 4).toNat < attached.cfg.maxLayers ∧
      attached.layers[(0 : BitVec 4).toNat]? = some (layer 0 attached) ∧
      attached.flags.begun = false ∧ (layer 0 attached).attached = true ∧
      (layer 1 attached).attached = false ∧ (layer 2 textState).content.isText = true := by
  decide +kernel

/-- Each kind of refusal; BEATINDEX, slot, bit-plane, layer and row at their bounds. -/
theorem witness_OperationsOutsideTheirRulesAreRefused :
    (Instr.isCommand .getLowered = true ∧ (held (.swapWait2 0) true).host.hostState ≠ .ready) ∧
    (start.flags.begun = false ∧ start.prod.calcState = .idle ∧ start.ring.count = 0 ∧
      start.eng.schedState = .stopped ∧ start.eng.schedState ≠ .underrun) ∧
    (fun s : State => s.flags.begun = true ∧ s.eng.schedState = .shifting ∧
      s.cfg.depth ≤ s.eng.beatIndex) (engineAt .shifting .slot 8 running) ∧
    (fun s : State => s.flags.begun = true ∧ s.eng.schedState = .underrun ∧ 1 ≤ s.eng.beatIndex)
      (engineAt .underrun .idle 1 running) ∧
    (∀ n ∈ [0, 7, 9], (fun s : State => s.eng.schedState = .shifting ∧ s.eng.beatIndex ≠ s.cfg.depth)
      (engineAt .shifting .slot n running)) ∧
    (fun s : State => s.eng.schedState = .underrun ∧ s.eng.beatIndex ≠ 1)
      (engineAt .underrun .idle 0 running) ∧
    (running.flags.begun = true ∧ running.flags.calcWake = false ∧
      (taskAt .running running).prod.calcState = .running) ∧
    running.ring.count = running.cfg.capacity ∧
    (start.cfg.depth ≠ 12 ∧ start.cfg.depth ≠ 16 ∧ start.cfg.depth = 8 ∧
      start.cfg.capacity ≤ (2 : BitVec 8).toNat ∧ start.cfg.depth ≤ (8 : BitVec 4).toNat) ∧
    (start.cfg.maxLayers ≤ (3 : BitVec 4).toNat ∧ start.host.hostState = .ready ∧
      start.cfg.height ≤ (4 : BitVec 10).toNat ∧ start.cfg.stack ≤ (1 : BitVec 10).toNat ∧
      start.layers[(0 : BitVec 4).toNat]? = some (layer 0 start) ∧
      (layer 0 start).content.isText = false) := by
  decide +kernel

/-- The state with other words at the command port. -/
theorem port_inv (ws : List Word) {s : State} (h : Inv s) : Inv (port ws s) :=
  h.same ⟨rfl, rfl, rfl, rfl, rfl, rfl, rfl, rfl, rfl, rfl, rfl, rfl, rfl, rfl⟩ h.regs.minRate h.regs.maxRate

theorem witness_HostReachesNeitherEngineNorProducer :
    (fun s : State => Inv s ∧ s.flags.begun = true ∧ nextAgent s = .host ∧ answers (step s) = true)
      (turn .host (port [0x03000080] running)) :=
  ⟨turn_inv _ (port_inv _ running_inv), by decide +kernel, by decide +kernel, by decide +kernel⟩

/-- Layer 0 of the attached block may be drawn on. -/
theorem attached_drawable : Drawable attached 0 :=
  ⟨layer 0 attached, by decide +kernel, by decide +kernel, by decide +kernel⟩

/-- Every such state meets the invariant. -/
theorem held_inv (h : HostState) (p : Bool)
    (hd : h = .swapWait1 0 true ∨ h = .swapWait2 0) : Inv (held h p) := by
  have hl : (turn .host attached).layers[0]? = some (layer 0 (turn .host attached)) := by
    decide +kernel
  refine (turn_inv .host attached_inv).poolStep ⟨_, _, rfl⟩
    (PoolStep.put hl (swapPending_layerStep _ _ _)) ?_ ?_
  · intro l c e
    have e : h = .swapWait1 l c := e
    rcases hd with rfl | rfl <;> cases e
    exact attached_drawable
  · intro l e
    have e : h = .swapWait2 l := e
    rcases hd with rfl | rfl <;> cases e
    exact attached_drawable

/-- Held in either wait, with the swap pending, before BEGIN. -/
theorem witness_SwapCopyBeforeBeginIsHeld :
    (fun s : State => Inv s ∧ s.flags.begun = false ∧ s.host.hostState = .swapWait2 0 ∧
      s.layers[0]? = some (layer 0 s) ∧ (layer 0 s).swapPending = true) (held (.swapWait2 0) true) ∧
    (fun s : State => Inv s ∧ s.flags.begun = false ∧ s.host.hostState = .swapWait1 0 true ∧
      s.layers[0]? = some (layer 0 s) ∧ (layer 0 s).swapPending = true)
      (held (.swapWait1 0 true) true) :=
  ⟨⟨held_inv _ _ (.inr rfl), by decide +kernel⟩, held_inv _ _ (.inl rfl), by decide +kernel⟩

/-! #### Memory, reset and the whole machine -/

/-- The last aligned word of RC-A's slot pool, and one access refused for each reason. -/
theorem witness_ImageReadsAndWrites :
    (fun z : Nat => (196 % 4 = 0 ∧ 196 + 4 ≤ z ∨ 196 + 4 ≤ z) ∧ (z - 4) % 4 = 0 ∧ z - 4 + 4 ≤ z ∧
      ¬ ((3 = 1 ∨ 3 = 2) ∨ 3 = 4) ∧ 1 % 2 ≠ 0 ∧ z < z + 1)
      (start.cfg.capacity * start.cfg.slotBytes) := by
  decide

theorem witness_ConstructionGivesTheResetValues :
    Config.rcA.validInstance Config.rcALayers = true ∧
      Config.validInstance { Config.rcA with depth := 9 } Config.rcALayers = false ∧
      Config.rcALayers[2]? ≠ none := by
  decide

theorem witness_StepKeepsTheInvariant :
    Inv (turn .engine running) ∧ answers (step (turn .engine running)) = true :=
  ⟨turn_inv _ running_inv, by decide +kernel⟩

/-- Construction answers for RC-A and for an instance of depth 16 with the widest colour, a palette of two, a
text layer and three buffers. -/
theorem witness_ResetMeetsTheInvariant :
    answers (Machine.construct Config.rcA Config.rcALayers) = true ∧
      answers (Machine.construct { Config.rcA with depth := 16 }
        [⟨.monoGfx ⟨65535, 0, 65535⟩, 3, 15⟩, ⟨.indexed 1 [Rgb.black, ⟨65535, 1, 0⟩], 2, 0⟩,
          ⟨.scrollingText ⟨0, 65535, 0⟩ ⟨.wrapForward, 0, 0, 1, 0, 1, 1⟩, 2, 0⟩]) = true := by
  decide +kernel

theorem witness_StepStopsOnlyForTheHost : Inv running ∧ Inv lastBeat ∧ Inv start :=
  ⟨running_inv, lastBeat_inv, start_inv⟩

/-- The attached block with layer 0's buffers unwritten, the host in state `h`. -/
def blank (h : HostState) : State :=
  let s := held h false
  { s with layers := s.layers.set 0 { layer 0 s with content := .background [] } }

/-- Nothing is written after construction; the last slot, plane, row, column and byte, for each depth. -/
theorem witness_UnwrittenReadsFault :
    (∀ n ∈ [8, 12, 16],
      (fun s : State => (1 : BitVec 8).toNat < s.cfg.capacity ∧ n - 1 < s.cfg.depth ∧ s.cfg.depth = n ∧
        7 < 2 * s.cfg.stack * s.cfg.width ∧ Store.read s.work 7 = none)
        { start with cfg := { Config.rcA with depth := n } }) ∧
    ((0 : BitVec 4).toNat < start.cfg.maxLayers ∧ (3 : BitVec 10).toNat < start.cfg.height ∧
      (0 : BitVec 10).toNat < start.cfg.stack ∧
      start.layers[(0 : BitVec 4).toNat]? = some (layer 0 start) ∧ 3 < start.cfg.width ∧
      sample start.cfg (layer 0 start) 3 3 = .unspecified) ∧
    (ChainOk (blank .ready) [0] ∧ 0 ∈ [0]) ∧
    ((fun s : State => s.layers[0]? = some (layer 0 s) ∧ sample s.cfg (layer 0 s) 3 3 = .unspecified ∧
      s.env.bench = [] ∧ nextAgent s = .host ∧ s.host.hostState = .swapWait2 0 ∧
      (layer 0 s).swapPending = false) (blank (.swapWait2 0)) ∧
      (layer 0 (blank (.swapWait2 0))).content.UnwrittenAt (bufferIndex Config.rcA 0 3 3)) ∧
    (slotRowAddress running.cfg [] 0 = none ∧
      slotTiming running.cfg (running.slots.filter fun e => e.1 ≠ 91) 0 7 = none ∧
      slotWord running.cfg (running.slots.filter fun e => e.1 ≠ 99) 0 7 7 = none ∧
      7 < running.cfg.wordsPerPlane ∧ running.flags.begun = true ∧
      running.eng.schedState = .shifting ∧ running.eng.beatIndex < running.cfg.depth) ∧
    (CalcReady (oneFree 0) ∧ CalcReady (oneFree 1) ∧
      (oneFree 1).ring.count < (oneFree 1).cfg.capacity ∧ (oneFree 1).prod.rowIndex ≠ 0 ∧
      (oneFree 0).flags.brightnessChanged = false ∧ (oneFree 0).flags.refreshRateChanged = false ∧
      7 < running.cfg.depth ∧ Store.read (running.tt.filter fun e => e.1 ≠ 7) 7 = none) ∧
    (196 % 4 = 0 ∧ 196 + 4 ≤ start.cfg.capacity * start.cfg.slotBytes ∧
      Store.read start.slots (196 + 3) = none) :=
  ⟨by decide +kernel, by decide +kernel,
    ⟨chainOk_of _ _ (by decide +kernel) (by decide) (by decide +kernel) (by decide +kernel)
      (by decide +kernel) (by decide +kernel) (by decide +kernel), by decide⟩,
    ⟨by decide +kernel, show Store.read (α := Rgb) [] _ = none from rfl⟩, by decide +kernel,
    ⟨oneFree_ready 0 (by decide +kernel), oneFree_ready 1 (by decide +kernel), by decide +kernel⟩,
    by decide +kernel⟩

end Sys2Proof.Tests
end

section
/-! The supported rates of R15, and construction (00_scope.md R7 to R18, 10_state.md R46, R47, R56). -/

namespace Sys2Proof.Machine

/-! ### The supported rates (R15) -/

/-- The closed form of `MinRefreshRate` is R15's least rate wherever the timer can hold the pulse width. -/
theorem minRefreshRate_isLeast (c : Config) (hpulse : c.pulseWidth ≤ 65535) (hscan : 1 ≤ c.scanRows) :
    IsLeast {r | 1 ≤ r ∧ c.tickRate / (r * c.scanRows) / 2 + c.pulseWidth ≤ 65535}
      c.minRefreshRate := by
  have hpos := one_le_minRefreshRate c
  constructor
  · exact ⟨hpos, (minRefreshRate_le_iff c hpulse hscan _ hpos).mp le_rfl⟩
  · rintro r ⟨hr, hfits⟩
    exact (minRefreshRate_le_iff c hpulse hscan r hr).mpr hfits

/-- Rate 0 has no ticks in a row, so no rate with R15's second property is 0. -/
theorem one_le_of_floor_fits (c : Config) (hdepth : 1 ≤ c.depth) (hblock : 1 ≤ c.minBlockPeriod)
    {r : Nat} (hfits : c.depth * c.floorPeriod ≤ c.ticksPerRow r) : 1 ≤ r := by
  have hfloor : 1 ≤ c.floorPeriod := hblock.trans (le_max_left _ _)
  by_contra hr
  obtain rfl : r = 0 := by omega
  have hzero : c.ticksPerRow 0 = 0 := by simp [Config.ticksPerRow]
  have hprod := Nat.mul_pos hdepth hfloor
  omega

/-- No rate with R15's second property is above the closed form of `MaxRefreshRate`. -/
theorem maxRefreshRate_mem_upperBounds (c : Config) (hdepth : 1 ≤ c.depth)
    (hblock : 1 ≤ c.minBlockPeriod) (hscan : 1 ≤ c.scanRows) :
    c.maxRefreshRate ∈ upperBounds
      {r | c.depth * max c.minBlockPeriod c.pulseWidth ≤ c.tickRate / (r * c.scanRows)} :=
  fun r hfits => (le_maxRefreshRate_iff c hdepth hblock hscan r
    (one_le_of_floor_fits c hdepth hblock hfits)).mpr hfits

/-- Where some rate has R15's second property, and so the closed form is at least 1, it is the greatest. -/
theorem maxRefreshRate_isGreatest (c : Config) (hdepth : 1 ≤ c.depth) (hblock : 1 ≤ c.minBlockPeriod)
    (hscan : 1 ≤ c.scanRows) (hpos : 1 ≤ c.maxRefreshRate) :
    IsGreatest {r | c.depth * max c.minBlockPeriod c.pulseWidth ≤ c.tickRate / (r * c.scanRows)}
      c.maxRefreshRate :=
  ⟨(le_maxRefreshRate_iff c hdepth hblock hscan _ hpos).mp le_rfl,
    maxRefreshRate_mem_upperBounds c hdepth hblock hscan⟩

/-- Settles O15: a valid configuration has a scan modulus, a depth and a block period of at least 1, and its
greatest rate is at least its least, which is at least 1. -/
theorem supportedRatesAreLeastAndGreatest : Obligations.SupportedRatesAreLeastAndGreatest := by
  intro c hv
  obtain ⟨hblock, -, hpulse⟩ := Config.valid.timer hv
  have hdepth : 1 ≤ c.depth := by have := Config.valid.depth_pos hv; omega
  have hscan := (Config.valid.scan hv).1
  have hrates := Config.valid.rates hv
  exact ⟨minRefreshRate_isLeast c hpulse hscan,
    maxRefreshRate_isGreatest c hdepth hblock hscan ((one_le_minRefreshRate c).trans hrates), hrates⟩

/-! ### The check of construction (R7 to R18, R46, R47) -/

/-- The rates R15 and R17 ask for exist, with `RefreshRateReset` between them, exactly when it is between the
closed forms. -/
theorem exists_supportedRates_iff (c : Config) (hdepth : 1 ≤ c.depth) (hblock : 1 ≤ c.minBlockPeriod)
    (hpulse : c.pulseWidth ≤ 65535) (hscan : 1 ≤ c.scanRows) (reset : Nat) :
    (∃ least greatest,
      IsLeast {r | 1 ≤ r ∧ c.tickRate / (r * c.scanRows) / 2 + c.pulseWidth ≤ 65535} least ∧
      IsGreatest {r | c.depth * max c.minBlockPeriod c.pulseWidth ≤ c.tickRate / (r * c.scanRows)}
        greatest ∧
      least ≤ reset ∧ reset ≤ greatest) ↔
    c.minRefreshRate ≤ reset ∧ reset ≤ c.maxRefreshRate := by
  have hmin := minRefreshRate_isLeast c hpulse hscan
  constructor
  · rintro ⟨least, greatest, hleast, hgreatest, hlo, hhi⟩
    have hle := maxRefreshRate_mem_upperBounds c hdepth hblock hscan hgreatest.1
    exact ⟨hmin.unique hleast ▸ hlo, hhi.trans hle⟩
  · rintro ⟨hlo, hhi⟩
    have hpos : 1 ≤ c.maxRefreshRate := (one_le_minRefreshRate c).trans (hlo.trans hhi)
    exact ⟨_, _, hmin, maxRefreshRate_isGreatest c hdepth hblock hscan hpos, hlo, hhi⟩

/-- A display of at least one row has panels of at least one row pair, so a scan modulus of at least 1 (R10). -/
theorem LegalParameters.one_le_scanRows {c : Config} (h : LegalParameters c) : 1 ≤ c.scanRows := by
  obtain ⟨hpanel, hscan, hheight, -⟩ := h.geometry
  obtain ⟨-, -, hrows, -⟩ := h.size
  have hne : c.panelHeight ≠ 0 := fun e => by rw [e, Nat.mul_zero] at hheight; omega
  omega

/-- The check of the parameters is the constraints of R7 to R17. -/
theorem valid_iff_legalParameters (c : Config) : c.valid = true ↔ LegalParameters c := by
  constructor
  · intro hv
    obtain ⟨hblock, -, hpulse⟩ := Config.valid.timer hv
    obtain ⟨depth, size, ⟨hpanel, hscan⟩, ⟨hheight, hstack⟩, capacity, word, pins, ⟨hb1, hb2, hp⟩,
      decrement, -, reduction, pool, hreset⟩ := (Config.valid_iff c).mp hv
    exact
      { depth, size, capacity, word, pins, reduction, pool
        geometry := ⟨hpanel, hscan, hheight, hstack⟩
        timer := ⟨hb1, hb2, hp, decrement⟩
        rates := (exists_supportedRates_iff c (by omega) hblock hpulse (Config.valid.scan hv).1 _).mpr
          hreset }
  · intro h
    obtain ⟨hpanel, hscan, hheight, hstack⟩ := h.geometry
    obtain ⟨hblock, hblockMax, hpulse, hdecrement⟩ := h.timer
    have hdepth : 1 ≤ c.depth := by have := h.depth; omega
    have hreset :=
      (exists_supportedRates_iff c hdepth hblock hpulse h.one_le_scanRows _).mp h.rates
    exact (Config.valid_iff c).mpr
      ⟨h.depth, h.size, ⟨hpanel, hscan⟩, ⟨hheight, hstack⟩, h.capacity, h.word, h.pins,
        ⟨hblock, hblockMax, hpulse⟩, hdecrement, hreset.1.trans hreset.2, h.reduction, h.pool, hreset⟩

theorem fitsDepth_eq_true_iff (c : Config) (v : Rgb) : c.fitsDepth v = true ↔ FitsDepth c v :=
  decide_eq_true_iff

/-- The check of a pool entry, kind by kind, is the constraints of R17, R46 and R47. -/
theorem validLayer_iff_legalEntry (c : Config) (e : LayerEntry) :
    c.validLayer e = true ↔ LegalEntry c e := by
  obtain ⟨variant, count, shifts⟩ := e
  cases variant with
  | background => simp [Config.validLayer, LegalEntry]
  | indexed n palette =>
    simp [Config.validLayer, LegalEntry, fitsDepth_eq_true_iff, and_assoc]
  | scrollingText colour launch =>
    simp [Config.validLayer, LegalEntry, fitsDepth_eq_true_iff, BitVec.slt, and_assoc]
  | monoGfx colour => simp [Config.validLayer, LegalEntry, fitsDepth_eq_true_iff]

/-- The check of construction is R18's: the parameters, the size of the pool and every entry are legal. -/
theorem validInstance_iff_isInstance (c : Config) (pool : List LayerEntry) :
    c.validInstance pool = true ↔ IsInstance c pool := by
  simp only [Config.validInstance, IsInstance, Bool.and_eq_true, decide_eq_true_eq, List.all_eq_true,
    valid_iff_legalParameters, validLayer_iff_legalEntry, and_assoc]

/-! ### Construction and the reset state (R18, R56) -/

theorem construct_of_validInstance {c : Config} {pool : List LayerEntry}
    (h : c.validInstance pool = true) : construct c pool = .next (State.resetOf c pool) :=
  if_pos h

theorem construct_of_not_validInstance {c : Config} {pool : List LayerEntry}
    (h : c.validInstance pool = false) : construct c pool = .fault .configInvalid :=
  if_neg (ne_true_of_eq_false h)

theorem validInstance_length {c : Config} {pool : List LayerEntry} (h : c.validInstance pool = true) :
    pool.length = c.maxLayers := by
  obtain ⟨-, hlength, -⟩ := (validInstance_iff_isInstance c pool).mp h
  exact hlength

@[simp] theorem resetOf_layers (c : Config) (pool : List LayerEntry) :
    (State.resetOf c pool).layers = pool.map Layer.reset := rfl

/-- Settles O56: the check by its parts, the two outcomes of construction, and the fields of the reset state,
those of a layer kind by kind. -/
theorem constructionGivesTheResetValues : Obligations.ConstructionGivesTheResetValues := by
  intro c pool
  refine ⟨validInstance_iff_isInstance c pool, construct_of_not_validInstance, fun hvalid => ?_⟩
  refine ⟨State.resetOf c pool, construct_of_validInstance hvalid, rfl, rfl, rfl, rfl, rfl, rfl, rfl, rfl,
    rfl, rfl, rfl, rfl, ?_, ?_⟩
  · rw [resetOf_layers, List.length_map, validInstance_length hvalid]
  · intro l e he
    refine ⟨Layer.reset e, by rw [resetOf_layers, List.getElem?_map, he, Option.map_some],
      rfl, rfl, rfl, rfl, rfl, ?_⟩
    obtain ⟨variant, count, shifts⟩ := e
    cases variant with
    | background => rfl
    | indexed n palette => rfl
    | monoGfx colour => rfl
    | scrollingText colour launch =>
      exact ⟨_, rfl, rfl, rfl, rfl, rfl, rfl, rfl, rfl, rfl, rfl, rfl⟩

end Sys2Proof.Machine
end

section
/-! Every step keeps the invariant (10_state.md R57): what an agent's turn chooses, what each host command does
to the invariant, and the step assembled from both. -/

namespace Sys2Proof.Machine

/-! ### What an agent's turn chooses -/

/-- The operations of the producer and of the engine, where their rules enable them (R273, R274, R307, R308). -/
inductive EnabledOp (s : State) : Instr → Prop
  | wake (h : wakeEnabled s = true) : EnabledOp s .pWake
  | produce (h : s.prod.calcState = .running) : EnabledOp s .pStep
  | beat (h : beatEnabled s = true) : EnabledOp s .engBeat
  | complete (h : completeEnabled s = true) : EnabledOp s .evComplete

/-- A command the READY host may take in state `s`: a host command with operands the configuration has (R320). -/
structure TakesCommand (s : State) (i : Instr) : Prop where
  ready : s.host.hostState = .ready
  command : i.isCommand = true
  wellFormed : i.wellFormed s.cfg = true

/-- What an agent's turn can choose. -/
inductive TurnChoice (s : State) : Chosen → Prop
  | pass : TurnChoice s (.pass s)
  | phase : TurnChoice s (.phase s)
  | illegal (w : Word) : TurnChoice s (.illegal w)
  | command (i : Instr) (rest : List Word) (h : TakesCommand s i) :
      TurnChoice s (.perform i (s.setEnv { s.env with commands := rest }))
  | enabled (i : Instr) (h : EnabledOp s i) : TurnChoice s (.perform i s)

theorem hostTurn_choice (s : State) : TurnChoice s (hostTurn s) := by
  unfold hostTurn
  split
  next hready =>
    split
    next => exact .pass
    next w rest _ =>
      split
      next i hi =>
        obtain ⟨hdecode, hwf⟩ := (decodePort_eq_some s.cfg w i).mp hi
        exact .command i rest ⟨hready, decodeCommand_isCommand w i hdecode, hwf⟩
      next => exact .illegal w
  next => exact .phase

theorem producerTurn_choice (s : State) : TurnChoice s (producerTurn s) := by
  unfold producerTurn
  split
  next hwake => exact .enabled _ (.wake hwake)
  next =>
    split
    next hrun => exact .enabled _ (.produce hrun)
    next => exact .pass

theorem engineTurn_choice (s : State) : TurnChoice s (engineTurn s) := by
  unfold engineTurn
  split
  next hbeat => exact .enabled _ (.beat hbeat)
  next =>
    split
    next hcomplete => exact .enabled _ (.complete hcomplete)
    next => exact .pass

theorem agentTurn_choice (a : Agent) (s : State) : TurnChoice s (agentTurn a s) := by
  cases a with
  | host => exact hostTurn_choice s
  | producer => exact producerTurn_choice s
  | engine => exact engineTurn_choice s

/-! ### The host commands -/

/-- The outcomes of a host command from a state that meets the invariant: a next state that meets it, or the
fault of a broken contract (R352). -/
def KeepsInvOrViolates (r : Res) : Prop :=
  (∃ t, r = .next t ∧ Inv t) ∨ ∃ c, r = .fault (.contractViolation c)

theorem KeepsInvOrViolates.next {t : State} (h : Inv t) : KeepsInvOrViolates (.next t) := .inl ⟨t, rfl, h⟩

theorem KeepsInvOrViolates.violation (c : Contract) : KeepsInvOrViolates (violation c) := .inr ⟨c, rfl⟩

/-- An operation that leaves what the invariant reads as it was, the refresh rate included. -/
theorem Inv.sameRate {s t : State} (h : Inv s) (c : SameCore s t) (hrate : t.ctl.refreshRate = s.ctl.refreshRate) :
    Inv t :=
  h.same c (by rw [hrate]; exact h.regs.minRate) (by rw [hrate]; exact h.regs.maxRate)

/-- A layer below `MaxLayers` is in the pool. -/
theorem Inv.layer_of_hasLayer {s : State} (h : Inv s) {l : BitVec 4} (hl : s.cfg.hasLayer l = true) :
    ∃ lay, s.layers[l.toNat]? = some lay := by
  have hlt : l.toNat < s.layers.length := by rw [h.mem.pool]; exact of_decide_eq_true hl
  exact ⟨_, List.getElem?_eq_getElem hlt⟩

/-- SWAPBUFFERS and DRAWPIXEL on a layer of the pool: either it is not drawable, or the operation goes on. -/
theorem KeepsInvOrViolates.withDrawable {s : State} {l : Nat} {k : Layer → Res} {lay : Layer}
    (hl : s.layers[l]? = some lay)
    (go : lay.attached = true → lay.content.isText = false → KeepsInvOrViolates (k lay)) :
    KeepsInvOrViolates (withDrawable l s k) := by
  by_cases hbad : lay.attached = false ∨ lay.content.isText = true
  · rw [withDrawable_bad l s k lay hl hbad]
    exact .violation .badLayer
  · simp only [not_or, Bool.not_eq_false, Bool.not_eq_true] at hbad
    rw [withDrawable_of l s k lay hl hbad.1 hbad.2]
    exact go hbad.1 hbad.2

/-- BEGIN (R321). -/
theorem Inv.execBegin {s : State} (h : Inv s) (hr : s.host.hostState = .ready) :
    KeepsInvOrViolates (execBegin s) := by
  rcases h.begin hr with ⟨-, e⟩ | hnext
  · exact .inr ⟨_, e⟩
  · exact .inl hnext

/-- ADDLAYER (R322). -/
theorem Inv.execAddLayer {s : State} (h : Inv s) {l : BitVec 4} (hc : TakesCommand s (.addLayer l)) :
    KeepsInvOrViolates (execAddLayer l s) := by
  obtain ⟨lay, hl⟩ := h.layer_of_hasLayer hc.wellFormed
  unfold Machine.execAddLayer
  rw [whenReady_ready s _ hc.ready, withOperands_wellFormed _ s _ hc.wellFormed]
  split
  next => exact .violation .addAfterBegin
  next =>
    rw [withLayer_some _ _ _ _ hl]
    split
    next => exact .violation .addTwice
    next hatt => exact .inl (h.attach l.toNat lay hl (by simpa using hatt) hc.ready)

/-- SETREFRESHRATE keeps the rate in its range: it is raised to the floor, and above the ceiling the contract is
broken (R324). -/
theorem Inv.execSetRefreshRate {s : State} (h : Inv s) (v : BitVec 16) (hr : s.host.hostState = .ready) :
    KeepsInvOrViolates (execSetRefreshRate v s) := by
  unfold Machine.execSetRefreshRate
  rw [whenReady_ready s _ hr]
  dsimp only
  split
  next => exact .violation .rateTooHigh
  next hmax =>
    have hrate : (BitVec.ofNat 16 (max v.toNat s.cfg.minRefreshRate)).toNat
        = max v.toNat s.cfg.minRefreshRate := by
      have hmin := h.regs.minRate
      rw [BitVec.toNat_ofNat]
      exact Nat.mod_eq_of_lt (by omega)
    refine .next (h.same (by constructor <;> rfl) ?_ ?_)
    · exact (le_max_right _ _).trans_eq hrate.symm
    · exact hrate.trans_le (not_lt.mp hmax)

/-- SWAPBUFFERS puts the host in its first wait, on a drawable layer (R330). -/
theorem Inv.execSwapBuffers {s : State} (h : Inv s) {copy : BitVec 1} {l : BitVec 4}
    (hc : TakesCommand s (.swapBuffers copy l)) : KeepsInvOrViolates (execSwapBuffers copy l s) := by
  obtain ⟨lay, hl⟩ := h.layer_of_hasLayer hc.wellFormed
  unfold Machine.execSwapBuffers
  rw [whenReady_ready s _ hc.ready, withOperands_wellFormed _ s _ hc.wellFormed]
  refine .withDrawable hl fun hatt htext => .next ?_
  refine h.poolStep ⟨s.layers, _, rfl⟩ (PoolStep.refl _ _) ?_ ?_
  · intro k c hk
    cases hk
    exact ⟨lay, hl, hatt, htext⟩
  · intro k hk
    cases hk

/-- DRAWPIXEL writes one element of a drawable layer, or nothing (R332). -/
theorem Inv.execDrawPixel {s : State} (h : Inv s) {l : BitVec 4} {x y : BitVec 10}
    (hc : TakesCommand s (.drawPixel l x y)) : KeepsInvOrViolates (execDrawPixel l x y s) := by
  obtain ⟨lay, hl⟩ := h.layer_of_hasLayer hc.wellFormed
  have hbuilt := h.mem.built lay (List.mem_of_getElem? hl)
  unfold Machine.execDrawPixel
  rw [whenReady_ready s _ hc.ready, withOperands_wellFormed _ s _ hc.wellFormed]
  refine .withDrawable hl fun _ _ => ?_
  split
  next =>
    exact .next (h.poolStep ⟨_, s.host, rfl⟩
      (PoolStep.put hl (drawElement_layerStep s.cfg s.host _ lay hbuilt)) h.mem.swap h.mem.copy)
  next => exact .next h

/-- Every host command that the READY host takes keeps the invariant or breaks its contract. The commands
that only write controls, flags, host registers or responses leave what the invariant reads as it was. -/
theorem Inv.command {s : State} (h : Inv s) {i : Instr} (hc : TakesCommand s i) :
    KeepsInvOrViolates (exec i s) := by
  have hready : ∀ {t : State}, SameCore s t → t.ctl.refreshRate = s.ctl.refreshRate →
      KeepsInvOrViolates (whenReady s (.next t)) := fun hsame hrate => by
    rw [whenReady_ready s _ hc.ready]
    exact .next (h.sameRate hsame hrate)
  cases i with
  | beginBlock => exact h.execBegin hc.ready
  | addLayer l => exact h.execAddLayer hc
  | setRefreshRate v => exact h.execSetRefreshRate v hc.ready
  | swapBuffers copy l => exact h.execSwapBuffers hc
  | drawPixel l x y => exact h.execDrawPixel hc
  | setBrightness v => exact hready (by constructor <;> rfl) rfl
  | setRotation v => exact hready (by constructor <;> rfl) rfl
  | setCcMode v => exact hready (by constructor <;> rfl) rfl
  | getRefreshRate => exact hready (by constructor <;> rfl) rfl
  | getUnderrun => exact hready (by constructor <;> rfl) rfl
  | getLowered => exact hready (by constructor <;> rfl) rfl
  | setColor ch v => exact hready (by constructor <;> rfl) rfl
  | setIndex v => exact hready (by constructor <;> rfl) rfl
  | _ => cases hc.command

/-! ### The step -/

/-- An enabled operation of the producer or the engine answers and keeps the invariant. -/
theorem Inv.enabledOp {s : State} (h : Inv s) {i : Instr} (he : EnabledOp s i) :
    ∃ t, exec i s = .next t ∧ Inv t := by
  cases he with
  | wake hwake => exact h.pWake hwake
  | produce hrun => exact h.pStep hrun
  | beat hbeat => exact h.engBeat hbeat
  | complete hcomplete => exact h.evComplete hcomplete

/-- The words waiting at the command port are no part of what the invariant reads. -/
theorem Inv.setCommands {s : State} (h : Inv s) (rest : List Word) :
    Inv (s.setEnv { s.env with commands := rest }) :=
  h.sameRate (by constructor <;> rfl) rfl

theorem TakesCommand.setCommands {s : State} {i : Instr} (h : TakesCommand s i) (rest : List Word) :
    TakesCommand (s.setEnv { s.env with commands := rest }) i :=
  ⟨h.ready, h.command, h.wellFormed⟩

/-- A step from a state that meets the invariant keeps it, breaks a host contract, or is refused at an illegal
word (R351, R353). -/
theorem Inv.step_outcome {s : State} (h : Inv s) :
    KeepsInvOrViolates (step s) ∨ ∃ w, step s = .refused (.illegalWord w) := by
  have hturn : Inv (Machine.takeTurn s) := h.takeTurn
  have hchoose := choose_turn s h.bench
  have hchoice := agentTurn_choice (nextAgent s) (Machine.takeTurn s)
  rw [← hchoose] at hchoice
  generalize hchosen : choose s = chosen at hchoice
  cases hchoice with
  | pass => exact .inl (by rw [step_pass s _ hchosen]; exact .next hturn)
  | phase => exact .inl (by rw [step_phase s _ hchosen]; exact .inl hturn.hostPhase)
  | illegal w => exact .inr ⟨w, step_illegal s w hchosen⟩
  | command i rest hc =>
    exact .inl (by
      rw [step_perform s _ i hchosen]
      exact (hturn.setCommands rest).command (hc.setCommands rest))
  | enabled i he => exact .inl (by rw [step_perform s _ i hchosen]; exact .inl (hturn.enabledOp he))

/-- Settles O57: of the outcomes a step can have from a state that meets the invariant, the only next state is
one that meets it. -/
theorem stepKeepsTheInvariant : Obligations.StepKeepsTheInvariant := by
  intro s t h hstep
  rcases h.step_outcome with (⟨u, hu, hinv⟩ | ⟨c, hfault⟩) | ⟨w, hrefused⟩
  · rw [hstep] at hu
    cases hu
    exact hinv
  · rw [hstep] at hfault
    cases hfault
  · rw [hstep] at hrefused
    cases hrefused

end Sys2Proof.Machine
end

section
/-! Every read of a memory before its first write is a fault (10_state.md R56), operation by operation. -/

namespace Sys2Proof.Machine

/-! ### The encoder and the compositor -/

/-- Each encoder variant stops at an unwritten sample of the working rows (R197 to R199). -/
theorem exec_encPlane_unwritten (s : State) (w : BitVec 8) (i : BitVec 4) (k : Nat)
    (hw : w.toNat < s.cfg.capacity) (hi : i.toNat < s.cfg.depth) (hk : k < 2 * s.cfg.stack * s.cfg.width)
    (hread : Store.read s.work k = none) :
    (s.cfg.depth = 8 → exec (.encPlane24 w i) s = .fault (.unspecifiedRead .work)) ∧
    (s.cfg.depth = 12 → exec (.encPlane36 w i) s = .fault (.unspecifiedRead .work)) ∧
    (s.cfg.depth = 16 → exec (.encPlane48 w i) s = .fault (.unspecifiedRead .work)) := by
  have hstop : encodePlane w.toNat i.toNat s = .fault (.unspecifiedRead .work) :=
    encodePlane_missing w.toNat i.toNat k s hk hread
  have hplane : ∀ n, s.cfg.depth = n → s.cfg.hasPlane n w i = true := by
    rintro n rfl
    simp [Config.hasPlane, hw, hi]
  refine ⟨fun hd => ?_, fun hd => ?_, fun hd => ?_⟩
  · show execEncPlane24 w i s = _
    rw [execEncPlane24, if_pos hd, withOperands_wellFormed (.encPlane24 w i) s _ (hplane 8 hd)]
    exact hstop
  · show execEncPlane36 w i s = _
    rw [execEncPlane36, if_pos hd, withOperands_wellFormed (.encPlane36 w i) s _ (hplane 12 hd)]
    exact hstop
  · show execEncPlane48 w i s = _
    rw [execEncPlane48, if_pos hd, withOperands_wellFormed (.encPlane48 w i) s _ (hplane 16 hd)]
    exact hstop

theorem hasRow_of_lt {c : Config} {y g : BitVec 10} (hy : y.toNat < c.height) (hg : g.toNat < c.stack) :
    c.hasRow y g = true := by
  simp [Config.hasRow, hy, hg]

/-- L.FILLROW stops at an unreadable column of the layer (R233). -/
theorem exec_lFillRow_unwritten (s : State) (l : BitVec 4) (y g : BitVec 10) (j : BitVec 1) (sh : BitVec 4)
    (lay : Layer) (x : Nat) (hl : l.toNat < s.cfg.maxLayers) (hy : y.toNat < s.cfg.height)
    (hg : g.toNat < s.cfg.stack) (hlay : s.layers[l.toNat]? = some lay) (hx : x < s.cfg.width)
    (hsample : sample s.cfg lay y.toNat x = .unspecified) :
    exec (.lFillRow l y g j sh) s = .fault (.unspecifiedRead .layerBuf) := by
  have hwf : (Instr.lFillRow l y g j sh).wellFormed s.cfg = true := by
    simp [Instr.wellFormed, Config.hasLayer, hl, hasRow_of_lt hy hg]
  exact (withOperands_wellFormed _ s _ hwf).trans
    (layerFillRow_missing l.toNat y.toNat g.toNat j.toNat sh s lay x hlay hx hsample)

/-- COMP.FILLROW stops at an unreadable column of a layer of the chain (R243). -/
theorem exec_compFillRow_unwritten (s : State) (y g : BitVec 10) (j : BitVec 1) (ls : List Nat) (l : Nat)
    (lay : Layer) (x : Nat) (hy : y.toNat < s.cfg.height) (hg : g.toNat < s.cfg.stack) (hc : ChainOk s ls)
    (hl : l ∈ ls) (hlay : s.layers[l]? = some lay) (hx : x < s.cfg.width)
    (hsample : sample s.cfg lay y.toNat x = .unspecified) :
    exec (.compFillRow y g j) s = .fault (.unspecifiedRead .layerBuf) :=
  (withOperands_wellFormed (.compFillRow y g j) s _ (hasRow_of_lt hy hg)).trans
    (chainFillRow_missing y.toNat g.toNat j.toNat s ls hc l lay x hl hlay hx hsample)

/-! ### The copy of SWAPBUFFERS -/

/-- Phase 2 of SWAPBUFFERS, once the swap has been carried out, stops at an unwritten element of the refresh
buffer (R330). -/
theorem hostPhase_copy_unwritten (s : State) (l : Nat) (lay : Layer) (y x : Nat)
    (hstate : s.host.hostState = .swapWait2 l) (hlay : s.layers[l]? = some lay)
    (hswap : lay.swapPending = false) (hy : y < s.cfg.height) (hx : x < s.cfg.width)
    (hread : lay.content.UnwrittenAt (bufferIndex s.cfg lay.refreshBuffer y x)) :
    hostPhase s = .fault (.unspecifiedRead .layerBuf) := by
  unfold hostPhase
  rw [hstate]
  dsimp only
  rw [withLayer_some _ _ _ _ hlay, hswap, if_neg Bool.false_ne_true, swapCopy,
    copyContent_missing s.cfg _ lay.drawBuffer y x lay.content hy hx hread]

/-- A turn of the host that is not READY is its next phase. -/
theorem step_host_phase (s : State) (hbench : s.env.bench = []) (hagent : nextAgent s = .host)
    (hstate : s.host.hostState ≠ .ready) : step s = hostPhase (takeTurn s) := by
  obtain ⟨e, he, -⟩ := takeTurn_frame s
  refine step_phase s _ ?_
  rw [choose_turn s hbench, hagent, he]
  exact if_neg hstate

/-- The copy of SWAPBUFFERS as a step: the turn of a host in its second wait (R330). -/
theorem step_copy_unwritten (s : State) (l : Nat) (lay : Layer) (y x : Nat) (hbench : s.env.bench = [])
    (hagent : nextAgent s = .host) (hstate : s.host.hostState = .swapWait2 l)
    (hlay : s.layers[l]? = some lay) (hswap : lay.swapPending = false) (hy : y < s.cfg.height)
    (hx : x < s.cfg.width)
    (hread : lay.content.UnwrittenAt (bufferIndex s.cfg lay.refreshBuffer y x)) :
    step s = .fault (.unspecifiedRead .layerBuf) := by
  obtain ⟨e, he, -⟩ := takeTurn_frame s
  rw [step_host_phase s hbench hagent (by rw [hstate]; exact HostState.noConfusion), he]
  exact hostPhase_copy_unwritten (s.setEnv e) l lay y x hstate hlay hswap hy hx hread

/-! ### The engine -/

/-- ENG.BEAT stops where the row address, the timing pair or a word of the slot in flight is unwritten (R273). -/
theorem exec_engBeat_unwritten (s : State) (hbegun : s.flags.begun = true)
    (hshift : s.eng.schedState = .shifting) (hbeat : s.eng.beatIndex < s.cfg.depth)
    (hread : slotRowAddress s.cfg s.slots s.eng.curSlot = none ∨
      slotTiming s.cfg s.slots s.eng.curSlot s.eng.beatIndex = none ∨
      ∃ q, q < s.cfg.wordsPerPlane ∧ slotWord s.cfg s.slots s.eng.curSlot s.eng.beatIndex q = none) :
    exec .engBeat s = .fault (.unspecifiedRead .slot) := by
  have henabled : beatEnabled s = true := by simp [beatEnabled, beatLimit, hbegun, hshift, hbeat]
  show execEngBeat s = _
  rw [execEngBeat, if_pos henabled, if_pos hshift, dataBeat_missing _ _ _ _ hread]

/-! ### The calculation -/

/-- The timing table is no part of what a chain is. -/
theorem ChainOk.setTT {s : State} {ls : List Nat} (h : ChainOk s ls) (tt : Store TimingPair) :
    ChainOk (s.setTT tt) ls :=
  h.same rfl rfl

/-- After the composition of a hardware row every bit-plane of the working rows is encodable (R303, R304). -/
theorem composeRow_planeWords (r : Nat) (ls : List Nat) (s : State) (hv : s.cfg.valid = true)
    (hr : r < s.cfg.scanRows) (hc : ChainWritten s ls) :
    ∃ w, composeRow r s = .next (s.setWork w) ∧ ∀ i, ∃ ws, planeWords s.cfg w i = some ws := by
  obtain ⟨w, hcompose, hrows, -⟩ := composeRow_spec r ls s hv hr hc
  refine ⟨w, hcompose, fun i => planeWords_isSome _ _ _ fun pos hpos => ?_⟩
  refine dataWord_isSome s.cfg w i (Config.valid.size hv).1 (fun g j x hg hj hx => ?_) pos hpos
  rw [hrows g j x hg hj hx, Option.isSome_some]

/-- CALC.STEP composes its row and then stops at an unwritten entry of the timing table, where the frame start
does not recompute the table (R301, R304). -/
theorem calcRow_unwritten (s : State) (tt : Store TimingPair) (i : Nat) (h : CalcReady s)
    (hquiet : s.prod.rowIndex ≠ 0 ∨
      (s.flags.brightnessChanged = false ∧ s.flags.refreshRateChanged = false))
    (hi : i < s.cfg.depth) (hread : Store.read tt i = none) :
    calcRow (s.setTT tt) = .fault (.unspecifiedRead .timing) := by
  obtain ⟨ls, hc⟩ := h.chain
  obtain ⟨flags, layers, free, henter, hpool⟩ := frameEntered_quiet (s.setTT tt) ls (hc.setTT tt) hquiet
  -- the state after the frame-start work
  set m : State := { s.setTT tt with flags := flags, layers := layers, freeCount := free }
  have hchain : ChainOk m ls := (hc.setTT tt).poolStep rfl hpool
  have hwritten : ChainWritten m ls := hchain.written (hpool.built h.built) (hpool.ready h.ready)
  obtain ⟨w, hcompose, hplanes⟩ := composeRow_planeWords s.prod.rowIndex ls m h.valid h.row hwritten
  have hfill : fillSlot (ringNextW (m.setWork w)) s.prod.rowIndex (m.setWork w)
      = .fault (.unspecifiedRead .timing) :=
    fillSlot_missing _ _ i (m.setWork w) h.valid hi hread fun k _ => hplanes k
  calc calcRow (s.setTT tt)
      = andThen (frameEntered (s.setTT tt)) fun s =>
          andThen (composeRow s.prod.rowIndex s) fun s =>
            andThen (fillSlot (ringNextW s) s.prod.rowIndex s) fun s =>
              .next (commitRow s.prod.rowIndex s) := rfl
    _ = andThen (composeRow m.prod.rowIndex m) fun s =>
          andThen (fillSlot (ringNextW s) s.prod.rowIndex s) fun s =>
            .next (commitRow s.prod.rowIndex s) := by rw [henter, andThen_next]
    _ = andThen (fillSlot (ringNextW (m.setWork w)) s.prod.rowIndex (m.setWork w)) fun s =>
          .next (commitRow s.prod.rowIndex s) := by
        rw [show m.prod.rowIndex = s.prod.rowIndex from rfl, hcompose, andThen_next]; rfl
    _ = .fault (.unspecifiedRead .timing) := by rw [hfill, andThen_fault]

/-- CALC.STEP performed on its own, with a slot free (R301). -/
theorem exec_calcStep_unwritten (s : State) (tt : Store TimingPair) (i : Nat) (h : CalcReady s)
    (hfree : s.ring.count < s.cfg.capacity)
    (hquiet : s.prod.rowIndex ≠ 0 ∨
      (s.flags.brightnessChanged = false ∧ s.flags.refreshRateChanged = false))
    (hi : i < s.cfg.depth) (hread : Store.read tt i = none) :
    exec .calcStep (s.setTT tt) = .fault (.unspecifiedRead .timing) := by
  have hnotFull : ¬ ringIsFull (s.setTT tt) = true := by simp [ringIsFull, Nat.ne_of_lt hfree]
  exact (if_neg hnotFull).trans (calcRow_unwritten s tt i h hquiet hi hread)

/-! ### The linear image -/

/-- MemRead of a legal access stops at an unwritten byte (20_memory.md R94). -/
theorem memRead_unwritten (s : State) (a n k : Nat) (hsize : n = 1 ∨ n = 2 ∨ n = 4) (halign : a % n = 0)
    (hpool : a + n ≤ s.cfg.capacity * s.cfg.slotBytes) (hk : k < n)
    (hread : Store.read s.slots (a + k) = none) :
    memRead s a n = .fault (.unspecifiedRead .slot) := by
  have haccess : imageAccess s.cfg a n = true := by
    simp [imageAccess, Config.poolBytes, hsize, halign, hpool]
  rw [memRead, if_pos haccess, Memory.readLE_missing s.slots a n k hk hread]

/-- Settles O60: each reading operation stops at the element that is not written. -/
theorem unwrittenReadsFault : Obligations.UnwrittenReadsFault :=
  ⟨exec_encPlane_unwritten, exec_lFillRow_unwritten, exec_compFillRow_unwritten, step_copy_unwritten,
    exec_engBeat_unwritten, exec_calcStep_unwritten, memRead_unwritten⟩

end Sys2Proof.Machine
end

section
/-! MemRead and MemWrite over the linear image of the slot pool (20_memory.md R91, R94, R95): which accesses are
admitted, and which bytes a write leaves behind. -/

namespace Sys2Proof.Machine

/-! ### Which accesses the image admits -/

theorem imageAccess_iff (c : Config) (a n : Nat) :
    imageAccess c a n = true ↔
      (n = 1 ∨ n = 2 ∨ n = 4) ∧ a % n = 0 ∧ a + n ≤ c.capacity * c.slotBytes := by
  rw [imageAccess, Bool.and_eq_true, Bool.and_eq_true, decide_eq_true_iff, decide_eq_true_iff,
    decide_eq_true_iff, and_assoc, Config.poolBytes]

theorem memWrite_admitted (s : State) (a n v : Nat) (h : imageAccess s.cfg a n = true) :
    memWrite s a n v = .next (s.setSlots (Store.writeRange s.slots a (leBytes n v))) :=
  if_pos h

theorem memWrite_refused (s : State) (a n v : Nat) (h : ¬ imageAccess s.cfg a n = true) :
    memWrite s a n v = .refused .badAccess :=
  if_neg h

theorem memRead_refused (s : State) (a n : Nat) (h : ¬ imageAccess s.cfg a n = true) :
    memRead s a n = .refused .badAccess :=
  if_neg h

theorem memRead_admitted (s : State) (a n v : Nat) (h : imageAccess s.cfg a n = true)
    (hread : Memory.readLE s.slots a n = some v) : memRead s a n = .next v := by
  rw [memRead, if_pos h, hread]

/-! ### The bytes of a write -/

/-- Byte order is little-endian (R91): byte `k` is the digit of weight `256^k`. -/
theorem leBytes_getElem (n v k : Nat) (h : k < (leBytes n v).length) :
    (leBytes n v)[k] = BitVec.ofNat 8 (v / 256 ^ k) := by
  induction n generalizing v k with
  | zero => simp at h
  | succ n ih =>
    cases k with
    | zero => simp [leBytes]
    | succ k => simp [leBytes, ih, Nat.div_div_eq_div_mul, Nat.pow_succ']

theorem Store.read_writeLE_inside (m : Memory) (a n v k : Nat) (hk : k < n) :
    Store.read (Store.writeRange m a (leBytes n v)) (a + k) = some (BitVec.ofNat 8 (v / 256 ^ k)) := by
  have hlen : k < (leBytes n v).length := by rwa [leBytes_length]
  rw [Store.read_writeRange_inside m a _ k hlen, leBytes_getElem]

theorem Store.read_writeLE_outside (m : Memory) (a n v b : Nat) (hb : b < a ∨ a + n ≤ b) :
    Store.read (Store.writeRange m a (leBytes n v)) b = Store.read m b :=
  Store.read_writeRange_outside m a _ b (by rwa [leBytes_length])

/-- MemRead of the access MemWrite made gives back the value in the bits it can hold (R94). -/
theorem memRead_after_write (s : State) (a n v : Nat) (h : imageAccess s.cfg a n = true) :
    memRead (s.setSlots (Store.writeRange s.slots a (leBytes n v))) a n = .next (v % 2 ^ (8 * n)) := by
  have hbits : 256 ^ n = 2 ^ (8 * n) := (Nat.pow_mul 2 8 n).symm
  exact memRead_admitted _ a n _ h (hbits ▸ Memory.readLE_write s.slots a n v)

/-- Settles O55: an admitted access writes the little-endian bytes of the value, and the three conditions of R94
and R95 are all that admits one. -/
theorem imageReadsAndWrites : Obligations.ImageReadsAndWrites := by
  intro s a n v
  constructor
  · intro hsize halign hpool
    have haccess : imageAccess s.cfg a n = true := (imageAccess_iff s.cfg a n).mpr ⟨hsize, halign, hpool⟩
    exact ⟨Store.writeRange s.slots a (leBytes n v), memWrite_admitted s a n v haccess,
      memRead_after_write s a n v haccess, Store.read_writeLE_inside s.slots a n v,
      Store.read_writeLE_outside s.slots a n v⟩
  · intro hbad
    have haccess : ¬ imageAccess s.cfg a n = true := by
      rw [imageAccess_iff]
      rintro ⟨hsize, halign, hpool⟩
      rcases hbad with hbad | hbad | hbad
      · exact hbad hsize
      · exact hbad halign
      · exact Nat.not_lt.mpr hpool hbad
    exact ⟨memWrite_refused s a n v haccess, memRead_refused s a n haccess⟩

end Sys2Proof.Machine
end

section
/-! Words and operations (30_encoding.md R121 to R126): a command word is read back, it is the only word of its
command, and a micro-operation's record starts with the tag of its operation id. -/

namespace Sys2Proof

/-! ### Fields of a word as numbers -/

theorem field_toNat (w : Word) (lo n : Nat) : (field w lo n).toNat = w.toNat / 2 ^ lo % 2 ^ n :=
  BitVec.toNat_ofNat _ _

theorem field_eq_zero_iff (w : Word) (lo n : Nat) :
    field w lo n = 0 ↔ w.toNat / 2 ^ lo % 2 ^ n = 0 := by
  rw [← BitVec.toNat_inj, field_toNat, BitVec.ofNat_eq_ofNat, BitVec.toNat_ofNat, Nat.zero_mod]

theorem noOperand_iff (w : Word) : noOperand w = true ↔ field w 0 24 = 0 := beq_iff_eq

/-- The operation number of a word is what stands above its operand field. -/
theorem opOf_toNat (w : Word) : (opOf w).toNat = w.toNat / 2 ^ 24 := by
  rw [opOf, field_toNat]
  omega

theorem channelOf_eq_none_iff (ch : BitVec 2) : channelOf ch = none ↔ ch.toNat = 3 := by
  revert ch
  decide

theorem code_of_channelOf (ch : BitVec 2) (c : Channel) (h : channelOf ch = some c) : c.code = ch := by
  revert ch
  cases c <;> decide

/-- A word is put together from its operation number and the number of its operand field. -/
theorem commandWord_eq (w : Word) (op f : Nat) (hop : (opOf w).toNat = op) (hf : f = w.toNat % 2 ^ 24) :
    commandWord op f = w := by
  rw [opOf_toNat] at hop
  apply BitVec.eq_of_toNat_eq
  rw [commandWord, BitVec.toNat_ofNat]
  omega

/-! ### Command words with one operand, right-aligned (R122) -/

section
variable {n m : Nat}

theorem operand_lt (v : BitVec n) (hn : n ≤ 24) : v.toNat < 2 ^ 24 :=
  Nat.lt_of_lt_of_le v.isLt (Nat.pow_le_pow_right (by decide) hn)

theorem opOf_operandWord (op : Nat) (v : BitVec n) (hop : op < 256) (hn : n ≤ 24) :
    (opOf (commandWord op v.toNat)).toNat = op :=
  opOf_commandWord_toNat op _ hop (operand_lt v hn)

/-- The operand of a command word is read back. -/
theorem field_operandWord (op : Nat) (v : BitVec n) (hop : op < 256) (hn : n ≤ 24) :
    field (commandWord op v.toNat) 0 n = v := by
  rw [field_commandWord_operand op _ 0 n hop (operand_lt v hn) (by omega), Nat.pow_zero, Nat.div_one,
    BitVec.ofNat_toNat, BitVec.setWidth_eq]

/-- The bits between the operand and the operation number are zero. -/
theorem field_above_operandWord (op : Nat) (v : BitVec n) (hop : op < 256) (hnm : n + m = 24) :
    field (commandWord op v.toNat) n m = 0 := by
  rw [field_commandWord_operand op _ n m hop (operand_lt v (by omega)) (by omega), Nat.div_eq_of_lt v.isLt,
    BitVec.ofNat_eq_ofNat]

/-- A word whose bits above the operand are zero is the command word of its operand. -/
theorem commandWord_field (w : Word) (op : Nat) (hop : (opOf w).toNat = op) (hnm : n + m = 24)
    (hz : field w n m = 0) : commandWord op (field w 0 n).toNat = w := by
  rw [field_eq_zero_iff] at hz
  apply commandWord_eq w op _ hop
  rw [field_toNat, ← hnm, Nat.pow_add, Nat.mod_mul, hz, Nat.mul_zero, Nat.add_zero, Nat.pow_zero,
    Nat.div_one]

end

/-! ### Command words with several operands -/

/-- A field of a command word is the value that the number of the operand field has there. -/
theorem field_commandWord_eq {n : Nat} (op f lo : Nat) (v : BitVec n) (hop : op < 256) (hf : f < 2 ^ 24)
    (hn : lo + n ≤ 24) (hv : f / 2 ^ lo % 2 ^ n = v.toNat) : field (commandWord op f) lo n = v := by
  apply BitVec.eq_of_toNat_eq
  rw [field_commandWord_operand op f lo n hop hf hn, BitVec.toNat_ofNat, hv]

theorem decodeCommand_swapBuffers (copy : BitVec 1) (l : BitVec 4) :
    decodeCommand (commandWord 0x07 (copy.toNat * 2 ^ 8 + l.toNat)) = some (.swapBuffers copy l) := by
  have hcopy := copy.isLt
  have hl := l.isLt
  have hf : copy.toNat * 2 ^ 8 + l.toNat < 2 ^ 24 := by omega
  have hread {n : Nat} (lo : Nat) (v : BitVec n) := field_commandWord_eq 0x07 _ lo v (by decide) hf
  simp only [decodeCommand, opOf_commandWord_toNat 0x07 _ (by decide) hf]
  rw [hread 8 copy (by decide) (by omega), hread 0 l (by decide) (by omega), if_pos]
  exact ⟨hread 9 0 (by decide) (by simp; omega), hread 4 0 (by decide) (by simp; omega)⟩

theorem decodeCommand_setColor (ch : Channel) (v : BitVec 16) :
    decodeCommand (commandWord 0x0B (ch.code.toNat * 2 ^ 16 + v.toNat)) = some (.setColor ch v) := by
  have hch := ch.code.isLt
  have hv := v.isLt
  have hf : ch.code.toNat * 2 ^ 16 + v.toNat < 2 ^ 24 := by omega
  have hread {n : Nat} (lo : Nat) (v : BitVec n) := field_commandWord_eq 0x0B _ lo v (by decide) hf
  simp only [decodeCommand, opOf_commandWord_toNat 0x0B _ (by decide) hf]
  rw [hread 16 ch.code (by decide) (by omega), hread 0 v (by decide) (by omega), channelOf_code, if_pos]
  exact hread 18 0 (by decide) (by simp; omega)

theorem decodeCommand_drawPixel (l : BitVec 4) (x y : BitVec 10) :
    decodeCommand (commandWord 0x0D (l.toNat * 2 ^ 20 + x.toNat * 2 ^ 10 + y.toNat)) =
      some (.drawPixel l x y) := by
  have hl := l.isLt
  have hx := x.isLt
  have hy := y.isLt
  have hf : l.toNat * 2 ^ 20 + x.toNat * 2 ^ 10 + y.toNat < 2 ^ 24 := by omega
  have hread {n : Nat} (lo : Nat) (v : BitVec n) := field_commandWord_eq 0x0D _ lo v (by decide) hf
  simp only [decodeCommand, opOf_commandWord_toNat 0x0D _ (by decide) hf]
  rw [hread 20 l (by decide) (by omega), hread 10 x (by decide) (by omega),
    hread 0 y (by decide) (by omega)]

/-! ### A command is read back from its word, and no other word spells it -/

/-- R122, R125: the word a host command encodes to is read as that command. -/
theorem decodeCommand_encode (i : Instr) (h : i.isCommand = true) :
    ∃ w, encode i = [w] ∧ decodeCommand w = some i := by
  cases i with
  | beginBlock | getRefreshRate | getUnderrun | getLowered => exact ⟨_, rfl, rfl⟩
  | addLayer v | setBrightness v | setRefreshRate v | setRotation v | setCcMode v | setIndex v =>
    exact ⟨_, rfl, by
      simp [decodeCommand, opOf_operandWord, field_operandWord, field_above_operandWord]⟩
  | swapBuffers copy l => exact ⟨_, rfl, decodeCommand_swapBuffers copy l⟩
  | setColor ch v => exact ⟨_, rfl, decodeCommand_setColor ch v⟩
  | drawPixel l x y => exact ⟨_, rfl, decodeCommand_drawPixel l x y⟩
  | _ => cases h

/-- An arm of the command decoder for format H0: all 24 operand bits are zero. -/
theorem encode_of_noOperand {w : Word} {i j : Instr} {op : Nat} (hop : (opOf w).toNat = op)
    (h : (if noOperand w then some j else none) = some i) (hj : encode j = [commandWord op 0]) :
    encode i = [w] := by
  obtain ⟨hzero, hij⟩ := Option.ite_none_right_eq_some.mp h
  rw [noOperand_iff, field_eq_zero_iff] at hzero
  rw [← Option.some.inj hij, hj, commandWord_eq w op 0 hop (by omega)]

/-- An arm of the command decoder for one right-aligned operand with zero bits above it. -/
theorem encode_of_operand {w : Word} {i : Instr} {op n m : Nat} {j : BitVec n → Instr}
    (hop : (opOf w).toNat = op)
    (h : (if field w n m = 0 then some (j (field w 0 n)) else none) = some i) (hnm : n + m = 24)
    (hj : ∀ v, encode (j v) = [commandWord op v.toNat]) : encode i = [w] := by
  obtain ⟨hzero, hij⟩ := Option.ite_none_right_eq_some.mp h
  rw [← Option.some.inj hij, hj, commandWord_field w op hop hnm hzero]

/-- R121, R122: no bit of a command word is ignored. -/
theorem encode_of_decodeCommand (w : Word) (i : Instr) (h : decodeCommand w = some i) :
    encode i = [w] := by
  unfold decodeCommand at h
  split at h
  next hop => exact encode_of_noOperand hop h rfl
  next hop => exact encode_of_operand hop h rfl fun _ => rfl
  next hop => exact encode_of_operand hop h rfl fun _ => rfl
  next hop => exact encode_of_operand hop h rfl fun _ => rfl
  next hop => exact encode_of_operand hop h rfl fun _ => rfl
  next hop => exact encode_of_operand hop h rfl fun _ => rfl
  next hop =>
    -- SWAPBUFFERS: two zero fields, above `copy` and between `copy` and `layer`.
    simp only [field_eq_zero_iff] at h
    obtain ⟨⟨hhigh, hmid⟩, hij⟩ := Option.ite_none_right_eq_some.mp h
    rw [← Option.some.inj hij, encode, commandWord_eq w _ _ hop]
    rw [field_toNat, field_toNat]
    omega
  next hop => exact encode_of_noOperand hop h rfl
  next hop => exact encode_of_noOperand hop h rfl
  next hop => exact encode_of_noOperand hop h rfl
  next hop =>
    -- SETCOLOR: the channel's number is the field it was read from.
    obtain ⟨hhigh, hij⟩ := Option.ite_none_right_eq_some.mp h
    rw [field_eq_zero_iff] at hhigh
    split at hij
    next ch hch =>
      rw [← Option.some.inj hij, encode, code_of_channelOf _ _ hch, commandWord_eq w _ _ hop]
      rw [field_toNat, field_toNat]
      omega
    next => cases hij
  next hop => exact encode_of_operand hop h rfl fun _ => rfl
  next hop =>
    -- DRAWPIXEL: its three fields are all of the operand.
    rw [← Option.some.inj h, encode, commandWord_eq w _ _ hop]
    rw [field_toNat, field_toNat, field_toNat]
    omega
  next => cases h

/-! ### Micro-operations: the tag, then one operand word for each argument (R123, R126; log 4) -/

theorem decode_tagWord (op : Nat) (hlow : 0x0D < op) (hop : op < 256) (ws : List Word) :
    decode (tagWord op :: ws) = decodeTag (tagWord op) ws :=
  decode_tag _ ws (decodeCommand_tagWord op hop hlow)

theorem tagWord_toNat (op : Nat) (hop : op < 256) : (tagWord op).toNat = op * 2 ^ 24 := by
  rw [tagWord, commandWord_toNat op 0 hop (by decide), Nat.add_zero]

/-- The tag selects the arm of the decoder, and each operand word gives back the argument it holds. -/
theorem decode_encode_micro (i : Instr) (h : i.isCommand = false) (rest : List Word) :
    decode (encode i ++ rest) = some (i, rest) := by
  cases i with
  | beginBlock | addLayer | setBrightness | setRefreshRate | setRotation | setCcMode | swapBuffers
  | getRefreshRate | getUnderrun | getLowered | setColor | setIndex | drawPixel => cases h
  | _ =>
    simp [encode, decode_tagWord, decodeTag, noOperand_tagWord, opOf_tagWord_toNat, takeArg_argWord]

/-- R126: the record starts with the tag of the id that the table has for the mnemonic. -/
theorem encode_eq_tag_cons (i : Instr) (h : i.isCommand = false) :
    ∃ op ws, (i.mnemonic, op) ∈ Machine.microIds ∧ encode i = tagWord op :: ws := by
  cases i with
  | beginBlock | addLayer | setBrightness | setRefreshRate | setRotation | setCcMode | swapBuffers
  | getRefreshRate | getUnderrun | getLowered | setColor | setIndex | drawPixel => cases h
  | _ => exact ⟨_, _, by simp [Machine.microIds, Instr.mnemonic], rfl⟩

/-- The operation ids of R126 fit the byte `op` and stand above the operation numbers of the commands. -/
theorem microIds_range : ∀ p ∈ Machine.microIds, 0x0D < p.2 ∧ p.2 < 256 := by
  simp [Machine.microIds]

/-! ### The round trip, the one word of a command, and the tags -/

/-- A word that spells no command spells none to any configuration. -/
theorem decodePort_of_none (c : Config) (w : Word) (h : decodeCommand w = none) : decodePort c w = none := by
  simp only [decodePort, h]

/-- Settles O1: a command is read back from its one word, a micro-operation from its tag and operand words. -/
theorem decodeEncodeRoundTrip : Obligations.DecodeEncodeRoundTrip := by
  intro i rest
  cases hcommand : i.isCommand with
  | true =>
    obtain ⟨w, hencode, hdecode⟩ := decodeCommand_encode i hcommand
    rw [hencode]
    exact decode_command w rest i hdecode
  | false => exact decode_encode_micro i hcommand rest

/-- Settles O2: each arm of the command decoder checks every bit that its command does not use. -/
theorem eachCommandHasOneWord : Obligations.EachCommandHasOneWord := encode_of_decodeCommand

/-- Settles O5: the tag of a micro-operation stands above the commands' operation numbers. -/
theorem microOperationWordsAreTags : Obligations.MicroOperationWordsAreTags := by
  intro i hmicro
  obtain ⟨op, ws, hid, hencode⟩ := encode_eq_tag_cons i hmicro
  obtain ⟨hlow, hop⟩ := microIds_range _ hid
  refine ⟨op, tagWord op, ws, hid, hencode, tagWord_toNat op hop, fun c => ?_⟩
  exact decodePort_of_none c _ (decodeCommand_tagWord op hop hlow)

end Sys2Proof
end

section
/-! The command port (30_encoding.md R127, R130): the words it refuses, and the host's turn at a word. -/

namespace Sys2Proof.Machine

/-! ### The must-be-zero bits of a format -/

/-- A field is zero exactly when the word has no bit in the field's mask. -/
theorem field_eq_zero_iff_mask (w : Word) (lo n mask : Nat) (hmask : mask = (2 ^ n - 1) <<< lo) :
    field w lo n = 0 ↔ w.toNat &&& mask = 0 := by
  have hand : w.toNat &&& mask = (w.toNat / 2 ^ lo % 2 ^ n) <<< lo := by
    rw [hmask, ← Nat.shiftRight_eq_div_pow, ← Nat.and_two_pow_sub_one_eq_mod]
    apply Nat.eq_of_testBit_eq
    intro k
    simp only [Nat.testBit_and, Nat.testBit_shiftLeft, Nat.testBit_shiftRight,
      Nat.testBit_two_pow_sub_one]
    by_cases hk : lo ≤ k
    · simp [hk, Nat.add_sub_cancel' hk]
    · simp [hk]
  rw [field_eq_zero_iff, hand, Nat.shiftLeft_eq, Nat.mul_eq_zero]
  simp

/-! ### Words that are no command's -/

/-- The part of R127 that holds in every configuration: all but `layer >= MaxLayers`. -/
def Malformed (w : Nat) : Prop :=
  w / 2 ^ 24 = 0 ∨ 0x0E ≤ w / 2 ^ 24 ∨ w &&& mustBeZero (w / 2 ^ 24) ≠ 0 ∨
    (w / 2 ^ 24 = 0x0B ∧ w / 2 ^ 16 % 4 = 3)

theorem illegalOnPort_iff (c : Config) (w : Nat) :
    IllegalOnPort c w ↔ Malformed w ∨ ∃ l, layerField w = some l ∧ c.maxLayers ≤ l := by
  rw [IllegalOnPort, Malformed, or_assoc, or_assoc, or_assoc,
    or_comm (a := w / 2 ^ 24 = 0x0B ∧ w / 2 ^ 16 % 4 = 3)]

/-- For a command's operation number, what is left of R127 is its must-be-zero bits and SETCOLOR's channel. -/
theorem malformed_iff_of_op (w : Word) (op : Nat) (hop : (opOf w).toNat = op)
    (hrange : 1 ≤ op ∧ op ≤ 0x0D) :
    Malformed w.toNat ↔ w.toNat &&& mustBeZero op ≠ 0 ∨ (op = 0x0B ∧ (field w 16 2).toNat = 3) := by
  rw [opOf_toNat] at hop
  rw [Malformed, hop, field_toNat]
  have h0 : ¬ op = 0 := by omega
  have h1 : ¬ 0x0E ≤ op := by omega
  simp only [h0, h1, false_or]
  rfl

/-- An arm of the command decoder, other than SETCOLOR's, refuses the words with a must-be-zero bit set. -/
theorem guarded_eq_none_iff {w : Word} {i : Instr} {P : Prop} [Decidable P] {op : Nat}
    (hop : (opOf w).toNat = op) (hrange : 1 ≤ op ∧ op ≤ 0x0D ∧ op ≠ 0x0B)
    (hP : P ↔ w.toNat &&& mustBeZero op = 0) :
    (if P then some i else none) = none ↔ Malformed w.toNat := by
  obtain ⟨hlow, hhigh, hcolor⟩ := hrange
  rw [malformed_iff_of_op w op hop ⟨hlow, hhigh⟩]
  simp [hP, hcolor]

/-- R127: the command decoder refuses exactly these words. -/
theorem decodeCommand_eq_none_iff (w : Word) : decodeCommand w = none ↔ Malformed w.toNat := by
  have hnone := (noOperand_iff w).trans (field_eq_zero_iff_mask w 0 24 _ rfl)
  unfold decodeCommand
  split
  next hop => exact guarded_eq_none_iff hop (by decide) hnone
  next hop => exact guarded_eq_none_iff hop (by decide) (field_eq_zero_iff_mask w 4 20 _ rfl)
  next hop => exact guarded_eq_none_iff hop (by decide) (field_eq_zero_iff_mask w 8 16 _ rfl)
  next hop => exact guarded_eq_none_iff hop (by decide) (field_eq_zero_iff_mask w 16 8 _ rfl)
  next hop => exact guarded_eq_none_iff hop (by decide) (field_eq_zero_iff_mask w 2 22 _ rfl)
  next hop => exact guarded_eq_none_iff hop (by decide) (field_eq_zero_iff_mask w 8 16 _ rfl)
  next hop =>
    -- SWAPBUFFERS: the mask of its format is the masks of its two zero fields together.
    apply guarded_eq_none_iff hop (by decide)
    rw [field_eq_zero_iff_mask w 9 15 0xFFFE00 rfl, field_eq_zero_iff_mask w 4 4 0xF0 rfl,
      ← Nat.or_eq_zero_iff, ← Nat.and_or_distrib_left]
    rfl
  next hop => exact guarded_eq_none_iff hop (by decide) hnone
  next hop => exact guarded_eq_none_iff hop (by decide) hnone
  next hop => exact guarded_eq_none_iff hop (by decide) hnone
  next hop =>
    -- SETCOLOR: refused for a must-be-zero bit, else for the channel.
    rw [malformed_iff_of_op w _ hop (by decide), ← channelOf_eq_none_iff]
    have hreserved := field_eq_zero_iff_mask w 18 6 (mustBeZero 0x0B) rfl
    split
    next hz => cases channelOf (field w 16 2) <;> simp [hreserved.mp hz]
    next hz => simp [mt hreserved.mpr hz]
  next hop => exact guarded_eq_none_iff hop (by decide) (field_eq_zero_iff_mask w 8 16 _ rfl)
  next hop =>
    -- DRAWPIXEL: no bit must be zero.
    rw [malformed_iff_of_op w _ hop (by decide)]
    simp [mustBeZero]
  next =>
    have hop := opOf_toNat w
    simp only [imp_false, Malformed, true_iff] at *
    omega

/-! ### The layer of a command -/

theorem layerField_commandWord (op f : Nat) (hop : op < 256) (hf : f < 2 ^ 24) :
    layerField (commandWord op f).toNat =
      if op = 0x02 ∨ op = 0x07 then some (f % 16) else if op = 0x0D then some (f / 2 ^ 20) else none := by
  have hdiv : (op * 2 ^ 24 + f) / 2 ^ 24 = op := by omega
  have hlow : (op * 2 ^ 24 + f) % 16 = f % 16 := by omega
  have hhigh : (op * 2 ^ 24 + f) / 2 ^ 20 % 16 = f / 2 ^ 20 := by omega
  rw [commandWord_toNat op f hop hf, layerField, hdiv, hlow, hhigh]

/-- What a command asks of the configuration is said by its word's layer field (R124, R127). -/
theorem wellFormed_iff_layerField (c : Config) (w : Word) (i : Instr) (h : decodeCommand w = some i) :
    i.wellFormed c = true ↔ ∀ l, layerField w.toNat = some l → l < c.maxLayers := by
  have hcommand := decodeCommand_isCommand w i h
  have hencode := encode_of_decodeCommand w i h
  cases i with
  | beginBlock | getRefreshRate | getUnderrun | getLowered =>
    cases hencode
    simp [Instr.wellFormed, layerField_commandWord]
  | setBrightness v | setRefreshRate v | setRotation v | setCcMode v | setIndex v =>
    cases hencode
    have hv := v.isLt
    rw [layerField_commandWord _ _ (by decide) (by omega)]
    simp [Instr.wellFormed]
  | setColor ch v =>
    cases hencode
    have hch := ch.code.isLt
    have hv := v.isLt
    rw [layerField_commandWord _ _ (by decide) (by omega)]
    simp [Instr.wellFormed]
  | addLayer l =>
    cases hencode
    have hl := l.isLt
    rw [layerField_commandWord _ _ (by decide) (by omega)]
    simp [Instr.wellFormed, Config.hasLayer, Nat.mod_eq_of_lt hl]
  | swapBuffers copy l =>
    cases hencode
    have hcopy := copy.isLt
    have hl := l.isLt
    rw [layerField_commandWord _ _ (by decide) (by omega),
      show (copy.toNat * 2 ^ 8 + l.toNat) % 16 = l.toNat by omega]
    simp [Instr.wellFormed, Config.hasLayer]
  | drawPixel l x y =>
    cases hencode
    have hl := l.isLt
    have hx := x.isLt
    have hy := y.isLt
    rw [layerField_commandWord _ _ (by decide) (by omega),
      show (l.toNat * 2 ^ 20 + x.toNat * 2 ^ 10 + y.toNat) / 2 ^ 20 = l.toNat by omega]
    simp [Instr.wellFormed, Config.hasLayer]
  | _ => cases hcommand

/-! ### The port -/

theorem decodePort_of_some (c : Config) (w : Word) (i : Instr) (h : decodeCommand w = some i) :
    decodePort c w = if i.wellFormed c = true then some i else none := by
  simp only [decodePort, h]

/-- R127: the words that spell no command to a configuration. -/
theorem decodePort_eq_none_iff (c : Config) (w : Word) :
    decodePort c w = none ↔ IllegalOnPort c w.toNat := by
  rw [illegalOnPort_iff, ← decodeCommand_eq_none_iff]
  cases hdecode : decodeCommand w with
  | none => simp [decodePort_of_none c w hdecode]
  | some i =>
    have hwf := wellFormed_iff_layerField c w i hdecode
    rw [decodePort_of_some c w i hdecode, ite_eq_right_iff]
    simp only [reduceCtorEq, imp_false, false_or, hwf]
    push Not
    rfl

/-! ### The host's turn at a word (R320) -/

theorem hostTurn_illegal (s : State) (w : Word) (rest : List Word) (hready : s.host.hostState = .ready)
    (hcommands : s.env.commands = w :: rest) (hnone : decodePort s.cfg w = none) :
    hostTurn s = .illegal w := by
  simp only [hostTurn, hready, hcommands, hnone, if_true]

theorem hostTurn_command (s : State) (w : Word) (rest : List Word) (i : Instr)
    (hready : s.host.hostState = .ready) (hcommands : s.env.commands = w :: rest)
    (hport : decodePort s.cfg w = some i) :
    hostTurn s = .perform i (s.setEnv { s.env with commands := rest }) := by
  simp only [hostTurn, hready, hcommands, hport, if_true]

/-- Settles O3: the port refuses exactly the illegal words, and the turn of a READY host at one is refused. -/
theorem portRefusesExactlyIllegalWords : Obligations.PortRefusesExactlyIllegalWords := by
  refine ⟨decodePort_eq_none_iff, fun s w rest hbench hagent hready hcommands hillegal => ?_⟩
  obtain ⟨e, he, -, hkept⟩ := takeTurn_frame s
  apply step_illegal
  rw [choose_turn s hbench, hagent, he]
  exact hostTurn_illegal (s.setEnv e) w rest hready (hkept.trans hcommands)
    ((decodePort_eq_none_iff s.cfg w).mpr hillegal)

/-- Settles O4: the twenty worked words of R130, evaluated. -/
theorem workedEncodings : Obligations.WorkedEncodings := by
  unfold Obligations.WorkedEncodings
  decide +kernel

end Sys2Proof.Machine
end

section
/-! The model's bench and the placed words of the opcode table (log 3, log 4). -/

namespace Sys2Proof

/-! ### A tag reads as a micro-operation -/

/-- What the decoder's answer `r` names, if anything, is a micro-operation. -/
def ReadsMicro (r : Option (Instr × List Word)) : Prop :=
  ∀ i rest, r = some (i, rest) → i.isCommand = false

theorem readsMicro_none : ReadsMicro none := fun _ _ h => nomatch h

theorem readsMicro_some (i : Instr) (rest : List Word) (h : i.isCommand = false) :
    ReadsMicro (some (i, rest)) := by
  rintro _ _ ⟨⟩
  exact h

theorem readsMicro_takeArg {n : Nat} (ws : List Word)
    (k : BitVec n → List Word → Option (Instr × List Word))
    (hk : ∀ v rest, ReadsMicro (k v rest)) : ReadsMicro (takeArg n ws k) := by
  unfold takeArg
  split
  next => exact readsMicro_none
  next =>
    split
    next => exact hk _ _
    next => exact readsMicro_none

/-- Each arm of the tag decoder names one micro-operation, after its arguments are taken. -/
theorem decodeTag_readsMicro (w : Word) (ws : List Word) : ReadsMicro (decodeTag w ws) := by
  unfold decodeTag
  split
  next =>
    split
    case h_30 => exact readsMicro_none
    all_goals
      repeat refine readsMicro_takeArg _ _ fun _ _ => ?_
      exact readsMicro_some _ _ rfl
  next => exact readsMicro_none

end Sys2Proof

namespace Sys2Proof.Machine

/-! ### Steps -/

/-- A record on the bench is performed before any agent's turn, and leaves the bench empty. -/
theorem step_bench (s : State) (i : Instr) (rest : List Word) (h : decode s.env.bench = some (i, rest)) :
    step s = exec i (s.setEnv { s.env with bench := [] }) := by
  apply step_perform
  cases hbench : s.env.bench with
  | nil => rw [hbench] at h; cases h
  | cons w ws =>
    rw [hbench] at h
    simp only [choose, hbench, h]

theorem decodeTableWord_eq_some (nbits w : Nat) (i : Instr) (h : decodeTableWord nbits w = some i) :
    ∃ rest, decode (tableWords nbits w) = some (i, rest) := by
  unfold decodeTableWord at h
  split at h
  next j rest hdecode =>
    cases h
    exact ⟨rest, hdecode⟩
  next => cases h

/-- The word of a table row spells a command exactly when the row's operation is one. -/
theorem decodeCommand_of_table (nbits w : Nat) (i : Instr) (h : decodeTableWord nbits w = some i) :
    decodeCommand (BitVec.ofNat 32 (w % 2 ^ nbits)) = if i.isCommand then some i else none := by
  obtain ⟨rest, hdecode⟩ := decodeTableWord_eq_some nbits w i h
  cases hcommand : decodeCommand (BitVec.ofNat 32 (w % 2 ^ nbits)) with
  | none =>
    rw [tableWords, decode_tag _ _ hcommand] at hdecode
    rw [decodeTag_readsMicro _ _ _ _ hdecode, if_neg Bool.false_ne_true]
  | some j =>
    rw [tableWords, decode_command _ _ j hcommand] at hdecode
    cases hdecode
    rw [decodeCommand_isCommand _ _ hcommand, if_pos rfl]

/-- Settles O8: by the round trip for a record on the bench; a placed tag goes to the bench, a placed command
word to the READY host's next turn. -/
theorem stepPerformsTheBenchRecord : Obligations.StepPerformsTheBenchRecord := by
  refine ⟨fun s i hbench => ?_, fun s w i htable hmicro => ?_, fun s w i htable hcommand hwf => ?_⟩
  · apply step_bench s i []
    rw [hbench, ← List.append_nil (encode i)]
    exact decodeEncodeRoundTrip i []
  · have hword := decodeCommand_of_table 32 w i htable
    rw [hmicro, if_neg Bool.false_ne_true] at hword
    obtain ⟨rest, hdecode⟩ := decodeTableWord_eq_some 32 w i htable
    have hplace : s.withFetchWord 32 w = s.setEnv { s.env with bench := tableWords 32 w } := by
      simp only [State.withFetchWord, placeWord, hword]
    rw [hplace]
    exact step_bench _ i rest hdecode
  · have hword := decodeCommand_of_table 32 w i htable
    rw [hcommand, if_pos rfl] at hword
    have hport := (decodePort_eq_some s.cfg _ i).mpr ⟨hword, hwf⟩
    simp only [State.withFetchWord, placeWord, hword]
    apply step_perform
    rw [choose_turn _ rfl]
    exact hostTurn_command _ _ s.env.commands i rfl rfl hport

end Sys2Proof.Machine
end

section
/-! The ring buffer (40_ring_buffer.md R150 to R159): what its operations do on their own, the queue that guarded
writes and reads make of it, and what a step of the block can do to it. -/

namespace Sys2Proof.Machine

/-! ### The operations on their own (R151 to R158) -/

/-- Settles O10: RB.INIT is one write of the ring. -/
theorem ringInitEmptiesTheRing : Obligations.RingInitEmptiesTheRing := fun _ => rfl

/-- Settles O11: each query is one write of `returned`. -/
theorem ringQueriesWriteNoState : Obligations.RingQueriesWriteNoState := fun _ => ⟨rfl, rfl, rfl, rfl⟩

/-- RB.COMMITW of a full ring drops the oldest slot (R155). -/
theorem ringCommitW_of_ge (s : State) (h : s.cfg.capacity ≤ s.ring.count) :
    ringCommitW s = s.setRing { s.ring with start := (s.ring.start + 1) % s.cfg.capacity } := by
  unfold ringCommitW; rw [if_neg (Nat.not_lt_of_le h)]

theorem ringCommitR_of_empty (s : State) (h : s.ring.count = 0) : ringCommitR s = .fault .ringReadEmpty := by
  unfold ringCommitR; rw [if_pos h]

/-- Settles O12: the two branches of each commit. -/
theorem ringCommits : Obligations.RingCommits := by
  intro s
  refine ⟨fun hfree => ?_, fun hfull => ?_, fun hheld => ?_, fun hempty => ?_⟩
  · exact congrArg Host.Outcome.next (ringCommitW_of_lt s hfree)
  · exact congrArg Host.Outcome.next (ringCommitW_of_ge s hfull)
  · exact (ringCommitR_eq_next s _).mpr ⟨Nat.one_le_iff_ne_zero.mp hheld, rfl⟩
  · exact ringCommitR_of_empty s hempty

/-! ### Guarded writes and reads make a queue (R159) -/

/-- The ring as the queue of the writes `consumed, ..., written - 1`: write number `n` stands in slot
`n mod C`. -/
structure RingQueue (s : State) (written consumed : Nat) (holds : Store Nat) : Prop where
  capacity : 1 ≤ s.cfg.capacity
  count : s.ring.count ≤ s.cfg.capacity
  length : written = consumed + s.ring.count
  start : s.ring.start = consumed % s.cfg.capacity
  queued : ∀ n, consumed ≤ n → n < written → Store.read holds (n % s.cfg.capacity) = some n

/-- RB.INIT leaves the empty queue. -/
theorem RingQueue.init {s : State} (hcap : 1 ≤ s.cfg.capacity) : RingQueue (ringInit s) 0 0 [] where
  capacity := hcap
  count := Nat.zero_le _
  length := rfl
  start := (Nat.zero_mod _).symm
  queued := fun n _ hn => absurd hn (Nat.not_lt_zero n)

/-- The next write goes to the slot of its own number. -/
theorem RingQueue.nextW {s : State} {written consumed : Nat} {holds : Store Nat}
    (h : RingQueue s written consumed holds) : ringNextW s = written % s.cfg.capacity := by
  unfold ringNextW
  rw [h.start, Nat.mod_add_mod, h.length]

/-- A guarded write joins the queue: no write still to be read has the same slot. -/
theorem RingQueue.write {s : State} {written consumed : Nat} {holds : Store Nat}
    (h : RingQueue s written consumed holds) (hfree : s.ring.count < s.cfg.capacity) :
    RingQueue (ringCommitW s) (written + 1) consumed (Store.write holds (ringNextW s) written) := by
  have hlen := h.length
  rw [ringCommitW_of_lt s hfree, h.nextW]
  refine ⟨h.capacity, hfree, ?_, h.start, fun n hlow hhigh => ?_⟩
  · simp only [State.setRing_ring]
    omega
  · simp only [State.setRing_cfg, Store.read_write]
    by_cases hlast : n = written
    · rw [hlast, if_pos rfl]
    · have hslot := ring_slot_ne consumed (n - consumed) s.ring.count s.cfg.capacity (by omega) hfree
      rw [Nat.add_sub_cancel' hlow, ← hlen] at hslot
      rw [if_neg hslot]
      exact h.queued n hlow (by omega)

/-- A guarded read takes the oldest write from the queue. -/
theorem RingQueue.read {s t : State} {written consumed : Nat} {holds : Store Nat}
    (h : RingQueue s written consumed holds) (hcommit : ringCommitR s = .next t) :
    RingQueue t written (consumed + 1) holds := by
  obtain ⟨hheld, rfl⟩ := (ringCommitR_eq_next s t).mp hcommit
  have hcount := h.count
  have hlen := h.length
  refine ⟨h.capacity, ?_, ?_, ?_, fun n hlow => h.queued n (by omega)⟩
  · simp only [State.setRing_ring, State.setRing_cfg]
    omega
  · simp only [State.setRing_ring]
    omega
  · simp only [State.setRing_ring, State.setRing_cfg, h.start, Nat.mod_add_mod]

/-- Every guarded use of the ring keeps it a queue. -/
theorem RingRun.queue {s0 s : State} {written consumed : Nat} {holds : Store Nat}
    (hcap : 1 ≤ s0.cfg.capacity) (run : RingRun s0 s written consumed holds) :
    RingQueue s written consumed holds := by
  induction run with
  | init s h =>
    cases h
    exact .init hcap
  | write s t written consumed holds _ guard h ih =>
    cases h
    exact ih.write (Nat.lt_of_le_of_ne ih.count (of_decide_eq_false guard))
  | read s t written consumed holds _ _ h ih => exact ih.read h

/-- The oldest write not yet read stands in the slot that RB.NEXTR gives. -/
theorem RingQueue.oldest {s : State} {written consumed : Nat} {holds : Store Nat}
    (h : RingQueue s written consumed holds) (hheld : 1 ≤ s.ring.count) :
    Store.read holds (ringNextR s) = some consumed := by
  have hlen := h.length
  unfold ringNextR
  rw [h.start]
  exact h.queued consumed le_rfl (by omega)

/-- Settles O13, by the queue that every guarded use keeps. -/
theorem guardedRingIsFifo : Obligations.GuardedRingIsFifo := by
  intro s0 s written consumed holds hcap run
  have h := run.queue hcap
  exact ⟨h.count, h.length, h.start, h.oldest⟩

/-! ### What an operation ensures of the next state it answers -/

/-- Every next state that the outcome answers meets `P`. -/
def Ensures (r : Res) (P : State → Prop) : Prop := ∀ t, r = .next t → P t

theorem Ensures.next {P : State → Prop} {t : State} (h : P t) : Ensures (.next t) P := fun _ e => by
  cases e; exact h

theorem Ensures.fault {P : State → Prop} (e : Fault) : Ensures (.fault e) P := fun _ h => by cases h

theorem Ensures.refused {P : State → Prop} (e : Refusal) : Ensures (.refused e) P := fun _ h => by cases h

theorem Ensures.andThen {P Q : State → Prop} {r : Res} {f : State → Res} (h : Ensures r Q)
    (hf : ∀ m, Q m → Ensures (f m) P) : Ensures (andThen r f) P := fun t e => by
  obtain ⟨m, hm, ht⟩ := (andThen_eq_next r f t).mp e
  exact hf m (h m hm) t ht

theorem Ensures.whenReady {P : State → Prop} {s : State} {r : Res} (h : Ensures r P) :
    Ensures (whenReady s r) P := by
  by_cases hready : s.host.hostState = .ready
  · rwa [whenReady_ready s r hready]
  · rw [whenReady_busy s r hready]
    exact .refused _

theorem Ensures.withOperands {P : State → Prop} {i : Instr} {s : State} {r : Res} (h : Ensures r P) :
    Ensures (withOperands i s r) P := fun t e =>
  h t ((withOperands_eq_next i s r t).mp e).2

theorem Ensures.withLayer {P : State → Prop} {l : Nat} {s : State} {k : Layer → Res}
    (h : ∀ lay, Ensures (k lay) P) : Ensures (withLayer l s k) P := fun t e => by
  obtain ⟨lay, -, ht⟩ := (withLayer_eq_next l s k t).mp e
  exact h lay t ht

theorem Ensures.ite {P : State → Prop} {c : Prop} [Decidable c] {a b : Res} (ha : Ensures a P)
    (hb : Ensures b P) : Ensures (if c then a else b) P := by
  split
  · exact ha
  · exact hb

theorem Ensures.withDrawable {P : State → Prop} {l : Nat} {s : State} {k : Layer → Res}
    (h : ∀ lay, Ensures (k lay) P) : Ensures (withDrawable l s k) P :=
  .withLayer fun lay => .ite (h lay) (.fault _)

/-! ### What the host's operations other than BEGIN can write -/

/-- `t` differs from `s` at most in what a host operation other than BEGIN writes: controls, flags, layers,
chain, host registers, outputs and the count of free values (R322 to R333). -/
def HostWrites (s t : State) : Prop :=
  t = { s with
    ctl := t.ctl, flags := t.flags, layers := t.layers, chain := t.chain, host := t.host, out := t.out
    freeCount := t.freeCount }

theorem HostWrites.ring {s t : State} (h : HostWrites s t) : t.ring = s.ring := (congrArg State.ring h :)

theorem HostWrites.linkLayer {s t : State} (l : Nat) (h : HostWrites s t) : HostWrites s (linkLayer l t) := by
  unfold Machine.linkLayer
  split
  · split
    · exact congrArg (fun u : State => u.putLayer _ _) h
    · exact h
  · exact h

/-- ADDLAYER (R322). -/
theorem execAddLayer_hostWrites (l : BitVec 4) (s : State) :
    Ensures (execAddLayer l s) (HostWrites s) := by
  have hbegin : Ensures (layerBegin l.toNat s) (HostWrites s) := .withLayer fun _ => .next rfl
  refine .whenReady (.withOperands (.ite (.fault _) (.withLayer fun _ => .ite (.fault _) ?_)))
  refine hbegin.andThen fun m hm => .withLayer fun lay => .next ?_
  have hput : HostWrites s (m.putLayer l.toNat { lay with attached := true, next := none }) :=
    congrArg (fun u : State => u.putLayer _ _) hm
  exact congrArg (fun u : State => u.setChain _) (hput.linkLayer l.toNat)

/-- DRAWPIXEL (R332). -/
theorem execDrawPixel_hostWrites (l : BitVec 4) (x y : BitVec 10) (s : State) :
    Ensures (execDrawPixel l x y s) (HostWrites s) :=
  .whenReady (.withOperands (.withDrawable fun _ => .ite (.next rfl) (.next rfl)))

/-- Every host command but BEGIN. -/
theorem command_hostWrites (s : State) (i : Instr) (hcommand : i.isCommand = true)
    (hbegin : i ≠ .beginBlock) : Ensures (exec i s) (HostWrites s) := by
  cases i with
  | beginBlock => exact absurd rfl hbegin
  | addLayer l => exact execAddLayer_hostWrites l s
  | setRefreshRate v => exact .whenReady (.ite (.fault _) (.next rfl))
  | swapBuffers copy l => exact .whenReady (.withOperands (.withDrawable fun _ => .next rfl))
  | drawPixel l x y => exact execDrawPixel_hostWrites l x y s
  | setBrightness v => exact .whenReady (.next rfl)
  | setRotation v => exact .whenReady (.next rfl)
  | setCcMode v => exact .whenReady (.next rfl)
  | getRefreshRate => exact .whenReady (.next rfl)
  | getUnderrun => exact .whenReady (.next rfl)
  | getLowered => exact .whenReady (.next rfl)
  | setColor ch v => exact .whenReady (.next rfl)
  | setIndex v => exact .whenReady (.next rfl)
  | _ => cases hcommand

/-- The phases of SWAPBUFFERS (R330). -/
theorem hostPhase_hostWrites (s : State) : Ensures (hostPhase s) (HostWrites s) := by
  unfold hostPhase
  split
  next => exact .next rfl
  next => exact .withLayer fun _ => .ite (.next rfl) (.next rfl)
  next =>
    refine .withLayer fun lay => .ite (.next rfl) ?_
    unfold swapCopy
    split
    · exact .next rfl
    · exact .fault _

/-! ### What a step does to the ring (R150, R155, R401) -/

/-- The ring of `t` is that of `s`, or of `s` after a commit that its guard allows, or the full ring BEGIN
leaves. -/
def RingMove (s t : State) : Prop :=
  t.ring = s.ring ∨
  (s.ring.count < s.cfg.capacity ∧ t.ring = { s.ring with count := s.ring.count + 1 }) ∨
  (1 ≤ s.ring.count ∧
    t.ring = { start := (s.ring.start + 1) % s.cfg.capacity, count := s.ring.count - 1 }) ∨
  (s.flags.begun = false ∧ t.flags.begun = true ∧ t.ring = { start := 0, count := s.cfg.capacity })

theorem RingMove.kept {s t : State} (h : t.ring = s.ring) : RingMove s t := .inl h

theorem countLoop_ring (s : State) : (countLoop s).ring = s.ring := by
  unfold countLoop
  dsimp only
  split
  · exact (lowerRate_sameCore _).ring
  · rfl

/-- BEGIN fills the ring from slot 0 (R321). -/
theorem execBegin_ringMove {s : State} (h : Inv s) : Ensures (execBegin s) (RingMove s) := by
  refine .whenReady ?_
  cases hbegun : s.flags.begun with
  | true => exact .fault _
  | false =>
    obtain ⟨u, hfill, hfilling, hcount⟩ := h.filling hbegun
    rw [if_neg (by decide), hfill, andThen_next]
    exact .next (.inr (.inr (.inr ⟨hbegun, rfl, congrArg₂ Ring.mk hfilling.start hcount⟩)))

/-- P.STEP leaves a full ring alone and commits a row to any other (R308). -/
theorem execPStep_ringMove {s : State} (h : Inv s) (hrun : s.prod.calcState = .running) :
    Ensures (execPStep s) (RingMove s) := by
  unfold execPStep
  rw [if_pos hrun]
  by_cases hfull : ringIsFull s = true
  · rw [if_pos hfull]
    exact .next (.kept rfl)
  · have hfree : s.ring.count < s.cfg.capacity :=
      Nat.lt_of_le_of_ne h.regs.count fun e => hfull (decide_eq_true e)
    obtain ⟨u, hrow, hcalc⟩ := calcRow_spec s (h.calcReady (h.regs.running hrun)) hfree
    rw [if_neg hfull, hrow, andThen_next]
    exact .next (.inr (.inl ⟨hfree, (countLoop_ring u).trans hcalc.ring⟩))

theorem execEngBeat_ringMove (s : State) : Ensures (execEngBeat s) (RingMove s) := by
  unfold execEngBeat
  refine .ite (.ite ?_ (.next (.kept rfl))) (.refused _)
  split
  · exact .next (.kept rfl)
  · exact .fault _

/-- The completion event takes the slot just shown from the ring, or in the underrun state leaves the ring
alone (R274). -/
theorem takeCompletion_ringMove (s : State) : Ensures (takeCompletion s) (RingMove s) := by
  by_cases hshift : s.eng.schedState = .shifting
  · intro t ht
    obtain ⟨hheld, rfl⟩ := (takeCompletion_shifting s t hshift).mp ht
    refine .inr (.inr (.inl ⟨Nat.one_le_iff_ne_zero.mpr hheld, ?_⟩))
    by_cases hlast : s.ring.count = 1
    · rw [if_pos hlast, hlast]
      dsimp only
      split
      · exact (lowerRate_sameCore _).ring
      · rfl
    · rw [if_neg hlast]
      rfl
  · rw [takeCompletion_other s hshift]
    exact .next (.kept rfl)

theorem enabledOp_ringMove {s : State} (h : Inv s) {i : Instr} (he : EnabledOp s i) :
    Ensures (exec i s) (RingMove s) := by
  cases he with
  | wake => exact .ite (.next (.kept rfl)) (.refused _)
  | produce hrun => exact execPStep_ringMove h hrun
  | beat => exact execEngBeat_ringMove s
  | complete => exact .ite (takeCompletion_ringMove s) (.refused _)

theorem command_ringMove {s : State} (h : Inv s) {i : Instr} (hcommand : i.isCommand = true) :
    Ensures (exec i s) (RingMove s) := by
  by_cases hbegin : i = .beginBlock
  · rw [hbegin]
    exact execBegin_ringMove h
  · exact fun t ht => .kept (command_hostWrites s i hcommand hbegin t ht).ring

/-- The turn taken, and the word taken from the command port, are no part of what a ring move reads. -/
theorem RingMove.of_takeTurn {s t : State} (h : RingMove (takeTurn s) t) : RingMove s t := by
  obtain ⟨e, he, -⟩ := takeTurn_frame s
  rwa [he] at h

/-- A step from a state that meets the invariant makes a ring move. -/
theorem step_ringMove {s : State} (h : Inv s) : Ensures (step s) (RingMove s) := by
  have hturn : Inv (takeTurn s) := h.takeTurn
  have hchoice := agentTurn_choice (nextAgent s) (takeTurn s)
  rw [← choose_turn s h.bench] at hchoice
  suffices hmove : Ensures (step s) (RingMove (takeTurn s)) from fun t ht => (hmove t ht).of_takeTurn
  generalize hchosen : choose s = chosen at hchoice
  cases hchoice with
  | pass =>
    rw [step_pass s _ hchosen]
    exact .next (.kept rfl)
  | phase =>
    rw [step_phase s _ hchosen]
    exact fun t ht => .kept (hostPhase_hostWrites _ t ht).ring
  | illegal w =>
    rw [step_illegal s w hchosen]
    exact .refused _
  | command i rest hc =>
    rw [step_perform s _ i hchosen]
    exact command_ringMove (hturn.setCommands rest) hc.command
  | enabled i he =>
    rw [step_perform s _ i hchosen]
    exact enabledOp_ringMove hturn he

/-- Settles O14: the move that a step makes, spelled out. -/
theorem ringChangesOnlyByGuardedCommits : Obligations.RingChangesOnlyByGuardedCommits :=
  fun _ t h hstep => step_ringMove h t hstep

end Sys2Proof.Machine
end

section
/-! The timing table (41_timing_table.md R171 to R178): the width the search settles at, the table TT.CALC writes
for it, and when no width fits. -/

namespace Sys2Proof.Machine

/-! ### The spec's formulas and the model's -/

theorem specPeriod_eq_planePeriod (c : Config) (m i : Nat) : specPeriod c m i = planePeriod c m i := rfl

theorem specOnTime_eq_planeOnTime (c : Config) (b m i : Nat) :
    specOnTime c b m i = planeOnTime c b m i := rfl

theorem fitsBudget_iff (c : Config) (ticks m : Nat) : FitsBudget c ticks m ↔ periodSum c m ≤ ticks := Iff.rfl

/-! ### The width the search settles at (R172, R175, R176) -/

/-- A settled width is that of a trial which fits and before which none does. -/
theorem exists_trial_of_settledWidth {c : Config} {ticks m : Nat} (h : settledWidth c ticks = some m) :
    ∃ k, m = trialWidth c ticks k ∧ FitsBudget c ticks (trialWidth c ticks k) ∧
      ∀ j, j < k → ¬ FitsBudget c ticks (trialWidth c ticks j) := by
  obtain ⟨k, rfl, hfits, hbefore⟩ := settledWidth_spec c ticks m h
  refine ⟨k, rfl, (fitsBudget_iff c ticks _).mpr hfits, fun j hj hj' => ?_⟩
  exact Nat.not_le_of_lt (hbefore j hj) ((fitsBudget_iff c ticks _).mp hj')

/-- If any width fits the budget, width 0 does, so the search settles. -/
theorem exists_settledWidth_of_fitsBudget {c : Config} {ticks m : Nat} (hdec : 1 ≤ c.msbDecrement)
    (hfits : FitsBudget c ticks m) : ∃ n, settledWidth c ticks = some n := by
  refine (settledWidth_isSome_iff c ticks hdec).mpr ?_
  calc c.depth * c.floorPeriod
      = periodSum c 0 := (periodSum_zero c).symm
    _ ≤ periodSum c m := periodSum_mono c (Nat.zero_le m)
    _ ≤ ticks := (fitsBudget_iff c ticks m).mp hfits

/-- The search settles at the first trial that fits: two first trials are the same one. -/
theorem settledWidth_eq_trialWidth {c : Config} {ticks k : Nat} (hdec : 1 ≤ c.msbDecrement)
    (hfits : FitsBudget c ticks (trialWidth c ticks k))
    (hfirst : ∀ j, j < k → ¬ FitsBudget c ticks (trialWidth c ticks j)) :
    settledWidth c ticks = some (trialWidth c ticks k) := by
  obtain ⟨m, hm⟩ := exists_settledWidth_of_fitsBudget hdec hfits
  obtain ⟨n, rfl, hn, hbefore⟩ := exists_trial_of_settledWidth hm
  have hnk : ¬ n < k := fun hlt => hfirst n hlt hn
  have hkn : ¬ k < n := fun hlt => hbefore k hlt hfits
  obtain rfl : n = k := by omega
  exact hm

/-- The search fails if no trial fits. -/
theorem settledWidth_eq_none {c : Config} {ticks : Nat}
    (hnever : ∀ k, ¬ FitsBudget c ticks (trialWidth c ticks k)) : settledWidth c ticks = none := by
  refine Option.eq_none_iff_forall_ne_some.mpr fun m hm => ?_
  obtain ⟨k, -, hfits, -⟩ := exists_trial_of_settledWidth hm
  exact hnever k hfits

/-- The search fails if not even the shortest periods fit (R176). -/
theorem settledWidth_eq_none_of_lt {c : Config} {ticks : Nat} (hdec : 1 ≤ c.msbDecrement)
    (hlt : ticks < c.depth * c.floorPeriod) : settledWidth c ticks = none :=
  Option.eq_none_iff_forall_ne_some.mpr fun m hm =>
    Nat.not_le_of_lt hlt ((settledWidth_isSome_iff c ticks hdec).mp ⟨m, hm⟩)

/-! ### The table TT.CALC writes (R171) -/

/-- The timing table after TT.CALC has settled at width `m`. -/
def calculatedTable (s : State) (m : Nat) : Store TimingPair :=
  Store.writeRange s.tt 0
    ((List.range s.cfg.depth).map (tableEntry s.cfg s.freeCount s.ctl.brightness.toNat m))

theorem calcTiming_of_no_width (s : State)
    (h : settledWidth s.cfg (s.cfg.ticksPerRow s.ctl.refreshRate.toNat) = none) :
    calcTiming s = .fault (.timingInfeasible s.ctl.refreshRate) := by
  unfold calcTiming
  rw [h]

theorem calculatedTable_read_beyond (s : State) (m i : Nat) (hi : s.cfg.depth ≤ i) :
    Store.read (calculatedTable s m) i = Store.read s.tt i :=
  Store.read_writeRange_outside _ _ _ _ (.inr (by simpa using hi))

/-- For a rate from `MinRefreshRate` up, the search of TT.CALC settles at width `m`. -/
structure SettlesAt (s : State) (m : Nat) : Prop where
  valid : s.cfg.valid = true
  minRate : s.cfg.minRefreshRate ≤ s.ctl.refreshRate.toNat
  width : settledWidth s.cfg (s.cfg.ticksPerRow s.ctl.refreshRate.toNat) = some m

theorem brightness_le (s : State) : s.ctl.brightness.toNat ≤ 255 := Nat.le_of_lt_succ s.ctl.brightness.isLt

/-- Entry `i` of the table holds the values of R171; 16 bits hold them. -/
theorem SettlesAt.read {s : State} {m : Nat} (h : SettlesAt s m) {i : Nat} (hi : i < s.cfg.depth) :
    ∃ p, Store.read (calculatedTable s m) i = some p ∧ p.period.toNat = specPeriod s.cfg m i ∧
      p.onTime.toNat = specOnTime s.cfg s.ctl.brightness.toNat m i := by
  obtain ⟨hperiod, hon, -⟩ :=
    tableEntry_ok s.cfg h.valid s.freeCount _ m i _ (brightness_le s) h.minRate h.width
  exact ⟨_, calcTiming_read s m i hi, hperiod, hon⟩

/-- No period overflows the 16-bit timer (R178 (d)). -/
theorem SettlesAt.specPeriod_lt {s : State} {m : Nat} (h : SettlesAt s m) {i : Nat} (hi : i < s.cfg.depth) :
    specPeriod s.cfg m i < 65536 := by
  obtain ⟨p, -, hperiod, -⟩ := h.read hi
  rw [← hperiod]
  exact p.period.isLt

/-- TT.CALC writes the table and nothing else: every period fits the timer, so it takes no free value. -/
theorem SettlesAt.exec_ttCalc {s : State} {m : Nat} (h : SettlesAt s m) :
    exec .ttCalc s = .next { s with tt := calculatedTable s m } := by
  have hfit : periodsFit s.cfg m = true :=
    List.all_eq_true.mpr fun i hi => decide_eq_true (h.specPeriod_lt (List.mem_range.mp hi))
  refine (calcTiming_eq_next s _).mpr ⟨m, h.width, ?_⟩
  rw [if_pos hfit]
  rfl

/-- Settles O16: the search settles at the first trial that fits, and fails where there is none. -/
theorem timingTableIsTheFirstThatFits : Obligations.TimingTableIsTheFirstThatFits := by
  intro s hvalid hrate ticks
  refine ⟨fun k hfits hfirst => ?_, fun hnever => calcTiming_of_no_width s (settledWidth_eq_none hnever)⟩
  have h : SettlesAt s (trialWidth s.cfg ticks k) :=
    ⟨hvalid, hrate, settledWidth_eq_trialWidth (Config.valid.decrement hvalid) hfits hfirst⟩
  exact ⟨_, h.exec_ttCalc, fun i hi => h.read hi, calculatedTable_read_beyond s _⟩

/-! ### When TT.CALC succeeds (R176) -/

/-- The shortest periods fit a row at every supported rate. -/
theorem floor_fits_of_supported {s : State} (hvalid : s.cfg.valid = true)
    (hmin : s.cfg.minRefreshRate ≤ s.ctl.refreshRate.toNat)
    (hmax : s.ctl.refreshRate.toNat ≤ s.cfg.maxRefreshRate) :
    s.cfg.depth * s.cfg.floorPeriod ≤ s.cfg.ticksPerRow s.ctl.refreshRate.toNat := by
  have hdepth : 1 ≤ s.cfg.depth := by have := Config.valid.depth_pos hvalid; omega
  exact (le_maxRefreshRate_iff s.cfg hdepth (Config.valid.timer hvalid).1 (Config.valid.scan hvalid).1 _
    ((one_le_minRefreshRate _).trans hmin)).mp hmax

/-- A step from a state that meets the invariant stops only at a broken host contract. -/
theorem Inv.step_ne_timingInfeasible {s : State} (h : Inv s) (rate : Half) :
    step s ≠ .fault (.timingInfeasible rate) := by
  intro hstep
  rcases h.step_outcome with (⟨t, hnext, -⟩ | ⟨c, hfault⟩) | ⟨w, hrefused⟩
  · rw [hstep] at hnext
    cases hnext
  · rw [hstep] at hfault
    cases hfault
  · rw [hstep] at hrefused
    cases hrefused

/-- Settles O17: a width is found exactly when the shortest periods fit, as they do at every supported rate. -/
theorem timingSucceedsExactlyWhenItFits : Obligations.TimingSucceedsExactlyWhenItFits := by
  refine ⟨?_, fun s rate h => h.step_ne_timingInfeasible rate⟩
  intro s hvalid ticks least
  refine ⟨fun hfits => ?_, fun hlt => ?_, floor_fits_of_supported hvalid⟩
  · obtain ⟨m, hm⟩ := (settledWidth_isSome_iff s.cfg ticks (Config.valid.decrement hvalid)).mpr hfits
    exact ⟨_, (calcTiming_eq_next s _).mpr ⟨m, hm, rfl⟩⟩
  · exact calcTiming_of_no_width s (settledWidth_eq_none_of_lt (Config.valid.decrement hvalid) hlt)

/-! ### What holds of the table (R177, R178) -/

/-- A period is at least the minimum block period (R178 (c)). -/
theorem minBlockPeriod_le_specPeriod (c : Config) (m i : Nat) : c.minBlockPeriod ≤ specPeriod c m i := by
  rw [specPeriod_eq_planePeriod, planePeriod_eq_max]
  exact le_max_right _ _

/-- An on-time holds the pulse width (R178 (e)). -/
theorem pulseWidth_le_specOnTime (c : Config) (b m i : Nat) : c.pulseWidth ≤ specOnTime c b m i := by
  unfold specOnTime
  omega

/-- At a supported rate the search settles. -/
theorem exists_settlesAt {s : State} (hvalid : s.cfg.valid = true)
    (hmin : s.cfg.minRefreshRate ≤ s.ctl.refreshRate.toNat)
    (hmax : s.ctl.refreshRate.toNat ≤ s.cfg.maxRefreshRate) : ∃ m, SettlesAt s m := by
  obtain ⟨m, hm⟩ := (settledWidth_isSome_iff s.cfg _ (Config.valid.decrement hvalid)).mpr
    (floor_fits_of_supported hvalid hmin hmax)
  exact ⟨m, hvalid, hmin, hm⟩

/-- Settles O18, with the periods and on-times of R171 for the width the search settles at. -/
theorem timingTableResults : Obligations.TimingTableResults := by
  intro s hvalid hmin hmax
  obtain ⟨m, h⟩ := exists_settlesAt hvalid hmin hmax
  refine ⟨calculatedTable s m, specPeriod s.cfg m, specOnTime s.cfg s.ctl.brightness.toNat m, m,
    h.exec_ttCalc, fun i hi => ?_, fun i hi => ⟨?onTime, ?floor, ?timer, ?pulse, ?dark, ?full⟩, ?budget,
    fun i j hij _ => planePeriod_mono_plane s.cfg m hij⟩
  · obtain ⟨p, hread, hperiod, hon⟩ := h.read hi
    exact ⟨p, hread, hperiod, hon, rfl⟩
  case onTime =>
    rw [specOnTime_eq_planeOnTime, specPeriod_eq_planePeriod]
    exact planeOnTime_le_planePeriod s.cfg _ m i (brightness_le s)
  case floor => exact minBlockPeriod_le_specPeriod s.cfg m i
  case timer => exact Nat.le_of_lt_succ (h.specPeriod_lt hi)
  case pulse => exact pulseWidth_le_specOnTime s.cfg _ m i
  case dark =>
    intro hb
    rw [hb, specOnTime_eq_planeOnTime]
    exact planeOnTime_dark s.cfg m i
  case full =>
    intro hb
    rw [hb, specOnTime_eq_planeOnTime, specPeriod_eq_planePeriod]
    exact planeOnTime_full s.cfg m i
  case budget => exact (fitsBudget_iff s.cfg _ m).mpr (settledWidth_fits s.cfg _ m h.width)

end Sys2Proof.Machine
end

section
/-! The row encoder (42_row_encoder.md): the map from hardware rows to display rows, which is one to one (R193,
R194), and the plane block that each encoder variant writes (R195 to R201). -/

namespace Sys2Proof

/-! ### The row map as a panel and a row inside it (R193) -/

/-- The stacked panel that segment `g` carries; also the segment that carries panel `g`. -/
def Config.stackedPanel (c : Config) (g : Nat) : Nat := if c.bottomToTop then c.stack - 1 - g else g

/-- The panel row behind row `q` of segment `g`, mirrored where the segment is turned round; also the row of the
segment behind panel row `q`. -/
def Config.turnedRow (c : Config) (g q : Nat) : Nat :=
  if c.reversed g && c.cShapeRowFlip then c.panelHeight - 1 - q else q

/-- The hardware row, segment and sub-row that show display row `y`. -/
def Config.sourceOf (c : Config) (y : Nat) : Nat × Nat × Nat :=
  let g := c.stackedPanel (y / c.panelHeight)
  let q := c.turnedRow g (y % c.panelHeight)
  (q % c.scanRows, g, q / c.scanRows)

variable {c : Config}

theorem Config.displayRow_eq (c : Config) (r g j : Nat) :
    c.displayRow r g j =
      c.stackedPanel g * c.panelHeight + c.turnedRow g (r + j * c.rowPairOffset) := rfl

theorem Config.reversed_iff (c : Config) (g : Nat) :
    c.reversed g = true ↔ c.cShape = true ∧ g % 2 = 1 := by
  simp [Config.reversed]

/-- The row of R193, with the condition of its last branch spelled out. -/
theorem Config.turnedRow_eq (c : Config) (g q : Nat) :
    c.turnedRow g q =
      if c.cShape = true ∧ g % 2 = 1 ∧ c.cShapeRowFlip = true then c.panelHeight - 1 - q else q := by
  simp only [Config.turnedRow, Bool.and_eq_true, Config.reversed_iff, and_assoc]

theorem Config.stackedPanel_lt {g : Nat} (hg : g < c.stack) : c.stackedPanel g < c.stack := by
  unfold Config.stackedPanel
  split <;> omega

theorem Config.turnedRow_lt (g : Nat) {q : Nat} (hq : q < c.panelHeight) :
    c.turnedRow g q < c.panelHeight := by
  unfold Config.turnedRow
  split <;> omega

/-- Counting the panels from the other end twice changes nothing. -/
theorem Config.stackedPanel_eq_iff {g k : Nat} (hg : g < c.stack) (hk : k < c.stack) :
    c.stackedPanel g = k ↔ g = c.stackedPanel k := by
  unfold Config.stackedPanel
  split <;> omega

/-- Mirroring a row of a panel twice changes nothing. -/
theorem Config.turnedRow_eq_iff {g p q : Nat} (hp : p < c.panelHeight) (hq : q < c.panelHeight) :
    c.turnedRow g p = q ↔ p = c.turnedRow g q := by
  unfold Config.turnedRow
  split <;> omega

/-! ### The row map is one to one -/

/-- A hardware row and a sub-row are a row of the panel, its two scan-row halves one after the other. -/
theorem Config.valid.pairRow_eq_iff (hv : c.valid = true) {r : Nat} (hr : r < c.scanRows) (j q : Nat) :
    r + j * c.rowPairOffset = q ↔ r = q % c.scanRows ∧ j = q / c.scanRows := by
  obtain ⟨-, -, ⟨-, hoffset⟩, -⟩ := (Config.valid_iff c).mp hv
  have hdiv := Nat.div_mod_unique (a := q) (c := r) (d := j) (Nat.zero_lt_of_lt hr)
  rw [← hoffset, Nat.mul_comm, @eq_comm _ r, @eq_comm _ j, and_comm, hdiv, and_iff_left hr]

theorem Config.valid.pairRow_lt (hv : c.valid = true) {r j : Nat} (hr : r < c.scanRows) (hj : j < 2) :
    r + j * c.rowPairOffset < c.panelHeight := by
  obtain ⟨-, -, hpanel, -⟩ := (Config.valid_iff c).mp hv
  obtain rfl | rfl : j = 0 ∨ j = 1 := by omega
  all_goals omega

/-- A display row is a row of one of the stacked panels. -/
theorem Config.valid.panelRow_lt (hv : c.valid = true) {y : Nat} (hy : y < c.height) :
    y / c.panelHeight < c.stack ∧ y % c.panelHeight < c.panelHeight := by
  obtain ⟨-, -, -, ⟨hheight, -⟩, -⟩ := (Config.valid_iff c).mp hv
  have hscan := (Config.valid.scan hv).1
  have hpanel := Config.valid.panel hv
  exact ⟨Nat.div_lt_of_lt_mul (by rwa [Nat.mul_comm, ← hheight]), Nat.mod_lt y (by omega)⟩

/-- `Y(r, g, j)` is row `y` exactly for the triple that `sourceOf` gives. -/
theorem Config.valid.displayRow_eq_iff (hv : c.valid = true) {r g j y : Nat} (hr : r < c.scanRows)
    (hg : g < c.stack) (hj : j < 2) (hy : y < c.height) :
    c.displayRow r g j = y ↔ (r, g, j) = c.sourceOf y := by
  have hrow : r + j * c.rowPairOffset < c.panelHeight := Config.valid.pairRow_lt hv hr hj
  have hpanel : 0 < c.panelHeight := Nat.zero_lt_of_lt hrow
  obtain ⟨hk, hq⟩ := Config.valid.panelRow_lt hv hy
  calc c.displayRow r g j = y
      ↔ y / c.panelHeight = c.stackedPanel g ∧
          y % c.panelHeight = c.turnedRow g (r + j * c.rowPairOffset) := by
        rw [Nat.div_mod_unique hpanel, Config.displayRow_eq, Nat.add_comm,
          Nat.mul_comm (c.stackedPanel g)]
        exact (and_iff_left (Config.turnedRow_lt g hrow)).symm
    _ ↔ g = c.stackedPanel (y / c.panelHeight) ∧
          r + j * c.rowPairOffset = c.turnedRow g (y % c.panelHeight) := by
        rw [eq_comm, Config.stackedPanel_eq_iff hg hk, @eq_comm _ (y % c.panelHeight),
          Config.turnedRow_eq_iff hrow hq]
    _ ↔ (r, g, j) = c.sourceOf y := by
        rw [Config.valid.pairRow_eq_iff hv hr, Config.sourceOf, Prod.mk.injEq, Prod.mk.injEq]
        constructor
        · rintro ⟨rfl, hr', hj'⟩
          exact ⟨hr', rfl, hj'⟩
        · rintro ⟨hr', rfl, hj'⟩
          exact ⟨rfl, hr', hj'⟩

/-- The triple behind a display row is a hardware row, a segment and a sub-row that exist. -/
theorem Config.valid.sourceOf_lt (hv : c.valid = true) {y : Nat} (hy : y < c.height) :
    (c.sourceOf y).1 < c.scanRows ∧ (c.sourceOf y).2.1 < c.stack ∧ (c.sourceOf y).2.2 < 2 := by
  obtain ⟨hk, hq⟩ := Config.valid.panelRow_lt hv hy
  have htwo : c.panelHeight = c.scanRows * 2 := (Config.valid.panel hv).trans (Nat.mul_comm ..)
  have hrow := (Config.turnedRow_lt (c.stackedPanel (y / c.panelHeight)) hq).trans_eq htwo
  exact ⟨Nat.mod_lt _ (Config.valid.scan hv).1, Config.stackedPanel_lt hk, Nat.div_lt_of_lt_mul hrow⟩

end Sys2Proof

namespace Sys2Proof.Machine

/-- Settles O20: the formula by its parts, and `sourceOf` as the inverse of the map. -/
theorem rowMapCoversTheDisplayOnce : Obligations.RowMapCoversTheDisplayOnce := by
  intro c hv
  refine ⟨fun r g j hr hg hj => ⟨?_, displayRow_lt c hv r g j hr hg hj⟩, fun y hy => ?_⟩
  · rw [Config.displayRow_eq, Config.turnedRow_eq, Config.stackedPanel]
  · obtain ⟨hr, hg, hj⟩ := Config.valid.sourceOf_lt hv hy
    refine ⟨c.sourceOf y, ⟨hr, hg, hj, (Config.valid.displayRow_eq_iff hv hr hg hj hy).mpr rfl⟩, ?_⟩
    rintro ⟨r, g, j⟩ ⟨hr', hg', hj', hrow⟩
    exact (Config.valid.displayRow_eq_iff hv hr' hg' hj' hy).mp hrow

/-! ### The data word of a chain position (R195, R196) -/

/-- A data word has the bits of R196 and, every pin being within the word, no others. -/
theorem packPair_getLsbD_eq_pinSet (p : PinMap) (hp : ∀ q ∈ p.positions, q < 32) (upper lower : Rgb)
    (i k : Nat) : (packPair p upper lower i).getLsbD k = pinSet p upper lower i k := by
  by_cases hk : k < 32
  · rw [packPair_getLsbD p upper lower i k hk]
    simp only [pinSet, beq_eq_decide]
  · have hpin : ∀ q ∈ p.positions, k ≠ q := fun q hq => by have := hp q hq; omega
    simp only [PinMap.positions, List.forall_mem_cons] at hpin
    obtain ⟨hr0, hg0, hb0, hr1, hg1, hb1, -⟩ := hpin
    rw [BitVec.getLsbD_of_ge _ _ (Nat.le_of_not_lt hk)]
    simp [pinSet, hr0, hg0, hb0, hr1, hg1, hb1]

/-- Place `u` of segment `g` is the chain position with that quotient and remainder. -/
theorem chainPosition_div_mod (g : Nat) {u width : Nat} (hu : u < width) :
    (g * width + u) / width = g ∧ (g * width + u) % width = u :=
  (Nat.div_mod_unique (Nat.zero_lt_of_lt hu)).mpr ⟨by rw [Nat.add_comm, Nat.mul_comm], hu⟩

theorem chainPosition_lt {g u width stack : Nat} (hg : g < stack) (hu : u < width) :
    g * width + u < width * stack := by
  rw [Nat.mul_comm width]
  exact Nat.lt_mul_of_div_lt ((chainPosition_div_mod g hu).1.trans_lt hg) (Nat.zero_lt_of_lt hu)

/-- The column that place `u` of segment `g` carries (R195). -/
theorem columnOf_segment (c : Config) (g : Nat) {u : Nat} (hu : u < c.width) :
    columnOf c (g * c.width + u) = if c.reversed g then c.width - 1 - u else u := by
  obtain ⟨hdiv, hmod⟩ := chainPosition_div_mod g hu
  rw [columnOf, hdiv, hmod]

/-- A data word is the packed pair of its two samples, both written. -/
theorem dataWord_eq_some_iff (c : Config) (work : Store Rgb) (i pos : Nat) (d : Word) :
    dataWord c work i pos = some d ↔
      ∃ upper lower,
        Store.read work (workIndex c (pos / c.width) 0 + columnOf c pos) = some upper ∧
        Store.read work (workIndex c (pos / c.width) 1 + columnOf c pos) = some lower ∧
        packPair c.pins upper lower i = d := by
  unfold dataWord
  split
  next upper lower hupper hlower => simp [hupper, hlower]
  next hmissing =>
    refine iff_of_false nofun ?_
    rintro ⟨upper, lower, hupper, hlower, -⟩
    exact hmissing upper lower hupper hlower

/-- Written working rows have every sample of every segment. -/
theorem workWritten_read {c : Config} {work : Store Rgb} (h : workWritten c work) {g j x : Nat}
    (hg : g < c.stack) (hj : j < 2) (hx : x < c.width) :
    (Store.read work (workIndex c g j + x)).isSome := by
  refine Option.isSome_iff_exists.mpr (h _ ?_)
  rw [workIndex, Nat.mul_comm (2 * c.stack)]
  exact chainPosition_lt (show 2 * g + j < 2 * c.stack by omega) hx

theorem planeWords_of_workWritten {c : Config} (hv : c.valid = true) {work : Store Rgb}
    (h : workWritten c work) (i : Nat) : ∃ ws, planeWords c work i = some ws :=
  planeWords_isSome c work i
    (dataWord_isSome c work i (Config.valid.size hv).1 fun _ _ _ => workWritten_read h)

/-! ### The plane block in the slot pool (R192, R201) -/

/-- A word of the plane block just written is read back. -/
theorem slotWord_writePlane_of_getElem? {s : State} {ws : List Word}
    (hfit : ∀ v ∈ ws, v.toNat < 256 ^ s.cfg.wordBytes) (w i : Nat) {q : Nat} {d : Word}
    (hd : ws[q]? = some d) : slotWord s.cfg (writePlane w i ws s).slots w i q = some d := by
  obtain ⟨hq, rfl⟩ := List.getElem?_eq_some_iff.mp hd
  exact slotWord_writePlane w i q ws s hq (hfit _ (List.getElem_mem hq))

/-- The words of a chain position in the plane block just written, two with clock doubling. -/
theorem writePlane_strobed {s : State} {i : Nat} {ws : List Word}
    (hfit : ∀ v ∈ ws, v.toNat < 256 ^ s.cfg.wordBytes) (hws : planeWords s.cfg s.work i = some ws)
    (w : Nat) {pos : Nat} (hpos : pos < s.cfg.chainLen) :
    ∃ d, dataWord s.cfg s.work i pos = some d ∧
      if s.cfg.clockDoubling then
        slotWord s.cfg (writePlane w i ws s).slots w i (2 * pos) = some d ∧
          slotWord s.cfg (writePlane w i ws s).slots w i (2 * pos + 1) =
            some (d ||| 1#32 <<< s.cfg.pins.clock)
      else slotWord s.cfg (writePlane w i ws s).slots w i pos = some d := by
  cases hclock : s.cfg.clockDoubling with
  | true =>
    obtain ⟨d, hd, hfirst, hsecond⟩ := planeWords_doubled s.cfg s.work i ws hws hclock pos hpos
    exact ⟨d, hd, slotWord_writePlane_of_getElem? hfit w i hfirst,
      slotWord_writePlane_of_getElem? hfit w i hsecond⟩
  | false =>
    have hsingle := planeWords_single s.cfg s.work i ws hws hclock pos hpos
    have hq : pos < ws.length := by
      rwa [planeWords_length s.cfg s.work i ws hws, Config.wordsPerPlane, hclock, if_neg (by decide),
        Nat.mul_one]
    have hword : ws[pos]? = some ws[pos] := List.getElem?_eq_getElem hq
    exact ⟨ws[pos], hsingle ▸ hword, slotWord_writePlane_of_getElem? hfit w i hword⟩

/-- The plane block just written holds what R196 says for every segment and place. -/
theorem writePlane_planeHolds {s : State} (hv : s.cfg.valid = true) {i : Nat} {ws : List Word}
    (hws : planeWords s.cfg s.work i = some ws) (w : Nat) :
    PlaneHolds s.cfg s.work (writePlane w i ws s).slots w i := by
  intro g u hg hu
  have hfit := planeWords_fit s.cfg hv s.work i ws hws
  have hpins : ∀ q ∈ s.cfg.pins.positions, q < 32 := by
    have hword := Config.valid.word hv
    exact fun q hq => ((Config.valid.pin hv).2 q hq).trans_le (by omega)
  obtain ⟨d, hd, hstored⟩ := writePlane_strobed hfit hws w (chainPosition_lt hg hu)
  obtain ⟨upper, lower, hupper, hlower, rfl⟩ := (dataWord_eq_some_iff ..).mp hd
  rw [(chainPosition_div_mod g hu).1, columnOf_segment s.cfg g hu] at hupper hlower
  exact ⟨upper, lower, _, hupper, hlower, packPair_getLsbD_eq_pinSet _ hpins upper lower i, hstored⟩

/-- EncodePlane of written working rows writes one plane block and nothing else (R192, R196). -/
theorem encodePlane_planeEncoded {s : State} (hv : s.cfg.valid = true) (hwork : workWritten s.cfg s.work)
    (w i : Nat) : ∃ m, encodePlane w i s = .next { s with slots := m } ∧ PlaneEncoded s w i m := by
  obtain ⟨ws, hws⟩ := planeWords_of_workWritten hv hwork i
  refine ⟨(writePlane w i ws s).slots, (encodePlane_eq_next w i s _).mpr ⟨ws, hws, rfl⟩,
    writePlane_planeHolds hv hws w, fun a ha => ?_⟩
  exact writePlane_read w i ws s a (planeWords_length s.cfg s.work i ws hws) ha

/-! ### The encoder variants (R197 to R199) -/

/-- Given a slot and a bit-plane that exist, the variant of the configured depth is EncodePlane. -/
theorem exec_encPlane_of_depth {s : State} {w : BitVec 8} {i : BitVec 4} (hw : w.toNat < s.cfg.capacity)
    (hi : i.toNat < s.cfg.depth) :
    (s.cfg.depth = 8 → exec (.encPlane24 w i) s = encodePlane w.toNat i.toNat s) ∧
    (s.cfg.depth = 12 → exec (.encPlane36 w i) s = encodePlane w.toNat i.toNat s) ∧
    (s.cfg.depth = 16 → exec (.encPlane48 w i) s = encodePlane w.toNat i.toNat s) := by
  have hplane : ∀ n, s.cfg.depth = n → s.cfg.hasPlane n w i = true := by
    rintro n rfl
    simp [Config.hasPlane, hw, hi]
  exact ⟨fun hd => (if_pos hd).trans (withOperands_wellFormed _ s _ (hplane 8 hd)),
    fun hd => (if_pos hd).trans (withOperands_wellFormed _ s _ (hplane 12 hd)),
    fun hd => (if_pos hd).trans (withOperands_wellFormed _ s _ (hplane 16 hd))⟩

/-- Settles O19: each variant is EncodePlane, which writes the block of R196. -/
theorem encoderWritesThePlaneBlock : Obligations.EncoderWritesThePlaneBlock := by
  intro s w i hv hwork hw hi
  obtain ⟨h24, h36, h48⟩ := exec_encPlane_of_depth hw hi
  obtain ⟨m, hencode, hencoded⟩ := encodePlane_planeEncoded hv hwork w.toNat i.toNat
  exact ⟨fun hd => ⟨m, (h24 hd).trans hencode, hencoded⟩,
    fun hd => ⟨m, (h36 hd).trans hencode, hencoded⟩,
    fun hd => ⟨m, (h48 hd).trans hencode, hencoded⟩⟩

end Sys2Proof.Machine
end

section
/-! The layer transforms (43_compositor.md R237, R239, R245): the four rotations as bijections, and what
L.SETROT makes of a layer. -/

namespace Sys2Proof

/-! ### The rotations as maps (R239) -/

/-- A rotation is one of four (10_state.md R35). -/
theorem rotation_cases : ∀ rot : BitVec 2, rot = 0 ∨ rot = 1 ∨ rot = 2 ∨ rot = 3 := by decide

/-- The local position that a rotation takes to hardware position `(hx, hy)`: the inverse of `Hw`. -/
def Config.localPos (c : Config) (rot : BitVec 2) (hx hy : Nat) : Nat × Nat :=
  if rot = 0 then (hx, hy)
  else if rot = 1 then (hy, c.width - 1 - hx)
  else if rot = 2 then (c.width - 1 - hx, c.height - 1 - hy)
  else (c.height - 1 - hy, hx)

/-- A display pixel has its local position in the local rectangle. -/
theorem Config.localPos_lt (c : Config) (rot : BitVec 2) {hx hy : Nat} (hw : hx < c.width)
    (hh : hy < c.height) :
    (c.localPos rot hx hy).1 < (c.localSize rot).1 ∧ (c.localPos rot hx hy).2 < (c.localSize rot).2 := by
  obtain rfl | rfl | rfl | rfl := rotation_cases rot <;>
    simp [Config.localPos, Config.localSize] <;> omega

theorem Config.localPos_hardwarePos (c : Config) (rot : BitVec 2) {x y : Nat}
    (hx : x < (c.localSize rot).1) (hy : y < (c.localSize rot).2) :
    c.localPos rot (c.hardwarePos rot x y).1 (c.hardwarePos rot x y).2 = (x, y) := by
  obtain rfl | rfl | rfl | rfl := rotation_cases rot <;>
    simp [Config.localPos, Config.hardwarePos, Config.localSize] at * <;> omega

theorem Config.hardwarePos_localPos (c : Config) (rot : BitVec 2) {hx hy : Nat} (hw : hx < c.width)
    (hh : hy < c.height) :
    c.hardwarePos rot (c.localPos rot hx hy).1 (c.localPos rot hx hy).2 = (hx, hy) := by
  obtain rfl | rfl | rfl | rfl := rotation_cases rot <;>
    simp [Config.localPos, Config.hardwarePos] <;> omega

theorem Config.localSize_fst (c : Config) (rot : BitVec 2) :
    (c.localSize rot).1 = if rot = 0 ∨ rot = 2 then c.width else c.height := by
  unfold Config.localSize; split <;> rfl

theorem Config.localSize_snd (c : Config) (rot : BitVec 2) :
    (c.localSize rot).2 = if rot = 0 ∨ rot = 2 then c.height else c.width := by
  unfold Config.localSize; split <;> rfl

end Sys2Proof

namespace Sys2Proof.Machine

/-- Settles O32: the formulas by definition, and `localPos` as the two-sided inverse. -/
theorem rotationTransformIsBijective : Obligations.RotationTransformIsBijective := by
  intro c
  refine ⟨fun x y => ⟨rfl, rfl, rfl, rfl⟩, fun rot => ?_⟩
  refine Set.InvOn.bijOn (f' := fun p => c.localPos rot p.1 p.2) ⟨?_, ?_⟩ ?_ ?_
  · exact fun p hp => c.localPos_hardwarePos rot hp.1 hp.2
  · exact fun p hp => c.hardwarePos_localPos rot hp.1 hp.2
  · exact fun p hp => hardwarePos_lt c rot p.1 p.2 hp.1 hp.2
  · exact fun p hp => c.localPos_lt rot hp.1 hp.2

/-! ### One layer's record in the pool -/

@[simp] theorem putLayer_cfg (s : State) (l : Nat) (lay : Layer) : (s.putLayer l lay).cfg = s.cfg := rfl

theorem putLayer_layers_self {s : State} {l : Nat} {lay : Layer} (h : s.layers[l]? = some lay)
    (b : Layer) : (s.putLayer l b).layers[l]? = some b := by
  rw [putLayer_layers, if_pos ⟨rfl, (List.getElem?_eq_some_iff.mp h).1⟩]

/-- Writing the record a layer has already is no change. -/
theorem putLayer_self {s : State} {l : Nat} {lay : Layer} (h : s.layers[l]? = some lay) :
    s.putLayer l lay = s := by
  obtain ⟨hlt, rfl⟩ := List.getElem?_eq_some_iff.mp h
  rw [State.putLayer, List.set_getElem_self]
  rfl

theorem putLayer_putLayer (s : State) (l : Nat) (a b : Layer) :
    (s.putLayer l a).putLayer l b = s.putLayer l b := by
  simp only [State.putLayer, State.setLayers_layers, List.set_set]
  rfl

/-! ### The canvas of a text layer (R252) -/

/-- The canvas written by a rasterisation holds, at every pixel, the bit that `Rasterise` returns. -/
theorem rasteriseCanvas_rasterised (c : Config) (l : Nat) (position : Half) (rot : BitVec 2) :
    Rasterised c l position rot (rasteriseCanvas c l position rot) := by
  intro y x hy hx
  obtain ⟨hdiv, hmod⟩ := chainPosition_div_mod y hx
  rw [rasteriseCanvas, Store.read_segment, if_pos (Nat.zero_le _), Nat.sub_zero, List.getElem?_map,
    List.getElem?_range (canvasIndex_lt c y x hy hx), Option.map_some, canvasIndex, hdiv, hmod]

/-! ### L.SETROT (R237) -/

/-- Layer `l` after L.SETROT. -/
def rotateLayer (c : Config) (l : Nat) (rot : BitVec 2) (lay : Layer) : Layer :=
  { lay with
    rotation := rot
    localWidth := (c.localSize rot).1
    localHeight := (c.localSize rot).2
    content := rotateContent c l rot lay.content }

theorem layerSetRot_eq {s : State} {l : Nat} {lay : Layer} (rot : BitVec 2)
    (h : s.layers[l]? = some lay) :
    layerSetRot l rot s = .next (s.putLayer l (rotateLayer s.cfg l rot lay)) :=
  withLayer_some _ _ _ lay h

theorem exec_lSetRot_eq {s : State} {l : BitVec 4} {lay : Layer} (rot : BitVec 2)
    (hl : l.toNat < s.cfg.maxLayers) (h : s.layers[l.toNat]? = some lay) :
    exec (.lSetRot l rot) s = .next (s.putLayer l.toNat (rotateLayer s.cfg l.toNat rot lay)) :=
  (withOperands_wellFormed (.lSetRot l rot) s _ (decide_eq_true hl)).trans (layerSetRot_eq rot h)

theorem rotateContent_of_buffers (c : Config) (l : Nat) (rot : BitVec 2) {x : Content}
    (h : x.isText = false) : rotateContent c l rot x = x := by
  cases x with
  | scrollingText t => cases h
  | _ => rfl

theorem rotateLayer_rotatedTo (c : Config) (l : Nat) (rot : BitVec 2) (a : Layer) :
    RotatedTo c l rot a (rotateLayer c l rot a) := by
  unfold RotatedTo rotateLayer
  rw [c.localSize_fst, c.localSize_snd]
  refine ⟨rfl, ?_⟩
  cases a.content with
  | scrollingText t => exact ⟨_, rfl, rasteriseCanvas_rasterised c l t.position rot⟩
  | _ => rfl

/-- Settles O24: L.SETROT writes the rotated record of its layer. -/
theorem layerSetRotation : Obligations.LayerSetRotation := by
  intro s l rot lay hl hlay
  exact ⟨_, exec_lSetRot_eq rot hl hlay, rotateLayer_rotatedTo s.cfg l.toNat rot lay⟩

/-! ### Rotating there and back (R245) -/

/-- A rotation leaves nothing of the one before it. -/
theorem rotateLayer_rotateLayer (c : Config) (l : Nat) (rot rot' : BitVec 2) (lay : Layer) :
    rotateLayer c l rot' (rotateLayer c l rot lay) = rotateLayer c l rot' lay := by
  unfold rotateLayer
  cases lay.content <;> rfl

/-- L.SETROT after L.SETROT leads where the second alone leads. -/
theorem exec_lSetRot_rotated {s : State} {l : BitVec 4} {lay : Layer} (rot rot' : BitVec 2)
    (hl : l.toNat < s.cfg.maxLayers) (h : s.layers[l.toNat]? = some lay) :
    exec (.lSetRot l rot') (s.putLayer l.toNat (rotateLayer s.cfg l.toNat rot lay)) =
      .next (s.putLayer l.toNat (rotateLayer s.cfg l.toNat rot' lay)) := by
  rw [exec_lSetRot_eq (s := s.putLayer _ _) rot' hl (putLayer_layers_self h _), putLayer_putLayer,
    putLayer_cfg, rotateLayer_rotateLayer]

/-- L.SETROT to the rotation and local size a layer with buffers has already is no change. -/
theorem rotateLayer_of_same (c : Config) (l : Nat) {lay : Layer} (ht : lay.content.isText = false)
    (hw : lay.localWidth = (c.localSize lay.rotation).1)
    (hh : lay.localHeight = (c.localSize lay.rotation).2) :
    rotateLayer c l lay.rotation lay = lay := by
  rw [rotateLayer, rotateContent_of_buffers c l _ ht, ← hw, ← hh]

/-- Settles O33: the last L.SETROT decides, and it names the rotation the layer began with. -/
theorem rotationRoundTrip : Obligations.RotationRoundTrip := by
  intro s l lay hl hlay hrot hwidth hheight
  refine ⟨s.putLayer l.toNat (rotateLayer s.cfg l.toNat 0 lay), rotateLayer s.cfg l.toNat 0 lay, ?_,
    putLayer_layers_self hlay _, hwidth.symm, hheight.symm, fun x y => ?_, fun ht => ?_⟩
  · rw [exec_lSetRot_eq 1 hl hlay, andThen_next, exec_lSetRot_rotated 1 3 hl hlay, andThen_next,
      exec_lSetRot_rotated 3 2 hl hlay, andThen_next, exec_lSetRot_rotated 2 0 hl hlay]
  · unfold drawTarget
    rw [hrot]
    rfl
  · rw [← hrot, rotateLayer_of_same s.cfg l.toNat ht (by rw [hrot]; exact hwidth)
      (by rw [hrot]; exact hheight), putLayer_self hlay]

end Sys2Proof.Machine
end

section
/-! The kinds of layer (43_compositor.md R223, R231, R235, R236, R238): what a layer shows, and what L.BEGIN,
L.SETRATE and L.FRAME make of it. -/

namespace Sys2Proof.Machine

/-- Settles O21: the branches of `sample`, one clause for each. -/
theorem sampleByLayerKind : Obligations.SampleByLayerKind := by
  intro c lay y x
  refine ⟨fun m v hkind hread => ?_, fun n p m k hkind hread => ⟨fun hk => ?_, fun v hk hv => ?_⟩,
    fun v m b hkind hread => ?_, fun t hkind hoff => ?_, fun t b hkind hon hread => ?_⟩
  · simp only [sample, hkind, bufferIndex, hread]
  · simp only [sample, hkind, bufferIndex, hread, if_pos hk]
  · simp only [sample, hkind, bufferIndex, hread, if_neg hk, hv]
  · simp only [sample, hkind, bufferIndex, hread]
  · simp only [sample, hkind, if_pos hoff]
  · simp only [sample, hkind, if_neg hon, canvasIndex, hread]

/-! ### Frames per scroll (R238) -/

/-- A layer with a scroll rate: `max(1, rate div pixelsPerSecond)`, which fits 16 bits. -/
theorem framesFor_toNat (rate : Half) {pps : Half} (h : 1 ≤ pps.toNat) (k : Nat) :
    (framesFor rate pps k).toNat = max 1 (rate.toNat / pps.toNat) := by
  have hne : pps ≠ 0 := by rintro rfl; exact absurd h (by decide)
  have hquot : rate.toNat / pps.toNat < 65536 := (Nat.div_le_self _ _).trans_lt rate.isLt
  rw [framesFor, if_neg hne, BitVec.toNat_ofNat]
  exact Nat.mod_eq_of_lt (by omega)

/-- No free value is used where every text layer has a scroll rate. -/
theorem contentUses_of_pixelsPerSecond {x : Content}
    (h : ∀ t, x = .scrollingText t → 1 ≤ t.pixelsPerSecond.toNat) : contentUses x = 0 := by
  cases x with
  | scrollingText t =>
    have hne : t.pixelsPerSecond ≠ 0 := fun e => absurd (h t rfl) (by rw [e]; decide)
    exact if_neg hne
  | _ => rfl

/-! ### L.BEGIN (R231) -/

theorem clearedBuffers_cleared {α : Type} (c : Config) (count : Nat) (v : α) :
    Cleared c count v (clearedBuffers c count v) :=
  fun b y x hb hy hx => clearedBuffers_read c count v _ (bufferIndex_lt c count b y x hb hy hx)

theorem exec_lBegin_eq {s : State} {l : BitVec 4} {lay : Layer} (hl : l.toNat < s.cfg.maxLayers)
    (h : s.layers[l.toNat]? = some lay) :
    exec (.lBegin l) s =
      .next ((s.putLayer l.toNat (beginLayer s l.toNat lay)).setFreeCount
        (s.freeCount + contentUses lay.content)) :=
  (withOperands_wellFormed (.lBegin l) s _ (decide_eq_true hl)).trans (withLayer_some _ _ _ lay h)

/-- Settles O22: the record L.BEGIN writes, and by kind the memory it clears or rasterises. -/
theorem layerBeginInitialises : Obligations.LayerBeginInitialises := by
  intro s l lay hl hlay
  refine ⟨(beginLayer s l.toNat lay).content, s.freeCount + contentUses lay.content, ?_, ?_⟩
  · rw [exec_lBegin_eq hl hlay]
    simp only [beginLayer, Config.localSize_fst, Config.localSize_snd, Bool.and_eq_true,
      Bool.not_eq_true', decide_eq_true_eq]
    rfl
  · unfold beginLayer
    cases lay.content with
    | background m => exact ⟨_, rfl, clearedBuffers_cleared s.cfg lay.bufferCount _⟩
    | indexed n p m => exact ⟨_, rfl, clearedBuffers_cleared s.cfg lay.bufferCount _⟩
    | monoGfx v m => exact ⟨_, rfl, clearedBuffers_cleared s.cfg lay.bufferCount _⟩
    | scrollingText t =>
      exact ⟨_, _, rfl, fun hpps => framesFor_toNat s.ctl.refreshRate hpps s.freeCount,
        rasteriseCanvas_rasterised s.cfg l.toNat t.position s.ctl.rotation⟩

/-! ### L.SETRATE (R238) -/

/-- A layer after L.SETRATE, `k` the index of the next free value. -/
def rateLayer (rate : Half) (k : Nat) (lay : Layer) : Layer :=
  { lay with refreshRate := rate, content := rateContent rate k lay.content }

theorem layerSetRate_eq {s : State} {l : Nat} {lay : Layer} (rate : Half)
    (h : s.layers[l]? = some lay) :
    layerSetRate l rate s =
      .next ((s.putLayer l (rateLayer rate s.freeCount lay)).setFreeCount
        (s.freeCount + contentUses lay.content)) :=
  withLayer_some _ _ _ lay h

theorem rateLayer_ratedTo (rate : Half) (k : Nat) (a : Layer) : RatedTo rate a (rateLayer rate k a) := by
  refine ⟨rfl, ?_⟩
  unfold rateLayer
  cases a.content with
  | scrollingText t => exact ⟨_, rfl, fun hpps => framesFor_toNat rate hpps k⟩
  | _ => rfl

/-- Settles O25: L.SETRATE writes the rated record of its layer. (The model's operation bears the plain name.) -/
theorem layerSetRate_holds : Obligations.LayerSetRate := by
  intro s l rate lay hl hrate hlay
  have hwf : (Instr.lSetRate l rate).wellFormed s.cfg = true :=
    Bool.and_eq_true_iff.mpr ⟨decide_eq_true hl, decide_eq_true hrate⟩
  refine ⟨_, _, (withOperands_wellFormed _ s _ hwf).trans (layerSetRate_eq rate hlay),
    rateLayer_ratedTo rate s.freeCount lay, fun hpps => ?_⟩
  rw [contentUses_of_pixelsPerSecond hpps, Nat.add_zero]

/-! ### L.FRAME (R235, R236) -/

theorem layerFrame_of_text {s : State} {l : Nat} {lay : Layer} {t : Scroll}
    (h : s.layers[l]? = some lay) (e : lay.content = .scrollingText t) :
    layerFrame l s = .next (scrollStep l lay t s) := by
  rw [layerFrame, withLayer_some _ _ _ lay h, e]

theorem layerFrame_of_buffers {s : State} {l : Nat} {lay : Layer} (h : s.layers[l]? = some lay)
    (ht : lay.content.isText = false) :
    layerFrame l s =
      if lay.swapPending then .next (s.putLayer l { exchangeBuffers lay with swapPending := false })
      else .next s := by
  rw [layerFrame, withLayer_some _ _ _ lay h]
  cases e : lay.content with
  | scrollingText t => rw [e] at ht; cases ht
  | _ => rfl

theorem exec_lFrame_eq {s : State} {l : BitVec 4} (hl : l.toNat < s.cfg.maxLayers) :
    exec (.lFrame l) s = layerFrame l.toNat s :=
  withOperands_wellFormed (.lFrame l) s _ (decide_eq_true hl)

theorem exec_lScrollStep_eq {s : State} {l : BitVec 4} {lay : Layer} {t : Scroll}
    (hl : l.toNat < s.cfg.maxLayers) (h : s.layers[l.toNat]? = some lay)
    (e : lay.content = .scrollingText t) :
    exec (.lScrollStep l) s = .next (scrollStep l.toNat lay t s) := by
  refine (withOperands_wellFormed (.lScrollStep l) s _ (decide_eq_true hl)).trans ?_
  rw [withLayer_some _ _ _ lay h, e]

theorem Content.exists_of_isText {x : Content} (h : x.isText = true) : ∃ t, x = .scrollingText t := by
  cases x with
  | scrollingText t => exact ⟨t, rfl⟩
  | _ => cases h

theorem exchangeBuffers_of_two {lay : Layer} (h : lay.bufferCount = 2) :
    exchangeBuffers lay =
      { lay with drawBuffer := lay.refreshBuffer, refreshBuffer := lay.drawBuffer } := by
  rw [exchangeBuffers, if_neg (by omega)]

theorem exchangeBuffers_of_three {lay : Layer} (h : lay.bufferCount = 3) :
    exchangeBuffers lay =
      { lay with
        previousBuffer := lay.refreshBuffer
        refreshBuffer := lay.drawBuffer
        drawBuffer := lay.previousBuffer } := by
  rw [exchangeBuffers, if_pos h]

/-- Settles O23: by kind, then by the pending swap and the number of buffers. -/
theorem layerFrameExchangesBuffers : Obligations.LayerFrameExchangesBuffers := by
  intro s l lay hl hlay
  refine ⟨fun ht => ?_, fun ht hswap => ?_, fun ht hswap htwo => ?_, fun ht hswap hthree => ?_⟩
  · obtain ⟨t, e⟩ := Content.exists_of_isText ht
    rw [exec_lFrame_eq hl, layerFrame_of_text hlay e, exec_lScrollStep_eq hl hlay e]
  · rw [exec_lFrame_eq hl, layerFrame_of_buffers hlay ht, hswap]
    rfl
  · rw [exec_lFrame_eq hl, layerFrame_of_buffers hlay ht, if_pos hswap, exchangeBuffers_of_two htwo]
    rfl
  · rw [exec_lFrame_eq hl, layerFrame_of_buffers hlay ht, if_pos hswap,
      exchangeBuffers_of_three hthree]
    rfl

end Sys2Proof.Machine
end

section
/-! The scrolling state machine (43_compositor.md R248 to R253): what a step makes of the scrolling fields, and
the scroll scenario as three legs. -/

namespace Sys2Proof.Machine

/-! ### The fields that a move writes (R250) -/

/-- The frame counter plus one, where 16 bits hold it. -/
theorem nextFrame_toNat {v : Half} (h : v.toNat < 65535) (k : Nat) :
    (nextFrame v k).toNat = v.toNat + 1 := by
  have hne : v ≠ 65535 := by rintro rfl; exact absurd h (by decide)
  rw [nextFrame, if_neg hne]
  bv_omega

/-- One pixel back, where 16 bits hold it. -/
theorem stepBack_toInt {v : Half} (h : -32768 < v.toInt) (k : Nat) :
    (stepBack v k).toInt = v.toInt - 1 := by
  have hne : v ≠ 32768 := by rintro rfl; exact absurd h (by decide)
  rw [stepBack, if_neg hne]
  simp only [BitVec.toInt_eq_toNat_cond] at *
  bv_omega

/-- One pixel on, where 16 bits hold it. -/
theorem stepOn_toInt {v : Half} (h : v.toInt < 32767) (k : Nat) :
    (stepOn v k).toInt = v.toInt + 1 := by
  have hne : v ≠ 32767 := by rintro rfl; exact absurd h (by decide)
  rw [stepOn, if_neg hne]
  simp only [BitVec.toInt_eq_toNat_cond] at *
  bv_omega

/-- A counter that has not run out counts down by one. -/
theorem scrollCounter_pred {v : Half} (h : v ≠ 0) : (v - 1).toNat = v.toNat - 1 := by
  bv_omega

/-- The position after the move of R250, before parking, `k` the index of the next free value. -/
def movedPosition (t : Scroll) (k : Nat) : Half :=
  match t.mode with
  | .bounceReverse => stepOn t.position k
  | .wrapForward | .bounceForward | .stopped | .off => stepBack t.position k

/-- `u` differs from `t` only in the fields a step may write. -/
def SameLaunch (t u : Scroll) : Prop :=
  u = { t with
    mode := u.mode
    position := u.position
    scrollCounter := u.scrollCounter
    currentFrame := u.currentFrame
    canvas := u.canvas }

theorem SameLaunch.trans {t u v : Scroll} (h : SameLaunch t u) (h' : SameLaunch u v) :
    SameLaunch t v := by
  unfold SameLaunch at *
  rw [h', h]

theorem scrollMove_sameLaunch (t : Scroll) (k : Nat) : SameLaunch t (scrollMove t k) := by
  unfold SameLaunch scrollMove
  cases t.mode <;> dsimp only <;> (try split) <;> rfl

theorem scrollMove_leftOffset (t : Scroll) (k : Nat) : (scrollMove t k).leftOffset = t.leftOffset := by
  rw [scrollMove_sameLaunch t k]

theorem parkIfDone_sameLaunch (t : Scroll) : SameLaunch t (parkIfDone t) := by
  unfold SameLaunch parkIfDone
  split <;> rfl

/-! ### One step on numbers (R250) -/

theorem Scroll.rests_eq_false (t : Scroll) :
    t.rests = false ↔ t.scrollCounter ≠ 0 ∧ t.mode ≠ .stopped ∧ t.mode ≠ .off := by
  simp [Scroll.rests]

theorem parkIfDone_view (t : Scroll) :
    (parkIfDone t).view = ScrollView.park t.leftOffset.toInt t.view := by
  have hzero : t.view.counter = 0 ↔ t.scrollCounter = 0 :=
    (BitVec.toNat_eq (x := t.scrollCounter) (y := 0)).symm
  unfold parkIfDone ScrollView.park
  simp only [hzero]
  split <;> rfl

/-- A step of a layer that rests. -/
theorem Scroll.stepped_of_rests {t : Scroll} (hr : t.rests = true) (f : Nat) (p : Int) :
    t.stepped f p = t.view := by
  rw [Scroll.stepped, if_pos hr]

/-- A step that waits for its frame. -/
theorem Scroll.stepped_of_waits {t : Scroll} (hr : t.rests = false) {f : Nat}
    (hf : f < t.framesPerScroll.toNat) (p : Int) : t.stepped f p = { t.view with frame := f } := by
  rw [Scroll.stepped, hr, if_neg (by decide), if_pos hf]

/-- A step that moves. -/
theorem Scroll.stepped_of_moves {t : Scroll} (hr : t.rests = false) {f : Nat}
    (hf : t.framesPerScroll.toNat ≤ f) (k : Nat) :
    t.stepped f (movedPosition t k).toInt =
      (parkIfDone (scrollMove { t with currentFrame := 0 } k)).view := by
  obtain ⟨hcount, hstopped, hoff⟩ := t.rests_eq_false.mp hr
  rw [parkIfDone_view, scrollMove_leftOffset, Scroll.stepped, hr, if_neg (by decide),
    if_neg (Nat.not_lt_of_le hf)]
  have hpred : t.scrollCounter.toNat - 1 = (t.scrollCounter - 1).toNat :=
    (scrollCounter_pred hcount).symm
  congr 1
  cases hm : t.mode with
  | wrapForward =>
    simp only [scrollMove, movedPosition, hm, BitVec.sle_iff_toInt_le]
    split
    · exact congrArg (ScrollView.mk _ _ · _) hpred
    · rfl
  | bounceForward =>
    simp only [scrollMove, movedPosition, hm, BitVec.sle_iff_toInt_le]
    split
    · exact congrArg (ScrollView.mk _ _ · _) hpred
    · rfl
  | bounceReverse =>
    simp only [scrollMove, movedPosition, hm, BitVec.sle_iff_toInt_le]
    split
    · exact congrArg (ScrollView.mk _ _ · _) hpred
    · rfl
  | stopped => exact absurd hm hstopped
  | off => exact absurd hm hoff

/-! ### L.SCROLLSTEP (R250, R252) -/

/-- The position that a moving layer steps to, where 16 bits hold it. -/
theorem movedPosition_toInt (t : Scroll) (k : Nat) :
    ((t.mode = .wrapForward ∨ t.mode = .bounceForward) → -32768 < t.position.toInt →
      (movedPosition t k).toInt = t.position.toInt - 1) ∧
    (t.mode = .bounceReverse → t.position.toInt < 32767 →
      (movedPosition t k).toInt = t.position.toInt + 1) := by
  refine ⟨fun hm hpos => ?_, fun hm hpos => ?_⟩
  · rcases hm with hm | hm <;> rw [movedPosition, hm] <;> exact stepBack_toInt hpos k
  · rw [movedPosition, hm]
    exact stepOn_toInt hpos k

/-- The fields of a layer after a move, with the canvas not yet rasterised. -/
def movedText (t : Scroll) (k : Nat) : Scroll :=
  parkIfDone (scrollMove { t with currentFrame := 0 } (k + nextFrameUses t.currentFrame))

theorem movedText_sameLaunch (t : Scroll) (k : Nat) : SameLaunch t (movedText t k) := by
  have hframe : SameLaunch t { t with currentFrame := 0 } := rfl
  exact (hframe.trans (scrollMove_sameLaunch _ _)).trans (parkIfDone_sameLaunch _)

/-- What L.SCROLLSTEP can do to the fields of a layer: it is at rest, waits for its frame, or moves. -/
theorem scrollAdvance_cases (c : Config) (l : Nat) (rot : BitVec 2) (k : Nat) (t : Scroll) :
    (t.rests = true ∧ scrollAdvance c l rot k t = t) ∨
    (t.rests = false ∧ (nextFrame t.currentFrame k).toNat < t.framesPerScroll.toNat ∧
      scrollAdvance c l rot k t = { t with currentFrame := nextFrame t.currentFrame k }) ∨
    (t.rests = false ∧ t.framesPerScroll.toNat ≤ (nextFrame t.currentFrame k).toNat ∧
      scrollAdvance c l rot k t =
        { movedText t k with canvas := rasteriseCanvas c l (movedText t k).position rot }) := by
  cases hr : t.rests with
  | true => exact .inl ⟨rfl, if_pos hr⟩
  | false =>
    have hmay := Bool.eq_false_iff.mp hr
    rcases Nat.lt_or_ge (nextFrame t.currentFrame k).toNat t.framesPerScroll.toNat with hf | hf
    · exact .inr (.inl ⟨rfl, hf, (if_neg hmay).trans (if_pos hf)⟩)
    · exact .inr (.inr ⟨rfl, hf, (if_neg hmay).trans (if_neg (Nat.not_lt_of_le hf))⟩)

theorem scrollAdvance_sameLaunch (c : Config) (l : Nat) (rot : BitVec 2) (k : Nat) (t : Scroll) :
    SameLaunch t (scrollAdvance c l rot k t) := by
  obtain ⟨-, e⟩ | ⟨-, -, e⟩ | ⟨-, -, e⟩ := scrollAdvance_cases c l rot k t <;> rw [e]
  · rfl
  · rfl
  · have hcanvas : SameLaunch (movedText t k)
      { movedText t k with canvas := rasteriseCanvas c l (movedText t k).position rot } := rfl
    exact (movedText_sameLaunch t k).trans hcanvas

/-- L.SCROLLSTEP on the fields of a layer is the step of R250. -/
theorem scrollAdvance_scrolledTo (c : Config) (l : Nat) (rot : BitVec 2) (k : Nat) (t : Scroll) :
    ScrolledTo c l rot t (scrollAdvance c l rot k t) := by
  obtain ⟨hback, hon⟩ := movedPosition_toInt t (k + nextFrameUses t.currentFrame)
  refine ⟨scrollAdvance_sameLaunch c l rot k t, nextFrame t.currentFrame k,
    movedPosition t (k + nextFrameUses t.currentFrame), fun hf => nextFrame_toNat hf k, hback, hon, ?_⟩
  obtain ⟨hr, e⟩ | ⟨hr, hf, e⟩ | ⟨hr, hf, e⟩ := scrollAdvance_cases c l rot k t <;> rw [e]
  · rw [if_pos (.inl hr), Scroll.stepped_of_rests hr]
    exact ⟨rfl, rfl⟩
  · rw [if_pos (.inr hf), Scroll.stepped_of_waits hr hf]
    exact ⟨rfl, rfl⟩
  · rw [if_neg (by simp [hr, hf]), Scroll.stepped_of_moves hr hf]
    exact ⟨rfl, rasteriseCanvas_rasterised c l _ rot⟩

/-- Settles O26: L.SCROLLSTEP writes the advanced text record of its layer. -/
theorem scrollStepMovesTheText : Obligations.ScrollStepMovesTheText := by
  intro s l lay t hl hlay htext
  exact ⟨_, _, exec_lScrollStep_eq hl hlay htext,
    scrollAdvance_scrolledTo s.cfg l.toNat lay.rotation s.freeCount t⟩

end Sys2Proof.Machine
end

section
/-! The scroll scenario (43_compositor.md R253): three legs of a bouncing text, then rest. -/

namespace Sys2Proof.Machine

/-! ### Repeated operations -/

theorem performTimes_succ (n : Nat) (i : Instr) (s : State) :
    performTimes (n + 1) i s = andThen (exec i s) (performTimes n i) := rfl

theorem performTimes_add (m n : Nat) (i : Instr) (s : State) :
    performTimes (m + n) i s = andThen (performTimes m i s) (performTimes n i) := by
  induction m generalizing s with
  | zero => rw [Nat.zero_add]; rfl
  | succ m ih =>
    rw [Nat.succ_add, performTimes_succ, performTimes_succ]
    cases exec i s with
    | next u => exact ih u
    | fault e => rfl
    | refused e => rfl

theorem performTimes_of_fixed {i : Instr} {s : State} (h : exec i s = .next s) (n : Nat) :
    performTimes n i s = .next s := by
  induction n with
  | zero => rfl
  | succ n ih => rw [performTimes_succ, h, andThen_next, ih]

/-! ### A text layer of a state, seen as numbers -/

/-- Layer `l` is a text layer launched as `b`, and `v` is what its scrolling fields read. -/
def ScrollsAt (b : Scroll) (l : BitVec 4) (s : State) (v : ScrollView) : Prop :=
  l.toNat < s.cfg.maxLayers ∧
    ∃ lay t, s.layers[l.toNat]? = some lay ∧ lay.content = .scrollingText t ∧ SameLaunch b t ∧
      t.view = v

theorem ScrollView.park_of_pos (left : Int) (m : ScrollMode) (p : Int) (n f : Nat) :
    ScrollView.park left ⟨m, p, n + 1, f⟩ = ⟨m, p, n + 1, f⟩ :=
  if_neg (Nat.succ_ne_zero n)

/-- A layer that bounces and has not run out does not rest. -/
theorem Scroll.rests_of_view {t : Scroll} {m : ScrollMode} {p : Int} {n f : Nat}
    (hv : t.view = ⟨m, p, n + 1, f⟩) (hm : m = .bounceForward ∨ m = .bounceReverse) :
    t.rests = false := by
  obtain ⟨rfl, -, hcount, -⟩ := (ScrollView.mk.injEq ..).mp hv
  have hne : t.scrollCounter ≠ 0 := fun e => by rw [e] at hcount; cases hcount
  exact t.rests_eq_false.mpr ⟨hne, by rcases hm with hm | hm <;> rw [hm] <;> decide⟩

/-- A step forward, with one frame a step (R250). -/
theorem Scroll.stepped_bounceForward {t : Scroll} {q : Int} {n : Nat}
    (hv : t.view = ⟨.bounceForward, q, n + 1, 0⟩) (hfps : t.framesPerScroll = 1) (p : Int) :
    t.stepped 1 p =
      ScrollView.park t.leftOffset.toInt
        (if p ≤ t.scrollMin.toInt then ⟨.bounceReverse, p, n, 0⟩ else ⟨.bounceForward, p, n + 1, 0⟩) := by
  have hr := Scroll.rests_of_view hv (.inl rfl)
  obtain ⟨hmode, -, hcount, -⟩ := (ScrollView.mk.injEq ..).mp hv
  rw [Scroll.stepped, hr, if_neg (by decide), hfps, if_neg (by decide), hmode, hcount, Nat.add_sub_cancel]

/-- A step back, with one frame a step (R250). -/
theorem Scroll.stepped_bounceReverse {t : Scroll} {q : Int} {n : Nat}
    (hv : t.view = ⟨.bounceReverse, q, n + 1, 0⟩) (hfps : t.framesPerScroll = 1) (p : Int) :
    t.stepped 1 p =
      ScrollView.park t.leftOffset.toInt
        (if t.scrollMax.toInt ≤ p then ⟨.bounceForward, p, n, 0⟩ else ⟨.bounceReverse, p, n + 1, 0⟩) := by
  have hr := Scroll.rests_of_view hv (.inr rfl)
  obtain ⟨hmode, -, hcount, -⟩ := (ScrollView.mk.injEq ..).mp hv
  rw [Scroll.stepped, hr, if_neg (by decide), hfps, if_neg (by decide), hmode, hcount, Nat.add_sub_cancel]

/-- L.SCROLLSTEP on a text layer answers, and what it leads to is R250's. -/
theorem ScrollsAt.step {b : Scroll} {l : BitVec 4} {s : State} {v : ScrollView}
    (h : ScrollsAt b l s v) :
    ∃ u t t' rot, exec (.lScrollStep l) s = .next u ∧ SameLaunch b t ∧ t.view = v ∧
      ScrolledTo s.cfg l.toNat rot t t' ∧ ScrollsAt b l u t'.view := by
  obtain ⟨hl, lay, t, hlay, htext, hlaunch, hv⟩ := h
  have hscrolled := scrollAdvance_scrolledTo s.cfg l.toNat lay.rotation s.freeCount t
  exact ⟨_, t, _, _, exec_lScrollStep_eq hl hlay htext, hlaunch, hv, hscrolled, hl, _, _,
    putLayer_layers_self hlay _, rfl, hlaunch.trans hscrolled.1, rfl⟩

theorem ScrollsAt.step_forward {b : Scroll} {l : BitVec 4} {s : State} {q : Int} {n : Nat}
    (hfps : b.framesPerScroll = 1) (hq : b.scrollMin.toInt < q)
    (h : ScrollsAt b l s ⟨.bounceForward, q, n + 1, 0⟩) :
    ∃ u, exec (.lScrollStep l) s = .next u ∧
      ScrollsAt b l u (ScrollView.park b.leftOffset.toInt
        (if q - 1 ≤ b.scrollMin.toInt then ⟨.bounceReverse, q - 1, n, 0⟩
          else ⟨.bounceForward, q - 1, n + 1, 0⟩)) := by
  obtain ⟨u, t, t', rot, hexec, hlaunch, hv, ⟨-, f, p, hf, hback, -, hview, -⟩, hu⟩ := h.step
  obtain ⟨hmode, hpos, -, hframe⟩ := (ScrollView.mk.injEq ..).mp hv
  have hlow := b.scrollMin.le_toInt
  rw [hpos] at hback
  rw [hframe] at hf
  rw [hf (by decide), hback (.inr hmode) (by omega),
    Scroll.stepped_bounceForward hv (by rw [hlaunch]; exact hfps)] at hview
  rw [hview, hlaunch] at hu
  exact ⟨u, hexec, hu⟩

theorem ScrollsAt.step_reverse {b : Scroll} {l : BitVec 4} {s : State} {q : Int} {n : Nat}
    (hfps : b.framesPerScroll = 1) (hq : q < b.scrollMax.toInt)
    (h : ScrollsAt b l s ⟨.bounceReverse, q, n + 1, 0⟩) :
    ∃ u, exec (.lScrollStep l) s = .next u ∧
      ScrollsAt b l u (ScrollView.park b.leftOffset.toInt
        (if b.scrollMax.toInt ≤ q + 1 then ⟨.bounceForward, q + 1, n, 0⟩
          else ⟨.bounceReverse, q + 1, n + 1, 0⟩)) := by
  obtain ⟨u, t, t', rot, hexec, hlaunch, hv, ⟨-, f, p, hf, -, hon, hview, -⟩, hu⟩ := h.step
  obtain ⟨hmode, hpos, -, hframe⟩ := (ScrollView.mk.injEq ..).mp hv
  have hhigh := b.scrollMax.toInt_lt
  rw [hpos] at hon
  rw [hframe] at hf
  rw [hf (by decide), hon hmode (by omega),
    Scroll.stepped_bounceReverse hv (by rw [hlaunch]; exact hfps)] at hview
  rw [hview, hlaunch] at hu
  exact ⟨u, hexec, hu⟩

/-! ### The legs of the scenario -/

/-- The way down to `scrollMin` with `n` counts left after it: `k` steps before its end. -/
def forwardLeg (b : Scroll) (n : Nat) : Nat → ScrollView
  | 0 => ScrollView.park b.leftOffset.toInt ⟨.bounceReverse, b.scrollMin.toInt, n, 0⟩
  | k + 1 => ⟨.bounceForward, b.scrollMin.toInt + (k + 1 : Nat), n + 1, 0⟩

/-- The way up to `scrollMax` with `n` counts left after it: `k` steps before its end. -/
def reverseLeg (b : Scroll) (n : Nat) : Nat → ScrollView
  | 0 => ScrollView.park b.leftOffset.toInt ⟨.bounceForward, b.scrollMax.toInt, n, 0⟩
  | k + 1 => ⟨.bounceReverse, b.scrollMax.toInt - (k + 1 : Nat), n + 1, 0⟩

theorem forwardLeg_step {b : Scroll} {l : BitVec 4} (hfps : b.framesPerScroll = 1) (n k : Nat) {s : State}
    (h : ScrollsAt b l s (forwardLeg b n (k + 1))) :
    ∃ u, exec (.lScrollStep l) s = .next u ∧ ScrollsAt b l u (forwardLeg b n k) := by
  obtain ⟨u, hexec, hu⟩ := ScrollsAt.step_forward hfps (by omega) h
  refine ⟨u, hexec, ?_⟩
  cases k with
  | zero =>
    rw [if_pos (by omega), show b.scrollMin.toInt + (0 + 1 : Nat) - 1 = b.scrollMin.toInt by omega] at hu
    exact hu
  | succ k =>
    rw [if_neg (by omega), ScrollView.park_of_pos,
      show b.scrollMin.toInt + (k + 1 + 1 : Nat) - 1 = b.scrollMin.toInt + (k + 1 : Nat) by omega] at hu
    exact hu

theorem reverseLeg_step {b : Scroll} {l : BitVec 4} (hfps : b.framesPerScroll = 1) (n k : Nat) {s : State}
    (h : ScrollsAt b l s (reverseLeg b n (k + 1))) :
    ∃ u, exec (.lScrollStep l) s = .next u ∧ ScrollsAt b l u (reverseLeg b n k) := by
  obtain ⟨u, hexec, hu⟩ := ScrollsAt.step_reverse hfps (by omega) h
  refine ⟨u, hexec, ?_⟩
  cases k with
  | zero =>
    rw [if_pos (by omega), show b.scrollMax.toInt - (0 + 1 : Nat) + 1 = b.scrollMax.toInt by omega] at hu
    exact hu
  | succ k =>
    rw [if_neg (by omega), ScrollView.park_of_pos,
      show b.scrollMax.toInt - (k + 1 + 1 : Nat) + 1 = b.scrollMax.toInt - (k + 1 : Nat) by omega] at hu
    exact hu

/-- As many steps as a leg has lead to its end. -/
theorem ScrollsAt.leg {b : Scroll} {l : BitVec 4} {view : Nat → ScrollView}
    (each : ∀ k s, ScrollsAt b l s (view (k + 1)) →
      ∃ u, exec (.lScrollStep l) s = .next u ∧ ScrollsAt b l u (view k))
    (d : Nat) {s : State} (h : ScrollsAt b l s (view d)) :
    ∃ u, performTimes d (.lScrollStep l) s = .next u ∧ ScrollsAt b l u (view 0) := by
  induction d generalizing s with
  | zero => exact ⟨s, rfl, h⟩
  | succ d ih =>
    obtain ⟨m, hexec, hm⟩ := each d s h
    obtain ⟨u, hrest, hu⟩ := ih hm
    exact ⟨u, by rw [performTimes_succ, hexec, andThen_next, hrest], hu⟩

/-- A parked layer is a fixed point of L.SCROLLSTEP. -/
theorem ScrollsAt.parked {b : Scroll} {l : BitVec 4} {s : State} {m : ScrollMode} {p : Int} {f : Nat}
    (h : ScrollsAt b l s ⟨m, p, 0, f⟩) : exec (.lScrollStep l) s = .next s := by
  obtain ⟨hl, lay, t, hlay, htext, -, hv⟩ := h
  have hcount : t.scrollCounter = 0 := BitVec.eq_of_toNat_eq (congrArg ScrollView.counter hv)
  have hhalted : scrollHalted t = true := decide_eq_true (.inl hcount)
  rw [exec_lScrollStep_eq hl hlay htext, scrollStep, scrollAdvance, if_pos hhalted, scrollAdvanceUses,
    if_pos hhalted, ← htext, putLayer_self hlay]
  rfl

/-- What the scenario asks of a state, from `ScrollsAt`. -/
theorem ScrollsAt.layer {b : Scroll} {l : BitVec 4} {s : State} {v : ScrollView}
    (h : ScrollsAt b l s v) :
    ∃ x y, s.layers[l.toNat]? = some x ∧ x.content = .scrollingText y ∧ y.view = v := by
  obtain ⟨-, x, y, hx, hy, -, hv⟩ := h
  exact ⟨x, y, hx, hy, hv⟩

/-- Settles O27: a forward leg, a reverse leg and a forward leg, each of `d` steps, end parked. -/
theorem scrollScenario : Obligations.ScrollScenario := by
  intro s l lay t d hl hlay htext hmode hpos hcount hfps hframe hd hrange at_
  obtain ⟨k, rfl⟩ : ∃ k, d = k + 1 := ⟨d - 1, by omega⟩
  have hstart : ScrollsAt t l s (forwardLeg t 2 (k + 1)) := by
    refine ⟨hl, lay, t, hlay, htext, rfl, ?_⟩
    rw [Scroll.view, hmode, hpos, hcount, hframe, hrange]
    rfl
  obtain ⟨s₁, hrun₁, h₁⟩ := ScrollsAt.leg (fun k _ => forwardLeg_step hfps 2 k) _ hstart
  have hturn : ScrollsAt t l s₁ (reverseLeg t 1 (k + 1)) := by
    rw [reverseLeg, hrange, Int.add_sub_cancel]
    exact h₁
  obtain ⟨s₂, hrun₂, h₂⟩ := ScrollsAt.leg (fun k _ => reverseLeg_step hfps 1 k) _ hturn
  have hback : ScrollsAt t l s₂ (forwardLeg t 0 (k + 1)) := by
    rw [forwardLeg, ← hrange]
    exact h₂
  obtain ⟨s₃, hrun₃, h₃⟩ := ScrollsAt.leg (fun k _ => forwardLeg_step hfps 0 k) _ hback
  have htwice : performTimes (2 * (k + 1)) (.lScrollStep l) s = .next s₂ := by
    rw [Nat.two_mul, performTimes_add, hrun₁, andThen_next, hrun₂]
  have hthrice : performTimes (3 * (k + 1)) (.lScrollStep l) s = .next s₃ := by
    rw [Nat.succ_mul, performTimes_add, htwice, andThen_next, hrun₃]
  obtain ⟨x₁, y₁, hat₁⟩ := h₁.layer
  obtain ⟨x₂, y₂, hat₂⟩ := h₂.layer
  obtain ⟨x₃, y₃, hat₃⟩ := h₃.layer
  refine ⟨⟨s₁, x₁, y₁, hrun₁, hat₁⟩, ⟨s₂, x₂, y₂, htwice, hat₂⟩, ⟨s₃, x₃, y₃, hthrice, hat₃⟩,
    fun n => ?_⟩
  rw [performTimes_add, hthrice, andThen_next, performTimes_of_fixed h₃.parked]

end Sys2Proof.Machine
end

section
/-! Composition and the operations on the whole chain (43_compositor.md R221, R233, R240 to R244). -/

namespace Sys2Proof.Machine

/-! ### L.FILLROW (R233) -/

/-- What a layer's sample leaves in an element of a working row, written or not. -/
def paintOver (sh : BitVec 4) (under : Option Rgb) : Sample → Option Rgb
  | .colour v => some (shiftColour v sh)
  | .leave => under
  | .unspecified => under

/-- A column that is not filled is left alone. -/
theorem fillCells_read_other (c : Config) (lay : Layer) (y base : Nat) (sh : BitVec 4) {xs : List Nat}
    {work w : Store Rgb} (h : fillCells c lay y base sh xs work = some w) {k : Nat}
    (hk : ∀ x ∈ xs, k ≠ base + x) : Store.read w k = Store.read work k := by
  induction xs generalizing work with
  | nil => cases h; rfl
  | cons a xs ih =>
    obtain ⟨ha, hk⟩ := List.forall_mem_cons.mp hk
    rw [fillCells] at h
    split at h
    · rw [ih h hk, Store.read_write, if_neg ha]
    · exact ih h hk
    · cases h

/-- Each column is painted once, over what stood there. -/
theorem fillCells_read (c : Config) (lay : Layer) (y base : Nat) (sh : BitVec 4) {xs : List Nat}
    {work w : Store Rgb} (h : fillCells c lay y base sh xs work = some w) (hn : xs.Nodup) {x : Nat}
    (hx : x ∈ xs) :
    Store.read w (base + x) =
      paintOver sh (Store.read work (base + x)) (sample c lay y x) := by
  induction xs generalizing work with
  | nil => cases hx
  | cons a xs ih =>
    obtain ⟨ha, hn⟩ := List.nodup_cons.mp hn
    rw [fillCells] at h
    rcases List.mem_cons.mp hx with rfl | hx
    · have hother : ∀ z ∈ xs, base + x ≠ base + z := fun z hz e => ha (Nat.add_left_cancel e ▸ hz)
      split at h
      next v hv => rw [fillCells_read_other c lay y base sh h hother, Store.read_write, if_pos rfl, hv]; rfl
      next hv => rw [fillCells_read_other c lay y base sh h hother, hv]; rfl
      next => cases h
    · have hne : base + x ≠ base + a := fun e => ha (Nat.add_left_cancel e ▸ hx)
      split at h
      · rw [ih h hn hx, Store.read_write, if_neg hne]
      · exact ih h hn hx
      · cases h

/-- What the working row holds once L.FILLROW has answered. -/
theorem layerFillRow_read {l y g j : Nat} {sh : BitVec 4} {s t : State} {lay : Layer}
    (hl : s.layers[l]? = some lay) (h : layerFillRow l y g j sh s = .next t) {x : Nat}
    (hx : x < s.cfg.width) :
    Store.read t.work (workIndex s.cfg g j + x) =
      paintOver sh (Store.read s.work (workIndex s.cfg g j + x)) (sample s.cfg lay y x) := by
  rw [layerFillRow, withLayer_some _ _ _ lay hl] at h
  split at h
  next w hw =>
    cases h
    exact fillCells_read s.cfg lay y _ sh hw List.nodup_range (List.mem_range.mpr hx)
  next => cases h

/-- Settles O28: L.FILLROW answers, paints its row once and leaves the other rows. -/
theorem fillRowPaintsOneLayer : Obligations.FillRowPaintsOneLayer := by
  intro s l y g j sh lay hl hy hg hlay hreadable
  obtain ⟨work, hfill, hother, -⟩ :=
    layerFillRow_spec l.toNat y.toNat g.toNat j.toNat sh s lay hlay hreadable
  have hrow : s.cfg.hasRow y g = true :=
    Bool.and_eq_true_iff.mpr ⟨decide_eq_true hy, decide_eq_true hg⟩
  have hwf : (Instr.lFillRow l y g j sh).wellFormed s.cfg = true :=
    Bool.and_eq_true_iff.mpr ⟨decide_eq_true hl, hrow⟩
  refine ⟨work, (withOperands_wellFormed _ s _ hwf).trans hfill, fun x hx => ?_, hother⟩
  have hread : Store.read work _ = _ := layerFillRow_read hlay hfill hx
  exact ⟨fun v hv => by rw [hread, hv]; rfl, fun hleave => by rw [hread, hleave]; rfl⟩

/-! ### COMP.FILLROW (R243, R244) -/

/-- Settles O29: COMP.FILLROW over its chain. -/
theorem fillRowPaintsTheChain : Obligations.FillRowPaintsTheChain := by
  intro s y g j ls hchain hy hg hwritten
  obtain ⟨work, hfill, hother, hrow, -⟩ :=
    chainFillRow_spec y.toNat g.toNat j.toNat s ls hchain.chainLayers hwritten
  have hwf : (Instr.compFillRow y g j).wellFormed s.cfg = true :=
    Bool.and_eq_true_iff.mpr ⟨decide_eq_true hy, decide_eq_true hg⟩
  exact ⟨work, (withOperands_wellFormed _ s _ hwf).trans hfill, hrow, hother⟩

theorem shiftColour_zero (v : Rgb) : shiftColour v 0 = v := by
  simp [shiftColour]

/-- A layer with a value in every column of a row is written there. -/
theorem rowWritten_of_sample {s : State} {l y : Nat} {lay : Layer} (hl : s.layers[l]? = some lay)
    {value : Nat → Sample} (hs : ∀ x, x < s.cfg.width → sample s.cfg lay y x = value x)
    (hvalue : ∀ x, value x ≠ .unspecified) : rowWritten s l y :=
  ⟨lay, hl, fun x hx => hs x hx ▸ hvalue x⟩

/-- Settles O30: the composited row of R243, whose last painter hides the two below. -/
theorem topmostOpaqueLayerWins : Obligations.TopmostOpaqueLayerWins := by
  intro s y g j a b c la lb lc bottom top hchain hy hg ha hb hc hsamples
  have hwritten : ∀ l ∈ [a, b, c], rowWritten s l y.toNat := by
    simp only [List.forall_mem_cons]
    exact ⟨rowWritten_of_sample ha (fun x hx => (hsamples x hx).1) nofun,
      rowWritten_of_sample hb (fun x hx => (hsamples x hx).2.1) nofun,
      rowWritten_of_sample hc (fun x hx => (hsamples x hx).2.2) nofun, nofun⟩
  obtain ⟨work, hexec, hrow, -⟩ := fillRowPaintsTheChain s y g j [a, b, c] hchain hy hg hwritten
  refine ⟨_, hexec, fun x hx => ?_⟩
  obtain ⟨-, -, htop⟩ := hsamples x hx
  have hread : Store.read work (workIndex s.cfg g.toNat j.toNat + x) =
      some (shiftColour (top x) s.chain.brightnessShifts) := by
    rw [hrow x hx]
    exact congrArg some (paintAll_last s.cfg s.layers _ _ x _ _ [a, b] c lc hc htop)
  exact ⟨fun hshift => by rw [hread, hshift, shiftColour_zero], hread⟩

/-! ### The operations on every layer of the chain (R240 to R242) -/

theorem ChainOk.mem_pool {s : State} {ls : List Nat} (h : ChainOk s ls) :
    ∀ l ∈ ls, ∃ lay, s.layers[l]? = some lay :=
  linked_mem _ _ _ h.linked

/-- An operation that takes one layer's record by `R`, done to every layer of the chain. -/
theorem forChain_eachLayer {s : State} {ls : List Nat} (h : ChainOk s ls)
    {R : Nat → Layer → Layer → Prop} {f : Nat → State → Res}
    (hf : ∀ (l : Nat) (t : State) (a : Layer), t.cfg = s.cfg → t.layers[l]? = some a →
      ∃ b k, f l t = .next { t with layers := t.layers.set l b, freeCount := k } ∧ R l a b) :
    ∃ new k, forChain s f = .next { s with layers := new, freeCount := k } ∧
      EachLayer R ls s.layers new := by
  rw [forChain_eq s f ls h.chainLayers]
  exact forEach_eachLayer s.cfg R f hf ls s rfl h.once h.mem_pool

/-- L.SETROT uses no free value. -/
theorem layerSetRot_freeCount {l : Nat} {rot : BitVec 2} {s t : State}
    (h : layerSetRot l rot s = .next t) : t.freeCount = s.freeCount := by
  obtain ⟨lay, -, h⟩ := (withLayer_eq_next _ _ _ _).mp h
  cases h
  rfl

theorem chainSetRot_freeCount {rot : BitVec 2} {s t : State} (h : chainSetRot rot s = .next t) :
    t.freeCount = s.freeCount := by
  obtain ⟨ls, -, h⟩ := forChain_eq_next _ _ _ h
  exact forEach_preserves (fun a b => b.freeCount = a.freeCount) _ (fun _ => rfl)
    (fun _ _ _ hab hbc => hbc.trans hab) ls (fun _ _ _ _ => layerSetRot_freeCount) _ _ h

/-- The exchange of R236 on a layer with buffers whose swap is pending, as R235 writes it. -/
theorem framedTo_of_pending {c : Config} {l : Nat} {a : Layer} (ht : a.content.isText = false)
    (hswap : a.swapPending = true) :
    FramedTo c l a { exchangeBuffers a with swapPending := false } := by
  unfold FramedTo exchangeBuffers
  cases e : a.content with
  | scrollingText t => rw [e] at ht; cases ht
  | _ => dsimp only; rw [if_pos hswap]; split <;> rfl

theorem framedTo_of_idle {c : Config} {l : Nat} {a : Layer} (ht : a.content.isText = false)
    (hswap : a.swapPending = false) : FramedTo c l a a := by
  unfold FramedTo
  cases e : a.content with
  | scrollingText t => rw [e] at ht; cases ht
  | _ => dsimp only; rw [hswap, if_neg (by decide)]

/-- L.FRAME on a layer of the pool: a step of its text, its pending swap, or nothing. -/
theorem layerFrame_framedTo {s : State} {l : Nat} {a : Layer} (h : s.layers[l]? = some a) :
    ∃ b k, layerFrame l s = .next { s with layers := s.layers.set l b, freeCount := k } ∧
      FramedTo s.cfg l a b := by
  cases ht : a.content.isText with
  | true =>
    obtain ⟨t, e⟩ := Content.exists_of_isText ht
    refine ⟨_, _, layerFrame_of_text h e, ?_⟩
    rw [FramedTo, e]
    exact ⟨_, rfl, scrollAdvance_scrolledTo s.cfg l a.rotation s.freeCount t⟩
  | false =>
    rw [layerFrame_of_buffers h ht]
    cases hswap : a.swapPending with
    | true => exact ⟨_, s.freeCount, rfl, framedTo_of_pending ht hswap⟩
    | false =>
      exact ⟨a, s.freeCount, congrArg Host.Outcome.next (putLayer_self h).symm, framedTo_of_idle ht hswap⟩

/-- Settles O31: each operation on one layer, carried along the chain. -/
theorem chainOperationsReachEveryLayer : Obligations.ChainOperationsReachEveryLayer := by
  intro s ls h
  refine ⟨fun rot => ?_, fun rate => ?_, ?_⟩
  · obtain ⟨new, k, hrun, heach⟩ := forChain_eachLayer h (R := fun l => RotatedTo s.cfg l rot)
      (f := fun l => layerSetRot l rot) fun l t a hc ha =>
        ⟨_, t.freeCount, layerSetRot_eq rot ha, hc ▸ rotateLayer_rotatedTo t.cfg l rot a⟩
    obtain rfl : k = s.freeCount := chainSetRot_freeCount hrun
    exact ⟨new, hrun, heach⟩
  · exact forChain_eachLayer h fun l t a _ ha =>
      ⟨_, _, layerSetRate_eq rate ha, rateLayer_ratedTo rate t.freeCount a⟩
  · exact forChain_eachLayer h fun l t a hc ha => hc ▸ layerFrame_framedTo ha

end Sys2Proof.Machine
end

section
/-! The refresh scheduler (44_refresh_scheduler.md R270 to R284): when the engine's operations are enabled, what a
turn of the engine or the producer performs, what each operation of the scheduler writes, and when a step raises the
underrun flag. -/

namespace Sys2Proof.Machine

/-! ### Enabling (R273, R274) -/

theorem beatLimit_shifting {s : State} (h : s.eng.schedState = .shifting) : beatLimit s = some s.cfg.depth := by
  unfold beatLimit; rw [h]

theorem beatLimit_underrun {s : State} (h : s.eng.schedState = .underrun) : beatLimit s = some 1 := by
  unfold beatLimit; rw [h]

/-- After BEGIN, ENG.BEAT is enabled exactly below the limit. -/
theorem beatEnabled_of_limit {s : State} {n : Nat} (hbegun : s.flags.begun = true)
    (hlimit : beatLimit s = some n) : beatEnabled s = decide (s.eng.beatIndex < n) := by
  simp only [beatEnabled, hbegun, hlimit, Bool.true_and]

/-- After BEGIN, EV.COMPLETE is enabled exactly at the limit. -/
theorem completeEnabled_of_limit {s : State} {n : Nat} (hbegun : s.flags.begun = true)
    (hlimit : beatLimit s = some n) : completeEnabled s = decide (s.eng.beatIndex = n) := by
  simp only [completeEnabled, hbegun, hlimit, Bool.true_and]

theorem beatEnabled_of_not_begun {s : State} (h : s.flags.begun = false) : beatEnabled s = false := by
  simp only [beatEnabled, h, Bool.false_and]

theorem completeEnabled_of_not_begun {s : State} (h : s.flags.begun = false) : completeEnabled s = false := by
  simp only [completeEnabled, h, Bool.false_and]

/-- A beat is due where the source that is shown has beats left. -/
theorem beatEnabled_of_due {s : State} (hbegun : s.flags.begun = true)
    (h : (s.eng.schedState = .shifting ∧ s.eng.beatIndex < s.cfg.depth) ∨
      (s.eng.schedState = .underrun ∧ s.eng.beatIndex < 1)) : beatEnabled s = true := by
  rcases h with ⟨hstate, hbeat⟩ | ⟨hstate, hbeat⟩
  · rw [beatEnabled_of_limit hbegun (beatLimit_shifting hstate), decide_eq_true hbeat]
  · rw [beatEnabled_of_limit hbegun (beatLimit_underrun hstate), decide_eq_true hbeat]

/-- The completion event is due where the source that is shown has no beat left; then no beat is enabled. -/
theorem completeEnabled_of_due {s : State} (hbegun : s.flags.begun = true)
    (h : (s.eng.schedState = .shifting ∧ s.eng.beatIndex = s.cfg.depth) ∨
      (s.eng.schedState = .underrun ∧ s.eng.beatIndex = 1)) :
    completeEnabled s = true ∧ beatEnabled s = false := by
  obtain ⟨n, hlimit, hend⟩ : ∃ n, beatLimit s = some n ∧ s.eng.beatIndex = n := by
    rcases h with ⟨hstate, hend⟩ | ⟨hstate, hend⟩
    · exact ⟨_, beatLimit_shifting hstate, hend⟩
    · exact ⟨_, beatLimit_underrun hstate, hend⟩
  rw [completeEnabled_of_limit hbegun hlimit, beatEnabled_of_limit hbegun hlimit, hend]
  exact ⟨decide_eq_true rfl, decide_eq_false (lt_irrefl n)⟩

/-- A started block shows a source, and has not shown more beats than the source has (R40, R57 (c)). -/
theorem Inv.beatLimit {s : State} (h : Inv s) (hbegun : s.flags.begun = true) :
    ∃ n, beatLimit s = some n ∧ s.eng.beatIndex ≤ n := by
  cases hstate : s.eng.schedState with
  | stopped => rw [h.regs.stopped.mpr hstate] at hbegun; cases hbegun
  | shifting => exact ⟨_, beatLimit_shifting hstate, (h.regs.shifting hstate).2.2⟩
  | underrun => exact ⟨_, beatLimit_underrun hstate, (h.regs.underrun hstate).2⟩

theorem exec_engBeat_of_not_enabled {s : State} (h : beatEnabled s = false) :
    exec .engBeat s = .refused .notEnabled := if_neg (ne_true_of_eq_false h)

theorem exec_evComplete_of_not_enabled {s : State} (h : completeEnabled s = false) :
    exec .evComplete s = .refused .notEnabled := if_neg (ne_true_of_eq_false h)

theorem exec_evComplete_of_enabled {s : State} (h : completeEnabled s = true) :
    exec .evComplete s = takeCompletion s := if_pos h

/-- Settles O39: below the limit ENG.BEAT is enabled and at the limit EV.COMPLETE, never both; the invariant makes
the enabled one answer. -/
theorem engineAlwaysHasAStep : Obligations.EngineAlwaysHasAStep := by
  intro s h hbegun
  obtain ⟨n, hlimit, hle⟩ := h.beatLimit hbegun
  have hbeat := beatEnabled_of_limit hbegun hlimit
  have hcomplete := completeEnabled_of_limit hbegun hlimit
  rcases Nat.lt_or_eq_of_le hle with hlt | hend
  · obtain ⟨t, ht, -⟩ := h.engBeat (hbeat.trans (decide_eq_true hlt))
    exact .inl ⟨⟨t, ht⟩, exec_evComplete_of_not_enabled (hcomplete.trans (decide_eq_false (Nat.ne_of_lt hlt)))⟩
  · obtain ⟨t, ht, -⟩ := h.evComplete (hcomplete.trans (decide_eq_true hend))
    exact .inr ⟨⟨t, ht⟩, exec_engBeat_of_not_enabled (hbeat.trans (decide_eq_false (by omega)))⟩

/-! ### The turn of an agent (R362, log 2) -/

section TakeTurn
variable (s : State)

@[simp] theorem takeTurn_cfg : (takeTurn s).cfg = s.cfg := by unfold takeTurn; split <;> rfl
@[simp] theorem takeTurn_flags : (takeTurn s).flags = s.flags := by unfold takeTurn; split <;> rfl
@[simp] theorem takeTurn_prod : (takeTurn s).prod = s.prod := by unfold takeTurn; split <;> rfl
@[simp] theorem takeTurn_eng : (takeTurn s).eng = s.eng := by unfold takeTurn; split <;> rfl
@[simp] theorem takeTurn_host : (takeTurn s).host = s.host := by unfold takeTurn; split <;> rfl
@[simp] theorem takeTurn_commands : (takeTurn s).env.commands = s.env.commands := by
  unfold takeTurn; split <;> rfl

/-- The turn taken is the first of the turns already chosen, else a free choice. -/
theorem takeTurn_env : takeTurn s =
    { s with env :=
      { s.env with
        turns := s.env.turns.tail
        turnCount := if s.env.turns = [] then s.env.turnCount + 1 else s.env.turnCount } } := by
  unfold takeTurn
  split
  next a rest h => rw [h, if_neg (List.cons_ne_nil a rest)]; rfl
  next h => simp [State.setEnv, h]

end TakeTurn

theorem step_of_turn_perform {s : State} {a : Agent} {i : Instr} (hbench : s.env.bench = [])
    (hagent : nextAgent s = a) (hturn : agentTurn a (takeTurn s) = .perform i (takeTurn s)) :
    step s = exec i (takeTurn s) :=
  step_perform s _ i (by rw [choose_turn s hbench, hagent, hturn])

theorem step_of_turn_pass {s : State} {a : Agent} (hbench : s.env.bench = []) (hagent : nextAgent s = a)
    (hturn : agentTurn a (takeTurn s) = .pass (takeTurn s)) : step s = .next (takeTurn s) :=
  step_pass s _ (by rw [choose_turn s hbench, hagent, hturn])

theorem engineTurn_beat {s : State} (h : beatEnabled s = true) : engineTurn s = .perform .engBeat s := by
  unfold engineTurn; rw [if_pos h]

theorem engineTurn_complete {s : State} (hbeat : beatEnabled s = false) (h : completeEnabled s = true) :
    engineTurn s = .perform .evComplete s := by
  unfold engineTurn; rw [hbeat, if_neg Bool.false_ne_true, if_pos h]

theorem engineTurn_of_not_begun {s : State} (h : s.flags.begun = false) : engineTurn s = .pass s := by
  unfold engineTurn
  rw [beatEnabled_of_not_begun h, completeEnabled_of_not_begun h, if_neg Bool.false_ne_true,
    if_neg Bool.false_ne_true]

theorem wakeEnabled_iff (s : State) :
    wakeEnabled s = true ↔ s.flags.begun = true ∧ s.prod.calcState = .idle ∧ s.flags.calcWake = true := by
  simp only [wakeEnabled, Bool.and_eq_true, decide_eq_true_eq, and_assoc]

theorem producerTurn_wake {s : State} (hbegun : s.flags.begun = true) (hidle : s.prod.calcState = .idle)
    (hwake : s.flags.calcWake = true) : producerTurn s = .perform .pWake s := by
  unfold producerTurn; rw [if_pos ((wakeEnabled_iff s).mpr ⟨hbegun, hidle, hwake⟩)]

theorem producerTurn_running {s : State} (hrun : s.prod.calcState = .running) :
    producerTurn s = .perform .pStep s := by
  have hwake : ¬ wakeEnabled s = true := by simp [wakeEnabled_iff, hrun]
  unfold producerTurn; rw [if_neg hwake, if_pos hrun]

theorem producerTurn_idle {s : State} (hidle : s.prod.calcState = .idle)
    (h : s.flags.begun = false ∨ s.flags.calcWake = false) : producerTurn s = .pass s := by
  have hwake : ¬ wakeEnabled s = true := by
    rw [wakeEnabled_iff]
    rintro ⟨hbegun, -, hcalc⟩
    rcases h with h | h
    · rw [h] at hbegun; cases hbegun
    · rw [h] at hcalc; cases hcalc
  have hrun : s.prod.calcState ≠ .running := by rw [hidle]; exact CalcState.noConfusion
  unfold producerTurn; rw [if_neg hwake, if_neg hrun]

theorem hostTurn_no_word {s : State} (hready : s.host.hostState = .ready) (hcommands : s.env.commands = []) :
    hostTurn s = .pass s := by
  simp only [hostTurn, hready, hcommands, if_true]

/-- What every outcome of a turn ensures, the step ensures: the turn passes, is a phase of SWAPBUFFERS, a command from
the port, or an enabled operation of the producer or the engine. -/
theorem step_ensures {s : State} {P : State → Prop} (hbench : s.env.bench = []) (pass : P (takeTurn s))
    (phase : Ensures (hostPhase (takeTurn s)) P)
    (command : ∀ i rest, TakesCommand (takeTurn s) i →
      Ensures (exec i ((takeTurn s).setEnv { (takeTurn s).env with commands := rest })) P)
    (enabled : ∀ i, EnabledOp (takeTurn s) i → Ensures (exec i (takeTurn s)) P) : Ensures (step s) P := by
  have hchoice := agentTurn_choice (nextAgent s) (takeTurn s)
  rw [← choose_turn s hbench] at hchoice
  generalize hchosen : choose s = chosen at hchoice
  cases hchoice with
  | pass => rw [step_pass s _ hchosen]; exact .next pass
  | phase => rw [step_phase s _ hchosen]; exact phase
  | illegal w => rw [step_illegal s w hchosen]; exact .refused _
  | command i rest hc => rw [step_perform s _ i hchosen]; exact command i rest hc
  | enabled i he => rw [step_perform s _ i hchosen]; exact enabled i he

/-- Settles O7: an agent's turn in the state after `takeTurn`, where every enabling condition reads as before. -/
theorem stepRunsTheEnabledOperation : Obligations.StepRunsTheEnabledOperation := by
  intro s hbench
  refine ⟨takeTurn_env s, fun hagent hbegun hdue => ?_, fun hagent hbegun hdue => ?_,
    fun hagent hbegun hidle hwake => ?_, fun hagent hrun => ?_, fun hagent hidle hoff => ?_,
    fun hagent hbegun => ?_, fun hagent hready hcommands => ?_⟩
  · exact step_of_turn_perform hbench hagent
      (engineTurn_beat (beatEnabled_of_due (by simpa using hbegun) (by simpa using hdue)))
  · obtain ⟨hcomplete, hbeat⟩ := completeEnabled_of_due (s := takeTurn s) (by simpa using hbegun)
      (by simpa using hdue)
    exact step_of_turn_perform hbench hagent (engineTurn_complete hbeat hcomplete)
  · exact step_of_turn_perform hbench hagent
      (producerTurn_wake (by simpa using hbegun) (by simpa using hidle) (by simpa using hwake))
  · exact step_of_turn_perform hbench hagent (producerTurn_running (by simpa using hrun))
  · exact step_of_turn_pass hbench hagent (producerTurn_idle (by simpa using hidle) (by simpa using hoff))
  · exact step_of_turn_pass hbench hagent (engineTurn_of_not_begun (by simpa using hbegun))
  · exact step_of_turn_pass hbench hagent
      (hostTurn_no_word (by simpa using hready) (by simpa using hcommands))

/-! ### The beats (R272, R273) -/

/-- A plane is read as the words that its places hold. -/
theorem slotPlane_of_words {c : Config} {m : Memory} {w i : Nat} {ws : List Word}
    (hlength : ws.length = c.wordsPerPlane)
    (hwords : ∀ q, q < c.wordsPerPlane → slotWord c m w i q = ws[q]?) : slotPlane c m w i = some ws := by
  unfold slotPlane
  rw [collect_eq_some]
  apply List.ext_getElem?
  intro q
  rw [List.getElem?_map, List.getElem?_map]
  by_cases hq : q < c.wordsPerPlane
  · have hlt : q < ws.length := hlength.symm ▸ hq
    rw [List.getElem?_range hq, Option.map_some, hwords q hq, List.getElem?_eq_getElem hlt, Option.map_some]
  · have hrange : (List.range c.wordsPerPlane)[q]? = none := by simpa using hq
    have hnone : ws[q]? = none := by simpa [hlength] using hq
    rw [hrange, hnone, Option.map_none, Option.map_none]

theorem dataBeat_of_slot {c : Config} {m : Memory} {w i : Nat} {a : Half} {p : TimingPair} {ws : List Word}
    (haddress : slotRowAddress c m w = some a) (htiming : slotTiming c m w i = some p)
    (hplane : slotPlane c m w i = some ws) :
    dataBeat c m w i = some
      { kind := .data, rowAddress := some a, plane := some i, period := p.period, onTime := p.onTime,
        oe := true, words := ws } := by
  unfold dataBeat; rw [haddress, htiming, hplane]

theorem execEngBeat_shifting {s : State} {b : Beat} (henabled : beatEnabled s = true)
    (hshift : s.eng.schedState = .shifting)
    (hbeat : dataBeat s.cfg s.slots s.eng.curSlot s.eng.beatIndex = some b) :
    execEngBeat s = .next (countBeat (emitBeat b s)) := by
  unfold execEngBeat; rw [if_pos henabled, if_pos hshift, hbeat]

theorem execEngBeat_idle {s : State} (henabled : beatEnabled s = true)
    (hidle : s.eng.schedState ≠ .shifting) :
    execEngBeat s = .next (countBeat (emitBeat (idleBeat s.cfg) s)) := by
  unfold execEngBeat; rw [if_pos henabled, if_neg hidle]

/-- Settles O34: the enabled beat is the data beat of the slot in flight, or the idle beat. -/
theorem engineBeatEmitsOneRecord : Obligations.EngineBeatEmitsOneRecord := by
  intro s hbegun
  refine ⟨fun a p ws hshift hbeat haddress htiming hlength hwords => ?_, fun hunderrun hbeat => ?_⟩
  · exact execEngBeat_shifting (beatEnabled_of_due hbegun (.inl ⟨hshift, hbeat⟩)) hshift
      (dataBeat_of_slot haddress htiming (slotPlane_of_words hlength hwords))
  · exact execEngBeat_idle (beatEnabled_of_due hbegun (.inr ⟨hunderrun, hbeat⟩))
      (by rw [hunderrun]; exact SchedState.noConfusion)

/-! ### Start, recovery and the rate reduction (R279 to R281) -/

/-- Settles O37: with what they require given, both write the engine's position. -/
theorem recoverAndStartPointAtTheHead : Obligations.RecoverAndStartPointAtTheHead :=
  fun _ hheld => ⟨fun hunderrun => if_pos ⟨hunderrun, hheld⟩, if_pos hheld⟩

theorem lowerRate_above {s : State} (h : s.cfg.minRefreshRate < s.ctl.refreshRate.toNat) :
    lowerRate s = (s.setCtl { s.ctl with
      refreshRate := BitVec.ofNat 16
        (max s.cfg.minRefreshRate (s.ctl.refreshRate.toNat - s.cfg.rateStep)) }).raiseRateLowered := by
  unfold lowerRate; rw [if_pos h]

theorem lowerRate_floor {s : State} (h : ¬ s.cfg.minRefreshRate < s.ctl.refreshRate.toNat) : lowerRate s = s := by
  unfold lowerRate; rw [if_neg h]

/-- Settles O38: the two cases of SCH.LOWERRATE; the lowered rate fits its 16 bits. -/
theorem lowerRateStopsAtTheFloor : Obligations.LowerRateStopsAtTheFloor := by
  refine fun s => ⟨fun habove => ?_, fun hfloor => congrArg Host.Outcome.next (lowerRate_floor hfloor.not_gt)⟩
  have hlowered := lowerRate_above habove
  have hrate := lowerRate_rate s
  rw [if_pos habove, hlowered] at hrate
  exact ⟨_, hrate, congrArg Host.Outcome.next hlowered⟩

/-! ### The completion event (R274) -/

/-- SCH.LOWERRATE neither reads nor writes what the end of the completion event writes, BEATINDEX and the wake. -/
theorem lowerRate_restart (s : State) (e : Engine) :
    lowerRate (s.setEng e).raiseWake = ((lowerRate s).setEng e).raiseWake := by
  by_cases habove : s.cfg.minRefreshRate < s.ctl.refreshRate.toNat
  · have hrestart := lowerRate_above (s := (s.setEng e).raiseWake) habove
    rw [lowerRate_above habove, hrestart]
    rfl
  · have hrestart := lowerRate_floor (s := (s.setEng e).raiseWake) habove
    rw [lowerRate_floor habove, hrestart]

/-- What the completion event makes of a state whose last slot has been shown, before the rate reduction: the ring is
empty, the source idle, the underrun flag and the wake are up (R274, R275). -/
def starved (s : State) : State :=
  { s with
    ring := { start := (s.ring.start + 1) % s.cfg.capacity, count := 0 }
    eng := { s.eng with schedState := .underrun, timingSource := .idle, beatIndex := 0 }
    flags := { s.flags with underrun := true, calcWake := true } }

theorem takeCompletion_last {s : State} (hshift : s.eng.schedState = .shifting) (hlast : s.ring.count = 1) :
    takeCompletion s = .next (if s.cfg.adaptiveRate then lowerRate (starved s) else starved s) := by
  refine (takeCompletion_shifting s _ hshift).mpr ⟨by omega, ?_⟩
  rw [if_pos hlast]
  by_cases hadaptive : s.cfg.adaptiveRate = true
  · rw [if_pos hadaptive]
    dsimp only
    split
    · rw [(lowerRate_sameCore _).eng, ← lowerRate_restart]
      rfl
    next hfixed => exact absurd hadaptive hfixed
  · rw [if_neg hadaptive]
    dsimp only
    split
    next h => exact absurd h hadaptive
    · rfl

/-- With another slot in the ring, the completion event moves on to it. -/
theorem takeCompletion_more {s : State} (hshift : s.eng.schedState = .shifting) (hheld : 2 ≤ s.ring.count) :
    takeCompletion s = .next
      { s with
        ring := { start := (s.ring.start + 1) % s.cfg.capacity, count := s.ring.count - 1 }
        eng := { s.eng with curSlot := (s.ring.start + 1) % s.cfg.capacity, beatIndex := 0 }
        flags := { s.flags with calcWake := true } } := by
  refine (takeCompletion_shifting s _ hshift).mpr ⟨by omega, ?_⟩
  rw [if_neg (by omega)]
  rfl

/-- Settles O35: the event is enabled at the limit, and answers by the state and the ring. -/
theorem completionEvent : Obligations.CompletionEvent := by
  intro s hbegun
  have hevent := fun hdue =>
    exec_evComplete_of_enabled (completeEnabled_of_due (s := s) hbegun hdue).1
  refine ⟨fun hshift hend hheld => ?_, fun hshift hend hlast => ?_, fun hunderrun hend => ?_⟩
  · rw [hevent (.inl ⟨hshift, hend⟩), takeCompletion_more hshift hheld]
  · rw [hevent (.inl ⟨hshift, hend⟩), takeCompletion_last hshift hlast]
    refine ⟨fun hfixed => ?_, fun hadaptive => ⟨_, rfl, ?_⟩⟩
    · rw [if_neg (ne_true_of_eq_false hfixed)]
      rfl
    · rw [if_pos hadaptive]
      rfl
  · rw [hevent (.inr ⟨hunderrun, hend⟩)]
    exact takeCompletion_other s (by rw [hunderrun]; exact SchedState.noConfusion)

/-! ### When the underrun flag is raised (R276, R365) -/

/-- From `s` to `t` the underrun flag is not raised and the underrun state is not entered. -/
structure NoUnderrun (s t : State) : Prop where
  flag : t.flags.underrun = true → s.flags.underrun = true
  state : t.eng.schedState = .underrun → s.eng.schedState = .underrun

theorem NoUnderrun.same {s t : State} (hflag : t.flags.underrun = s.flags.underrun) (heng : t.eng = s.eng) :
    NoUnderrun s t :=
  ⟨fun h => hflag.symm.trans h, fun h => heng ▸ h⟩

theorem NoUnderrun.trans {s m t : State} (h1 : NoUnderrun s m) (h2 : NoUnderrun m t) : NoUnderrun s t :=
  ⟨h1.flag ∘ h2.flag, h1.state ∘ h2.state⟩

/-- From `s` to `t` an underrun begins. -/
structure UnderrunBegins (s t : State) : Prop where
  before : s.eng.schedState = .shifting
  after : t.eng.schedState = .underrun
  raised : t.flags.underrun = true

/-- What a step can do to the underrun state and its flag. -/
def UnderrunMove (s t : State) : Prop := NoUnderrun s t ∨ UnderrunBegins s t

theorem lowerRate_noUnderrun (s : State) : NoUnderrun s (lowerRate s) := by
  obtain ⟨r, f, hframe, hflag, -⟩ := lowerRate_frame s
  rw [hframe]
  exact .same hflag rfl

theorem countLoop_noUnderrun (s : State) : NoUnderrun s (countLoop s) := by
  have hlower := lowerRate_noUnderrun (s.setProd { s.prod with loops := s.prod.loops + 1 })
  unfold countLoop
  dsimp only
  split
  · exact ⟨hlower.flag, hlower.state⟩
  · exact .same rfl rfl

/-- A CALC.STEP can only end an underrun (R305). -/
theorem CalcStep.noUnderrun {s t : State} (h : CalcStep s t) : NoUnderrun s t where
  flag := h.underrun ▸ id
  state := by
    rw [h.eng]
    split
    next hunderrun => exact fun _ => hunderrun
    next => exact id

/-! #### BEGIN fills the ring without raising the flag -/

/-- A CALC.STEP leaves the block ready for the next. -/
theorem CalcStep.ready {s t : State} (h : CalcStep s t) (hready : CalcReady s) : CalcReady t where
  valid := h.cfg ▸ hready.valid
  minRate := by rw [h.cfg, h.ctl]; exact hready.minRate
  maxRate := by rw [h.cfg, h.ctl]; exact hready.maxRate
  row := by rw [h.prod, h.cfg]; exact Nat.mod_lt _ (Config.valid.scan hready.valid).1
  start := by rw [h.ring, h.cfg]; exact hready.start
  built := h.pool.built hready.built
  ready := by rw [h.cfg]; exact h.pool.ready hready.ready
  chain := by
    obtain ⟨ls, hls⟩ := hready.chain
    exact ⟨ls, hls.poolStep h.chain h.pool⟩
  table := .inl (by rw [h.cfg]; exact h.table)

theorem fillRing_underrun (fuel : Nat) {s : State} (hready : CalcReady s) (hcount : s.ring.count ≤ s.cfg.capacity) :
    Ensures (fillRing fuel s) fun t => t.flags.underrun = s.flags.underrun := by
  induction fuel generalizing s with
  | zero => exact .next rfl
  | succ fuel ih =>
    unfold fillRing
    split
    next => exact .next rfl
    next hfull =>
      have hfree : s.ring.count < s.cfg.capacity :=
        Nat.lt_of_le_of_ne hcount fun e => hfull (decide_eq_true e)
      obtain ⟨u, hrow, hcalc⟩ := calcRow_spec s hready hfree
      rw [hrow, andThen_next]
      have hnext : u.ring.count ≤ u.cfg.capacity := by rw [hcalc.ring, hcalc.cfg]; exact hfree
      exact fun t ht => (ih (hcalc.ready hready) hnext t ht).trans hcalc.underrun

/-- BEGIN's set-up makes a block at rest ready to calculate (R321). -/
theorem Inv.beginSetup_ready {s : State} (h : Inv s) : CalcReady (beginSetup s) where
  valid := h.regs.valid
  minRate := h.regs.minRate
  maxRate := h.regs.maxRate
  row := (Config.valid.scan h.regs.valid).1
  start := (Config.valid.capacity h.regs.valid).1
  built := h.mem.built
  ready := h.mem.ready
  chain := by
    obtain ⟨ls, hls⟩ := h.mem.chain
    exact ⟨ls, hls.same rfl rfl⟩
  table := .inr ⟨rfl, .inl rfl⟩

theorem execBegin_noUnderrun {s : State} (h : Inv s) : Ensures (execBegin s) (NoUnderrun s) := by
  refine .whenReady (.ite (.fault _) ?_)
  refine (fillRing_underrun _ h.beginSetup_ready (Nat.zero_le _)).andThen fun u hflag => .next ?_
  exact ⟨hflag ▸ id, fun hstate => nomatch hstate⟩

/-! #### The agents' operations -/

theorem linkLayer_noUnderrun (l : Nat) (s : State) : NoUnderrun s (linkLayer l s) := by
  unfold linkLayer
  split
  · split <;> exact .same rfl rfl
  · exact .same rfl rfl

/-- ADDLAYER writes the pool, the chain and the count of free values (R322). -/
theorem execAddLayer_noUnderrun (l : BitVec 4) (s : State) : Ensures (execAddLayer l s) (NoUnderrun s) := by
  have hbegin : Ensures (layerBegin l.toNat s) (NoUnderrun s) := .withLayer fun _ => .next (.same rfl rfl)
  refine .whenReady (.withOperands (.ite (.fault _) (.withLayer fun _ => .ite (.fault _) ?_)))
  refine hbegin.andThen fun m hm => .withLayer fun lay => .next ?_
  have hlink := linkLayer_noUnderrun l.toNat (m.putLayer l.toNat { lay with attached := true, next := none })
  exact hm.trans ⟨hlink.flag, hlink.state⟩

/-- No host command raises the flag; GETUNDERRUN clears it (R327). -/
theorem command_noUnderrun {s : State} (h : Inv s) {i : Instr} (hcommand : i.isCommand = true) :
    Ensures (exec i s) (NoUnderrun s) := by
  cases i with
  | beginBlock => exact execBegin_noUnderrun h
  | addLayer l => exact execAddLayer_noUnderrun l s
  | setRefreshRate v => exact .whenReady (.ite (.fault _) (.next (.same rfl rfl)))
  | swapBuffers copy l => exact .whenReady (.withOperands (.withDrawable fun _ => .next (.same rfl rfl)))
  | drawPixel l x y =>
    exact .whenReady (.withOperands (.withDrawable fun _ => .ite (.next (.same rfl rfl)) (.next (.same rfl rfl))))
  | getUnderrun => exact .whenReady (.next ⟨fun hflag => (nomatch hflag), id⟩)
  | setBrightness v => exact .whenReady (.next (.same rfl rfl))
  | setRotation v => exact .whenReady (.next (.same rfl rfl))
  | setCcMode v => exact .whenReady (.next (.same rfl rfl))
  | getRefreshRate => exact .whenReady (.next (.same rfl rfl))
  | getLowered => exact .whenReady (.next (.same rfl rfl))
  | setColor ch v => exact .whenReady (.next (.same rfl rfl))
  | setIndex v => exact .whenReady (.next (.same rfl rfl))
  | _ => cases hcommand

theorem hostPhase_noUnderrun (s : State) : Ensures (hostPhase s) (NoUnderrun s) := by
  unfold hostPhase
  split
  next => exact .next (.same rfl rfl)
  next => exact .withLayer fun _ => .ite (.next (.same rfl rfl)) (.next (.same rfl rfl))
  next =>
    refine .withLayer fun lay => .ite (.next (.same rfl rfl)) ?_
    unfold swapCopy
    split
    · exact .next (.same rfl rfl)
    · exact .fault _

theorem execPStep_noUnderrun {s : State} (h : Inv s) (hrun : s.prod.calcState = .running) :
    Ensures (execPStep s) (NoUnderrun s) := by
  unfold execPStep
  rw [if_pos hrun]
  split
  next => exact .next (.same rfl rfl)
  next hfull =>
    have hfree : s.ring.count < s.cfg.capacity :=
      Nat.lt_of_le_of_ne h.regs.count fun e => hfull (decide_eq_true e)
    obtain ⟨u, hrow, hcalc⟩ := calcRow_spec s (h.calcReady (h.regs.running hrun)) hfree
    rw [hrow, andThen_next]
    exact .next (hcalc.noUnderrun.trans (countLoop_noUnderrun u))

theorem execEngBeat_noUnderrun (s : State) : Ensures (execEngBeat s) (NoUnderrun s) := by
  have hcount : ∀ b, NoUnderrun s (countBeat (emitBeat b s)) := fun _ => ⟨id, id⟩
  unfold execEngBeat
  refine .ite (.ite ?_ (.next (hcount _))) (.refused _)
  split
  · exact .next (hcount _)
  · exact .fault _

theorem starved_underrunBegins {s : State} (hshift : s.eng.schedState = .shifting) :
    UnderrunBegins s (starved s) := ⟨hshift, rfl, rfl⟩

/-- The rate reduction of a completion event neither ends the underrun nor clears its flag (R275, R281). -/
theorem UnderrunBegins.lowerRate {s t : State} (h : UnderrunBegins s t) : UnderrunBegins s (lowerRate t) := by
  obtain ⟨r, f, hframe, hflag, -⟩ := lowerRate_frame t
  rw [hframe]
  exact ⟨h.before, h.after, hflag.trans h.raised⟩

/-- The completion event begins an underrun exactly where the slot just shown was the ring's last (R274). -/
theorem takeCompletion_underrunMove (s : State) : Ensures (takeCompletion s) (UnderrunMove s) := by
  by_cases hshift : s.eng.schedState = .shifting
  · rcases Nat.lt_trichotomy s.ring.count 1 with hempty | hlast | hmore
    · exact fun t ht =>
        absurd (Nat.lt_one_iff.mp hempty) ((takeCompletion_shifting s t hshift).mp ht).1
    · rw [takeCompletion_last hshift hlast]
      have hbegins := starved_underrunBegins hshift
      refine .next (.inr ?_)
      split
      · exact hbegins.lowerRate
      · exact hbegins
    · rw [takeCompletion_more hshift hmore]
      exact .next (.inl ⟨id, id⟩)
  · rw [takeCompletion_other s hshift]
    exact .next (.inl ⟨id, id⟩)

theorem enabledOp_underrunMove {s : State} (h : Inv s) {i : Instr} (he : EnabledOp s i) :
    Ensures (exec i s) (UnderrunMove s) := by
  cases he with
  | wake => exact .ite (.next (.inl (.same rfl rfl))) (.refused _)
  | produce hrun => exact fun t ht => .inl (execPStep_noUnderrun h hrun t ht)
  | beat => exact fun t ht => .inl (execEngBeat_noUnderrun s t ht)
  | complete => exact .ite (takeCompletion_underrunMove s) (.refused _)

/-- Taking the turn is no part of what an underrun move reads. -/
theorem UnderrunMove.of_takeTurn {s t : State} (h : UnderrunMove (takeTurn s) t) : UnderrunMove s t := by
  obtain ⟨e, he, -⟩ := takeTurn_frame s
  rw [he] at h
  exact h.imp (fun hno => ⟨hno.flag, hno.state⟩) fun hbegins => ⟨hbegins.before, hbegins.after, hbegins.raised⟩

/-- A step from a state that meets the invariant makes an underrun move. -/
theorem step_underrunMove {s : State} (h : Inv s) : Ensures (step s) (UnderrunMove s) := by
  have hturn : Inv (takeTurn s) := h.takeTurn
  suffices hmove : Ensures (step s) (UnderrunMove (takeTurn s)) from fun t ht => (hmove t ht).of_takeTurn
  refine step_ensures h.bench (.inl (.same rfl rfl)) (fun t ht => .inl (hostPhase_noUnderrun _ t ht))
    (fun i rest hc t ht => .inl ?_) (fun i he => enabledOp_underrunMove hturn he)
  have hno := command_noUnderrun (hturn.setCommands rest) hc.command t ht
  exact ⟨hno.flag, hno.state⟩

/-- Settles O36: of the two moves a step can make, one does neither of the two things and the other both. -/
theorem underrunRaisedOncePerEpisode : Obligations.UnderrunRaisedOncePerEpisode := by
  intro s t h hstep
  rcases step_underrunMove h t hstep with hno | hbegins
  · exact ⟨fun hclear hraised => (nomatch hclear.symm.trans (hno.flag hraised)),
      fun hoff hon => absurd (hno.state hon) hoff⟩
  · exact ⟨fun _ _ => ⟨hbegins.before, hbegins.after⟩, fun _ _ => hbegins.raised⟩

end Sys2Proof.Machine
end

section
/-! The calculation task (45_calculation_task.md R301 to R309): when the producer wakes, what CALC.STEP writes, what
a frame start does to the layers, the timing table and the change flags, and how P.STEP counts its rows. -/

namespace Sys2Proof.Machine

/-! ### P.WAKE (R307) -/

/-- Settles O40: the three conditions enable P.WAKE. -/
theorem producerWake : Obligations.ProducerWake := by
  intro s hbegun hidle hwake
  have henabled : wakeEnabled s = true := by simp [wakeEnabled, hbegun, hidle, hwake]
  exact if_pos henabled

/-! ### The state after CALC.STEP (R301, R305, R306) -/

theorem ringIsFull_of_lt {s : State} (hfree : s.ring.count < s.cfg.capacity) : ¬ ringIsFull s = true :=
  fun hfull => hfree.ne (of_decide_eq_true hfull)

/-- CALC.STEP on its own answers wherever it is ready and a slot is free. -/
theorem exec_calcStep_spec {s : State} (h : CalcReady s) (hfree : s.ring.count < s.cfg.capacity) :
    ∃ t, exec .calcStep s = .next t ∧ CalcStep s t := by
  obtain ⟨t, hrow, hcalc⟩ := calcRow_spec s h hfree
  exact ⟨t, (if_neg (ringIsFull_of_lt hfree)).trans hrow, hcalc⟩

/-- Of the flags, CALC.STEP writes the three change flags only. -/
theorem CalcStep.flags_eq {s t : State} (h : CalcStep s t) :
    t.flags = { s.flags with
      brightnessChanged := t.flags.brightnessChanged
      refreshRateChanged := t.flags.refreshRateChanged
      rotationChanged := t.flags.rotationChanged } := by
  dsimp only
  rw [← h.underrun, ← h.lowered, ← h.wake, ← h.begun]

/-- The state after CALC.STEP, field by field. -/
theorem CalcStep.state_eq {s t : State} (h : CalcStep s t) :
    t = { s with
      flags := { s.flags with
        brightnessChanged := t.flags.brightnessChanged
        refreshRateChanged := t.flags.refreshRateChanged
        rotationChanged := t.flags.rotationChanged }
      layers := t.layers
      tt := t.tt
      freeCount := t.freeCount
      work := t.work
      slots := t.slots
      ring := { s.ring with count := s.ring.count + 1 }
      prod := { s.prod with rowIndex := (s.prod.rowIndex + 1) % s.cfg.scanRows }
      eng := if s.eng.schedState = .underrun then ⟨.shifting, .slot, s.ring.start, 0⟩ else s.eng } := by
  rw [← h.flags_eq, ← h.ring, ← h.prod, ← h.eng, ← h.cfg, ← h.ctl, ← h.chain, ← h.host, ← h.out, ← h.env,
    ← h.returned]

/-- In mid-frame CALC.STEP leaves flags, layers and timing table alone (R301). -/
theorem CalcStep.midFrame {s t : State} (h : CalcStep s t) (hmid : s.prod.rowIndex ≠ 0) :
    t.flags = s.flags ∧ t.layers = s.layers ∧ t.tt = s.tt ∧ t.freeCount = s.freeCount := by
  obtain ⟨m, henter, hsame⟩ := h.frame
  obtain rfl : s = m := by simpa [frameEntered, hmid] using henter
  exact hsame

/-! ### The planes of a filled slot (R304) -/

/-- A plane block that is read gives each of its words. -/
theorem slotWord_of_slotPlane {c : Config} {m : Memory} {w i : Nat} {ws : List Word}
    (h : slotPlane c m w i = some ws) {q : Nat} (hq : q < c.wordsPerPlane) :
    slotWord c m w i q = ws[q]? := by
  have hread := congrArg (·[q]?) ((collect_eq_some _ _).mp h)
  simp only [List.getElem?_map, List.getElem?_range hq, Option.map_some] at hread
  cases hword : ws[q]? with
  | none => rw [hword] at hread; cases hread
  | some d => rw [hword] at hread; exact Option.some.inj hread

/-- What a plane block holds depends on its words only. -/
theorem PlaneHolds.congr {c : Config} {work : Store Rgb} {m n : Memory} {w i : Nat}
    (h : PlaneHolds c work m w i)
    (hwords : ∀ q, q < c.wordsPerPlane → slotWord c n w i q = slotWord c m w i q) :
    PlaneHolds c work n w i := by
  intro g u hg hu
  obtain ⟨upper, lower, d, hupper, hlower, hbits, hstored⟩ := h g u hg hu
  have hpos : g * c.width + u < c.chainLen := chainPosition_lt hg hu
  refine ⟨upper, lower, d, hupper, hlower, hbits, ?_⟩
  cases hclock : c.clockDoubling with
  | true =>
    have hcount : c.wordsPerPlane = c.chainLen * 2 := by rw [Config.wordsPerPlane, if_pos hclock]
    rw [hclock, if_pos rfl] at hstored
    rw [if_pos rfl, hwords _ (by omega), hwords _ (by omega)]
    exact hstored
  | false =>
    have hcount : c.wordsPerPlane = c.chainLen * 1 := by rw [Config.wordsPerPlane, hclock, if_neg (by decide)]
    rw [hclock, if_neg (by decide)] at hstored
    rw [if_neg (by decide), hwords _ (by omega)]
    exact hstored

/-- A slot whose plane block reads as the encoded words holds what R196 says, as a block just written does. -/
theorem planeHolds_of_slotPlane {s : State} (hv : s.cfg.valid = true) {w i : Nat} {ws : List Word}
    (hws : planeWords s.cfg s.work i = some ws) (h : slotPlane s.cfg s.slots w i = some ws) :
    PlaneHolds s.cfg s.work s.slots w i := by
  have hwritten := slotPlane_writePlane w i ws s (planeWords_length s.cfg s.work i ws hws)
    (planeWords_fit s.cfg hv s.work i ws hws)
  refine (writePlane_planeHolds hv hws w).congr fun q hq => ?_
  rw [slotWord_of_slotPlane h hq, slotWord_of_slotPlane hwritten hq]

/-- CALC.STEP leaves every encoded plane in the slot it fills. -/
theorem CalcStep.planeHolds {s t : State} (h : CalcStep s t) (hv : s.cfg.valid = true) {i : Nat}
    (hi : i < s.cfg.depth) :
    PlaneHolds s.cfg t.work t.slots ((s.ring.start + s.ring.count) % s.cfg.capacity) i := by
  obtain ⟨ws, hplane⟩ := h.slot.plane i hi
  have hws : planeWords s.cfg t.work i = some ws := (h.filled.plane i hi).symm.trans hplane
  rw [← h.cfg] at hv hws hplane ⊢
  exact planeHolds_of_slotPlane hv hws hplane

/-- Settles O42: the parts of `CalcStep`, over the one chain that the walk visits. -/
theorem calcStepProducesOneRow : Obligations.CalcStepProducesOneRow := by
  intro s h hfree
  obtain ⟨ls, hc⟩ := h.chain
  obtain ⟨t, hexec, hcalc⟩ := exec_calcStep_spec h hfree
  obtain ⟨visited, hwalk, hrows⟩ := hcalc.rows
  obtain rfl : visited = ls := Option.some.inj (hwalk.symm.trans hc.chainLayers)
  refine ⟨t, visited, hexec, hc, hcalc.state_eq, hcalc.midFrame, hrows, hcalc.filled.address, fun i hi => ?_,
    hcalc.others⟩
  obtain ⟨p, hpair, -⟩ := hcalc.table i hi
  exact ⟨⟨p, hpair⟩, hcalc.filled.timing i hi, hcalc.planeHolds h.valid hi⟩

/-! ### The frame start (R302) -/

/-- A state that an operation of a frame start leads to has the same chain. -/
theorem ChainOk.of_writesPool {s t : State} {ls : List Nat} {r : Res} (h : ChainOk s ls)
    (hspec : ∃ u, r = .next u ∧ WritesPool s u) (hrun : r = .next t) : ChainOk t ls := by
  obtain ⟨u, hu, layers, k, rfl, hpool⟩ := hspec
  obtain rfl := Host.Outcome.next.inj (hu.symm.trans hrun)
  exact h.poolStep rfl hpool

/-- A pending rotation reaches every layer of the chain; none is pending afterwards. -/
theorem propagateRotation_eachLayer {s : State} {ls : List Nat} (h : ChainOk s ls) :
    ∃ rotated, propagateRotation s =
        .next { s with flags := { s.flags with rotationChanged := false }, layers := rotated } ∧
      ChainOk { s with layers := rotated } ls ∧
      if s.flags.rotationChanged then
        EachLayer (fun l => RotatedTo s.cfg l s.ctl.rotation) ls s.layers rotated
      else rotated = s.layers := by
  unfold propagateRotation
  cases hpending : s.flags.rotationChanged with
  | true =>
    obtain ⟨hrotate, -⟩ := chainOperationsReachEveryLayer s ls h
    obtain ⟨rotated, hrun, heach⟩ := hrotate s.ctl.rotation
    refine ⟨rotated, ?_, h.of_writesPool (chainSetRot_spec s.ctl.rotation s ls h) hrun, heach⟩
    rw [if_pos rfl, show chainSetRot s.ctl.rotation s = _ from hrun, andThen_next]
    rfl
  | false => exact ⟨s.layers, by rw [if_neg (by decide), ← hpending], h, rfl⟩

/-- A pending rate reaches every layer of the chain. -/
theorem propagateRate_eachLayer {s : State} {ls : List Nat} (h : ChainOk s ls) :
    ∃ rated k, propagateRate s = .next { s with layers := rated, freeCount := k } ∧
      ChainOk { s with layers := rated, freeCount := k } ls ∧
      if s.flags.refreshRateChanged then EachLayer (fun _ => RatedTo s.ctl.refreshRate) ls s.layers rated
      else rated = s.layers := by
  unfold propagateRate
  cases hpending : s.flags.refreshRateChanged with
  | true =>
    obtain ⟨-, hrate, -⟩ := chainOperationsReachEveryLayer s ls h
    obtain ⟨rated, k, hrun, heach⟩ := hrate s.ctl.refreshRate
    exact ⟨rated, k, hrun, h.of_writesPool (chainSetRate_spec s.ctl.refreshRate s ls h) hrun, heach⟩
  | false => exact ⟨s.layers, s.freeCount, rfl, h, rfl⟩

/-- For a supported rate the table that TT.CALC writes depends on the parameters, the controls and the table before
it only: no entry is a free value (R178). -/
theorem calcTiming_tt_congr {s s' t t' : State} (h : calcTiming s = .next t)
    (h' : calcTiming s' = .next t') (hcfg : s'.cfg = s.cfg) (hctl : s'.ctl = s.ctl) (htt : s'.tt = s.tt)
    (hv : s.cfg.valid = true) (hrate : s.cfg.minRefreshRate ≤ s.ctl.refreshRate.toNat) : t'.tt = t.tt := by
  obtain ⟨m, hm, rfl⟩ := (calcTiming_eq_next s t).mp h
  obtain ⟨m', hm', rfl⟩ := (calcTiming_eq_next s' t').mp h'
  rw [hcfg, hctl] at hm'
  obtain rfl : m' = m := Option.some.inj (hm'.symm.trans hm)
  have hentry : ∀ i, tableEntry s.cfg s'.freeCount s.ctl.brightness.toNat m' i =
      tableEntry s.cfg s.freeCount s.ctl.brightness.toNat m' i := by
    intro i
    have hbright : s.ctl.brightness.toNat ≤ 255 := by have := s.ctl.brightness.isLt; omega
    have hvalues := fun k => tableEntry_ok s.cfg hv k _ m' i _ hbright hrate hm
    obtain ⟨hperiod, honTime, -⟩ := hvalues s.freeCount
    obtain ⟨hperiod', honTime', -⟩ := hvalues s'.freeCount
    rw [TimingPair.mk.injEq]
    exact ⟨BitVec.eq_of_toNat_eq (hperiod'.trans hperiod.symm),
      BitVec.eq_of_toNat_eq (honTime'.trans honTime.symm)⟩
  simp only [State.setFreeCount_tt, State.setTT_tt, hcfg, hctl, htt, List.map_congr_left fun i _ => hentry i]

/-- The end of a frame start recomputes the table exactly if brightness or rate changed, and leaves neither flag
set. -/
theorem refreshTiming_recomputes {s : State} (hv : s.cfg.valid = true)
    (hmin : s.cfg.minRefreshRate ≤ s.ctl.refreshRate.toNat)
    (hmax : s.ctl.refreshRate.toNat ≤ s.cfg.maxRefreshRate) :
    ∃ t, refreshTiming s = .next t ∧ t.layers = s.layers ∧
      t.flags = { s.flags with brightnessChanged := false, refreshRateChanged := false } ∧
      if s.flags.brightnessChanged ∨ s.flags.refreshRateChanged then ∃ u, calcTiming s = .next u ∧ t.tt = u.tt
      else t.tt = s.tt := by
  unfold refreshTiming
  by_cases hchanged : s.flags.brightnessChanged ∨ s.flags.refreshRateChanged
  · obtain ⟨tt, k, hcalc, -⟩ := calcTiming_spec s hv hmin hmax
    rw [if_pos (by simpa using hchanged), hcalc, andThen_next]
    exact ⟨_, rfl, rfl, rfl, by rw [if_pos hchanged]; exact ⟨_, rfl, rfl⟩⟩
  · refine ⟨s, if_neg (by simpa using hchanged), rfl, ?_, by rw [if_neg hchanged]⟩
    simp only [not_or, Bool.not_eq_true] at hchanged
    obtain ⟨hbrightness, hrate⟩ := hchanged
    calc s.flags
        = { s.flags with
            brightnessChanged := s.flags.brightnessChanged
            refreshRateChanged := s.flags.refreshRateChanged } := rfl
      _ = { s.flags with brightnessChanged := false, refreshRateChanged := false } := by
          rw [hbrightness, hrate]

/-- Settles O43: the four parts of a frame start in turn; CALC.STEP then writes no layer, table or flag. -/
theorem frameStartPropagates : Obligations.FrameStartPropagates := by
  intro s h hfree hzero
  obtain ⟨ls, hc⟩ := h.chain
  obtain ⟨t, hexec, hcalc⟩ := exec_calcStep_spec h hfree
  obtain ⟨m, henter, hflags, hlayers, htable, -⟩ := hcalc.frame
  obtain ⟨rotated, hrotate, hcrot, hrotated⟩ := propagateRotation_eachLayer hc
  obtain ⟨rated, k, hrate, hcrate, hrated⟩ := propagateRate_eachLayer
    (s := { s with flags := { s.flags with rotationChanged := false }, layers := rotated })
    (hcrot.same rfl rfl)
  obtain ⟨-, -, framed, k', hframe, hframed⟩ := chainOperationsReachEveryLayer _ ls hcrate
  obtain ⟨u, htiming, hulayers, huflags, hutable⟩ := refreshTiming_recomputes
    (s := { s with
      flags := { s.flags with rotationChanged := false }, layers := framed, freeCount := k' })
    h.valid h.minRate h.maxRate
  obtain rfl : u = m := by
    have hstart : frameStart s = .next m := by rwa [frameEntered, if_pos hzero] at henter
    refine Host.Outcome.next.inj (Eq.trans ?_ hstart)
    rw [frameStart, hrotate, andThen_next, hrate, andThen_next,
      show chainFrame _ = _ from hframe, andThen_next]
    exact htiming.symm
  refine ⟨t, ls, rotated, rated, hexec, hc, hrotated, hrated, ?_, ?_, hflags.trans huflags⟩
  · rw [hlayers, hulayers]
    exact hframed
  · rw [htable]
    obtain ⟨tt, k₀, hcalcS, -⟩ := calcTiming_spec s h.valid h.minRate h.maxRate
    split at hutable
    next hchanged =>
      obtain ⟨v, hv, htt⟩ := hutable
      rw [if_pos hchanged, htt]
      exact ⟨_, hcalcS, calcTiming_tt_congr hcalcS hv rfl rfl rfl h.valid h.minRate⟩
    next hchanged => rw [if_neg hchanged, hutable]

/-! ### P.STEP (R308, R309) -/

theorem exec_pStep_full {s : State} (hrun : s.prod.calcState = .running)
    (hfull : s.ring.count = s.cfg.capacity) :
    exec .pStep s = .next (s.setProd { s.prod with calcState := .idle }) :=
  (if_pos hrun).trans (if_pos (decide_eq_true hfull))

theorem exec_pStep_free {s t : State} (hrun : s.prod.calcState = .running)
    (hfree : s.ring.count < s.cfg.capacity) (hcalc : exec .calcStep s = .next t) :
    exec .pStep s = .next (countLoop t) := by
  have hnotFull := ringIsFull_of_lt hfree
  have hrow : calcRow s = .next t := (if_neg hnotFull).symm.trans hcalc
  refine (if_pos hrun).trans ((if_neg hnotFull).trans ?_)
  rw [hrow, andThen_next]

/-- Short of the safety valve an iteration is only counted. -/
theorem countLoop_below {s : State}
    (h : ¬ (s.cfg.adaptiveRate = true ∧ s.cfg.safetyValve = true ∧ s.cfg.maxLoops ≤ (s.prod.loops + 1).toNat)) :
    countLoop s = s.setProd { s.prod with loops := s.prod.loops + 1 } := by
  refine if_neg fun hcond => h ?_
  simpa [and_assoc] using hcond

/-- The safety valve lowers the rate and restarts the count (R309). -/
theorem countLoop_valve {s : State}
    (h : s.cfg.adaptiveRate = true ∧ s.cfg.safetyValve = true ∧ s.cfg.maxLoops ≤ (s.prod.loops + 1).toNat) :
    countLoop s = (lowerRate (s.setProd { s.prod with loops := s.prod.loops + 1 })).setProd
      { s.prod with loops := 0 } := by
  refine if_pos ?_
  simpa [and_assoc] using h

/-- Settles O41: a full ring, and a row counted short of or at the safety valve. -/
theorem producerStep : Obligations.ProducerStep := by
  refine fun s hrun => ⟨exec_pStep_full hrun, fun h hfree => ?_⟩
  obtain ⟨t, hexec, hcalc⟩ := exec_calcStep_spec h hfree
  have hstep := exec_pStep_free hrun hfree hexec
  have hloops : t.prod.loops = s.prod.loops := by rw [hcalc.prod]
  refine ⟨t, hexec, ?_⟩
  rw [← hcalc.cfg, ← hloops]
  intro counted
  split
  next hvalve =>
    refine ⟨lowerRate counted, rfl, ?_⟩
    rw [hstep, countLoop_valve hvalve, (lowerRate_sameCore counted).prod]
    rfl
  next hbelow => rw [hstep, countLoop_below hbelow]; rfl

end Sys2Proof.Machine
end

section
/-! The host's registers (46_host_controls.md R320 to R329, R331, R333): the READY host takes the next word of the
command port, and the commands that write a control, answer a query or set a drawing register. -/

namespace Sys2Proof.Machine

/-! ### The host's turn (R320) -/

/-- The turn of the READY host performs the command that the next word spells, and takes the word. -/
theorem step_host_command {s : State} {w : Word} {rest : List Word} {i : Instr} (hbench : s.env.bench = [])
    (hagent : nextAgent s = .host) (hready : s.host.hostState = .ready)
    (hcommands : s.env.commands = w :: rest) (hport : decodePort s.cfg w = some i) :
    step s = exec i ((takeTurn s).setEnv { (takeTurn s).env with commands := rest }) := by
  apply step_perform
  rw [choose_turn s hbench, hagent]
  exact hostTurn_command _ w rest i (by simpa using hready) (by simpa using hcommands) (by simpa using hport)

/-- Settles O6: the host's turn at a word that spells a command, in the state after `takeTurn`. -/
theorem stepRunsTheHostCommand : Obligations.StepRunsTheHostCommand := by
  intro s w rest i hbench hagent hready hcommands hport
  rw [step_host_command hbench hagent hready hcommands hport, takeTurn_env s, ← hbench]
  rfl

/-! ### Controls and drawing registers (R323 to R326, R331, R333) -/

/-- Settles O44: each command of the READY host is one write. -/
theorem hostControlsWriteTheirFields : Obligations.HostControlsWriteTheirFields := by
  intro s hready
  have run : ∀ t : State, whenReady s (.next t) = .next t := fun t => whenReady_ready s (.next t) hready
  exact ⟨fun _ => run _, fun _ => run _, fun _ => run _, fun _ => run _, fun _ => run _, fun _ => run _,
    fun _ => run _⟩

theorem exec_setRefreshRate_tooHigh {s : State} {v : BitVec 16} (hready : s.host.hostState = .ready)
    (h : s.cfg.maxRefreshRate < max v.toNat s.cfg.minRefreshRate) :
    exec (.setRefreshRate v) s = .fault (.contractViolation .rateTooHigh) :=
  (whenReady_ready s _ hready).trans (if_pos h)

theorem exec_setRefreshRate_supported {s : State} {v : BitVec 16} (hready : s.host.hostState = .ready)
    (h : max v.toNat s.cfg.minRefreshRate ≤ s.cfg.maxRefreshRate) :
    exec (.setRefreshRate v) s = .next (s.setCtl { s.ctl with
      refreshRate := BitVec.ofNat 16 (max v.toNat s.cfg.minRefreshRate) }).raiseRateChanged :=
  (whenReady_ready s _ hready).trans (if_neg h.not_gt)

/-- Settles O45: below and above the ceiling; the rate fits its 16 bits because both of the two it is the greater
of do. -/
theorem setRefreshRateClamps : Obligations.SetRefreshRateClamps := by
  intro s v hready
  refine ⟨fun hmax hmin => ?_, exec_setRefreshRate_tooHigh hready⟩
  have hfits : max v.toNat s.cfg.minRefreshRate < 2 ^ 16 := max_lt v.isLt (by omega)
  exact ⟨BitVec.ofNat 16 (max v.toNat s.cfg.minRefreshRate), (BitVec.toNat_ofNat _ _).trans (Nat.mod_eq_of_lt hfits),
    exec_setRefreshRate_supported hready hmax⟩

/-! ### Queries (R327 to R329) -/

/-- Settles O46: each query of the READY host appends its response, and a flag read is a flag cleared. -/
theorem getCommandsRespond : Obligations.GetCommandsRespond := by
  intro s hready
  have run : ∀ t : State, whenReady s (.next t) = .next t := fun t => whenReady_ready s (.next t) hready
  exact ⟨run _, run _, run _⟩

end Sys2Proof.Machine
end

section
/-! The refusals (log 11, log 14): what each operation needs to be performed at all, and that without it the model
gives no next state. -/

namespace Sys2Proof.Machine

theorem withOperands_illFormed (i : Instr) (s : State) (r : Res) (h : i.wellFormed s.cfg = false) :
    withOperands i s r = .refused .badOperand := by
  unfold withOperands; rw [h, if_neg Bool.false_ne_true]

/-! ### A command while another is in progress (R320) -/

/-- Every host command begins with the check that the host is READY. -/
theorem exec_command_busy {s : State} {i : Instr} (hcommand : i.isCommand = true)
    (hbusy : s.host.hostState ≠ .ready) : exec i s = .refused .hostBusy := by
  have busy := fun r => whenReady_busy s r hbusy
  cases i with
  | beginBlock => exact busy _
  | addLayer _ => exact busy _
  | setBrightness _ => exact busy _
  | setRefreshRate _ => exact busy _
  | setRotation _ => exact busy _
  | setCcMode _ => exact busy _
  | swapBuffers _ _ => exact busy _
  | getRefreshRate => exact busy _
  | getUnderrun => exact busy _
  | getLowered => exact busy _
  | setColor _ _ => exact busy _
  | setIndex _ => exact busy _
  | drawPixel _ _ _ => exact busy _
  | _ => cases hcommand

/-! ### Operations that are not enabled (R273, R274, R307, R308) -/

theorem beatLimit_stopped {s : State} (h : s.eng.schedState = .stopped) : beatLimit s = none := by
  unfold beatLimit; rw [h]

/-- A stopped engine has neither a beat nor an event. -/
theorem not_enabled_of_stopped {s : State} (h : s.eng.schedState = .stopped) :
    beatEnabled s = false ∧ completeEnabled s = false := by
  simp only [beatEnabled, completeEnabled, beatLimit_stopped h, Bool.and_false, and_self]

theorem beatEnabled_of_limit_le {s : State} {n : Nat} (hlimit : beatLimit s = some n)
    (h : n ≤ s.eng.beatIndex) : beatEnabled s = false := by
  simp only [beatEnabled, hlimit, decide_eq_false h.not_gt, Bool.and_false]

theorem completeEnabled_of_limit_ne {s : State} {n : Nat} (hlimit : beatLimit s = some n)
    (h : s.eng.beatIndex ≠ n) : completeEnabled s = false := by
  simp only [completeEnabled, hlimit, decide_eq_false h, Bool.and_false]

theorem beatEnabled_of_not_due {s : State}
    (h : s.flags.begun = false ∨ s.eng.schedState = .stopped ∨
      (s.eng.schedState = .shifting ∧ s.cfg.depth ≤ s.eng.beatIndex) ∨
      (s.eng.schedState = .underrun ∧ 1 ≤ s.eng.beatIndex)) : beatEnabled s = false := by
  rcases h with hbegun | hstopped | ⟨hshift, hbeat⟩ | ⟨hunderrun, hbeat⟩
  · exact beatEnabled_of_not_begun hbegun
  · exact (not_enabled_of_stopped hstopped).1
  · exact beatEnabled_of_limit_le (beatLimit_shifting hshift) hbeat
  · exact beatEnabled_of_limit_le (beatLimit_underrun hunderrun) hbeat

theorem completeEnabled_of_not_due {s : State}
    (h : s.flags.begun = false ∨ s.eng.schedState = .stopped ∨
      (s.eng.schedState = .shifting ∧ s.eng.beatIndex ≠ s.cfg.depth) ∨
      (s.eng.schedState = .underrun ∧ s.eng.beatIndex ≠ 1)) : completeEnabled s = false := by
  rcases h with hbegun | hstopped | ⟨hshift, hbeat⟩ | ⟨hunderrun, hbeat⟩
  · exact completeEnabled_of_not_begun hbegun
  · exact (not_enabled_of_stopped hstopped).2
  · exact completeEnabled_of_limit_ne (beatLimit_shifting hshift) hbeat
  · exact completeEnabled_of_limit_ne (beatLimit_underrun hunderrun) hbeat

theorem exec_pWake_of_not_enabled {s : State}
    (h : s.flags.begun = false ∨ s.prod.calcState = .running ∨ s.flags.calcWake = false) :
    exec .pWake s = .refused .notEnabled := by
  refine if_neg fun henabled => ?_
  obtain ⟨hbegun, hidle, hwake⟩ := (wakeEnabled_iff s).mp henabled
  simp [hbegun, hidle, hwake] at h

theorem exec_pStep_of_idle {s : State} (h : s.prod.calcState = .idle) : exec .pStep s = .refused .notEnabled :=
  if_neg (by rw [h]; exact CalcState.noConfusion)

/-! ### Operations whose requirement does not hold (R279, R280, R301) -/

theorem exec_sch_of_empty {s : State} (h : s.ring.count = 0) :
    exec .schStart s = .refused .requirementUnmet ∧ exec .schRecover s = .refused .requirementUnmet :=
  ⟨if_neg (by omega), if_neg fun hreq => by omega⟩

theorem exec_schRecover_of_not_underrun {s : State} (h : s.eng.schedState ≠ .underrun) :
    exec .schRecover s = .refused .requirementUnmet := if_neg fun hreq => h hreq.1

theorem exec_calcStep_of_full {s : State} (h : s.ring.count = s.cfg.capacity) :
    exec .calcStep s = .refused .requirementUnmet := if_pos (decide_eq_true h)

/-! ### Encoder variants (R197 to R199) -/

theorem hasPlane_of_le {c : Config} {w : BitVec 8} {i : BitVec 4}
    (h : c.capacity ≤ w.toNat ∨ c.depth ≤ i.toNat) {n : Nat} (hd : c.depth = n) : c.hasPlane n w i = false := by
  subst hd
  rcases h with h | h <;> simp [Config.hasPlane, h]

/-- The variant of the configured depth refuses a slot or a bit-plane that does not exist. -/
theorem exec_encPlane_badOperand {s : State} {w : BitVec 8} {i : BitVec 4}
    (h : s.cfg.capacity ≤ w.toNat ∨ s.cfg.depth ≤ i.toNat) :
    (s.cfg.depth = 8 → exec (.encPlane24 w i) s = .refused .badOperand) ∧
    (s.cfg.depth = 12 → exec (.encPlane36 w i) s = .refused .badOperand) ∧
    (s.cfg.depth = 16 → exec (.encPlane48 w i) s = .refused .badOperand) :=
  ⟨fun hd => (if_pos hd).trans (withOperands_illFormed _ s _ (hasPlane_of_le h hd)),
    fun hd => (if_pos hd).trans (withOperands_illFormed _ s _ (hasPlane_of_le h hd)),
    fun hd => (if_pos hd).trans (withOperands_illFormed _ s _ (hasPlane_of_le h hd))⟩

/-! ### Layers, rows and rates (R8, R52, R124, R238, R250) -/

theorem hasLayer_of_le {c : Config} {l : BitVec 4} (h : c.maxLayers ≤ l.toNat) : c.hasLayer l = false :=
  decide_eq_false h.not_gt

theorem hasRow_of_le {c : Config} {y g : BitVec 10} (h : c.height ≤ y.toNat ∨ c.stack ≤ g.toNat) :
    c.hasRow y g = false := by
  rcases h with h | h <;> simp [Config.hasRow, h]

/-- The layer operations refuse a layer beyond the pool. -/
theorem exec_layerOp_beyondPool {s : State} {l : BitVec 4} (h : s.cfg.maxLayers ≤ l.toNat) :
    exec (.lBegin l) s = .refused .badOperand ∧ exec (.lFrame l) s = .refused .badOperand ∧
      exec (.lScrollStep l) s = .refused .badOperand ∧
      (∀ rot, exec (.lSetRot l rot) s = .refused .badOperand) ∧
      (∀ rate, exec (.lSetRate l rate) s = .refused .badOperand) ∧
      ∀ y g j sh, exec (.lFillRow l y g j sh) s = .refused .badOperand := by
  have hlayer := hasLayer_of_le h
  exact ⟨withOperands_illFormed _ s _ hlayer, withOperands_illFormed _ s _ hlayer,
    withOperands_illFormed _ s _ hlayer, fun _ => withOperands_illFormed _ s _ hlayer,
    fun _ => withOperands_illFormed _ s _ (Bool.and_eq_false_iff.mpr (.inl hlayer)),
    fun _ _ _ _ => withOperands_illFormed _ s _ (Bool.and_eq_false_iff.mpr (.inl hlayer))⟩

/-- So do the commands of a READY host that name a layer. -/
theorem exec_layerCommand_beyondPool {s : State} {l : BitVec 4} (h : s.cfg.maxLayers ≤ l.toNat)
    (hready : s.host.hostState = .ready) :
    exec (.addLayer l) s = .refused .badOperand ∧
      (∀ copy, exec (.swapBuffers copy l) s = .refused .badOperand) ∧
      ∀ x y, exec (.drawPixel l x y) s = .refused .badOperand := by
  have hlayer := hasLayer_of_le h
  exact ⟨(whenReady_ready s _ hready).trans (withOperands_illFormed _ s _ hlayer),
    fun _ => (whenReady_ready s _ hready).trans (withOperands_illFormed _ s _ hlayer),
    fun _ _ => (whenReady_ready s _ hready).trans (withOperands_illFormed _ s _ hlayer)⟩

theorem exec_fillRow_beyondRows {s : State} {y g : BitVec 10}
    (h : s.cfg.height ≤ y.toNat ∨ s.cfg.stack ≤ g.toNat) (j : BitVec 1) :
    exec (.compFillRow y g j) s = .refused .badOperand ∧
      ∀ l sh, exec (.lFillRow l y g j sh) s = .refused .badOperand := by
  have hrow := hasRow_of_le h
  exact ⟨withOperands_illFormed _ s _ hrow,
    fun _ _ => withOperands_illFormed _ s _ (Bool.and_eq_false_iff.mpr (.inr hrow))⟩

theorem exec_lSetRate_zero (s : State) (l : BitVec 4) : exec (.lSetRate l 0) s = .refused .badOperand :=
  withOperands_illFormed _ s _ (Bool.and_false _)

/-- L.SCROLLSTEP refuses a layer of another kind, in the pool's range or not. -/
theorem exec_lScrollStep_of_not_text {s : State} {l : BitVec 4} {lay : Layer}
    (hlay : s.layers[l.toNat]? = some lay) (htext : lay.content.isText = false) :
    exec (.lScrollStep l) s = .refused .badOperand := by
  show execLScrollStep l s = _
  cases hwf : (Instr.lScrollStep l).wellFormed s.cfg with
  | false => exact withOperands_illFormed _ s _ hwf
  | true =>
    rw [execLScrollStep, withOperands_wellFormed _ s _ hwf, withLayer_some _ _ _ lay hlay]
    cases hkind : lay.content with
    | scrollingText t => rw [hkind] at htext; cases htext
    | background m => rfl
    | indexed n p m => rfl
    | monoGfx v m => rfl

/-- Settles O52: the refusals above, operation by operation. -/
theorem operationsOutsideTheirRulesAreRefused : Obligations.OperationsOutsideTheirRulesAreRefused := by
  intro s
  refine ⟨fun i => exec_command_busy, fun h => exec_engBeat_of_not_enabled (beatEnabled_of_not_due h),
    fun h => exec_evComplete_of_not_enabled (completeEnabled_of_not_due h), exec_pWake_of_not_enabled,
    exec_pStep_of_idle, exec_sch_of_empty, exec_schRecover_of_not_underrun, exec_calcStep_of_full,
    fun w i => ⟨fun hd => if_neg hd, fun hd => if_neg hd, fun hd => if_neg hd, exec_encPlane_badOperand⟩,
    fun l hl => ?_, fun y g j h => exec_fillRow_beyondRows h j, exec_lSetRate_zero s,
    fun l lay => exec_lScrollStep_of_not_text⟩
  obtain ⟨hbegin, hframe, hscroll, hrot, hrate, hfill⟩ := exec_layerOp_beyondPool hl
  exact ⟨hbegin, hframe, hscroll, hrot, hrate, hfill, exec_layerCommand_beyondPool hl⟩

end Sys2Proof.Machine
end

section
/-! The host on layers and buffers (46_host_controls.md R321, R322, R330, R332): ADDLAYER, BEGIN, the phases of
SWAPBUFFERS and DRAWPIXEL. -/

namespace Sys2Proof.Machine

/-! ### ADDLAYER (R322) -/

theorem exec_addLayer_eq {s : State} {l : BitVec 4} {lay : Layer} (hready : s.host.hostState = .ready)
    (hl : l.toNat < s.cfg.maxLayers) (hbegun : s.flags.begun = false)
    (hlay : s.layers[l.toNat]? = some lay) (hfree : lay.attached = false) :
    exec (.addLayer l) s = andThen (layerBegin l.toNat s) (attachLayer l.toNat) := by
  show execAddLayer l s = _
  rw [execAddLayer, whenReady_ready s _ hready, withOperands_wellFormed (.addLayer l) s _ (decide_eq_true hl),
    hbegun, if_neg Bool.false_ne_true, withLayer_some _ _ _ lay hlay, hfree, if_neg Bool.false_ne_true]

@[simp] theorem linkLayer_freeCount (l : Nat) (s : State) : (linkLayer l s).freeCount = s.freeCount := by
  unfold linkLayer
  split
  · split <;> rfl
  · rfl

/-- Attaching a layer uses no free value. -/
theorem attachLayer_freeCount (l : Nat) (s : State) :
    Ensures (attachLayer l s) fun t => t.freeCount = s.freeCount :=
  .withLayer fun _ => .next (linkLayer_freeCount l _)

/-- A chain of attached layers does not hold a layer that is not attached. -/
theorem ChainOk.not_mem {s : State} {ls : List Nat} (h : ChainOk s ls) {l : Nat} {lay : Layer}
    (hlay : s.layers[l]? = some lay) (hfree : lay.attached = false) : l ∉ ls := by
  intro hmem
  obtain ⟨x, hx, hatt⟩ := (h.attached l).mp hmem
  obtain rfl := Option.some.inj (hx.symm.trans hlay)
  rw [hfree] at hatt
  cases hatt

/-- A chain has no head exactly if it is empty. -/
theorem ChainOk.head_eq_none {s : State} {ls : List Nat} (h : ChainOk s ls) : s.chain.head = none ↔ ls = [] := by
  have hlinked := h.linked
  cases ls with
  | nil => exact ⟨fun _ => rfl, fun _ => hlinked⟩
  | cons a ls =>
    obtain ⟨hhead, -⟩ := hlinked
    simp [hhead]

theorem chainAppend_shifts (ch : Chain) (l : Nat) (shifts : BitVec 4) :
    (chainAppend ch l shifts).brightnessShifts.toNat = max ch.brightnessShifts.toNat shifts.toNat := by
  unfold chainAppend
  dsimp only
  split <;> omega

/-- Settles O47: ADDLAYER is L.BEGIN and the attachment, whose effect on pool and chain is `Attached`. -/
theorem addLayerAppendsToTheChain : Obligations.AddLayerAppendsToTheChain := by
  intro s l lay ls hready hl hbegun hchain hlay hfree
  have hbegin := exec_lBegin_eq hl hlay
  have hlayerBegin : layerBegin l.toNat s = _ := withLayer_some _ _ _ lay hlay
  obtain ⟨t, hadd, hatt⟩ := attach_spec s l.toNat lay ls hchain hlay hfree
  have hcount : t.freeCount = s.freeCount + contentUses lay.content := by
    rw [hlayerBegin, andThen_next] at hadd
    exact attachLayer_freeCount _ _ t hadd
  have hnot := hchain.not_mem hlay hfree
  refine ⟨_, t, beginLayer s l.toNat lay, hbegin, putLayer_layers_self hlay _,
    (exec_addLayer_eq hready hl hbegun hlay hfree).trans hadd, hatt.new, fun k x hlast => ?_, hatt.others,
    ?_, ?_, ?_, ?_, ?_, hatt.chainOk hchain hlay hfree⟩
  · have hne : k ≠ l.toNat := fun e => hnot (e ▸ List.mem_of_getLast? hlast)
    exact hatt.last k x hne hlast
  · rw [hatt.chain, chainAppend]
    simp only [hchain.head_eq_none]
  · rw [hatt.chain, chainAppend]
  · rw [hatt.chain, chainAppend]
  · rw [hatt.chain, chainAppend_shifts]
  · obtain ⟨n, hsame⟩ := hatt.same
    obtain rfl : t.freeCount = n := congrArg State.freeCount hsame
    rw [hcount] at hsame
    exact hsame

/-! ### BEGIN (R321) -/

theorem exec_beginBlock_eq {s : State} (hready : s.host.hostState = .ready) (hbegun : s.flags.begun = false) :
    exec .beginBlock s = andThen (fillRing s.cfg.capacity (beginSetup s)) fun u => .next (beginFinish u) := by
  show execBegin s = _
  rw [execBegin, whenReady_ready s _ hready, hbegun, if_neg Bool.false_ne_true]

theorem exec_beginBlock_twice {s : State} (hready : s.host.hostState = .ready) (hbegun : s.flags.begun = true) :
    exec .beginBlock s = .fault (.contractViolation .beginTwice) :=
  (whenReady_ready s _ hready).trans (if_pos hbegun)

/-- With more than `n` slots free CALC.STEP answers, ready for `n` more. -/
theorem CalcReady.calcStep {s : State} (h : CalcReady s) {n : Nat}
    (hfree : s.ring.count + (n + 1) ≤ s.cfg.capacity) :
    ∃ t, exec .calcStep s = .next t ∧ CalcStep s t ∧ CalcReady t ∧ t.ring.count + n ≤ t.cfg.capacity := by
  obtain ⟨t, hexec, hcalc⟩ := exec_calcStep_spec h (by omega)
  refine ⟨t, hexec, hcalc, hcalc.ready h, ?_⟩
  rw [hcalc.ring, hcalc.cfg]
  dsimp only
  omega

/-- While slots are free for all of them, filling the ring is that many CALC.STEPs. -/
theorem fillRing_eq_performTimes (n : Nat) {s : State} (h : CalcReady s)
    (hfree : s.ring.count + n ≤ s.cfg.capacity) : fillRing n s = performTimes n .calcStep s := by
  induction n generalizing s with
  | zero => rfl
  | succ n ih =>
    have hlt : s.ring.count < s.cfg.capacity := by omega
    obtain ⟨t, hexec, -, hready, hnext⟩ := h.calcStep hfree
    have hrow : calcRow s = .next t := (if_neg (ringIsFull_of_lt hlt)).symm.trans hexec
    rw [fillRing, if_neg (ringIsFull_of_lt hlt), hrow, andThen_next, performTimes_succ, hexec, andThen_next]
    exact ih hready hnext

/-- No change flag is set. -/
structure NoChange (s : State) : Prop where
  brightness : s.flags.brightnessChanged = false
  rate : s.flags.refreshRateChanged = false
  rotation : s.flags.rotationChanged = false

/-- CALC.STEP at row 0 clears the change flags; at another row it leaves them as they are (R301, R302). -/
theorem CalcStep.noChange {s t : State} (h : CalcStep s t) (hexec : exec .calcStep s = .next t)
    (hready : CalcReady s) (hfree : s.ring.count < s.cfg.capacity)
    (hs : s.prod.rowIndex = 0 ∨ NoChange s) : NoChange t := by
  by_cases hzero : s.prod.rowIndex = 0
  · obtain ⟨u, -, -, -, hu, -, -, -, -, -, hflags⟩ := frameStartPropagates s hready hfree hzero
    obtain rfl := Host.Outcome.next.inj (hu.symm.trans hexec)
    exact ⟨by rw [hflags], by rw [hflags], by rw [hflags]⟩
  · obtain ⟨hflags, -⟩ := h.midFrame hzero
    have hno := hs.resolve_left hzero
    exact ⟨hflags ▸ hno.brightness, hflags ▸ hno.rate, hflags ▸ hno.rotation⟩

/-- Once the change flags are clear, CALC.STEPs leave them so. -/
theorem performTimes_calcStep_noChange (n : Nat) {s : State} (h : CalcReady s)
    (hfree : s.ring.count + n ≤ s.cfg.capacity) (hs : NoChange s) :
    Ensures (performTimes n .calcStep s) NoChange := by
  induction n generalizing s with
  | zero => exact .next hs
  | succ n ih =>
    obtain ⟨t, hexec, hcalc, hready, hnext⟩ := h.calcStep hfree
    rw [performTimes_succ, hexec, andThen_next]
    exact ih hready hnext (hcalc.noChange hexec h (by omega) (.inr hs))

/-- From row 0 on, one CALC.STEP or more clears them. -/
theorem performTimes_calcStep_clears (n : Nat) {s : State} (h : CalcReady s)
    (hfree : s.ring.count + (n + 1) ≤ s.cfg.capacity) (hzero : s.prod.rowIndex = 0) :
    Ensures (performTimes (n + 1) .calcStep s) NoChange := by
  obtain ⟨t, hexec, hcalc, hready, hnext⟩ := h.calcStep hfree
  rw [performTimes_succ, hexec, andThen_next]
  exact performTimes_calcStep_noChange n hready hnext (hcalc.noChange hexec h (by omega) (.inl hzero))

/-- Settles O48: the `C` CALC.STEPs are the filling of the ring, whose rows are those of `Filling`. -/
theorem beginFillsTheRing : Obligations.BeginFillsTheRing := by
  intro s h hready
  refine ⟨fun hbegun => ?_, exec_beginBlock_twice hready⟩
  obtain ⟨v, hfill, hfilling, hcount⟩ := h.filling hbegun
  have hsetup := h.beginSetup_ready
  have hfree : (beginSetup s).ring.count + s.cfg.capacity ≤ (beginSetup s).cfg.capacity := (Nat.zero_add _).le
  have hperform := (fillRing_eq_performTimes s.cfg.capacity hsetup hfree).symm.trans hfill
  have hclear : NoChange v := by
    obtain ⟨n, hn⟩ := Nat.exists_eq_add_of_le' (Config.valid.capacity h.regs.valid).1
    rw [hn] at hperform hfree
    exact performTimes_calcStep_clears n hsetup hfree rfl v hperform
  refine ⟨v, beginFinish v, hperform, ?_, rfl, congrArg₂ Ring.mk hfilling.start hcount, ?_, hclear.brightness,
    hclear.rate, hclear.rotation, fun w hw => ?_⟩
  · rw [exec_beginBlock_eq hready hbegun, hfill, andThen_next]
  · have hrow := hfilling.rows.next
    rwa [hcount, hfilling.cfg, Nat.zero_add] at hrow
  · have hslot := hfilling.rows.queued w (hcount.symm ▸ hw)
    rwa [hfilling.start, hfilling.cfg, Nat.zero_add w, Nat.mod_eq_of_lt hw] at hslot

/-! ### SWAPBUFFERS (R330) -/

theorem exec_swapBuffers_eq {s : State} {l : BitVec 4} {lay : Layer} (copy : BitVec 1)
    (hready : s.host.hostState = .ready) (hl : l.toNat < s.cfg.maxLayers)
    (hlay : s.layers[l.toNat]? = some lay) (hatt : lay.attached = true)
    (htext : lay.content.isText = false) :
    exec (.swapBuffers copy l) s =
      .next (s.setHost { s.host with hostState := .swapWait1 l.toNat (decide (copy = 1)) }) :=
  (whenReady_ready s _ hready).trans <|
    (withOperands_wellFormed (.swapBuffers copy l) s _ (decide_eq_true hl)).trans
      (withDrawable_of _ s _ lay hlay hatt htext)

/-- The first wait: held while a swap is pending, else the swap is requested. -/
theorem hostPhase_swapWait1 {s : State} {l : Nat} {copy : Bool} {lay : Layer}
    (hstate : s.host.hostState = .swapWait1 l copy) (hlay : s.layers[l]? = some lay) :
    hostPhase s = if lay.swapPending then .next s else .next (swapRequest l copy lay s) := by
  unfold hostPhase
  rw [hstate]
  exact withLayer_some _ _ _ lay hlay

/-- The second wait: held while the swap is pending, else the buffer is copied. -/
theorem hostPhase_swapWait2 {s : State} {l : Nat} {lay : Layer}
    (hstate : s.host.hostState = .swapWait2 l) (hlay : s.layers[l]? = some lay) :
    hostPhase s = if lay.swapPending then .next s else swapCopy l lay s := by
  unfold hostPhase
  rw [hstate]
  exact withLayer_some _ _ _ lay hlay

theorem swapCopy_eq {s : State} {lay : Layer} {content : Content} (l : Nat)
    (h : copyContent s.cfg lay.refreshBuffer lay.drawBuffer lay.content = some content) :
    swapCopy l lay s =
      .next ((s.putLayer l { lay with content := content }).setHost { s.host with hostState := .ready }) := by
  unfold swapCopy; rw [h]

theorem bufferIndex_zero (c : Config) (b : Nat) : bufferIndex c b 0 0 = b * bufferSize c := by
  simp [bufferIndex_eq, canvasIndex]

/-- A buffer whose elements are all written is copied as R330 says. -/
theorem copyBuffer_copied {α : Type} (c : Config) {src : Nat} (dst : Nat) {count : Nat} {m : Store α}
    (hsrc : src < count) (hm : ∀ k, k < count * bufferSize c → ∃ v, Store.read m k = some v) :
    ∃ n, copyBuffer c src dst m = some n ∧ CopiedForward.Copied c src dst m n := by
  obtain ⟨n, hcopy, hinside, houtside, -⟩ := copyBuffer_spec c src dst m fun i hi => by
    obtain ⟨v, hv⟩ := hm _ (index_lt_of_buffer _ _ _ _ hsrc hi)
    rw [hv]; rfl
  refine ⟨n, hcopy, fun y x hy hx => ?_, fun k hk => houtside k ?_⟩
  · rw [bufferIndex_eq, bufferIndex_eq]
    exact hinside _ (canvasIndex_lt c y x hy hx)
  · rwa [bufferIndex_zero, bufferIndex_zero, Nat.add_mul, Nat.one_mul] at hk

/-- The copy-forward of a layer with buffers, all of them written. -/
theorem copyContent_copiedForward (c : Config) {lay : Layer} (hrefresh : lay.refreshBuffer < lay.bufferCount)
    (hwritten : lay.content.written c lay.bufferCount) (htext : lay.content.isText = false) :
    ∃ content, copyContent c lay.refreshBuffer lay.drawBuffer lay.content = some content ∧
      CopiedForward c lay { lay with content := content } := by
  unfold CopiedForward
  cases hkind : lay.content with
  | background m =>
    rw [hkind] at hwritten
    obtain ⟨n, hcopy, hcopied⟩ := copyBuffer_copied c lay.drawBuffer hrefresh hwritten
    exact ⟨.background n, by rw [copyContent, hcopy, Option.map_some], rfl, hcopied⟩
  | indexed k p m =>
    rw [hkind] at hwritten
    obtain ⟨n, hcopy, hcopied⟩ := copyBuffer_copied c lay.drawBuffer hrefresh fun k hk =>
      (hwritten k hk).imp fun _ hv => hv.1
    exact ⟨.indexed k p n, by rw [copyContent, hcopy, Option.map_some], rfl, rfl, rfl, hcopied⟩
  | monoGfx v m =>
    rw [hkind] at hwritten
    obtain ⟨n, hcopy, hcopied⟩ := copyBuffer_copied c lay.drawBuffer hrefresh hwritten
    exact ⟨.monoGfx v n, by rw [copyContent, hcopy, Option.map_some], rfl, rfl, hcopied⟩
  | scrollingText t => rw [hkind] at htext; cases htext

/-- Settles O49: the command enters the first wait; the two waits are the phases of the host's turn, in the state
after `takeTurn`. -/
theorem swapBuffersPhases : Obligations.SwapBuffersPhases := by
  refine ⟨fun s copy l lay hready hl hlay hatt htext => ?_, fun s l lay hbench hagent hlay => ?_⟩
  · have hcopy : decide (copy = 1) = copy.getLsbD 0 := by revert copy; decide
    rw [exec_swapBuffers_eq copy hready hl hlay hatt htext, hcopy]
    rfl
  have hturn := step_host_phase s hbench hagent
  obtain ⟨e, he, -⟩ := takeTurn_frame s
  rw [he] at hturn ⊢
  refine ⟨fun copy hstate => ?_, fun hstate => ?_⟩
  · rw [hturn (by rw [hstate]; exact HostState.noConfusion),
      hostPhase_swapWait1 (s := s.setEnv e) hstate hlay]
    exact ⟨fun hpending => if_pos hpending, fun hclear => if_neg (ne_true_of_eq_false hclear)⟩
  · rw [hturn (by rw [hstate]; exact HostState.noConfusion), hostPhase_swapWait2 (s := s.setEnv e) hstate hlay]
    refine ⟨fun hpending => if_pos hpending, fun hclear hbuilt hwritten htext => ?_⟩
    obtain ⟨content, hcopy, hcopied⟩ := copyContent_copiedForward s.cfg hbuilt.refresh hwritten htext
    exact ⟨_, hcopied, (if_neg (ne_true_of_eq_false hclear)).trans (swapCopy_eq (s := s.setEnv e) l hcopy)⟩

/-! ### DRAWPIXEL (R332) -/

/-- On a layer with buffers DRAWPIXEL stores one element inside the local rectangle and nothing outside it. -/
theorem exec_drawPixel_eq {s : State} {l : BitVec 4} {lay : Layer} (x y : BitVec 10)
    (hready : s.host.hostState = .ready) (hl : l.toNat < s.cfg.maxLayers)
    (hlay : s.layers[l.toNat]? = some lay) (hatt : lay.attached = true)
    (htext : lay.content.isText = false) :
    exec (.drawPixel l x y) s =
      if x.toNat < lay.localWidth ∧ y.toNat < lay.localHeight then
        .next (s.putLayer l.toNat { lay with
          content := drawElement s.cfg s.host (drawTarget s.cfg lay x.toNat y.toNat) lay.content })
      else .next s :=
  (whenReady_ready s _ hready).trans <|
    (withOperands_wellFormed (.drawPixel l x y) s _ (decide_eq_true hl)).trans
      (withDrawable_of _ s _ lay hlay hatt htext)

theorem Store.read_write_self {α : Type} (m : Store α) (k : Nat) (v : α) :
    Store.read (Store.write m k v) k = some v := by
  rw [Store.read_write, if_pos rfl]

theorem elsewhere_write {α : Type} (m : Store α) (k : Nat) (v : α) :
    DrawnAt.Elsewhere k m (Store.write m k v) := fun k' hne => by
  rw [Store.read_write, if_neg hne]

/-- What is kept of a number's low bits still fits its field. -/
theorem toNat_ofNat_mod_pow {w : Nat} (v : BitVec w) (n : Nat) :
    (BitVec.ofNat w (v.toNat % 2 ^ n)).toNat = v.toNat % 2 ^ n :=
  (BitVec.toNat_ofNat _ _).trans (Nat.mod_eq_of_lt ((Nat.mod_le _ _).trans_lt v.isLt))

theorem getLsbD_zero_eq_decide {w : Nat} (v : BitVec w) : v.getLsbD 0 = decide (v.toNat % 2 = 1) := by
  simp [BitVec.getLsbD, Nat.testBit_zero]

/-- The element that DRAWPIXEL stores, kind by kind. -/
theorem drawElement_drawnAt (c : Config) (h : HostRegs) (k : Nat) {a : Content} (htext : a.isText = false) :
    DrawnAt c h k a (drawElement c h k a) := by
  cases a with
  | background m =>
    have low := fun v : Half => toNat_ofNat_mod_pow v c.depth
    exact ⟨⟨_, Store.read_write_self m k _, low h.drawColor.r, low h.drawColor.g, low h.drawColor.b⟩,
      elsewhere_write m k _⟩
  | indexed n p m =>
    exact ⟨rfl, rfl, ⟨_, Store.read_write_self m k _, toNat_ofNat_mod_pow h.drawIndex n⟩,
      elsewhere_write m k _⟩
  | monoGfx v m =>
    refine ⟨rfl, ?_, elsewhere_write m k _⟩
    rw [getLsbD_zero_eq_decide]
    exact Store.read_write_self m k _
  | scrollingText t => cases htext

/-- Settles O50: the two branches of DRAWPIXEL. -/
theorem drawPixelWritesTheDrawBuffer : Obligations.DrawPixelWritesTheDrawBuffer := by
  intro s l x y lay hready hl hlay hatt htext
  rw [exec_drawPixel_eq x y hready hl hlay hatt htext]
  refine ⟨fun hx hy => ⟨_, if_pos ⟨hx, hy⟩, drawElement_drawnAt s.cfg s.host _ htext⟩, fun hout => ?_⟩
  exact if_neg fun hin => by omega

end Sys2Proof.Machine
end

section
/-! Where the machine stops (60_exceptions.md R351, R353, R354) and what runs before BEGIN (70_reset_and_hazards.md
R392, R403): the turns of the producer and the engine always answer, and before BEGIN they pass. -/

namespace Sys2Proof.Machine

/-! ### The turns of the producer and the engine -/

/-- Neither the producer nor the engine reads a word: its turn performs an operation that its rules enable, or
passes (R362). -/
theorem agentTurn_of_not_host {a : Agent} (s : State) (ha : a ≠ .host) :
    agentTurn a s = .pass s ∨ ∃ i, EnabledOp s i ∧ agentTurn a s = .perform i s := by
  cases a with
  | host => exact absurd rfl ha
  | producer =>
    show producerTurn s = _ ∨ ∃ i, _ ∧ producerTurn s = _
    unfold producerTurn
    split
    next hwake => exact .inr ⟨_, .wake hwake, rfl⟩
    next =>
      split
      next hrun => exact .inr ⟨_, .produce hrun, rfl⟩
      next => exact .inl rfl
  | engine =>
    show engineTurn s = _ ∨ ∃ i, _ ∧ engineTurn s = _
    unfold engineTurn
    split
    next hbeat => exact .inr ⟨_, .beat hbeat, rfl⟩
    next =>
      split
      next hcomplete => exact .inr ⟨_, .complete hcomplete, rfl⟩
      next => exact .inl rfl

/-- The turn of the producer or the engine answers: an enabled operation does (R283), and so does a pass. -/
theorem Inv.step_of_not_host {s : State} (h : Inv s) (ha : nextAgent s ≠ .host) : ∃ t, step s = .next t := by
  have hchoose := choose_turn s h.bench
  rcases agentTurn_of_not_host (Machine.takeTurn s) ha with hpass | ⟨i, henabled, hperform⟩
  · exact ⟨_, step_pass s _ (hchoose.trans hpass)⟩
  · obtain ⟨t, ht, -⟩ := h.takeTurn.enabledOp henabled
    exact ⟨t, (step_perform s _ i (hchoose.trans hperform)).trans ht⟩

/-- Settles O59: of the outcomes a step can have, the two that stop need the host's turn. -/
theorem stepStopsOnlyForTheHost : Obligations.StepStopsOnlyForTheHost := by
  intro s h
  by_cases hhost : nextAgent s = .host
  · rcases h.step_outcome with (⟨t, ht, -⟩ | hfault) | hrefused
    · exact .inl ⟨t, ht⟩
    · exact .inr ⟨hhost, .inl hfault⟩
    · exact .inr ⟨hhost, .inr hrefused⟩
  · exact .inl (h.step_of_not_host hhost)

/-! ### Before BEGIN (R392, R403) -/

/-- Before BEGIN the producer is idle (R310). -/
theorem Inv.idle_of_not_begun {s : State} (h : Inv s) (hbegun : s.flags.begun = false) :
    s.prod.calcState = .idle := by
  cases hstate : s.prod.calcState with
  | idle => rfl
  | running => exact nomatch hbegun.symm.trans (h.regs.running hstate)

/-- Before BEGIN neither the producer nor the engine has an enabled operation. -/
theorem Inv.agentTurn_of_not_begun {s : State} (h : Inv s) (hbegun : s.flags.begun = false) {a : Agent}
    (ha : a ≠ .host) : agentTurn a s = .pass s := by
  cases a with
  | host => exact absurd rfl ha
  | producer => exact producerTurn_idle (h.idle_of_not_begun hbegun) (.inl hbegun)
  | engine => exact engineTurn_of_not_begun hbegun

/-- Settles O9: the turn passes, in the state after `takeTurn`, which reads as before. -/
theorem nothingRunsBeforeBegin : Obligations.NothingRunsBeforeBegin := fun s h hbegun ha =>
  step_of_turn_pass h.bench rfl (h.takeTurn.agentTurn_of_not_begun (by rwa [takeTurn_flags]) ha)

/-- The host waits, in one of the two waits of SWAPBUFFERS, for the pending swap of layer `l` (R330). -/
structure HeldForSwap (s : State) (l : Nat) (lay : Layer) : Prop where
  waiting : s.host.hostState = .swapWait2 l ∨ ∃ copy, s.host.hostState = .swapWait1 l copy
  layer : s.layers[l]? = some lay
  pending : lay.swapPending = true

theorem HeldForSwap.not_ready {s : State} {l : Nat} {lay : Layer} (h : HeldForSwap s l lay) :
    s.host.hostState ≠ .ready := by
  rcases h.waiting with hstate | ⟨copy, hstate⟩ <;> rw [hstate] <;> exact HostState.noConfusion

/-- The next phase of a host held so is to be held still. -/
theorem HeldForSwap.hostPhase {s : State} {l : Nat} {lay : Layer} (h : HeldForSwap s l lay) :
    hostPhase s = .next s := by
  rcases h.waiting with hstate | ⟨copy, hstate⟩
  · rw [hostPhase_swapWait2 hstate h.layer, if_pos h.pending]
  · rw [hostPhase_swapWait1 hstate h.layer, if_pos h.pending]

/-- Whose turn it is is no part of the wait. -/
theorem HeldForSwap.takeTurn {s : State} {l : Nat} {lay : Layer} (h : HeldForSwap s l lay) :
    HeldForSwap (takeTurn s) l lay := by
  obtain ⟨e, he, -⟩ := takeTurn_frame s
  rw [he]
  exact ⟨h.waiting, h.layer, h.pending⟩

/-- Before BEGIN every turn of such a state is spent: the host is held, and the others pass. -/
theorem HeldForSwap.step {s : State} {l : Nat} {lay : Layer} (h : HeldForSwap s l lay) (hinv : Inv s)
    (hbegun : s.flags.begun = false) : step s = .next (Machine.takeTurn s) := by
  by_cases hhost : nextAgent s = .host
  · exact (step_host_phase s hinv.bench hhost h.not_ready).trans h.takeTurn.hostPhase
  · exact nothingRunsBeforeBegin s hinv hbegun hhost

/-- Any number of turns is spent so, by induction on the number. -/
theorem HeldForSwap.runSteps {l : Nat} {lay : Layer} (n : Nat) {s : State} (h : HeldForSwap s l lay)
    (hinv : Inv s) (hbegun : s.flags.begun = false) :
    ∃ turns turnCount, runSteps n s =
      .next (s.setEnv { s.env with turns := turns, turnCount := turnCount }) := by
  induction n generalizing s with
  | zero => exact ⟨s.env.turns, s.env.turnCount, rfl⟩
  | succ n ih =>
    obtain ⟨turns, turnCount, hrun⟩ := ih h.takeTurn hinv.takeTurn (by rwa [takeTurn_flags])
    refine ⟨turns, turnCount, ?_⟩
    rw [Machine.runSteps, h.step hinv hbegun, andThen_next, hrun]
    obtain ⟨_, _, hturn⟩ := takeTurn_eq s
    rw [hturn]
    rfl

/-- Settles O54: a host held for a pending swap stays held. -/
theorem swapCopyBeforeBeginIsHeld : Obligations.SwapCopyBeforeBeginIsHeld :=
  fun _ _ _ n hinv hbegun hwait hlay hpending => HeldForSwap.runSteps n ⟨hwait, hlay, hpending⟩ hinv hbegun

end Sys2Proof.Machine
end

section
/-! The host contracts (60_exceptions.md R352) and what the host cannot reach after BEGIN (R363). -/

namespace Sys2Proof.Machine

/-! ### The broken contracts (R352) -/

theorem exec_beginBlock_begun {s : State} (hready : s.host.hostState = .ready) (hbegun : s.flags.begun = true) :
    exec .beginBlock s = .fault (.contractViolation .beginTwice) :=
  (whenReady_ready s _ hready).trans (if_pos hbegun)

/-- ADDLAYER of a layer of the pool comes as far as the check of `begun`. -/
theorem exec_addLayer_begun {s : State} {l : BitVec 4} (hready : s.host.hostState = .ready)
    (hl : l.toNat < s.cfg.maxLayers) (hbegun : s.flags.begun = true) :
    exec (.addLayer l) s = .fault (.contractViolation .addAfterBegin) :=
  (whenReady_ready s _ hready).trans <|
    (withOperands_wellFormed (.addLayer l) s _ (decide_eq_true hl)).trans (if_pos hbegun)

theorem exec_addLayer_attached {s : State} {l : BitVec 4} {lay : Layer} (hready : s.host.hostState = .ready)
    (hl : l.toNat < s.cfg.maxLayers) (hbegun : s.flags.begun = false) (hlay : s.layers[l.toNat]? = some lay)
    (hatt : lay.attached = true) : exec (.addLayer l) s = .fault (.contractViolation .addTwice) := by
  show execAddLayer l s = _
  rw [execAddLayer, whenReady_ready s _ hready, withOperands_wellFormed (.addLayer l) s _ (decide_eq_true hl),
    hbegun, if_neg Bool.false_ne_true, withLayer_some _ _ _ lay hlay, if_pos hatt, violation]

/-- SWAPBUFFERS and DRAWPIXEL of a layer that is not attached or has no buffers. -/
theorem exec_badLayer {s : State} {l : BitVec 4} {lay : Layer} (hready : s.host.hostState = .ready)
    (hl : l.toNat < s.cfg.maxLayers) (hlay : s.layers[l.toNat]? = some lay)
    (hbad : lay.attached = false ∨ lay.content.isText = true) :
    (∀ copy, exec (.swapBuffers copy l) s = .fault (.contractViolation .badLayer)) ∧
      ∀ x y, exec (.drawPixel l x y) s = .fault (.contractViolation .badLayer) := by
  have hwf := decide_eq_true hl
  exact ⟨fun copy => (whenReady_ready s _ hready).trans <|
      (withOperands_wellFormed (.swapBuffers copy l) s _ hwf).trans (withDrawable_bad _ s _ lay hlay hbad),
    fun x y => (whenReady_ready s _ hready).trans <|
      (withOperands_wellFormed (.drawPixel l x y) s _ hwf).trans (withDrawable_bad _ s _ lay hlay hbad)⟩

/-- Settles O51: the contracts, command by command. -/
theorem brokenContractsFault : Obligations.BrokenContractsFault := fun _ hready =>
  ⟨exec_beginBlock_begun hready, fun _ => exec_setRefreshRate_tooHigh hready, fun _ _ hl hlay =>
    ⟨exec_addLayer_begun hready hl, fun hbegun hatt => exec_addLayer_attached hready hl hbegun hlay hatt,
      exec_badLayer hready hl hlay⟩⟩


/-! ### What the host cannot reach after BEGIN (R363, R246) -/

/-- The places of one buffer lie outside another. -/
theorem bufferIndex_outside (c : Config) {b d y x : Nat} (hne : b ≠ d) (hy : y < c.height) (hx : x < c.width) :
    bufferIndex c b y x < d * bufferSize c ∨ d * bufferSize c + bufferSize c ≤ bufferIndex c b y x := by
  have hplace := canvasIndex_lt c y x hy hx
  rw [bufferIndex_eq]
  rcases Nat.lt_or_gt_of_ne hne with hlt | hgt
  · exact .inl (index_lt_of_buffer _ _ _ _ hlt hplace)
  · have hle := Nat.mul_le_mul_right (bufferSize c) (Nat.succ_le_of_lt hgt)
    rw [Nat.succ_mul] at hle
    exact .inr (by omega)

/-- Two buffers have no place in common. -/
theorem bufferIndex_ne (c : Config) {b d y x y' x' : Nat} (hne : b ≠ d) (hy : y < c.height) (hx : x < c.width)
    (hy' : y' < c.height) (hx' : x' < c.width) : bufferIndex c b y x ≠ bufferIndex c d y' x' := by
  have houtside := bufferIndex_outside c hne hy hx
  have hplace := canvasIndex_lt c y' x' hy' hx'
  rw [bufferIndex_eq c d]
  omega

/-- The copy into buffer `dst` leaves every other buffer as it was. -/
theorem copyBuffer_read_other {α : Type} {c : Config} {src dst b y x : Nat} {m n : Store α}
    (hcopy : copyBuffer c src dst m = some n) (hne : b ≠ dst) (hy : y < c.height) (hx : x < c.width) :
    Store.read n (bufferIndex c b y x) = Store.read m (bufferIndex c b y x) := by
  unfold copyBuffer at hcopy
  split at hcopy
  next vs hread =>
    cases hcopy
    obtain ⟨hlength, -⟩ := (Store.readRange_eq_some _ _ _ _).mp hread
    exact Store.read_writeRange_outside _ _ _ _ (by rw [hlength]; exact bufferIndex_outside c hne hy hx)
  next => cases hcopy

/-- What a layer shows is not changed by an element stored outside its refresh buffer (R332). -/
theorem sample_drawElement (c : Config) (h : HostRegs) {k : Nat} {lay : Layer} {y x : Nat}
    (hne : bufferIndex c lay.refreshBuffer y x ≠ k) :
    sample c { lay with content := drawElement c h k lay.content } y x = sample c lay y x := by
  cases hkind : lay.content with
  | background m => simp only [sample, hkind, drawElement, Store.read_write, if_neg hne]
  | indexed n p m => simp only [sample, hkind, drawElement, Store.read_write, if_neg hne]
  | monoGfx v m => simp only [sample, hkind, drawElement, Store.read_write, if_neg hne]
  | scrollingText t => simp only [sample, hkind, drawElement]

/-- What a layer shows is not changed by a copy into another buffer than its refresh buffer (R330). -/
theorem sample_copyContent {c : Config} {src dst : Nat} {lay : Layer} {content : Content} {y x : Nat}
    (hcopy : copyContent c src dst lay.content = some content) (hne : lay.refreshBuffer ≠ dst)
    (hy : y < c.height) (hx : x < c.width) :
    sample c { lay with content := content } y x = sample c lay y x := by
  cases hkind : lay.content with
  | background m =>
    rw [hkind] at hcopy
    obtain ⟨n, hn, rfl⟩ := Option.map_eq_some_iff.mp hcopy
    simp only [sample, hkind, copyBuffer_read_other hn hne hy hx]
  | indexed k p m =>
    rw [hkind] at hcopy
    obtain ⟨n, hn, rfl⟩ := Option.map_eq_some_iff.mp hcopy
    simp only [sample, hkind, copyBuffer_read_other hn hne hy hx]
  | monoGfx v m =>
    rw [hkind] at hcopy
    obtain ⟨n, hn, rfl⟩ := Option.map_eq_some_iff.mp hcopy
    simp only [sample, hkind, copyBuffer_read_other hn hne hy hx]
  | scrollingText t =>
    rw [hkind] at hcopy
    cases hcopy
    simp only [sample, hkind]

/-- From `a` to `b` a layer keeps its place in the chain, its rotation, rate and buffer indices, and what it shows. -/
structure ShownAlike (c : Config) (a b : Layer) : Prop where
  attached : b.attached = a.attached
  next : b.next = a.next
  rotation : b.rotation = a.rotation
  rate : b.refreshRate = a.refreshRate
  draw : b.drawBuffer = a.drawBuffer
  refresh : b.refreshBuffer = a.refreshBuffer
  previous : b.previousBuffer = a.previousBuffer
  samples : ∀ y x, y < c.height → x < c.width → sample c b y x = sample c a y x

theorem ShownAlike.refl (c : Config) (a : Layer) : ShownAlike c a a :=
  ⟨rfl, rfl, rfl, rfl, rfl, rfl, rfl, fun _ _ _ _ => rfl⟩

/-- A new content that shows the same. -/
theorem ShownAlike.withContent {c : Config} {a : Layer} {content : Content}
    (h : ∀ y x, y < c.height → x < c.width → sample c { a with content := content } y x = sample c a y x) :
    ShownAlike c a { a with content := content } :=
  ⟨rfl, rfl, rfl, rfl, rfl, rfl, rfl, h⟩

/-- Every layer of the pool `old` is shown alike in the pool `new`. -/
structure PoolShownAlike (c : Config) (old new : List Layer) : Prop where
  length : new.length = old.length
  each : ∀ (l : Nat) (a : Layer), old[l]? = some a → ∃ b, new[l]? = some b ∧ ShownAlike c a b

theorem PoolShownAlike.refl (c : Config) (ls : List Layer) : PoolShownAlike c ls ls :=
  ⟨rfl, fun _ a h => ⟨a, h, .refl c a⟩⟩

/-- Writing the record of one layer. -/
theorem PoolShownAlike.put {c : Config} {s : State} {l : Nat} {a b : Layer} (hlay : s.layers[l]? = some a)
    (h : ShownAlike c a b) : PoolShownAlike c s.layers (s.putLayer l b).layers := by
  refine ⟨putLayer_length s l b, fun k x hx => ?_⟩
  by_cases hk : l = k
  · subst hk
    obtain rfl := Option.some.inj (hlay.symm.trans hx)
    exact ⟨b, putLayer_layers_self hlay b, h⟩
  · exact ⟨x, by rw [putLayer_layers, if_neg fun e => hk e.1]; exact hx, .refl c x⟩

/-- From `s` to `t` nothing of the engine, of the producer and of what they write or are shown by changes. -/
structure HostKeeps (s t : State) : Prop where
  ring : t.ring = s.ring
  prod : t.prod = s.prod
  eng : t.eng = s.eng
  tt : t.tt = s.tt
  slots : t.slots = s.slots
  work : t.work = s.work
  chain : t.chain = s.chain
  trace : t.out.trace = s.out.trace
  wake : t.flags.calcWake = s.flags.calcWake
  begun : t.flags.begun = s.flags.begun
  pool : PoolShownAlike s.cfg s.layers t.layers

/-- The turns and the words at the command port are no part of it. -/
theorem HostKeeps.of_setEnv {s t : State} {e : Env} (h : HostKeeps (s.setEnv e) t) : HostKeeps s t :=
  ⟨h.ring, h.prod, h.eng, h.tt, h.slots, h.work, h.chain, h.trace, h.wake, h.begun, h.pool⟩

theorem HostKeeps.of_takeTurn {s t : State} (h : HostKeeps (takeTurn s) t) : HostKeeps s t := by
  obtain ⟨e, he, -⟩ := takeTurn_frame s
  rw [he] at h
  exact h.of_setEnv

theorem HostKeeps.refl (s : State) : HostKeeps s s :=
  ⟨rfl, rfl, rfl, rfl, rfl, rfl, rfl, rfl, rfl, rfl, .refl _ _⟩

/-- A host operation that writes controls, flags other than `calcWake` and `begun`, host registers or responses. -/
theorem HostKeeps.registers {s t : State}
    (h : t = { s with
      ctl := t.ctl
      flags := { t.flags with calcWake := s.flags.calcWake, begun := s.flags.begun }
      host := t.host
      out := { t.out with trace := s.out.trace } }) : HostKeeps s t := by
  rw [h]
  exact ⟨rfl, rfl, rfl, rfl, rfl, rfl, rfl, rfl, rfl, rfl, .refl _ _⟩

/-- A host operation that writes the record of one layer and the host registers. -/
theorem HostKeeps.put {s : State} {l : Nat} {a b : Layer} (hlay : s.layers[l]? = some a)
    (h : ShownAlike s.cfg a b) (r : HostRegs) : HostKeeps s ((s.putLayer l b).setHost r) :=
  ⟨rfl, rfl, rfl, rfl, rfl, rfl, rfl, rfl, rfl, rfl, .put hlay h⟩

/-- DRAWPIXEL inside the local rectangle stores outside the refresh buffer (R332, R239). -/
theorem drawTarget_ne {c : Config} {lay : Layer} (hbuilt : lay.Built) (hready : lay.Ready c) {x y y' x' : Nat}
    (hx : x < lay.localWidth) (hy : y < lay.localHeight) (hy' : y' < c.height) (hx' : x' < c.width) :
    bufferIndex c lay.refreshBuffer y' x' ≠ drawTarget c lay x y := by
  have hwidth : lay.localWidth = (c.localSize lay.rotation).1 := congrArg Prod.fst hready.size
  have hheight : lay.localHeight = (c.localSize lay.rotation).2 := congrArg Prod.snd hready.size
  obtain ⟨hcolumn, hrow⟩ := hardwarePos_lt c lay.rotation x y (hwidth ▸ hx) (hheight ▸ hy)
  exact bufferIndex_ne c hbuilt.distinct.symm hy' hx' hrow hcolumn

/-- An operation on a layer of the pool, whose record it may read. -/
theorem Ensures.withPoolLayer {P : State → Prop} {l : Nat} {s : State} {k : Layer → Res}
    (h : ∀ lay, s.layers[l]? = some lay → Ensures (k lay) P) : Ensures (Machine.withLayer l s k) P := fun t e => by
  obtain ⟨lay, hlay, ht⟩ := (withLayer_eq_next l s k t).mp e
  exact h lay hlay t ht

/-- An operation on an attached layer of the pool that has buffers (R335). -/
theorem Ensures.withAttachedLayer {P : State → Prop} {l : Nat} {s : State} {k : Layer → Res}
    (h : ∀ lay, s.layers[l]? = some lay → lay.attached = true → Ensures (k lay) P) :
    Ensures (Machine.withDrawable l s k) P :=
  .withPoolLayer fun lay hlay => by
    split
    next hdrawable =>
      rw [Bool.and_eq_true] at hdrawable
      exact h lay hlay hdrawable.1
    next => exact .fault _

/-- DRAWPIXEL (R332). -/
theorem execDrawPixel_hostKeeps {s : State} (h : Inv s) (l : BitVec 4) (x y : BitVec 10) :
    Ensures (execDrawPixel l x y s) (HostKeeps s) := by
  refine .whenReady (.withOperands (.withAttachedLayer fun lay hlay hatt => ?_))
  have hmem := List.mem_of_getElem? hlay
  split
  next hin =>
    have hshown : ShownAlike s.cfg lay { lay with
        content := drawElement s.cfg s.host (drawTarget s.cfg lay x.toNat y.toNat) lay.content } :=
      .withContent fun _ _ hrow hcolumn => sample_drawElement s.cfg s.host <|
        drawTarget_ne (h.mem.built lay hmem) (h.mem.ready lay hmem hatt) hin.1 hin.2 hrow hcolumn
    exact .next (.put hlay hshown s.host)
  next => exact .next (.refl s)

/-- After BEGIN every host command: BEGIN and ADDLAYER break their contracts, SWAPBUFFERS only begins to wait, DRAWPIXEL
stores outside the refresh buffer, and the others write no layer. -/
theorem command_hostKeeps {s : State} (h : Inv s) (hbegun : s.flags.begun = true) {i : Instr}
    (hc : TakesCommand s i) : Ensures (exec i s) (HostKeeps s) := by
  cases i with
  | beginBlock =>
    rw [exec_beginBlock_begun hc.ready hbegun]
    exact .fault _
  | addLayer l =>
    rw [exec_addLayer_begun hc.ready (of_decide_eq_true hc.wellFormed) hbegun]
    exact .fault _
  | swapBuffers copy l => exact .whenReady (.withOperands (.withDrawable fun _ => .next (.registers rfl)))
  | drawPixel l x y => exact execDrawPixel_hostKeeps h l x y
  | setRefreshRate v => exact .whenReady (.ite (.fault _) (.next (.registers rfl)))
  | setBrightness v => exact .whenReady (.next (.registers rfl))
  | setRotation v => exact .whenReady (.next (.registers rfl))
  | setCcMode v => exact .whenReady (.next (.registers rfl))
  | getRefreshRate => exact .whenReady (.next (.registers rfl))
  | getUnderrun => exact .whenReady (.next (.registers rfl))
  | getLowered => exact .whenReady (.next (.registers rfl))
  | setColor ch v => exact .whenReady (.next (.registers rfl))
  | setIndex v => exact .whenReady (.next (.registers rfl))
  | _ => cases hc.command

/-- The phases of SWAPBUFFERS: the request raises `swapPending` alone, and the copy goes into the draw buffer (R330). -/
theorem hostPhase_hostKeeps {s : State} (h : Inv s) : Ensures (hostPhase s) (HostKeeps s) := by
  unfold hostPhase
  split
  next => exact .next (.refl s)
  next l copy _ =>
    refine .withPoolLayer fun lay hlay => .ite (.next (.refl s)) (.next ?_)
    have hshown : ShownAlike s.cfg lay { lay with swapPending := true } :=
      ⟨rfl, rfl, rfl, rfl, rfl, rfl, rfl, fun _ _ _ _ => rfl⟩
    exact .put hlay hshown _
  next l _ =>
    refine .withPoolLayer fun lay hlay => .ite (.next (.refl s)) ?_
    have hdistinct := (h.mem.built lay (List.mem_of_getElem? hlay)).distinct
    unfold swapCopy
    split
    next content hcopy =>
      exact .next (.put hlay (.withContent fun _ _ hrow hcolumn =>
        sample_copyContent hcopy hdistinct.symm hrow hcolumn) _)
    next => exact .fault _

/-- After BEGIN a turn of the host, at a word of the command port or in a phase of SWAPBUFFERS, keeps all of it. -/
theorem step_hostKeeps {s : State} (h : Inv s) (hbegun : s.flags.begun = true) (hagent : nextAgent s = .host) :
    Ensures (step s) (HostKeeps s) := by
  suffices hkeeps : Ensures (step s) (HostKeeps (takeTurn s)) from fun t ht => (hkeeps t ht).of_takeTurn
  have hturn : Inv (takeTurn s) := h.takeTurn
  by_cases hready : s.host.hostState = .ready
  · cases hcommands : s.env.commands with
    | nil =>
      have hpass := hostTurn_no_word (s := takeTurn s) (by simpa using hready) (by simpa using hcommands)
      rw [step_of_turn_pass h.bench hagent hpass]
      exact .next (.refl _)
    | cons w rest =>
      cases hport : decodePort s.cfg w with
      | none =>
        have hillegal := hostTurn_illegal (takeTurn s) w rest (by simpa using hready) (by simpa using hcommands)
          (by simpa using hport)
        rw [step_illegal s w (by rw [choose_turn s h.bench, hagent]; exact hillegal)]
        exact .refused _
      | some i =>
        obtain ⟨hdecode, hwf⟩ := (decodePort_eq_some s.cfg w i).mp hport
        have hc : TakesCommand (takeTurn s) i :=
          ⟨by simpa using hready, decodeCommand_isCommand w i hdecode, by simpa using hwf⟩
        rw [step_host_command h.bench hagent hready hcommands hport]
        exact fun t ht => (command_hostKeeps (hturn.setCommands rest) (by simpa using hbegun)
          (hc.setCommands rest) t ht).of_setEnv
  · rw [step_host_phase s h.bench hagent hready]
    exact hostPhase_hostKeeps hturn

/-- Settles O53: what the host's turn keeps, spelled out. -/
theorem hostReachesNeitherEngineNorProducer : Obligations.HostReachesNeitherEngineNorProducer := by
  intro s t h hbegun hagent hstep
  have hkeeps := step_hostKeeps h hbegun hagent t hstep
  refine ⟨hkeeps.ring, hkeeps.prod, hkeeps.eng, hkeeps.tt, hkeeps.slots, hkeeps.work, hkeeps.chain, hkeeps.trace,
    hkeeps.wake, hkeeps.begun.trans hbegun, hkeeps.pool.length, fun l a ha => ?_⟩
  obtain ⟨b, hb, hshown⟩ := hkeeps.pool.each l a ha
  exact ⟨b, hb, hshown.attached, hshown.next, hshown.rotation, hshown.rate, hshown.draw, hshown.refresh,
    hshown.previous, hshown.samples⟩

end Sys2Proof.Machine
end

section
/-! The state that construction gives (10_state.md R56, 70_reset_and_hazards.md R390) meets the invariant (R57). -/

namespace Sys2Proof.Machine

/-- The buffer indices of a layer at reset are legal, its memory is empty and its palette is its entry's. -/
theorem Layer.reset_built {c : Config} {e : LayerEntry} (h : LegalEntry c e) : (Layer.reset e).Built := by
  obtain ⟨variant, count, shifts⟩ := e
  obtain ⟨hcount : count = 2 ∨ count = 3, hvariant⟩ := h
  have hpalette : (Layer.reset ⟨variant, count, shifts⟩).content.paletteFits := by
    cases variant with
    | background => trivial
    | indexed n palette =>
      obtain ⟨-, hbits, hlength, -⟩ := hvariant
      exact ⟨hbits, hlength⟩
    | monoGfx colour => trivial
    | scrollingText colour launch => trivial
  have hmemory : (Layer.reset ⟨variant, count, shifts⟩).content.wf = true := by cases variant <;> rfl
  refine ⟨hcount, hpalette, hmemory, ?_, ?_, Nat.one_ne_zero, fun _ => ?_⟩
  · show 0 < count
    omega
  · show 1 < count
    omega
  · show 2 < 3 ∧ 2 ≠ 0 ∧ 2 ≠ 1
    decide

/-- The colours of a layer at reset are its entry's. -/
theorem Layer.reset_fits {c : Config} {e : LayerEntry} (h : LegalEntry c e) : (Layer.reset e).content.Fits c := by
  obtain ⟨-, hvariant⟩ := h
  obtain ⟨variant, count, shifts⟩ := e
  cases variant with
  | background => exact Store.All.nil
  | indexed n palette =>
    obtain ⟨-, -, -, hpalette⟩ := hvariant
    exact ⟨hpalette, Store.All.nil⟩
  | monoGfx colour => exact hvariant
  | scrollingText colour launch => exact hvariant.1

/-- A layer of the reset state is the reset of an entry of the pool. -/
theorem exists_entry_of_mem_resetOf {c : Config} {pool : List LayerEntry} {lay : Layer}
    (h : lay ∈ (State.resetOf c pool).layers) : ∃ e ∈ pool, lay = Layer.reset e := by
  rw [resetOf_layers, List.mem_map] at h
  obtain ⟨e, he, rfl⟩ := h
  exact ⟨e, he, rfl⟩

theorem resetOf_not_attached {c : Config} {pool : List LayerEntry} :
    ∀ lay ∈ (State.resetOf c pool).layers, lay.attached = false := by
  intro lay h
  obtain ⟨e, -, rfl⟩ := exists_entry_of_mem_resetOf h
  rfl

/-- The chain of the reset state is empty. -/
theorem resetOf_chainOk (c : Config) (pool : List LayerEntry) : ChainOk (State.resetOf c pool) [] where
  linked := rfl
  once := List.nodup_nil
  attached := fun l => by
    refine ⟨fun h => (nomatch h), ?_⟩
    rintro ⟨lay, hlay, hatt⟩
    exact nomatch (resetOf_not_attached lay (List.mem_of_getElem? hlay)).symm.trans hatt
  tail := rfl
  count := rfl
  shifts := rfl

/-- `RefreshRateReset` is a supported rate (R17). -/
theorem resetRate_supported {c : Config} (h : c.valid = true) :
    c.minRefreshRate ≤ c.refreshRateReset.toNat ∧ c.refreshRateReset.toNat ≤ c.maxRefreshRate := by
  have := (Config.valid_iff c).mp h
  omega

/-- The registers at reset: the rate is in range and every position is 0, below capacity and scan modulus. -/
theorem resetOf_regInv {c : Config} (pool : List LayerEntry) (hvalid : c.valid = true) :
    RegInv (State.resetOf c pool) := by
  have hcapacity := (Config.valid.capacity hvalid).1
  obtain ⟨hmin, hmax⟩ := resetRate_supported hvalid
  exact
    { valid := hvalid
      minRate := hmin
      maxRate := hmax
      count := Nat.zero_le _
      start := hcapacity
      row := (Config.valid.scan hvalid).1
      slot := hcapacity
      stopped := ⟨fun _ => rfl, fun _ => rfl⟩
      source := ⟨fun h => (nomatch h), fun h => (nomatch h)⟩
      shifting := fun h => nomatch h
      underrun := fun h => nomatch h
      atRest := fun _ => ⟨rfl, rfl, rfl⟩
      running := fun h => nomatch h
      wake := fun h => nomatch h }

/-- The memories at reset: nothing is written, and no layer is attached that would have to be readable. -/
theorem resetOf_memInv {c : Config} {pool : List LayerEntry} (h : IsInstance c pool) :
    MemInv (State.resetOf c pool) := by
  obtain ⟨-, hlength, hentries⟩ := h
  exact
    { pool := by rw [resetOf_layers, List.length_map]; exact hlength
      built := fun lay hlay => by
        obtain ⟨e, he, rfl⟩ := exists_entry_of_mem_resetOf hlay
        exact Layer.reset_built (hentries e he)
      ready := fun lay hlay hatt => nomatch (resetOf_not_attached lay hlay).symm.trans hatt
      chain := ⟨[], resetOf_chainOk c pool⟩
      table := fun h => nomatch h
      ttWf := rfl
      slotsWf := rfl
      workWf := rfl
      swap := fun _ _ h => nomatch h
      copy := fun _ h => nomatch h }

theorem resetOf_depthInv {c : Config} {pool : List LayerEntry} (h : IsInstance c pool) :
    DepthInv (State.resetOf c pool) where
  layers := fun lay hlay => by
    obtain ⟨e, he, rfl⟩ := exists_entry_of_mem_resetOf hlay
    obtain ⟨-, -, hentries⟩ := h
    exact Layer.reset_fits (hentries e he)
  work := Store.All.nil

/-- At reset no row has been queued or shown. -/
theorem resetOf_rowOrder (c : Config) (pool : List LayerEntry) : RowOrder (State.resetOf c pool) 0 where
  queued := fun _ hk => absurd hk (Nat.not_lt_zero _)
  next := (Nat.zero_mod _).symm
  shown := (Nat.zero_mul _).symm
  order := fun _ _ h => nomatch h
  fresh := fun _ => rfl

/-- Whatever passes the check of construction is reset to a state that meets the invariant. -/
theorem resetOf_inv {c : Config} {pool : List LayerEntry} (h : c.validInstance pool = true) :
    Inv (State.resetOf c pool) := by
  have hlegal := (validInstance_iff_isInstance c pool).mp h
  exact
    { regs := resetOf_regInv pool ((valid_iff_legalParameters c).mpr hlegal.1)
      mem := resetOf_memInv hlegal
      depth := resetOf_depthInv hlegal
      rows := ⟨0, resetOf_rowOrder c pool⟩
      bench := rfl }

/-- Settles O58: RC-A passes the check of construction, and construction answers nothing but the reset state of what
passes it. -/
theorem resetMeetsTheInvariant : Obligations.ResetMeetsTheInvariant := by
  refine ⟨resetOf_inv (by decide), fun c pool s hconstruct => ?_⟩
  cases hvalid : c.validInstance pool with
  | true =>
    rw [construct_of_validInstance hvalid] at hconstruct
    cases hconstruct
    exact resetOf_inv hvalid
  | false =>
    rw [construct_of_not_validInstance hvalid] at hconstruct
    cases hconstruct

end Sys2Proof.Machine
end
